-- ==== Sys2Proof/Word.lean ====
section
/-! DEFINITION. The words of the HL-2404: bytes, stamps, tick counts, line maps, and the numbers that name
ports (and their sessions), board lines and pulse timers. -/

namespace Sys2Proof

/-- A byte as it is shifted at a port or stored in a profile image. -/
abbrev Byte := BitVec 8

/-- A stamp: the low 16 bits of the tick count (R145). -/
abbrev Stamp := BitVec 16

/-- The 32-bit tick count (R145). -/
abbrev TickCount := BitVec 32

/-- A 24-bit line map: bit k stands for line Lk (00_scope.md 1.5). -/
abbrev LineMap := BitVec 24

/-- A port P0 to P3; the session attached through it carries the same number (00_scope.md 1.5). -/
abbrev Port := Fin 4

/-- A board line L0 to L23 (R1). -/
abbrev Line := Fin 24

/-- A pulse timer 0 to 3 (R61). -/
abbrev TimerId := Fin 4

/-- The four ports in ascending order. -/
def allPorts : List Port := [0, 1, 2, 3]

/-- The 24 lines in ascending order. -/
def allLines : List Line :=
  [0, 1, 2, 3, 4, 5, 6, 7, 8, 9, 10, 11, 12, 13, 14, 15, 16, 17, 18, 19, 20, 21, 22, 23]

/-- The four pulse timers in ascending order (R62: the lowest-numbered FREE timer is taken). -/
def allTimers : List TimerId := [0, 1, 2, 3]

end Sys2Proof
end

