-- ==== Sys2Proof/Config.lean ====
section
/-! DEFINITION. What the part fixes once (depths and budgets), and the values the manual leaves open: constants
without a body, which no proof can evaluate. -/

namespace Sys2Proof.Config

/-- The claim budget of a session (R26 step 7, R47). -/
def claimBudget : Nat := 16

/-- The number of entries a staged set holds (R73). -/
def stageDepth : Nat := 8

/-- The number of records an event queue holds (R103). -/
def queueDepth : Nat := 32

/-- Saturation of the dropped count (R112). -/
def droppedMax : Nat := 255

/-- Saturation of the fold count of a NOTICE (R109). -/
def foldMax : Nat := 15

/-- Largest payload length of a request frame (R173). -/
def maxPayload : Nat := 32

/-- The format tag of a profile image (R152, Table 9-2 step 1). -/
def formatTag : Byte := 0x3C#8

/-- Largest generation a profile image may carry (R153 step 2, R166 step 3). -/
def maxGeneration : Nat := 65534

/-- FREE VALUE. What a byte holds whose write a device reset interrupted (R169 gives no value). The argument numbers
the occurrence. Log entry 13. -/
opaque tornByte : Nat → Byte

/-- FREE VALUE. What the tag byte holds when a device reset interrupts the tag write. R169 limits it: the reader of
this constant replaces the tag 3CH, which such a slot never holds. Log entry 13. -/
opaque tornTag : Nat → Byte

/-- FREE VALUE. What the part shifts out after the status byte of a transaction whose kind byte names no kind: R170 says
FFH for a request frame and a status poll alone. The arguments number the occurrence and the byte. Log entry 23. -/
opaque unnamedByte : Nat → Nat → Byte

end Sys2Proof.Config
end

