-- ==== Sys2Proof/Syntax.lean ====
section
/-! DEFINITION. The commands of the HL-2404: one constructor per row of spec/opcode_table.json, with the operands that
the outside gives with it. -/

namespace Sys2Proof

/-- Which part of a chip-select transaction a transaction command is (R170, R171, R185). The falling edge and the rest
may be given as two commands, with other events between them; log entry 10. -/
inductive Span where
  /-- The whole transaction: falling edge, clocks and rising edge with no other event between them. -/
  | whole
  /-- The falling edge of Pk_CS_n alone: the status byte is formed. -/
  | fall
  /-- The rest of a transaction whose falling edge came earlier, up to the rising edge. -/
  | rest
  deriving DecidableEq, Repr

/-- What the master shifts in during a transaction: the whole bytes, and the clocks after the last whole byte. -/
structure Wire where
  bytes : List Byte
  spare : Fin 8
  deriving DecidableEq, Repr

/-- The fields of a request frame (Table 10-3) without its kind, length and CRC bytes. -/
structure RequestFrame where
  code : Byte
  tag : Byte
  payload : List Byte
  deriving DecidableEq, Repr

/-- The requests of Table 10-10. -/
inductive Request where
  | attach | detach | renew | querySelf | queryDevice | portReset
  | claim | release | cancel | queryLine
  | stage | unstage | commit | discard | pulse
  | sample | watch | fetchEvents
  | openEdit | writeImage | readImage | burnImage | closeEdit
  deriving DecidableEq, Repr

/-- The four blocks a tick reaches (R144). -/
inductive TickOwner where
  | sessionTable | lineTable | pulsePool | inputMonitor
  deriving DecidableEq, Repr

/-- Which part of a tick a TICK command is (R144, R146, R148); log entry 6. -/
inductive TickEvent where
  /-- The tick is generated and the Session Table, the LOT and the Pulse Timer Pool take it at once; the Input Monitor
  takes it with INPUT_SAMPLING. -/
  | whole
  /-- The tick generator produces the tick; no owner has taken it yet. -/
  | generated
  /-- One owner takes a tick that was generated earlier. -/
  | reaches (owner : TickOwner)
  deriving DecidableEq, Repr

/-- Which taken request of a port completes (R176). -/
inductive Completing where
  /-- The request in the request slot. -/
  | current
  /-- An overtaken request, by its place in the list of overtaken requests, the oldest at place 0 (R180). -/
  | overtaken (place : Nat)
  deriving DecidableEq, Repr

/-- The phase a burn in flight has reached when a device reset abandons it (R167, R169), and how far that phase came. -/
inductive Torn where
  /-- During the erase: the bytes whose bit is set are erased, the others still hold their old value. -/
  | erasing (erased : BitVec 128)
  /-- During the write of bytes 1 to 127: the bytes whose bit is set are written and took the values of `body`, counted
  from offset 0, which may differ from the buffer (R167 phase 3); `cut` is the byte whose write the reset interrupted, if
  it interrupted one. -/
  | writing (written : BitVec 128) (cut : Option (Fin 128)) (body : List Byte)
  /-- During the read-back of bytes 1 to 127, which took the values of `body`. -/
  | readingBack (body : List Byte)
  /-- During the write of the format tag: the read-back had found bytes 1 to 127 equal to the buffer. -/
  | tagging
  deriving DecidableEq, Repr

/-- The commands. The requests carry their port, tag and payload bytes as Table 10-7 lays them out. -/
inductive Instr where
  -- resets and start-up
  | powerOnReset (torn : Torn)
  | brownOutReset (torn : Torn)
  | rstNReset (torn : Torn)
  | endOfReset (maint : Bool)
  | endOfStartUp (levels : LineMap)
  -- time
  | tick (event : TickEvent)
  | inputSampling (levels : LineMap)
  | leaseExpiry (p : Port)
  | waitExpiry (l : Line) (p : Port)
  | pulseExpiry (t : TimerId)
  -- completions
  | burnCompletion (readBack : List Byte)
  | requestCompletion (p : Port) (which : Completing)
  -- the link
  | statusPoll (p : Port) (clocks : Nat) (span : Span)
  | readResponse (p : Port) (clocks : Nat) (span : Span)
  | frameError (p : Port) (wire : Wire) (span : Span)
  | busyDrop (p : Port) (code tag : Byte) (payload : List Byte) (span : Span)
  | startingTransaction (p : Port) (wire : Wire) (span : Span)
  | unknown (p : Port) (code tag : Byte) (payload : List Byte) (span : Span)
  -- requests of the Session Table and the Port Interface
  | attach (p : Port) (tag : Byte) (payload : List Byte) (span : Span)
  | detach (p : Port) (tag : Byte) (payload : List Byte) (span : Span)
  | renew (p : Port) (tag : Byte) (payload : List Byte) (span : Span)
  | querySelf (p : Port) (tag : Byte) (payload : List Byte) (span : Span)
  | queryDevice (p : Port) (tag : Byte) (payload : List Byte) (span : Span)
  | portReset (p : Port) (tag : Byte) (payload : List Byte) (span : Span)
  -- requests of the LOT
  | claim (p : Port) (tag : Byte) (payload : List Byte) (span : Span)
  | release (p : Port) (tag : Byte) (payload : List Byte) (span : Span)
  | cancel (p : Port) (tag : Byte) (payload : List Byte) (span : Span)
  | queryLine (p : Port) (tag : Byte) (payload : List Byte) (span : Span)
  -- requests of the Stage Sets and the Pulse Timer Pool
  | stage (p : Port) (tag : Byte) (payload : List Byte) (span : Span)
  | unstage (p : Port) (tag : Byte) (payload : List Byte) (span : Span)
  | discard (p : Port) (tag : Byte) (payload : List Byte) (span : Span)
  | commit (p : Port) (tag : Byte) (payload : List Byte) (span : Span)
  | pulse (p : Port) (tag : Byte) (payload : List Byte) (span : Span)
  -- requests of the Input Monitor and the Event Queues
  | sample (p : Port) (tag : Byte) (payload : List Byte) (span : Span)
  | watch (p : Port) (tag : Byte) (payload : List Byte) (span : Span)
  | fetchEvents (p : Port) (tag : Byte) (payload : List Byte) (span : Span)
  -- requests of the Profile Store
  | openEdit (p : Port) (tag : Byte) (payload : List Byte) (span : Span)
  | writeImage (p : Port) (tag : Byte) (payload : List Byte) (span : Span)
  | readImage (p : Port) (tag : Byte) (payload : List Byte) (span : Span)
  | burnImage (p : Port) (tag : Byte) (payload : List Byte) (span : Span)
  | closeEdit (p : Port) (tag : Byte) (payload : List Byte) (span : Span)
  deriving DecidableEq, Repr

end Sys2Proof
end

