-- ==== Sys2Proof/Decode.lean ====
section
/-! DEFINITION. What the Port Interface reads from the bytes of a transaction: the CRC-8 of R183, the request codes of
Table 10-10, and the request frame of R173 with its encoder. No row of spec/opcode_table.json gives bits, so
`decodeTableWord` answers none for every word. -/

namespace Sys2Proof

/-- One bit of the CRC-8 with polynomial 07H, MSB first, no reflection (R183). -/
def crc8Shift (c : Byte) : Byte := if c.msb then (c <<< 1) ^^^ 0x07#8 else c <<< 1

/-- One byte of the CRC-8 (R183). -/
def crc8Byte (c b : Byte) : Byte := Nat.repeat crc8Shift 8 (c ^^^ b)

/-- The CRC-8 of a list of bytes: initial value 00H, no final exclusive-or (R183). -/
def crc8 (bytes : List Byte) : Byte := bytes.foldl crc8Byte 0x00#8

/-- The request code of each request (Table 10-10). -/
def requestCode : Request → Byte
  | .attach => 0x01#8
  | .detach => 0x02#8
  | .renew => 0x03#8
  | .querySelf => 0x04#8
  | .queryDevice => 0x05#8
  | .portReset => 0x7E#8
  | .claim => 0x10#8
  | .release => 0x11#8
  | .cancel => 0x12#8
  | .queryLine => 0x13#8
  | .stage => 0x20#8
  | .unstage => 0x21#8
  | .commit => 0x22#8
  | .discard => 0x23#8
  | .pulse => 0x24#8
  | .sample => 0x30#8
  | .watch => 0x31#8
  | .fetchEvents => 0x32#8
  | .openEdit => 0x40#8
  | .writeImage => 0x41#8
  | .readImage => 0x42#8
  | .burnImage => 0x43#8
  | .closeEdit => 0x44#8

/-- The requests in the order of Table 10-10. -/
def allRequests : List Request :=
  [.attach, .detach, .renew, .querySelf, .queryDevice, .portReset, .claim, .release, .cancel, .queryLine, .stage,
    .unstage, .commit, .discard, .pulse, .sample, .watch, .fetchEvents, .openEdit, .writeImage, .readImage, .burnImage,
    .closeEdit]

/-- The request a code names, or none: such a request is answered UNKNOWN (R175). -/
def requestOf (code : Byte) : Option Request := allRequests.find? fun r => requestCode r = code

/-- The kind of a transaction, decided at the eighth bit of its kind byte (R170). A transaction without a complete kind
byte is treated as a status poll (R170). -/
inductive Kind where
  | request | read | poll | unnamed
  deriving DecidableEq, Repr

/-- The kind of the transaction in which these whole bytes were shifted in (R170). -/
def kindOf : List Byte → Kind
  | [] => .poll
  | k :: _ => if k = 0x5A#8 then .request else if k = 0xA5#8 then .read else if k = 0x00#8 then .poll else .unnamed

/-- The request frame that a transaction of kind 5AH carries, or none when it is malformed (R173): the length byte is at
most 32, exactly 5 + L bytes and no further clock came, and the CRC byte is the CRC-8 of code, tag, length and payload. -/
def parseFrame (w : Wire) : Option RequestFrame :=
  match w.bytes with
  | kind :: code :: tag :: len :: rest =>
    if kind = 0x5A#8 ∧ len.toNat ≤ Config.maxPayload ∧ rest.length = len.toNat + 1 ∧ w.spare = 0 ∧
        rest.getLast? = some (crc8 (code :: tag :: len :: rest.dropLast)) then
      some ⟨code, tag, rest.dropLast⟩
    else none
  | _ => none

/-- A request frame on the wire (Table 10-3). -/
def encodeFrame (f : RequestFrame) : Wire :=
  let covered := f.code :: f.tag :: BitVec.ofNat 8 f.payload.length :: f.payload
  ⟨0x5A#8 :: (covered ++ [crc8 covered]), 0⟩

/-- The command a table word spells: no row of spec/opcode_table.json gives bits, so no word spells one. -/
def decodeTableWord (_nbits _w : Nat) : Option Instr := none

end Sys2Proof
end

