-- ==== Sys2Proof/Machine/State.lean ====
section
/-! DEFINITION. The state of the HL-2404 as plain data, block by block, and its value at reset. INVENTORY.md lists every
field with the rule that names it. -/

namespace Sys2Proof.Machine

/-! ### Enumerated values (Table 10-2) -/

/-- Claim modes (R14). -/
inductive ClaimMode where
  | holdInput | drivePP | driveOD | share
  deriving DecidableEq, Repr

/-- Line classes (Table 1-10). -/
inductive LineClass where
  | input | pushPull | openDrain | sharedOpenDrain
  deriving DecidableEq, Repr

/-- Safe states of a line (Table 3-2). -/
inductive SafeState where
  | input | driveLow | driveHigh | odLow | odReleased
  deriving DecidableEq, Repr

/-- Pad bias (R51). -/
inductive Bias where
  | none | up | down
  deriving DecidableEq, Repr

/-- Grades of a session (R128). -/
inductive Grade where
  | observer | standard | priority
  deriving DecidableEq, Repr

/-- End reasons of a session (R126). -/
inductive EndReason where
  | detached | lapsed | portReset | powerOn | pinReset | brownout
  deriving DecidableEq, Repr

/-- Watch settings of a session for one line (R95). -/
inductive WatchSetting where
  | none | rise | fall | both
  deriving DecidableEq, Repr

/-- Device states (Table 9-4). -/
inductive DeviceState where
  | starting | operating | faulted | maintenance
  deriving DecidableEq, Repr

/-- Kinds of device reset (R155). -/
inductive ResetKind where
  | powerOn | brownOut | rstN
  deriving DecidableEq, Repr

/-- Tick periods (Table 8-1). -/
inductive TickPeriod where
  | us50 | us100 | us250 | us1000
  deriving DecidableEq, Repr

/-- The two profile slots (R152). -/
inductive SlotId where
  | a | b
  deriving DecidableEq, Repr

/-- Result codes (Table 10-11). -/
inductive Result where
  | ok | granted | queued
  | noSession | lapsed | grade | notPermitted | mode | already | budget | held | notHeld | notWaiting | notForcible
  | range | badArg | stageFull | stale | noTimer | busy | disabled | profileFault | maintenance | notMaintenance
  | editHeld | notEditor | invalidImage | genExhausted | burnFailed | unknown
  deriving DecidableEq, Repr

/-! ### Countdowns (chapter 8) -/

/-- A running countdown (R147). `remaining` is what the part reports, 1 to N. `due` says that the tick event which ends
the countdown is under way at its owner and the expiry is still to be made in it (log entry 7). -/
structure Countdown where
  remaining : Nat
  due : Bool
  deriving DecidableEq, Repr

/-- Ticks that were generated and that an owner has not yet taken (R146; log entry 6). -/
structure OwnerLag where
  sessionTable : Nat
  lineTable : Nat
  pulsePool : Nat
  inputMonitor : Nat
  deriving DecidableEq, Repr

/-! ### Line entries (chapter 1) -/

/-- The mode of a holder with its resting value, which HOLD_INPUT does not have (R3, R15). -/
inductive Drive where
  | holdInput
  | drivePP (resting : Bool)
  | driveOD (resting : Bool)
  deriving DecidableEq, Repr

/-- A holder record (R3). -/
structure Holder where
  session : Port
  drive : Drive
  stay : Bool
  grantStamp : Stamp
  pulse : Option TimerId
  deriving DecidableEq, Repr

/-- A sharer record (R4). -/
structure Sharer where
  session : Port
  vote : Bool
  stay : Bool
  grantStamp : Stamp
  pulse : Option TimerId
  deriving DecidableEq, Repr

/-- A claim mode with the initial value it carries (R5): three exclusive modes and SHARE (R14). -/
inductive Want where
  | exclusive (drive : Drive)
  | share (vote : Bool)
  deriving DecidableEq, Repr

/-- A wait entry (R5). -/
structure WaitEntry where
  session : Port
  want : Want
  stay : Bool
  countdown : Option Countdown
  queuedStamp : Stamp
  deriving DecidableEq, Repr

/-- The owners of a line and with them its state: UNOWNED, HELD by its holder, or SHARED by its sharers in join order
(R2, Table 1-6). -/
inductive Owners where
  | unowned
  | held (holder : Holder)
  | shared (sharers : List Sharer)
  deriving DecidableEq, Repr

/-- A line entry (Table 1-6). -/
structure LineEntry where
  owners : Owners
  queue : List WaitEntry
  confirmed : Bool
  deriving DecidableEq, Repr

/-! ### Pads and pulse timers (chapter 3) -/

/-- Pad mode and level (R51). -/
inductive PadDrive where
  | input
  | pushPull (high : Bool)
  | openDrain (released : Bool)
  deriving DecidableEq, Repr

/-- A pad setting (R51). -/
structure PadSetting where
  drive : PadDrive
  bias : Bias
  deriving DecidableEq, Repr

/-- A RUNNING pulse timer (R61). -/
structure PulseTimer where
  line : Line
  session : Port
  value : Bool
  countdown : Countdown
  deriving DecidableEq, Repr

/-! ### Staged sets (chapter 4) -/

/-- An entry of a staged set (R73). -/
structure StagedValue where
  line : Line
  value : Bool
  deriving DecidableEq, Repr

/-! ### Input Monitor (chapter 5) -/

/-- Candidate level and stability count of a line (R87). -/
structure LineFilter where
  candidate : Option Bool
  count : Nat
  deriving DecidableEq, Repr

/-! ### Event queues (chapter 6) -/

/-- A CHANGE record (R104). -/
structure ChangeRecord where
  line : Line
  level : Bool
  stamp : Stamp
  deriving DecidableEq, Repr

/-- The outcome of a NOTICE; its reason and pulse-cut flag go with it as Table 6-1 allows them. -/
inductive NoticeOutcome where
  | granted
  | revoked (pulseCut : Bool)
  | claimDropped
  | pulseEnded
  deriving DecidableEq, Repr

/-- A NOTICE record (R105). -/
structure NoticeRecord where
  line : Line
  outcome : NoticeOutcome
  folds : Nat
  stamp : Stamp
  deriving DecidableEq, Repr

/-- An event record (R103). -/
inductive Record where
  | change (c : ChangeRecord)
  | notice (n : NoticeRecord)
  deriving DecidableEq, Repr

/-- An event queue: its records, oldest first, and its dropped count (R103). -/
structure EventQueue where
  records : List Record
  dropped : Nat
  deriving DecidableEq, Repr

/-! ### Sessions (chapter 7) -/

/-- What a session has while it is ATTACHED (Table 7-1). -/
structure Attached where
  grade : Grade
  leaseLength : Nat
  lease : Countdown
  deriving DecidableEq, Repr

/-- Session states (R124). -/
inductive SessionState where
  | detached
  | attached (a : Attached)
  | lapsed
  deriving DecidableEq, Repr

/-- The parts of a session context that the Session Table owns (R123). -/
structure Session where
  state : SessionState
  epoch : Byte
  endReason : EndReason
  deriving DecidableEq, Repr

/-! ### Profile Store (chapter 9) -/

/-- A 128-byte profile image (R152): the cells that differ from 00H, offsets strictly rising. An unlisted offset reads
00H, the reset contents of the image buffer (R160). -/
abbrev Image := List Host.Cell

/-- The recorded status of a slot (R154). -/
inductive SlotStatus where
  | blank
  | valid (generation : BitVec 16)
  | invalid
  deriving DecidableEq, Repr

/-- The edit lock (R160). -/
inductive EditLock where
  | free
  | held (p : Port)
  | releasing
  deriving DecidableEq, Repr

/-- A burn in flight (R166): its target, the generation it writes and the port whose BURN IMAGE started it. -/
structure Burning where
  target : SlotId
  generation : BitVec 16
  port : Port
  deriving DecidableEq, Repr

/-- The last burn result (R159, R167). -/
inductive LastBurn where
  | none
  | ok (target : SlotId) (generation : BitVec 16)
  | failed (target : SlotId) (generation : BitVec 16)
  deriving DecidableEq, Repr

/-! ### Port Interfaces (chapter 10) -/

/-- Result and payload of a response (R176). -/
structure Reply where
  result : Result
  payload : List Byte
  deriving DecidableEq, Repr

/-- A taken request: what the request slot holds (R172), and the reply its service formed, which the completion event
places (R176); none while the burn it started is in flight. -/
structure Executing where
  code : Byte
  tag : Byte
  payload : List Byte
  reply : Option Reply
  deriving DecidableEq, Repr

/-- A formed response in the response slot (R172). -/
structure Response where
  tag : Byte
  code : Byte
  reply : Reply
  deriving DecidableEq, Repr

/-- The port state with its slots: both empty in IDLE, the request slot in EXECUTING, the response slot in
RESPONSE_READY (R172). -/
inductive PortState where
  | idle
  | executing (e : Executing)
  | ready (r : Response)
  deriving DecidableEq, Repr

/-- A transaction whose falling edge has come: the status byte formed there (R171), and whether the device state was
STARTING at that edge (R185). -/
structure OpenTransaction where
  status : Byte
  starting : Bool
  deriving DecidableEq, Repr

/-- The pin Pk_SDO: high-impedance, or driven by the part (R170). -/
inductive SdoPin where
  | highImpedance
  | driven
  deriving DecidableEq, Repr

/-- The state of one Port Interface (R172); the pin Pk_SDO follows from it (`sdoPin`). `sdo` is what Pk_SDO shifted out in the latest transaction that ended. -/
structure PortInterface where
  state : PortState
  busyDrop : Bool
  frameError : Bool
  overtaken : List Executing
  transaction : Option OpenTransaction
  sdo : List Bool
  deriving DecidableEq, Repr

/-! ### The whole part -/

/-- Why a step stops with a fault: the manual names nothing that stops the part, so there is no reason, and no command
ends in a fault. -/
inductive Fault where
  deriving DecidableEq, Repr

/-- Why a command has no meaning. -/
inductive Refusal where
  /-- Raised by `exec` for a command that has no meaning yet. Safe: the run stops there. No command is left so. -/
  | notModelled (mnemonic : String)
  deriving DecidableEq, Repr

/-- The state of the HL-2404. -/
structure State where
  /-- The commands that wait, the next one first. -/
  pending : List Instr
  /-- The device reset that lasts, if one does, by the kind of the last reset to begin (R155, R186). -/
  resetting : Option ResetKind
  device : DeviceState
  /-- The level of MAINT sampled at the end of reset (R155). -/
  maint : Bool
  tickCount : TickCount
  tickPeriod : TickPeriod
  lag : OwnerLag
  lines : Vector LineEntry 24
  pads : Vector PadSetting 24
  timers : Vector (Option PulseTimer) 4
  staged : Vector (List StagedValue) 4
  filters : Vector LineFilter 24
  watches : Vector (Vector WatchSetting 24) 4
  queues : Vector EventQueue 4
  /-- The attention outputs: true while Pk_ATTN_n is driven low (R120). -/
  attn : Vector Bool 4
  sessions : Vector Session 4
  slotA : Image
  slotB : Image
  /-- Recorded statuses; none while not yet classified (Table 9-5). -/
  recordA : Option SlotStatus
  recordB : Option SlotStatus
  activeSlot : Option SlotId
  active : Option Image
  buffer : Image
  lock : EditLock
  burn : Option Burning
  lastBurn : LastBurn
  ports : Vector PortInterface 4
  /-- Numbers the free values (Config.tornByte, Config.tornTag, Config.unnamedByte). -/
  freeCount : Nat
  deriving DecidableEq, Repr

/-- The end reason a device reset writes (R126, R142). -/
def endReasonOfReset : ResetKind → EndReason
  | .powerOn => .powerOn
  | .brownOut => .brownout
  | .rstN => .pinReset

/-- A line entry after reset (R24, R94). -/
def resetEntry : LineEntry := ⟨.unowned, [], false⟩

/-- The fallback state of a pad: INPUT with no bias (R60). -/
def fallbackPad : PadSetting := ⟨.input, .none⟩

/-- An empty event queue (R119). -/
def emptyQueue : EventQueue := ⟨[], 0⟩

/-- A filter without a candidate (R94). -/
def restingFilter : LineFilter := ⟨none, 0⟩

/-- The watch settings of a session that watches nothing (R95). -/
def noWatches : Vector WatchSetting 24 := Vector.replicate 24 .none

/-- A Port Interface after reset (R172). -/
def resetPort : PortInterface := ⟨.idle, false, false, [], none, []⟩

/-- The part held in a device reset of this kind (R24, R60, R61, R74, R102, R119, R142, R150, R172, Table 9-5), with the
stored bytes of the slots and the commands that wait, which a reset does not touch. -/
def heldInReset (kind : ResetKind) (slotA slotB : Image) (pending : List Instr) (freeCount : Nat) : State where
  pending := pending
  resetting := some kind
  device := .starting
  maint := false
  tickCount := 0
  tickPeriod := .us1000
  lag := ⟨0, 0, 0, 0⟩
  lines := Vector.replicate 24 resetEntry
  pads := Vector.replicate 24 fallbackPad
  timers := Vector.replicate 4 none
  staged := Vector.replicate 4 []
  filters := Vector.replicate 24 restingFilter
  watches := Vector.replicate 4 noWatches
  queues := Vector.replicate 4 emptyQueue
  attn := Vector.replicate 4 false
  sessions := Vector.replicate 4 ⟨.detached, 0, endReasonOfReset kind⟩
  slotA := slotA
  slotB := slotB
  recordA := none
  recordB := none
  activeSlot := none
  active := none
  buffer := []
  lock := .free
  burn := none
  lastBurn := .none
  ports := Vector.replicate 4 resetPort
  freeCount := freeCount

/-- An erased slot: all 128 bytes FFH (R154, R167). -/
def erasedImage : Image := (List.range 128).map fun k => (k, 0xFF#8)

/-- The part right after the supply is applied: held in a power-on reset (log entry 1), with both slots as delivered
(log entry 2). -/
def State.reset : State := heldInReset .powerOn erasedImage erasedImage [] 0

end Sys2Proof.Machine
end

