-- ==== Sys2Proof/Machine/Operands.lean ====
section
/-! DEFINITION. The operand forms: the codes of enumerated fields (Table 10-2, Table 10-11), the request payloads
(Table 10-7), the event records (Table 10-6) and the response on the wire (Table 10-4). -/

namespace Sys2Proof.Machine

/-! ### Quantities on the wire (R182) -/

/-- The one-byte value that marks a field absent (R182). -/
def absentByte : Byte := 0xFF#8

/-- A two-byte quantity, high byte first. -/
def wordBytes (w : BitVec 16) : List Byte := [w.extractLsb' 8 8, w.extractLsb' 0 8]

/-- A 24-bit line map: L23 to L16 first, L7 to L0 last. -/
def mapBytes (m : LineMap) : List Byte := [m.extractLsb' 16 8, m.extractLsb' 8 8, m.extractLsb' 0 8]

/-- A 24-bit line map from its three bytes. -/
def mapOfBytes (b2 b1 b0 : Byte) : LineMap := b2 ++ b1 ++ b0

/-- A count as one byte. -/
def countByte (n : Nat) : Byte := BitVec.ofNat 8 n

/-- A drive value or a level as one byte: 0 or 1. -/
def valueByte (v : Bool) : Byte := if v then 1 else 0

/-- A drive value that may be absent. -/
def optionalValueByte : Option Bool → Byte
  | some v => valueByte v
  | none => absentByte

/-- A flag byte whose bit 0 and bit 1 carry these flags; its other bits are 0 (R182). -/
def flagsByte (bit0 bit1 : Bool) : Byte := (if bit0 then 1#8 else 0) ||| (if bit1 then 2#8 else 0)

/-- The 24-bit map of the lines that satisfy a condition. -/
def lineMapOf (f : Line → Bool) : LineMap :=
  allLines.foldl (fun m l => if f l then m ||| (1#24 <<< l.val) else m) 0

/-- The line a line number names, or none for 24 and above (R1). -/
def lineOfByte (b : Byte) : Option Line := if h : b.toNat < 24 then some ⟨b.toNat, h⟩ else none

/-- The drive value a value byte names, or none. -/
def valueOfByte (b : Byte) : Option Bool := if b = 0 then some false else if b = 1 then some true else none

/-! ### Codes (Table 10-2) -/

def claimModeByte : ClaimMode → Byte
  | .holdInput => 0
  | .drivePP => 1
  | .driveOD => 2
  | .share => 3

def claimModeOfByte (b : Byte) : Option ClaimMode :=
  if b = 0 then some .holdInput else if b = 1 then some .drivePP else if b = 2 then some .driveOD
  else if b = 3 then some .share else none

def gradeByte : Grade → Byte
  | .observer => 0
  | .standard => 1
  | .priority => 2

def gradeOfByte (b : Byte) : Option Grade :=
  if b = 0 then some .observer else if b = 1 then some .standard else if b = 2 then some .priority else none

def endReasonByte : EndReason → Byte
  | .detached => 1
  | .lapsed => 2
  | .portReset => 3
  | .powerOn => 4
  | .pinReset => 5
  | .brownout => 6

def sessionStateByte : SessionState → Byte
  | .detached => 0
  | .attached _ => 1
  | .lapsed => 2

def lineStateByte : Owners → Byte
  | .unowned => 0
  | .held _ => 1
  | .shared _ => 2

def deviceStateCode : DeviceState → BitVec 2
  | .starting => 0
  | .operating => 1
  | .faulted => 2
  | .maintenance => 3

def watchOfByte (b : Byte) : Option WatchSetting :=
  if b = 0 then some .none else if b = 1 then some .rise else if b = 2 then some .fall
  else if b = 3 then some .both else none

/-- The code of a recorded status; one that is not yet classified cannot be asked for and would read INVALID (log entry
17). -/
def slotStatusByte : Option SlotStatus → Byte
  | some .blank => 0
  | some (.valid _) => 1
  | some .invalid => 2
  | none => 2

def slotByte : SlotId → Byte
  | .a => 0
  | .b => 1

def optionalSlotByte : Option SlotId → Byte
  | some x => slotByte x
  | none => absentByte

def lockByte : EditLock → Byte
  | .free => 0x80#8
  | .held p => BitVec.ofNat 8 p.val
  | .releasing => 0x81#8

def burnByte : Option Burning → Byte
  | none => 0
  | some b => match b.target with
    | .a => 1
    | .b => 2

def resultByte : Result → Byte
  | .ok => 0x00#8
  | .granted => 0x01#8
  | .queued => 0x02#8
  | .noSession => 0x80#8
  | .lapsed => 0x81#8
  | .grade => 0x82#8
  | .notPermitted => 0x83#8
  | .mode => 0x84#8
  | .already => 0x85#8
  | .budget => 0x86#8
  | .held => 0x87#8
  | .notHeld => 0x88#8
  | .notWaiting => 0x89#8
  | .notForcible => 0x8A#8
  | .range => 0x8B#8
  | .badArg => 0x8C#8
  | .stageFull => 0x8D#8
  | .stale => 0x8E#8
  | .noTimer => 0x8F#8
  | .busy => 0x90#8
  | .disabled => 0x91#8
  | .profileFault => 0x92#8
  | .maintenance => 0x93#8
  | .notMaintenance => 0x94#8
  | .editHeld => 0x95#8
  | .notEditor => 0x96#8
  | .invalidImage => 0x97#8
  | .genExhausted => 0x98#8
  | .burnFailed => 0x99#8
  | .unknown => 0x9A#8

/-! ### Request payloads (Table 10-7): none for a length the layout does not have (R175) -/

/-- The arguments of ATTACH (R129). -/
structure AttachArgs where
  grade : Byte
  lease : BitVec 16
  deriving DecidableEq, Repr

def attachArgs : List Byte → Option AttachArgs
  | [g, hi, lo] => some ⟨g, hi ++ lo⟩
  | _ => none

/-- The arguments of CLAIM (R25); the other flag bits are ignored. -/
structure ClaimArgs where
  line : Byte
  mode : Byte
  value : Byte
  noWait : Bool
  force : Bool
  stay : Bool
  limit : BitVec 16
  deriving DecidableEq, Repr

def claimArgs : List Byte → Option ClaimArgs
  | [l, m, v, f, hi, lo] => some ⟨l, m, v, f.getLsbD 0, f.getLsbD 1, f.getLsbD 2, hi ++ lo⟩
  | _ => none

/-- The arguments of PULSE (R64). -/
structure PulseArgs where
  line : Byte
  value : Byte
  duration : BitVec 16
  deriving DecidableEq, Repr

def pulseArgs : List Byte → Option PulseArgs
  | [l, v, hi, lo] => some ⟨l, v, hi ++ lo⟩
  | _ => none

/-- The arguments of WATCH (R96). -/
structure WatchArgs where
  mask : LineMap
  edge : Byte
  deriving DecidableEq, Repr

def watchArgs : List Byte → Option WatchArgs
  | [b2, b1, b0, e] => some ⟨mapOfBytes b2 b1 b0, e⟩
  | _ => none

/-- The arguments of READ IMAGE (R164). -/
structure ReadArgs where
  source : Byte
  offset : Nat
  count : Nat
  deriving DecidableEq, Repr

def readArgs : List Byte → Option ReadArgs
  | [s, o, c] => some ⟨s, o.toNat, c.toNat⟩
  | _ => none

/-! ### Claim modes and their values -/

/-- The mode of a claim or of a wait entry. -/
def modeOfWant : Want → ClaimMode
  | .exclusive .holdInput => .holdInput
  | .exclusive (.drivePP _) => .drivePP
  | .exclusive (.driveOD _) => .driveOD
  | .share _ => .share

/-- The value that goes with it; HOLD_INPUT has none (R5). -/
def valueOfWant : Want → Option Bool
  | .exclusive .holdInput => none
  | .exclusive (.drivePP v) => some v
  | .exclusive (.driveOD v) => some v
  | .share v => some v

/-- The role a claim of this mode and initial value asks for; HOLD_INPUT does not look at the value (R9). -/
def wantOf (m : ClaimMode) (v : Bool) : Want :=
  match m with
  | .holdInput => .exclusive .holdInput
  | .drivePP => .exclusive (.drivePP v)
  | .driveOD => .exclusive (.driveOD v)
  | .share => .share v

/-- Whether a claim mode is allowed on a line class (Table 1-11). -/
def modeAllowed : LineClass → ClaimMode → Bool
  | _, .holdInput => true
  | .pushPull, .drivePP => true
  | _, .drivePP => false
  | .input, .driveOD => false
  | _, .driveOD => true
  | .sharedOpenDrain, .share => true
  | _, .share => false

/-! ### Event records (Table 10-6) and responses (Table 10-4) -/

def outcomeCode : NoticeOutcome → Byte
  | .granted => 0
  | .revoked _ => 1
  | .claimDropped => 2
  | .pulseEnded => 3

/-- The reason that goes with an outcome (Table 6-1), coded as Table 10-6 says. -/
def reasonCode : NoticeOutcome → Byte
  | .granted => 0
  | .revoked _ => 1
  | .claimDropped => 2
  | .pulseEnded => 0

/-- The pulse-cut flag, which can be set only with REVOKED (R105). -/
def pulseCutFlag : NoticeOutcome → Bool
  | .revoked cut => cut
  | _ => false

/-- An event record as FETCH EVENTS returns it: 6 bytes. -/
def recordBytes : Record → List Byte
  | .change c => [BitVec.ofNat 8 c.line.val, valueByte c.level, 0] ++ wordBytes c.stamp ++ [0]
  | .notice n =>
    [0x80#8 ||| BitVec.ofNat 8 n.line.val,
      outcomeCode n.outcome ||| (reasonCode n.outcome <<< 2) ||| (if pulseCutFlag n.outcome then 0x10#8 else 0),
      countByte n.folds] ++ wordBytes n.stamp ++ [0]

/-- A response as a read shifts it out after the status byte: tag, code, result, length, payload and CRC-8 (R177). -/
def responseBytes (r : Response) : List Byte :=
  let covered := r.tag :: r.code :: resultByte r.reply.result :: countByte r.reply.payload.length :: r.reply.payload
  covered ++ [crc8 covered]

/-- The empty frame (R178). -/
def emptyFrame : List Byte := [0x00#8, 0x00#8, resultByte .ok, 0x00#8, 0x00#8]

/-- A reply without contents. -/
def bare (r : Result) : Reply := ⟨r, []⟩

end Sys2Proof.Machine
end

