-- ==== Sys2Proof/Machine/Image.lean ====
section
/-! DEFINITION. The addressed storage: reading and writing the bytes of a profile image (R152). -/

namespace Sys2Proof.Machine

/-- The number of bytes of a profile image (R152). -/
def imageSize : Nat := 128

/-- The byte at an offset; an unlisted offset reads 00H (R160). -/
def imageRead : Image → Nat → Byte
  | [], _ => 0
  | (k, v) :: rest, offset => if k = offset then v else imageRead rest offset

/-- Put a byte into the rising list of cells; writing 00H leaves no cell. -/
def cellInsert : Image → Nat → Byte → Image
  | [], offset, b => if b = 0 then [] else [(offset, b)]
  | (k, v) :: rest, offset, b =>
    if offset < k then (if b = 0 then (k, v) :: rest else (offset, b) :: (k, v) :: rest)
    else if offset = k then (if b = 0 then rest else (offset, b) :: rest)
    else (k, v) :: cellInsert rest offset b

/-- Write one byte; an offset beyond the image is no byte of it. -/
def imageWrite (img : Image) (offset : Nat) (b : Byte) : Image :=
  if offset < imageSize then cellInsert img offset b else img

/-- Write bytes from an offset upward (R163). -/
def imageWriteBytes (img : Image) : Nat → List Byte → Image
  | _, [] => img
  | offset, b :: rest => imageWriteBytes (imageWrite img offset b) (offset + 1) rest

/-- The `count` bytes from an offset upward (R164). -/
def imageBytes (img : Image) (offset count : Nat) : List Byte :=
  (List.range count).map fun k => imageRead img (offset + k)

/-- The image whose byte at each offset is given by `f`. -/
def imageOf (f : Nat → Byte) : Image := imageWriteBytes [] 0 ((List.range imageSize).map f)

/-- A two-byte quantity of an image, high byte first (00_scope.md 1.5). -/
def imageWord (img : Image) (offset : Nat) : BitVec 16 := imageRead img offset ++ imageRead img (offset + 1)

/-- The canonical form from an offset on: offsets strictly rising and below 128, no cell that holds 00H. -/
def imageWfFrom : Nat → Image → Bool
  | _, [] => true
  | low, (k, v) :: rest => low ≤ k && k < imageSize && v ≠ 0 && imageWfFrom (k + 1) rest

/-- The canonical form of an image. -/
def imageWf (img : Image) : Bool := imageWfFrom 0 img

end Sys2Proof.Machine
end

