-- ==== Sys2Proof/Machine/Profile.lean ====
section
/-! DEFINITION. The fields of a profile image (Table 9-1, Table 10-12), its CRC-16, its validity (Table 9-2), the status
of a slot (R154) and the choice of the active slot (Table 9-3). -/

namespace Sys2Proof.Machine

/-! ### Fields -/

/-- Byte `k` of the record of a line (Table 9-1: line records from offset 16, four bytes each). -/
def lineRecordByte (img : Image) (l : Line) (k : Nat) : Byte := imageRead img (16 + 4 * l.val + k)

/-- The class of a line (Table 10-12, byte 0 bits 2 to 1). -/
def classOfCode (code : BitVec 2) : LineClass :=
  if code = 0 then .input else if code = 1 then .pushPull else if code = 2 then .openDrain else .sharedOpenDrain

def profileClass (img : Image) (l : Line) : LineClass :=
  classOfCode ((lineRecordByte img l 0).extractLsb' 1 2)

/-- Safe state codes (Table 10-12); 5 to 7 name none. -/
def safeStateOfCode (code : BitVec 3) : Option SafeState :=
  if code = 0 then some .input
  else if code = 1 then some .driveLow
  else if code = 2 then some .driveHigh
  else if code = 3 then some .odLow
  else if code = 4 then some .odReleased
  else none

/-- The safe state of a line (Table 10-12, byte 0 bits 6 to 4). -/
def profileSafeState (img : Image) (l : Line) : Option SafeState :=
  safeStateOfCode ((lineRecordByte img l 0).extractLsb' 4 3)

/-- Bias codes: bit 0 pull-up, bit 1 pull-down; both set is invalid (Table 10-12). -/
def biasOfBits (up down : Bool) : Option Bias :=
  match up, down with
  | false, false => some .none
  | true, false => some .up
  | false, true => some .down
  | true, true => none

/-- The bias of a line (Table 10-12, byte 0 bits 0 and 3). -/
def profileBias (img : Image) (l : Line) : Option Bias :=
  biasOfBits ((lineRecordByte img l 0).getLsbD 0) ((lineRecordByte img l 0).getLsbD 3)

/-- The forcible mark of a line (Table 10-12, byte 0 bit 7). -/
def profileForcible (img : Image) (l : Line) : Bool := (lineRecordByte img l 0).getLsbD 7

/-- Whether a port is in the permitted-port mask of a line (Table 10-12, byte 1 bits 3 to 0). -/
def profilePermits (img : Image) (l : Line) (p : Port) : Bool := (lineRecordByte img l 1).getLsbD p.val

/-- The filter length of a line (Table 10-12, byte 1 bits 7 to 4). -/
def profileFilter (img : Image) (l : Line) : Nat := ((lineRecordByte img l 1).extractLsb' 4 4).toNat

/-- The generation (Table 9-1). -/
def profileGeneration (img : Image) : BitVec 16 := imageWord img 1

/-- The tick period code (Table 9-1). -/
def profileTickCode (img : Image) : Byte := imageRead img 3

/-- The lease floor (Table 9-1). -/
def profileLeaseFloor (img : Image) : Nat := (imageWord img 4).toNat

/-- The lease ceiling (Table 9-1). -/
def profileLeaseCeiling (img : Image) : Nat := (imageWord img 6).toNat

/-- The maximum grade code of a port: bits 2k + 1 to 2k of byte 8 (section 10.6). -/
def profileGradeCode (img : Image) (p : Port) : Nat := ((imageRead img 8).extractLsb' (2 * p.val) 2).toNat

/-- The enable of a port: bit k of byte 9 (section 10.6). -/
def profileEnabled (img : Image) (p : Port) : Bool := (imageRead img 9).getLsbD p.val

/-- The tick period of a code (Table 8-1). -/
def tickPeriodOfCode (code : Byte) : TickPeriod :=
  if code = 0 then .us50 else if code = 1 then .us100 else if code = 2 then .us250 else .us1000

/-! ### CRC-16 (R153) -/

/-- One bit of the CRC-16 with polynomial 1021H, MSB first, no reflection. -/
def crc16Shift (c : BitVec 16) : BitVec 16 := if c.msb then (c <<< 1) ^^^ 0x1021#16 else c <<< 1

/-- One byte of the CRC-16. -/
def crc16Byte (c : BitVec 16) (b : Byte) : BitVec 16 := Nat.repeat crc16Shift 8 (c ^^^ (b ++ 0x00#8))

/-- The CRC-16 of a list of bytes: initial value FFFFH, no final exclusive-or. -/
def crc16 (bytes : List Byte) : BitVec 16 := bytes.foldl crc16Byte 0xFFFF#16

/-- The CRC-16 of bytes 0 to 125 of an image. -/
def imageCrc (img : Image) : BitVec 16 := crc16 (imageBytes img 0 126)

/-! ### Validity (Table 9-2) -/

/-- The safe states a class allows (Table 1-10). -/
def safeStateAllowed : LineClass → SafeState → Bool
  | .input, s => s = .input
  | .pushPull, _ => true
  | .openDrain, s => s = .input || s = .odLow || s = .odReleased
  | .sharedOpenDrain, s => s = .input || s = .odLow || s = .odReleased

/-- Step 9 of Table 9-2 for one line: the record is consistent. -/
def lineRecordConsistent (img : Image) (l : Line) : Bool :=
  (match profileSafeState img l with
    | some safe => safeStateAllowed (profileClass img l) safe
    | none => false) &&
  !(profileClass img l = .pushPull && 20 ≤ l.val) &&
  (profileBias img l).isSome &&
  lineRecordByte img l 2 = 0 && lineRecordByte img l 3 = 0

/-- The reserved bytes 10 to 15 and 112 to 125 (Table 9-1). -/
def reservedOffsets : List Nat :=
  [10, 11, 12, 13, 14, 15, 112, 113, 114, 115, 116, 117, 118, 119, 120, 121, 122, 123, 124, 125]

/-- The offset Table 9-2 reports for the first failing condition, or none when the image is valid (R153). -/
def offendingOffset (img : Image) : Option Nat :=
  if imageRead img 0 ≠ Config.formatTag then some 0
  else if profileGeneration img = 0 ∨ Config.maxGeneration < (profileGeneration img).toNat then some 1
  else if 3 < (profileTickCode img).toNat then some 3
  else if profileLeaseFloor img < 10 then some 4
  else if profileLeaseCeiling img < profileLeaseFloor img then some 6
  else if allPorts.any (fun p => profileGradeCode img p = 3) then some 8
  else if (imageRead img 9).extractLsb' 4 4 ≠ 0 then some 9
  else match reservedOffsets.find? (fun k => imageRead img k ≠ 0) with
    | some k => some k
    | none => match allLines.find? (fun l => !lineRecordConsistent img l) with
      | some l => some (16 + 4 * l.val)
      | none => if imageWord img 126 ≠ imageCrc img then some 126 else none

/-- A valid profile image (R153). -/
def profileValid (img : Image) : Bool := (offendingOffset img).isNone

/-! ### Slots (R154, R156) -/

/-- The status of a slot from its stored bytes (R154). -/
def slotStatusOf (img : Image) : SlotStatus :=
  if (imageBytes img 0 imageSize).all (fun b => b = 0xFF#8) then .blank
  else if profileValid img then .valid (profileGeneration img)
  else .invalid

/-- The active slot (Table 9-3). -/
def chooseSlot : SlotStatus → SlotStatus → Option SlotId
  | .valid a, .valid b => if b.toNat ≤ a.toNat then some .a else some .b
  | .valid _, _ => some .a
  | _, .valid _ => some .b
  | _, _ => none

/-- The generation of a recorded status that is VALID (R154). -/
def recordedGeneration : Option SlotStatus → Nat
  | some (.valid g) => g.toNat
  | _ => 0

end Sys2Proof.Machine
end

