-- ==== Sys2Proof/Machine/Ops.lean ====
section
/-! DEFINITION. The shared operations: access to the parts of the state, countdowns and stamps, event queues, drive
resolution, the operations of the LOT on one entry, leases and teardown. -/

namespace Sys2Proof.Machine

/-! ### Access to the parts of the state -/

def State.line (s : State) (l : Line) : LineEntry := s.lines[l]

def State.setLine (s : State) (l : Line) (e : LineEntry) : State := { s with lines := s.lines.set l e }

/-- Every line entry anew, in one operation. -/
def State.setLines (s : State) (f : Line → LineEntry) : State := { s with lines := Vector.ofFn f }

def State.timer (s : State) (t : TimerId) : Option PulseTimer := s.timers[t]

def State.setTimer (s : State) (t : TimerId) (x : Option PulseTimer) : State := { s with timers := s.timers.set t x }

/-- Every timer anew, in one operation. -/
def State.setTimers (s : State) (f : TimerId → Option PulseTimer) : State := { s with timers := Vector.ofFn f }

def State.stagedSet (s : State) (p : Port) : List StagedValue := s.staged[p]

def State.setStaged (s : State) (p : Port) (x : List StagedValue) : State := { s with staged := s.staged.set p x }

def State.watch (s : State) (p : Port) : Vector WatchSetting 24 := s.watches[p]

def State.setWatch (s : State) (p : Port) (x : Vector WatchSetting 24) : State :=
  { s with watches := s.watches.set p x }

def State.session (s : State) (p : Port) : Session := s.sessions[p]

def State.setSession (s : State) (p : Port) (x : Session) : State := { s with sessions := s.sessions.set p x }

/-- Every session context anew, in one operation. -/
def State.setSessions (s : State) (f : Port → Session) : State := { s with sessions := Vector.ofFn f }

def State.queue (s : State) (p : Port) : EventQueue := s.queues[p]

def State.port (s : State) (p : Port) : PortInterface := s.ports[p]

def State.pad (s : State) (l : Line) : PadSetting := s.pads[l]

/-- Every pad anew, in one pad update. -/
def State.setPads (s : State) (f : Line → PadSetting) : State := { s with pads := Vector.ofFn f }

/-- Whether the response slot is full (R172). -/
def slotFull : PortState → Bool
  | .ready _ => true
  | .idle => false
  | .executing _ => false

/-- Pk_ATTN_n is driven low while the session's queue is non-empty or the port's response slot is full (R120). -/
def attnLow (q : EventQueue) (port : PortInterface) : Bool := !q.records.isEmpty || slotFull port.state

/-- Change an event queue; the attention output follows in the same operation (R107, R120). -/
def State.putQueue (s : State) (p : Port) (q : EventQueue) : State :=
  { s with queues := s.queues.set p q, attn := s.attn.set p (attnLow q (s.port p)) }

/-- Change a Port Interface; the attention output follows in the same operation (R120). -/
def State.putPort (s : State) (p : Port) (x : PortInterface) : State :=
  { s with ports := s.ports.set p x, attn := s.attn.set p (attnLow (s.queue p) x) }

/-! ### Stamps and countdowns (chapter 8) -/

/-- The ticks generated that an owner has not yet taken (R146). -/
def lagOf (lag : OwnerLag) : TickOwner → Nat
  | .sessionTable => lag.sessionTable
  | .lineTable => lag.lineTable
  | .pulsePool => lag.pulsePool
  | .inputMonitor => lag.inputMonitor

/-- The stamp of an operation of the Timebase's own view: the low 16 bits of the tick count (R145). -/
def State.stamp (s : State) : Stamp := s.tickCount.setWidth 16

/-- The stamp of an operation of a tick owner: ticks it has not yet taken do not count (R145, R146). -/
def State.stampAt (s : State) (o : TickOwner) : Stamp := (s.tickCount - BitVec.ofNat 32 (lagOf s.lag o)).setWidth 16

/-- A countdown loaded with N (R147). -/
def countdownLoad (n : Nat) : Countdown := ⟨n, false⟩

/-- A tick event of the owner lowers the remaining ticks; the tick that would bring them to 0 makes the expiry due, which
is made before that tick event ends (R147, `finishOwner`). -/
def countdownTick (c : Countdown) : Countdown :=
  if c.remaining ≤ 1 then { c with due := true } else { c with remaining := c.remaining - 1 }

/-! ### Sessions -/

/-- The ATTACHED part of a session, if it is ATTACHED. -/
def State.attachedPart (s : State) (p : Port) : Option Attached :=
  match (s.session p).state with
  | .attached a => some a
  | .detached => none
  | .lapsed => none

/-- The refusal of a request that needs an ATTACHED session (R125). -/
def sessionRefusal (s : State) (p : Port) : Option Result :=
  match (s.session p).state with
  | .attached _ => none
  | .detached => some .noSession
  | .lapsed => some .lapsed

/-- The grade of a session; absent when it is not ATTACHED (R128). -/
def State.gradeOf (s : State) (p : Port) : Option Grade := (s.attachedPart p).map Attached.grade

/-- The taking of a request of an ATTACHED session reloads its lease, whatever its remaining ticks were (R132, R147). -/
def restartLease (p : Port) (s : State) : State :=
  match (s.session p).state with
  | .attached a =>
    s.setSession p { s.session p with state := .attached { a with lease := countdownLoad a.leaseLength } }
  | .detached => s
  | .lapsed => s

/-! ### Event queues (R107 to R110) -/

/-- The dropped count rises by one and saturates (R112). -/
def raiseDropped (n : Nat) : Nat := if n < Config.droppedMax then n + 1 else n

/-- A CHANGE record offered to the queue of an ATTACHED session (R108). -/
def takeChange (c : ChangeRecord) (q : EventQueue) : EventQueue :=
  if q.records.length < Config.queueDepth then { q with records := q.records ++ [.change c] }
  else { q with dropped := raiseDropped q.dropped }

/-- Whether a record is a NOTICE for a line. -/
def isNoticeFor (l : Line) : Record → Bool
  | .notice n => n.line = l
  | .change _ => false

/-- Whether a record is a CHANGE record. -/
def isChange : Record → Bool
  | .change _ => true
  | .notice _ => false

/-- A later notice for the line of a stored NOTICE is folded into it (R109). -/
def foldNotice (l : Line) (o : NoticeOutcome) (now : Stamp) : Record → Record
  | .notice n =>
    if n.line = l then
      .notice { n with outcome := o, stamp := now, folds := if n.folds < Config.foldMax then n.folds + 1 else n.folds }
    else .notice n
  | .change c => .change c

/-- A NOTICE offered to the queue of an ATTACHED session: folded (R109), appended, or stored in the place of the oldest
CHANGE record (R110). -/
def takeNotice (l : Line) (o : NoticeOutcome) (now : Stamp) (q : EventQueue) : EventQueue :=
  if q.records.any (isNoticeFor l) then { q with records := q.records.map (foldNotice l o now) }
  else if q.records.length < Config.queueDepth then { q with records := q.records ++ [.notice ⟨l, o, 0, now⟩] }
  else { records := q.records.eraseP isChange ++ [.notice ⟨l, o, 0, now⟩], dropped := raiseDropped q.dropped }

/-- A record is offered to a session: only an ATTACHED session's queue takes it (R106). -/
def offer (p : Port) (take : EventQueue → EventQueue) (s : State) : State :=
  match (s.session p).state with
  | .attached _ => s.putQueue p (take (s.queue p))
  | .detached => s
  | .lapsed => s

/-- A NOTICE offered to a session. -/
structure Notice where
  session : Port
  line : Line
  outcome : NoticeOutcome
  deriving DecidableEq, Repr

/-- Offer a NOTICE with the stamp of the operation (R49). -/
def offerNotice (now : Stamp) (s : State) (n : Notice) : State :=
  offer n.session (takeNotice n.line n.outcome now) s

/-- Offer the NOTICE records of one operation, in order (R107). -/
def offerNotices (now : Stamp) (ns : List Notice) (s : State) : State := ns.foldl (offerNotice now) s

/-- The GRANTED notices of a line (R42 to R44). -/
def grantedNotices (l : Line) (granted : List Port) : List Notice := granted.map fun p => ⟨p, l, .granted⟩

/-! ### The attributes of a line (R13) -/

def State.lineClass (s : State) (l : Line) : Option LineClass := s.active.map fun img => profileClass img l

def State.permits (s : State) (l : Line) (p : Port) : Bool :=
  match s.active with
  | some img => profilePermits img l p
  | none => false

def State.forcible (s : State) (l : Line) : Bool :=
  match s.active with
  | some img => profileForcible img l
  | none => false

/-- The filter length of a line: 0 while no profile is active (R87). -/
def State.filterLength (s : State) (l : Line) : Nat :=
  match s.active with
  | some img => profileFilter img l
  | none => 0

/-! ### Drive resolution (chapter 3) -/

/-- The effective value of a record: the pulse value of the timer its pulse field names while that timer runs, its
resting value or vote otherwise (R54). -/
def State.effective (s : State) (resting : Bool) : Option TimerId → Bool
  | none => resting
  | some t => match s.timer t with
    | some running => running.value
    | none => resting

/-- The pad of a safe state (Table 3-2). -/
def padOfSafeState : SafeState → PadDrive
  | .input => .input
  | .driveLow => .pushPull false
  | .driveHigh => .pushPull true
  | .odLow => .openDrain false
  | .odReleased => .openDrain true

/-- The pad of an owned or unowned line while a profile is active (Table 3-1). An active profile is valid, so its safe
state codes name safe states (log entry 17). -/
def State.driveFor (s : State) (img : Image) (l : Line) : PadDrive :=
  match (s.line l).owners with
  | .unowned => match profileSafeState img l with
    | some safe => padOfSafeState safe
    | none => .input
  | .held h => match h.drive with
    | .holdInput => .input
    | .drivePP v => .pushPull (s.effective v h.pulse)
    | .driveOD v => .openDrain (s.effective v h.pulse)
  | .shared ss => .openDrain (ss.all fun r => s.effective r.vote r.pulse)

/-- The pad setting the Drive Resolver derives for a line (R52, Table 3-1). -/
def State.padFor (s : State) (l : Line) : PadSetting :=
  match s.active with
  | none => fallbackPad
  | some img => ⟨s.driveFor img l, (profileBias img l).getD .none⟩

/-- A pad update: the lines handed over take their derived settings together, the others keep theirs (R57). -/
def padUpdate (touched : Line → Bool) (s : State) : State :=
  s.setPads fun l => if touched l then s.padFor l else s.pad l

/-- The pulse timers that satisfy a condition become FREE (R61). -/
def freeTimers (cut : TimerId → Bool) (s : State) : State :=
  s.setTimers fun t => if cut t then none else s.timer t

/-- The lowest-numbered FREE timer (R62). -/
def State.lowestFreeTimer (s : State) : Option TimerId := allTimers.find? fun t => (s.timer t).isNone

/-! ### Records of a line entry -/

/-- A holder or sharer record seen alike (Table 1-9). -/
structure OwnerView where
  session : Port
  want : Want
  stay : Bool
  grantStamp : Stamp
  pulse : Option TimerId
  deriving DecidableEq, Repr

def holderView (h : Holder) : OwnerView := ⟨h.session, .exclusive h.drive, h.stay, h.grantStamp, h.pulse⟩

def sharerView (r : Sharer) : OwnerView := ⟨r.session, .share r.vote, r.stay, r.grantStamp, r.pulse⟩

/-- The owner records of a line in join order (R22). -/
def ownerViews : Owners → List OwnerView
  | .unowned => []
  | .held h => [holderView h]
  | .shared ss => ss.map sharerView

/-- The holder or sharer record of a session on a line. -/
def ownerOf (p : Port) (e : LineEntry) : Option OwnerView := (ownerViews e.owners).find? fun r => r.session = p

/-- The wait entry of a session on a line. -/
def waiterOf (p : Port) (e : LineEntry) : Option WaitEntry := e.queue.find? fun w => w.session = p

/-- The held map of a session, line by line (R20). -/
def State.holds (s : State) (p : Port) (l : Line) : Bool := (ownerOf p (s.line l)).isSome

/-- The waiting map of a session, line by line (R20). -/
def State.waits (s : State) (p : Port) (l : Line) : Bool := (waiterOf p (s.line l)).isSome

/-- The pulsing map of a session, line by line (R20). -/
def State.pulses (s : State) (p : Port) (l : Line) : Bool :=
  match ownerOf p (s.line l) with
  | some r => r.pulse.isSome
  | none => false

/-- The session has a role on the line (R7). -/
def State.hasRole (s : State) (p : Port) (l : Line) : Bool := s.holds p l || s.waits p l

/-- The claim count: the lines of the held map and of the waiting map together (R20, R47). -/
def State.claimCount (s : State) (p : Port) : Nat := allLines.countP (s.holds p) + allLines.countP (s.waits p)

/-- The effective value of an owner record; a HOLD_INPUT holder has none (R54). -/
def State.effectiveOf (s : State) (r : OwnerView) : Option Bool := (valueOfWant r.want).map fun v => s.effective v r.pulse

/-! ### Operations of the LOT on one entry (chapter 2) -/

/-- SHARED with these sharers, or UNOWNED when there are none (R2). -/
def ownersOfSharers : List Sharer → Owners
  | [] => .unowned
  | r :: rs => .shared (r :: rs)

/-- The record formed from a request or a wait entry (R9, R10). -/
def formOwners (p : Port) (want : Want) (stay : Bool) (now : Stamp) : Owners :=
  match want with
  | .exclusive d => .held ⟨p, d, stay, now, none⟩
  | .share v => .shared [⟨p, v, stay, now, none⟩]

/-- The sharer record formed from a SHARE entry (R10); an exclusive entry forms none. -/
def sharerOfWait (now : Stamp) (w : WaitEntry) : Option Sharer :=
  match w.want with
  | .share v => some ⟨w.session, v, w.stay, now, none⟩
  | .exclusive _ => none

/-- Whether a wait entry is a SHARE entry. -/
def isShareEntry (w : WaitEntry) : Bool :=
  match w.want with
  | .share _ => true
  | .exclusive _ => false

/-- An entry after an operation, and the sessions whose wait entries it granted, in queue order. -/
structure LineStep where
  entry : LineEntry
  granted : List Port
  deriving DecidableEq, Repr

/-- The SHARE entries at the head of the queue, up to the first exclusive entry, become sharers behind the ones there
are (R43, R44). -/
def joinShares (now : Stamp) (sharers : List Sharer) (e : LineEntry) : LineStep :=
  let joining := e.queue.takeWhile isShareEntry
  ⟨{ e with
      owners := ownersOfSharers (sharers ++ joining.filterMap (sharerOfWait now))
      queue := e.queue.dropWhile isShareEntry },
    joining.map WaitEntry.session⟩

/-- Succession on a line left without owners: to the exclusive entry at the head alone (R42), to the SHARE entries at
the head (R43), or to UNOWNED when the queue is empty (R41). -/
def succession (now : Stamp) (e : LineEntry) : LineStep :=
  match e.queue with
  | [] => ⟨{ e with owners := .unowned }, []⟩
  | w :: rest => match w.want with
    | .exclusive d => ⟨{ e with owners := .held ⟨w.session, d, w.stay, now, none⟩, queue := rest }, [w.session]⟩
    | .share _ => joinShares now [] e

/-- Head-join after the departure of a wait entry: on a SHARED line with a SHARE entry at the head (R44). -/
def headJoin (now : Stamp) (e : LineEntry) : LineStep :=
  match e.owners with
  | .shared ss => joinShares now ss e
  | .unowned => ⟨e, []⟩
  | .held _ => ⟨e, []⟩

/-- Delete the holder or sharer record of a session (R12); the others close up. -/
def dropOwner (p : Port) (e : LineEntry) : LineEntry :=
  match e.owners with
  | .unowned => e
  | .held h => if h.session = p then { e with owners := .unowned } else e
  | .shared ss => { e with owners := ownersOfSharers (ss.filter fun r => r.session ≠ p) }

/-- Delete the wait entry of a session (R12); the entries behind it close up. -/
def dropWaiter (p : Port) (e : LineEntry) : LineEntry := { e with queue := e.queue.filter fun w => w.session ≠ p }

/-- The line has no holder and no sharer. -/
def ownerless (e : LineEntry) : Bool :=
  match e.owners with
  | .unowned => true
  | .held _ => false
  | .shared _ => false

/-- Delete the owner record of a session, with succession when it was the holder or the last sharer (R36). -/
def releaseEntry (p : Port) (now : Stamp) (e : LineEntry) : LineStep :=
  if ownerless (dropOwner p e) then succession now (dropOwner p e) else ⟨dropOwner p e, []⟩

/-- Delete the wait entry of a session, with head-join when that leaves a SHARE entry at the head of a SHARED line (R37,
R38, R44). -/
def withdrawEntry (p : Port) (now : Stamp) (e : LineEntry) : LineStep := headJoin now (dropWaiter p e)

/-- What teardown of a session does to one line: its wait entry and its owner record go, then succession or head-join
(R46). A line without a role of the session is not touched. -/
def tearDownEntry (p : Port) (now : Stamp) (e : LineEntry) : LineStep :=
  if (ownerOf p e).isSome then releaseEntry p now (dropWaiter p e)
  else if (waiterOf p e).isSome then withdrawEntry p now e
  else ⟨e, []⟩

/-- Replace the resting value or vote of the record of a session (R81). -/
def setResting (p : Port) (v : Bool) (e : LineEntry) : LineEntry :=
  match e.owners with
  | .unowned => e
  | .held h =>
    if h.session = p then
      match h.drive with
      | .holdInput => e
      | .drivePP _ => { e with owners := .held { h with drive := .drivePP v } }
      | .driveOD _ => { e with owners := .held { h with drive := .driveOD v } }
    else e
  | .shared ss => { e with owners := .shared (ss.map fun r => if r.session = p then { r with vote := v } else r) }

/-- Set the pulse field of the record of a session (R65, R66). -/
def setPulse (p : Port) (t : Option TimerId) (e : LineEntry) : LineEntry :=
  match e.owners with
  | .unowned => e
  | .held h => if h.session = p then { e with owners := .held { h with pulse := t } } else e
  | .shared ss => { e with owners := .shared (ss.map fun r => if r.session = p then { r with pulse := t } else r) }

/-- The wait entry that replaces a preempted role with the stay flag (R11). -/
def requeued (now : Stamp) (r : OwnerView) : WaitEntry := ⟨r.session, r.want, r.stay, none, now⟩

/-- The entry after a preemption: the forcer is holder, the displaced owners with the stay flag stand at the head of the
queue in join order, the former queue follows (R31, R32). -/
def preemptEntry (p : Port) (want : Want) (stay : Bool) (now : Stamp) (e : LineEntry) : LineEntry :=
  { e with
    owners := formOwners p want stay now
    queue := ((ownerViews e.owners).filter OwnerView.stay).map (requeued now) ++ e.queue }

/-! ### Teardown (R137) -/

/-- The lines a teardown hands to the Drive Resolver: those the session owned, and those where its departure from the
queue caused head-join (Table 3-3). -/
def tearDownTouches (p : Port) (now : Stamp) (e : LineEntry) : Bool :=
  (ownerOf p e).isSome || !(tearDownEntry p now e).granted.isEmpty

/-- The GRANTED notices of a teardown in ascending line order (R46, R107). -/
def tearDownNotices (p : Port) (now : Stamp) (s : State) : List Notice :=
  allLines.flatMap fun l => grantedNotices l (tearDownEntry p now (s.line l)).granted

/-- Every line entry after the teardown of a session (R46). -/
def tearDownLines (p : Port) (now : Stamp) (s : State) : State :=
  s.setLines fun l => (tearDownEntry p now (s.line l)).entry

/-- Whether a timer runs for a session. -/
def timerOf (p : Port) (s : State) (t : TimerId) : Bool :=
  match s.timer t with
  | some r => r.session = p
  | none => false

/-- Teardown of an ATTACHED session, but for the change of its state, which belongs to the cause of the teardown: roles,
pulses, staged set, watch settings and event queue go, the freed lines pass on, one pad update, and the GRANTED notices
of the other sessions (R137). It is a Session Table operation and carries that block's stamp. -/
def teardown (p : Port) (s : State) : State :=
  let now := s.stampAt .sessionTable
  let freed := freeTimers (timerOf p s) (tearDownLines p now s)
  let cleared := ((freed.setStaged p []).setWatch p noWatches).putQueue p emptyQueue
  offerNotices now (tearDownNotices p now s)
    (padUpdate (fun l => tearDownTouches p now (s.line l)) cleared)

/-! ### What serving a request yields -/

/-- The state after the service of a request, and the reply it formed; none while the burn it started is in flight
(R176). -/
abbrev Served := State × Option Reply

/-- A request answered within its own service. -/
def answer (s : State) (result : Result) (payload : List Byte) : Served := (s, some ⟨result, payload⟩)

/-- A request refused with an empty payload, with nothing changed. -/
def refuse (s : State) (result : Result) : Served := (s, some (bare result))

end Sys2Proof.Machine
end

