-- ==== Sys2Proof/Machine/LineRequests.lean ====
section
/-! DEFINITION. What the LOT serves: CLAIM, RELEASE, CANCEL and QUERY LINE (chapters 1 and 2). -/

namespace Sys2Proof.Machine

/-! ### CLAIM -/

/-- Steps 5 to 9 of the checks of CLAIM, on a line the session may claim (Table 2-1). -/
def claimRoleVerdict (p : Port) (l : Line) (a : ClaimArgs) (s : State) : Except Result Want :=
  match claimModeOfByte a.mode, s.lineClass l with
  | some m, some c =>
    if !modeAllowed c m then .error .mode
    else if s.hasRole p l then .error .already
    else if Config.claimBudget ≤ s.claimCount p then .error .budget
    else if a.force && !s.forcible l then .error .notForcible
    else if a.force && m = .share then .error .badArg
    else match valueOfByte a.value with
      | some v => .ok (wantOf m v)
      | none => if m = .holdInput then .ok (.exclusive .holdInput) else .error .badArg
  | _, _ => .error .mode

/-- The checks of CLAIM in the order of Table 2-1; when they pass, the line and the role asked for (R26). -/
def claimVerdict (p : Port) (a : ClaimArgs) (s : State) : Except Result (Line × Want) :=
  match (s.session p).state with
  | .detached => .error .noSession
  | .lapsed => .error .lapsed
  | .attached x => match lineOfByte a.line with
    | none => .error .range
    | some l =>
      if x.grade = .observer || (a.force && x.grade ≠ .priority) then .error .grade
      else if !s.permits l p then .error .notPermitted
      else match claimRoleVerdict p l a s with
        | .error r => .error r
        | .ok want => .ok (l, want)

/-- The line passes into these owners, and its pad follows in one pad update (R27, R28). -/
def installOwners (l : Line) (owners : Owners) (s : State) : State :=
  padUpdate (fun k => k = l) (s.setLine l { s.line l with owners := owners })

/-- The response GRANTED (R33). -/
def claimGranted (l : Line) (displaced : Nat) (now : Stamp) (s : State) : Served :=
  answer s .granted ([countByte l.val, countByte displaced] ++ wordBytes now)

/-- Whether an owner of the line is a PRIORITY session (R30). -/
def priorityOwned (l : Line) (s : State) : Bool :=
  (ownerViews (s.line l).owners).any fun r => s.gradeOf r.session = some .priority

/-- The REVOKED notices of a preemption, with the pulse-cut flag of the owners whose pulse was cut (R31 step 2). -/
def revokedNotices (l : Line) (displaced : List OwnerView) : List Notice :=
  displaced.map fun r => ⟨r.session, l, .revoked r.pulse.isSome⟩

/-- A preemption (R31): pulses cut, the displaced owners requeued or dropped, the forcer holder, one pad update, and a
REVOKED notice to each displaced owner. -/
def preempt (p : Port) (l : Line) (want : Want) (stay : Bool) (s : State) : State :=
  let now := s.stampAt .lineTable
  let displaced := ownerViews (s.line l).owners
  let cut := freeTimers (fun t => displaced.any fun r => r.pulse = some t) s
  let taken := cut.setLine l (preemptEntry p want stay now (s.line l))
  offerNotices now (revokedNotices l displaced) (padUpdate (fun k => k = l) taken)

/-- The wait entry of a queued claim (R29). -/
def queuedEntry (p : Port) (want : Want) (a : ClaimArgs) (now : Stamp) : WaitEntry :=
  ⟨p, want, a.stay, if a.limit = 0 then none else some (countdownLoad a.limit.toNat), now⟩

/-- A claim that is not granted at once and does not preempt: HELD with the no-wait flag, queued otherwise (R29). -/
def queueClaim (p : Port) (l : Line) (want : Want) (a : ClaimArgs) (s : State) : Served :=
  if a.noWait then answer s .held [a.line]
  else
    let now := s.stampAt .lineTable
    let queue := (s.line l).queue ++ [queuedEntry p want a now]
    answer (s.setLine l { s.line l with queue := queue }) .queued
      ([countByte l.val, countByte queue.length] ++ wordBytes now)

/-- A claim on a line with an owner that it cannot join at once: a preemption when it is forced and no owner is
PRIORITY, otherwise as R29 states (R30). -/
def contendClaim (p : Port) (l : Line) (want : Want) (a : ClaimArgs) (s : State) : Served :=
  if a.force && !priorityOwned l s then
    claimGranted l (ownerViews (s.line l).owners).length (s.stampAt .lineTable) (preempt p l want a.stay s)
  else queueClaim p l want a s

/-- The outcome of a claim that passed its checks (R27 to R31). -/
def evaluateClaim (p : Port) (l : Line) (want : Want) (a : ClaimArgs) (s : State) : Served :=
  let now := s.stampAt .lineTable
  match (s.line l).owners with
  | .unowned => claimGranted l 0 now (installOwners l (formOwners p want a.stay now) s)
  | .held _ => contendClaim p l want a s
  | .shared ss => match want, (s.line l).queue with
    | .share v, [] => claimGranted l 0 now (installOwners l (.shared (ss ++ [⟨p, v, a.stay, now, none⟩])) s)
    | _, _ => contendClaim p l want a s

/-- CLAIM (R25, R26). Every refusal reports the line as requested (R33). -/
def serveClaim (p : Port) (payload : List Byte) (s : State) : Served :=
  match claimArgs payload with
  | none => refuse s .badArg
  | some a => match claimVerdict p a s with
    | .error r => answer s r [a.line]
    | .ok (l, want) => evaluateClaim p l want a s

/-! ### RELEASE and CANCEL -/

/-- Hand on a line after an operation of the LOT: the entry, one pad update when the operation makes one, and the
GRANTED notices (R19, R42 to R44). -/
def applyLineStep (l : Line) (step : LineStep) (now : Stamp) (handed : Bool) (s : State) : State :=
  offerNotices now (grantedNotices l step.granted)
    (padUpdate (fun k => handed && k = l) (s.setLine l step.entry))

/-- A RELEASE that passed its checks: the pulse is cut, the record deleted, succession follows when the line is left
without owners (R36). -/
def releaseLine (p : Port) (l : Line) (r : OwnerView) (s : State) : Served :=
  let now := s.stampAt .lineTable
  let step := releaseEntry p now (s.line l)
  answer (applyLineStep l step now true (freeTimers (fun t => r.pulse = some t) s)) .ok
    [countByte l.val, flagsByte r.pulse.isSome false, lineStateByte step.entry.owners, countByte step.granted.length]

/-- RELEASE (R35, R36). -/
def serveRelease (p : Port) (payload : List Byte) (s : State) : Served :=
  match payload with
  | [b] => match sessionRefusal s p with
    | some r => refuse s r
    | none => match lineOfByte b with
      | none => refuse s .range
      | some l => match ownerOf p (s.line l) with
        | none => refuse s .notHeld
        | some r => releaseLine p l r s
  | _ => refuse s .badArg

/-- A CANCEL that passed its checks: the entry is deleted, with head-join and its pad update when a SHARE entry stands
then at the head of a SHARED line (R37). -/
def cancelLine (p : Port) (l : Line) (s : State) : Served :=
  let now := s.stampAt .lineTable
  let step := withdrawEntry p now (s.line l)
  answer (applyLineStep l step now (!step.granted.isEmpty) s) .ok [countByte l.val, countByte step.granted.length]

/-- CANCEL (R37). -/
def serveCancel (p : Port) (payload : List Byte) (s : State) : Served :=
  match payload with
  | [b] => match sessionRefusal s p with
    | some r => refuse s r
    | none => match lineOfByte b with
      | none => refuse s .range
      | some l => match waiterOf p (s.line l) with
        | none => refuse s .notWaiting
        | some _ => cancelLine p l s
  | _ => refuse s .badArg

/-! ### QUERY LINE -/

/-- An owner report (Table 10-9). -/
def ownerReport (s : State) (r : OwnerView) : List Byte :=
  [countByte r.session.val, claimModeByte (modeOfWant r.want), optionalValueByte (valueOfWant r.want),
    optionalValueByte (s.effectiveOf r), flagsByte r.pulse.isSome r.stay] ++ wordBytes r.grantStamp

/-- The flag byte of a wait report: bit 1 stay, bit 2 limit (Table 10-9). -/
def waitFlags (w : WaitEntry) : Byte := (if w.stay then 2#8 else 0) ||| (if w.countdown.isSome then 4#8 else 0)

/-- The ticks remaining of a wait report, 0 without a limit (Table 10-9). -/
def waitRemaining (w : WaitEntry) : BitVec 16 :=
  match w.countdown with
  | some c => BitVec.ofNat 16 c.remaining
  | none => 0

/-- A wait report (Table 10-9). -/
def waitReport (w : WaitEntry) : List Byte :=
  [countByte w.session.val, claimModeByte (modeOfWant w.want), optionalValueByte (valueOfWant w.want), waitFlags w] ++
    wordBytes (waitRemaining w) ++ wordBytes w.queuedStamp

/-- The contents of a served QUERY LINE (R22). -/
def lineReport (l : Line) (s : State) : List Byte :=
  let e := s.line l
  [countByte l.val, lineStateByte e.owners, valueByte e.confirmed] ++ wordBytes (s.stampAt .lineTable) ++
    [countByte (ownerViews e.owners).length, countByte e.queue.length] ++
    (ownerViews e.owners).flatMap (ownerReport s) ++ e.queue.flatMap waitReport

/-- QUERY LINE (R21, R22). -/
def serveQueryLine (p : Port) (payload : List Byte) (s : State) : Served :=
  match payload with
  | [b] => match sessionRefusal s p with
    | some r => refuse s r
    | none => match lineOfByte b with
      | none => refuse s .range
      | some l => answer s .ok (lineReport l s)
  | _ => refuse s .badArg

/-! ### Wait expiry -/

/-- The expiry of a wait (R38): the entry is deleted, CLAIM_DROPPED is offered to its session, and head-join may
follow. -/
def expireWait (l : Line) (p : Port) (s : State) : State :=
  let now := s.stampAt .lineTable
  let step := withdrawEntry p now (s.line l)
  applyLineStep l step now (!step.granted.isEmpty) (offerNotice now s ⟨p, l, .claimDropped⟩)

end Sys2Proof.Machine
end

