-- ==== Sys2Proof/Machine/SessionRequests.lean ====
section
/-! DEFINITION. What the Session Table serves: ATTACH, DETACH, RENEW, QUERY SELF, and the session's side of PORT RESET
(chapter 7). -/

namespace Sys2Proof.Machine

/-- The granted lease: the ceiling for a requested 0, otherwise the request brought within floor and ceiling (R131). -/
def grantedLease (floor ceiling requested : Nat) : Nat :=
  if requested = 0 then ceiling
  else if requested < floor then floor
  else if ceiling < requested then ceiling
  else requested

/-- The checks of ATTACH in their order (R129); when they pass, the grade and the granted lease. An OPERATING part has
an active profile (R157); without one the request is refused PROFILE_FAULT (log entry 17). -/
def attachVerdict (p : Port) (a : AttachArgs) (s : State) : Except Result (Grade × Nat) :=
  match s.device, s.active with
  | .operating, some img =>
    if !profileEnabled img p then .error .disabled
    else match (s.session p).state with
      | .attached _ => .error .already
      | _ => match gradeOfByte a.grade with
        | none => .error .badArg
        | some g =>
          if profileGradeCode img p < a.grade.toNat then .error .grade
          else .ok (g, grantedLease (profileLeaseFloor img) (profileLeaseCeiling img) a.lease.toNat)
  | .maintenance, _ => .error .maintenance
  | _, _ => .error .profileFault

/-- The session an ATTACH opens (R130). -/
def attachedSession (g : Grade) (lease : Nat) (x : Session) : Session :=
  { x with state := .attached ⟨g, lease, countdownLoad lease⟩, epoch := x.epoch + 1 }

/-- ATTACH (R129, R130). -/
def serveAttach (p : Port) (payload : List Byte) (s : State) : Served :=
  match attachArgs payload with
  | none => refuse s .badArg
  | some a => match attachVerdict p a s with
    | .error r => refuse s r
    | .ok (g, lease) =>
      let opened := attachedSession g lease (s.session p)
      answer (s.setSession p opened) .ok
        ([gradeByte g] ++ wordBytes (BitVec.ofNat 16 lease) ++ [opened.epoch, endReasonByte opened.endReason] ++
          wordBytes (s.stampAt .sessionTable))

/-- End the session of a port: its state, and its end reason when the cause writes one (R124, R126). -/
def endSession (p : Port) (state : SessionState) (reason : EndReason) (s : State) : State :=
  s.setSession p { s.session p with state := state, endReason := reason }

/-- The response of a served DETACH (R135). -/
def detachReply (p : Port) (owned waiting : Nat) (s : State) : Served :=
  answer s .ok
    [(s.session p).epoch, endReasonByte (s.session p).endReason, countByte owned, countByte waiting]

/-- DETACH (R135). -/
def serveDetach (p : Port) (payload : List Byte) (s : State) : Served :=
  match payload with
  | [] => match (s.session p).state with
    | .detached => refuse s .noSession
    | .lapsed => detachReply p 0 0 (endSession p .detached (s.session p).endReason s)
    | .attached _ =>
      detachReply p (allLines.countP (s.holds p)) (allLines.countP (s.waits p))
        (endSession p .detached .detached (teardown p s))
  | _ :: _ => refuse s .badArg

/-- RENEW: the taking has restarted the lease, and nothing else changes (R136). -/
def serveRenew (p : Port) (payload : List Byte) (s : State) : Served :=
  match payload with
  | [] => match (s.session p).state with
    | .detached => refuse s .noSession
    | .lapsed => refuse s .lapsed
    | .attached a =>
      answer s .ok (wordBytes (BitVec.ofNat 16 a.leaseLength) ++ wordBytes (s.stampAt .sessionTable))
  | _ :: _ => refuse s .badArg

/-- Grade, lease length and lease remaining as QUERY SELF reports them, absent when the session is not ATTACHED (R139,
R182). `found` is the countdown as the Session Table found it when it took the request. -/
def leaseReport (found : Nat) : SessionState → List Byte
  | .attached a =>
    [gradeByte a.grade] ++ wordBytes (BitVec.ofNat 16 a.leaseLength) ++ wordBytes (BitVec.ofNat 16 found)
  | .detached => [absentByte, 0, 0, 0, 0]
  | .lapsed => [absentByte, 0, 0, 0, 0]

/-- QUERY SELF (R139). -/
def serveQuerySelf (found : Nat) (p : Port) (payload : List Byte) (s : State) : Served :=
  match payload with
  | [] =>
    let x := s.session p
    answer s .ok
      ([sessionStateByte x.state] ++ leaseReport found x.state ++
        [x.epoch, endReasonByte x.endReason, countByte (s.claimCount p), countByte (s.queue p).records.length,
          countByte (s.queue p).dropped, countByte (s.stagedSet p).length] ++
        mapBytes (lineMapOf (s.holds p)) ++ mapBytes (lineMapOf (s.waits p)) ++ mapBytes (lineMapOf (s.pulses p)) ++
        wordBytes (s.stampAt .sessionTable))
  | _ :: _ => refuse s .badArg

/-- PORT RESET at the Session Table (R141). -/
def portResetSession (p : Port) (s : State) : State :=
  match (s.session p).state with
  | .attached _ => endSession p .detached .portReset (teardown p s)
  | .lapsed => endSession p .detached .portReset s
  | .detached => s

/-- The lapse of a session (R133). -/
def lapse (p : Port) (s : State) : State := endSession p .lapsed .lapsed (teardown p s)

end Sys2Proof.Machine
end

