-- ==== Sys2Proof/Machine/StageRequests.lean ====
section
/-! DEFINITION. What the Stage Sets and the Pulse Timer Pool serve: STAGE, UNSTAGE, DISCARD, COMMIT (chapter 4) and
PULSE, with the expiry of a pulse (chapter 3). -/

namespace Sys2Proof.Machine

/-- The session check and the grade check shared by the staging requests and PULSE: ATTACHED, and after the checks in
between, not OBSERVER (R75, R77, R78, R79, R64). -/
def isObserver (s : State) (p : Port) : Bool := s.gradeOf p = some .observer

/-! ### Staged sets -/

/-- Whether a line is in a staged set. -/
def stagedHas (l : Line) (set : List StagedValue) : Bool := set.any fun x => x.line = l

/-- Record a value for a line: in place when the line is in the set, at the tail otherwise (R73, R76). -/
def stagePut (l : Line) (v : Bool) (set : List StagedValue) : List StagedValue :=
  if stagedHas l set then set.map fun x => if x.line = l then { x with value := v } else x
  else set ++ [⟨l, v⟩]

/-- The value staged for a line. -/
def stagedValueOf (l : Line) (set : List StagedValue) : Option Bool :=
  (set.find? fun x => x.line = l).map StagedValue.value

/-- The position of a line in a staged set, the head at position 1 (R73). -/
def stagedPosition (l : Line) (set : List StagedValue) : Nat := set.findIdx (fun x => x.line = l) + 1

/-- A STAGE that passed its checks (R76). -/
def stageLine (p : Port) (l : Line) (v : Bool) (s : State) : Served :=
  let set := stagePut l v (s.stagedSet p)
  answer (s.setStaged p set) .ok
    [countByte l.val, countByte (stagedPosition l set), countByte set.length,
      flagsByte (stagedHas l (s.stagedSet p)) false]

/-- STAGE with its checks in the order of Table 4-1 (R75). -/
def serveStage (p : Port) (payload : List Byte) (s : State) : Served :=
  match payload with
  | [b, value] => match sessionRefusal s p with
    | some r => refuse s r
    | none => match lineOfByte b with
      | none => refuse s .range
      | some l =>
        if isObserver s p then refuse s .grade
        else match valueOfByte value with
          | none => refuse s .badArg
          | some v =>
            if !stagedHas l (s.stagedSet p) && Config.stageDepth ≤ (s.stagedSet p).length then refuse s .stageFull
            else stageLine p l v s
  | _ => refuse s .badArg

/-- An UNSTAGE that passed its checks (R77). -/
def unstageLine (p : Port) (l : Line) (s : State) : Served :=
  let set := (s.stagedSet p).filter fun x => x.line ≠ l
  answer (s.setStaged p set) .ok
    [countByte l.val, flagsByte (!stagedHas l (s.stagedSet p)) false, countByte set.length]

/-- UNSTAGE (R77). -/
def serveUnstage (p : Port) (payload : List Byte) (s : State) : Served :=
  match payload with
  | [b] => match sessionRefusal s p with
    | some r => refuse s r
    | none => match lineOfByte b with
      | none => refuse s .range
      | some l => if isObserver s p then refuse s .grade else unstageLine p l s
  | _ => refuse s .badArg

/-- DISCARD (R78). -/
def serveDiscard (p : Port) (payload : List Byte) (s : State) : Served :=
  match payload with
  | [] => match sessionRefusal s p with
    | some r => refuse s r
    | none =>
      if isObserver s p then refuse s .grade
      else answer (s.setStaged p []) .ok [countByte (s.stagedSet p).length]
  | _ :: _ => refuse s .badArg

/-! ### COMMIT -/

/-- The commit check of one line: holder in DRIVE_PP or DRIVE_OD, or sharer (R80, Table 4-2). -/
def commitPasses (p : Port) (e : LineEntry) : Bool :=
  match ownerOf p e with
  | some r => (valueOfWant r.want).isSome
  | none => false

/-- Whether a line of the staged set fails the commit check (R82). -/
def commitFails (p : Port) (s : State) (l : Line) : Bool :=
  stagedHas l (s.stagedSet p) && !commitPasses p (s.line l)

/-- Whether a line of the staged set runs a pulse of the session (R83). -/
def commitDeferred (p : Port) (s : State) (l : Line) : Bool := stagedHas l (s.stagedSet p) && s.pulses p l

/-- A line entry after an applied COMMIT: the value staged for it, if one is, replaces the resting value or vote (R81). -/
def commitLine (p : Port) (staged : Option Bool) (e : LineEntry) : LineEntry :=
  match staged with
  | some v => setResting p v e
  | none => e

/-- Apply the staged set: every resting value or vote replaced, all lines of the set in one pad update, the set emptied
(R81). -/
def applyStaged (p : Port) (s : State) : State :=
  let set := s.stagedSet p
  let written := s.setLines fun l => commitLine p (stagedValueOf l set) (s.line l)
  padUpdate (fun l => stagedHas l set) (written.setStaged p [])

/-- COMMIT (R79 to R82). -/
def serveCommit (p : Port) (payload : List Byte) (s : State) : Served :=
  match payload with
  | [] => match sessionRefusal s p with
    | some r => refuse s r
    | none =>
      if isObserver s p then refuse s .grade
      else if allLines.any (commitFails p s) then
        answer s .stale (mapBytes (lineMapOf (commitFails p s)) ++ [countByte (s.stagedSet p).length])
      else
        answer (applyStaged p s) .ok
          ([countByte (s.stagedSet p).length] ++ wordBytes (s.stampAt .lineTable) ++
            mapBytes (lineMapOf (commitDeferred p s)))
  | _ :: _ => refuse s .badArg

/-! ### PULSE -/

/-- The checks of PULSE in the order of Table 3-4; when they pass, the line, the value and the timer (R64, R62). -/
def pulseVerdict (p : Port) (a : PulseArgs) (s : State) : Except Result (Line × Bool × TimerId) :=
  match sessionRefusal s p with
  | some r => .error r
  | none => match lineOfByte a.line with
    | none => .error .range
    | some l =>
      if isObserver s p then .error .grade
      else match ownerOf p (s.line l) with
        | none => .error .notHeld
        | some r =>
          if (valueOfWant r.want).isNone then .error .mode
          else match valueOfByte a.value with
            | none => .error .badArg
            | some v =>
              if a.duration = 0 then .error .badArg
              else if r.pulse.isSome then .error .busy
              else match s.lowestFreeTimer with
                | none => .error .noTimer
                | some t => .ok (l, v, t)

/-- The start of a pulse (R65). -/
def startPulse (p : Port) (l : Line) (v : Bool) (duration : Nat) (t : TimerId) (s : State) : State :=
  padUpdate (fun k => k = l)
    ((s.setTimer t (some ⟨l, p, v, countdownLoad duration⟩)).setLine l (setPulse p (some t) (s.line l)))

/-- PULSE (R64, R65). -/
def servePulse (p : Port) (payload : List Byte) (s : State) : Served :=
  match pulseArgs payload with
  | none => refuse s .badArg
  | some a => match pulseVerdict p a s with
    | .error r => refuse s r
    | .ok (l, v, t) =>
      let now := s.stampAt .pulsePool
      answer (startPulse p l v a.duration.toNat t s) .ok
        ([countByte l.val, countByte t.val] ++ wordBytes now ++ wordBytes (now + a.duration))

/-- The expiry of a pulse (R66): timer FREE, pulse field absent, one pad update, PULSE_ENDED. -/
def expirePulse (t : TimerId) (r : PulseTimer) (s : State) : State :=
  let ended := (s.setTimer t none).setLine r.line (setPulse r.session none (s.line r.line))
  offerNotice (s.stampAt .pulsePool) (padUpdate (fun k => k = r.line) ended) ⟨r.session, r.line, .pulseEnded⟩

end Sys2Proof.Machine
end

