-- ==== Sys2Proof/Machine/Expiry.lean ====
section
/-! DEFINITION. The expiries of the countdowns (R147, R148). The tick that ends a countdown marks it `due`; its expiry is
part of that tick event, and no request and no further tick finds it outstanding (log entry 7). -/

namespace Sys2Proof.Machine

/-- Whether the tick that ends a countdown has reached its owner (R147). -/
def expired (c : Option Countdown) : Bool :=
  match c with
  | some c => c.due
  | none => false

/-- The lease of a session has run out. -/
def leaseDue (p : Port) (s : State) : Bool := expired ((s.attachedPart p).map Attached.lease)

/-- The wait of a session on a line has run out. -/
def waitDue (l : Line) (p : Port) (s : State) : Bool :=
  (s.line l).queue.any fun w => w.session = p && expired w.countdown

/-- The lapse of a session whose lease has run out (R133). -/
def leaseExpires (p : Port) (s : State) : State := if leaseDue p s then lapse p s else s

/-- The expiry of a wait that has run out (R38). -/
def waitExpires (l : Line) (p : Port) (s : State) : State := if waitDue l p s then expireWait l p s else s

/-- The end of a pulse that has run out (R66). -/
def pulseExpires (x : TimerId) (s : State) : State :=
  match s.timer x with
  | some r => if r.countdown.due then expirePulse x r s else s
  | none => s

/-- The expiries still outstanding at an owner are made, in ascending order. LEASE_EXPIRY, WAIT_EXPIRY and PULSE_EXPIRY
before this choose any other order (R38, R66, R138, R148; log entry 7). -/
def finishOwner (o : TickOwner) (s : State) : State :=
  match o with
  | .sessionTable => allPorts.foldl (fun s p => leaseExpires p s) s
  | .lineTable => allLines.foldl (fun s l => allPorts.foldl (fun s p => waitExpires l p s) s) s
  | .pulsePool => allTimers.foldl (fun s x => pulseExpires x s) s
  | .inputMonitor => s

/-- The tick events that the owners have taken are brought to their end: every outstanding expiry is made (R147). -/
def finishTicks (s : State) : State :=
  finishOwner .pulsePool (finishOwner .lineTable (finishOwner .sessionTable s))

end Sys2Proof.Machine
end

