-- ==== Sys2Proof/Machine/Flags.lean ====
section
/-! DEFINITION. The flags a master sees: the status byte (R171, Table 10-5), the busy-drop and frame-error flags of a
port, and what Pk_SDO shifts out. -/

namespace Sys2Proof.Machine

/-- Whether the port is EXECUTING. -/
def isExecuting : PortState → Bool
  | .executing _ => true
  | .idle => false
  | .ready _ => false

/-- Whether the session is ATTACHED. -/
def isAttached : SessionState → Bool
  | .attached _ => true
  | .detached => false
  | .lapsed => false

/-- The status byte: ready, exec, busy-drop, frame-error, events, device state (2 bits), attached, from bit 7 down
(Table 10-5). -/
def statusByte (s : State) (p : Port) : Byte :=
  BitVec.ofBool (slotFull (s.port p).state) ++ BitVec.ofBool (isExecuting (s.port p).state) ++
    BitVec.ofBool (s.port p).busyDrop ++ BitVec.ofBool (s.port p).frameError ++
    BitVec.ofBool (!(s.queue p).records.isEmpty) ++ deviceStateCode s.device ++
    BitVec.ofBool (isAttached (s.session p).state)

/-- A malformed frame sets the frame-error flag and changes nothing else of the port (R173). -/
def flagFrameError (p : Port) (s : State) : State := s.putPort p { s.port p with frameError := true }

/-- A request frame that meets a busy port sets the busy-drop flag and changes nothing else of the port (R174). -/
def flagBusyDrop (p : Port) (s : State) : State := s.putPort p { s.port p with busyDrop := true }

/-- The bits of a byte, MSB first (R170). -/
def bitsOfByte (b : Byte) : List Bool :=
  [b.getLsbD 7, b.getLsbD 6, b.getLsbD 5, b.getLsbD 4, b.getLsbD 3, b.getLsbD 2, b.getLsbD 1, b.getLsbD 0]

/-- What the part shifts out over a number of clocks: these bytes MSB first, then FFH for as long as the master clocks
(R170, R177, R179). -/
def shiftedOut (clocks : Nat) (bytes : List Byte) : List Bool :=
  (bytes.flatMap bitsOfByte ++ List.replicate clocks true).take clocks

/-- The pin Pk_SDO of a port: driven from the recognised falling edge of Pk_CS_n to the rising edge, and high-impedance
otherwise: while Pk_CS_n is high, after a device reset has abandoned the transaction, and while a low Pk_CS_n is ignored
(R170, R172; log entries 10 and 19). -/
def sdoPin (x : PortInterface) : SdoPin :=
  match x.transaction with
  | some _ => .driven
  | none => .highImpedance

/-- Record what Pk_SDO shifted out in this transaction. -/
def driveSdo (p : Port) (clocks : Nat) (bytes : List Byte) (s : State) : State :=
  s.putPort p { s.port p with sdo := shiftedOut clocks bytes }

end Sys2Proof.Machine
end

