-- ==== Sys2Proof/Machine/MonitorRequests.lean ====
section
/-! DEFINITION. The Input Monitor and the Event Queues: the filter and the sampling operation, WATCH, SAMPLE (chapter 5)
and FETCH EVENTS (chapter 6). -/

namespace Sys2Proof.Machine

/-! ### The filter (R90) -/

/-- A line's filter and confirmed level after one sample, and whether the sample confirmed a change. -/
structure FilterStep where
  filter : LineFilter
  confirmed : Bool
  changed : Bool
  deriving DecidableEq, Repr

/-- The filter action of one sample (R90, Table 5-1), with F the line's filter length. -/
def filterSample (F : Nat) (f : LineFilter) (confirmed sampled : Bool) : FilterStep :=
  if sampled = confirmed then ⟨restingFilter, confirmed, false⟩
  else
    let count := (match f.candidate with | none => 0 | some _ => f.count) + 1
    if F + 1 ≤ count then ⟨restingFilter, sampled, true⟩
    else ⟨⟨some sampled, count⟩, confirmed, false⟩

/-- The level sampled at a line. -/
def levelAt (levels : LineMap) (l : Line) : Bool := levels.getLsbD l.val

/-- What one sampling operation makes of a line. -/
def sampleLine (levels : LineMap) (s : State) (l : Line) : FilterStep :=
  filterSample (s.filterLength l) s.filters[l] (s.line l).confirmed (levelAt levels l)

/-- Whether a watch setting matches a change to this level (R95). -/
def watchMatches : WatchSetting → Bool → Bool
  | .none, _ => false
  | .rise, level => level
  | .fall, level => !level
  | .both, _ => true

/-- Offer the CHANGE record of one confirmed change to every session that watches it (R98). -/
def offerChange (now : Stamp) (l : Line) (level : Bool) (s : State) : State :=
  allPorts.foldl
    (fun s p => if watchMatches (s.watch p)[l] level then offer p (takeChange ⟨l, level, now⟩) s else s) s

/-- The filters and confirmed levels after a sampling operation (R90, R91). -/
def filterLines (levels : LineMap) (s : State) : State :=
  { s.setLines fun l => { s.line l with confirmed := (sampleLine levels s l).confirmed } with
    filters := Vector.ofFn fun l : Line => (sampleLine levels s l).filter }

/-- The sampling operation of a tick with its confirmations: the CHANGE records are offered in ascending line order (R88,
R91, R98). -/
def samplePins (levels : LineMap) (now : Stamp) (s : State) : State :=
  allLines.foldl
    (fun t l => if (sampleLine levels s l).changed then offerChange now l (sampleLine levels s l).confirmed t else t)
    (filterLines levels s)

/-- The start-up sample: every confirmed level from the pins, no candidate, no record (R94). -/
def startUpSample (levels : LineMap) (s : State) : State :=
  { s.setLines fun l => { s.line l with confirmed := levelAt levels l } with
    filters := Vector.replicate 24 restingFilter }

/-! ### WATCH and SAMPLE -/

/-- The map of confirmed levels (R96). -/
def confirmedMap (s : State) : LineMap := lineMapOf fun l => (s.line l).confirmed

/-- The map of the lines whose changes to this level the session watches (R96). -/
def watchMap (level : Bool) (w : Vector WatchSetting 24) : LineMap := lineMapOf fun l => watchMatches w[l] level

/-- The watch settings after WATCH: replaced for the lines of the mask (R96). -/
def setWatches (mask : LineMap) (x : WatchSetting) (w : Vector WatchSetting 24) : Vector WatchSetting 24 :=
  Vector.ofFn fun l : Line => if mask.getLsbD l.val then x else w[l]

/-- WATCH (R96). -/
def serveWatch (p : Port) (payload : List Byte) (s : State) : Served :=
  match watchArgs payload with
  | none => refuse s .badArg
  | some a => match sessionRefusal s p with
    | some r => refuse s r
    | none => match watchOfByte a.edge with
      | none => refuse s .badArg
      | some x =>
        let w := setWatches a.mask x (s.watch p)
        answer (s.setWatch p w) .ok
          (mapBytes (watchMap true w) ++ mapBytes (watchMap false w) ++ mapBytes (confirmedMap s) ++
            wordBytes (s.stampAt .inputMonitor))

/-- The effective map of a session, line by line (R100): 0 where the session presents no value. -/
def effectiveBit (s : State) (p : Port) (l : Line) : Bool :=
  match ownerOf p (s.line l) with
  | some r => (s.effectiveOf r).getD false
  | none => false

/-- SAMPLE (R100). -/
def serveSample (p : Port) (payload : List Byte) (s : State) : Served :=
  match payload with
  | [] => match sessionRefusal s p with
    | some r => refuse s r
    | none =>
      answer s .ok
        (mapBytes (confirmedMap s) ++ mapBytes (lineMapOf (s.holds p)) ++ mapBytes (lineMapOf (effectiveBit s p)) ++
          wordBytes (s.stampAt .inputMonitor))
  | _ :: _ => refuse s .badArg

/-! ### FETCH EVENTS -/

/-- A FETCH EVENTS that passed its checks: up to n records leave the head, the dropped count is read and cleared (R115). -/
def fetchRecords (p : Port) (n : Nat) (s : State) : Served :=
  let q := s.queue p
  let taken := q.records.take n
  let left := q.records.drop n
  answer (s.putQueue p ⟨left, 0⟩) .ok
    ([countByte taken.length, countByte q.dropped, countByte left.length] ++ taken.flatMap recordBytes)

/-- FETCH EVENTS (R114). -/
def serveFetchEvents (p : Port) (payload : List Byte) (s : State) : Served :=
  match payload with
  | [n] => match sessionRefusal s p with
    | some r => refuse s r
    | none => if 7 < n.toNat then refuse s .badArg else fetchRecords p n.toNat s
  | _ => refuse s .badArg

end Sys2Proof.Machine
end

