-- ==== Sys2Proof/Machine/ProfileRequests.lean ====
section
/-! DEFINITION. What the Profile Store serves: QUERY DEVICE and the profile requests, with the burn (chapter 9). -/

namespace Sys2Proof.Machine

/-! ### Slots -/

/-- The stored bytes of a slot. -/
def State.slot (s : State) : SlotId → Image
  | .a => s.slotA
  | .b => s.slotB

def State.setSlot (s : State) (x : SlotId) (img : Image) : State :=
  match x with
  | .a => { s with slotA := img }
  | .b => { s with slotB := img }

/-- The recorded status of a slot (R154). -/
def State.record (s : State) : SlotId → Option SlotStatus
  | .a => s.recordA
  | .b => s.recordB

def State.setRecord (s : State) (x : SlotId) (r : SlotStatus) : State :=
  match x with
  | .a => { s with recordA := some r }
  | .b => { s with recordB := some r }

/-- The target of a burn: the slot that is not active, slot A when none is (R166 step 5). -/
def burnTarget : Option SlotId → SlotId
  | some .a => .b
  | some .b => .a
  | none => .a

/-! ### QUERY DEVICE -/

/-- Recorded status and generation of a slot (R159, R182). -/
def slotReport (r : Option SlotStatus) : List Byte :=
  [slotStatusByte r] ++ wordBytes (BitVec.ofNat 16 (recordedGeneration r))

/-- The fields of the active profile that QUERY DEVICE reports, absent when none is active (R159, R182): tick code first,
then port grades, port enables, lease floor and lease ceiling. -/
def tickCodeReport : Option Image → Byte
  | some img => profileTickCode img
  | none => absentByte

def limitsReport : Option Image → List Byte
  | some img => [imageRead img 8, imageRead img 9] ++ wordBytes (imageWord img 4) ++ wordBytes (imageWord img 6)
  | none => [absentByte, absentByte, 0, 0, 0, 0]

/-- The last burn result with its slot and generation, absent when it is NONE (R159, R182). -/
def lastBurnReport : LastBurn → List Byte
  | .none => [0, absentByte, 0, 0]
  | .ok target generation => [1, slotByte target] ++ wordBytes generation
  | .failed target generation => [2, slotByte target] ++ wordBytes generation

/-- The number of FREE pulse timers (R61). -/
def State.freeTimerCount (s : State) : Nat := allTimers.countP fun t => (s.timer t).isNone

/-- QUERY DEVICE (R159). -/
def serveQueryDevice (payload : List Byte) (s : State) : Served :=
  match payload with
  | [] =>
    answer s .ok
      ([(deviceStateCode s.device).setWidth 8, tickCodeReport s.active] ++ slotReport s.recordA ++ slotReport s.recordB ++
        [optionalSlotByte s.activeSlot] ++ limitsReport s.active ++ [lockByte s.lock, burnByte s.burn] ++
        lastBurnReport s.lastBurn ++ [countByte s.freeTimerCount] ++ wordBytes s.stamp)
  | _ :: _ => refuse s .badArg

/-! ### Checks shared by the profile requests -/

/-- The checks of R161: a LAPSED session is refused; the four editing requests pass in MAINTENANCE alone. -/
def editingRefusal (s : State) (p : Port) : Option Result :=
  match (s.session p).state with
  | .lapsed => some .lapsed
  | _ => match s.device with
    | .maintenance => none
    | _ => some .notMaintenance

/-- READ IMAGE passes in every device state after STARTING (R161). -/
def readingRefusal (s : State) (p : Port) : Option Result :=
  match (s.session p).state with
  | .lapsed => some .lapsed
  | _ => none

/-- Whether a port is the editor (R160). -/
def isEditor (s : State) (p : Port) : Bool := s.lock = .held p

/-! ### OPEN EDIT, WRITE IMAGE, READ IMAGE, CLOSE EDIT -/

/-- The image OPEN EDIT fills the buffer with, and its report (R162). -/
def openSource : Option Image → Image × List Byte
  | some img => (img, [0] ++ wordBytes (profileGeneration img))
  | none => ([], [1, 0, 0])

/-- OPEN EDIT (R162). -/
def serveOpenEdit (p : Port) (payload : List Byte) (s : State) : Served :=
  match payload with
  | [] => match editingRefusal s p with
    | some r => refuse s r
    | none => match s.lock with
      | .free =>
        answer { s with lock := .held p, buffer := (openSource s.active).1 } .ok (openSource s.active).2
      | .held h => answer s .editHeld [lockByte (.held h)]
      | .releasing => answer s .editHeld [lockByte .releasing]
  | _ :: _ => refuse s .badArg

/-- WRITE IMAGE (R163). -/
def serveWriteImage (p : Port) (payload : List Byte) (s : State) : Served :=
  match payload with
  | [] => refuse s .badArg
  | offset :: data => match editingRefusal s p with
    | some r => refuse s r
    | none =>
      if s.burn.isSome then refuse s .busy
      else if !isEditor s p then refuse s .notEditor
      else if data.length < 1 ∨ 24 < data.length then refuse s .badArg
      else if imageSize < offset.toNat + data.length then refuse s .range
      else
        answer { s with buffer := imageWriteBytes s.buffer offset.toNat data } .ok [offset, countByte data.length]

/-- The bytes of a source of READ IMAGE, with the refusals of R164 steps 4 to 6. -/
def readSource (p : Port) (source : Byte) (s : State) : Except Result Image :=
  if source = 0 then
    match s.active with
    | some img => .ok img
    | none => .error .profileFault
  else if source = 3 then
    if isEditor s p then .ok s.buffer else .error .notEditor
  else
    let x : SlotId := if source = 1 then .a else .b
    match s.burn with
    | some b => if b.target = x then .error .busy else .ok (s.slot x)
    | none => .ok (s.slot x)

/-- READ IMAGE (R164). -/
def serveReadImage (p : Port) (payload : List Byte) (s : State) : Served :=
  match readArgs payload with
  | none => refuse s .badArg
  | some a => match readingRefusal s p with
    | some r => refuse s r
    | none =>
      if 3 < a.source.toNat then refuse s .badArg
      else if a.count < 1 ∨ 32 < a.count then refuse s .badArg
      else if imageSize < a.offset + a.count then refuse s .range
      else match readSource p a.source s with
        | .error r => refuse s r
        | .ok img =>
          answer s .ok ([a.source, countByte a.offset, countByte a.count] ++ imageBytes img a.offset a.count)

/-- CLOSE EDIT (R165). -/
def serveCloseEdit (p : Port) (payload : List Byte) (s : State) : Served :=
  match payload with
  | [] => match editingRefusal s p with
    | some r => refuse s r
    | none =>
      if s.burn.isSome then refuse s .busy
      else if !isEditor s p then refuse s .notEditor
      else answer { s with lock := .free } .ok []
  | _ :: _ => refuse s .badArg

/-- PORT RESET at the Profile Store: the holder's port frees the lock, or leaves it to a burn in flight (R160). -/
def portResetLock (p : Port) (s : State) : State :=
  if isEditor s p then { s with lock := if s.burn.isSome then .releasing else .free } else s

/-! ### BURN IMAGE and the burn -/

/-- The largest generation among the slots recorded VALID, 0 when there is none (R166). -/
def largestGeneration (s : State) : Nat := max (recordedGeneration s.recordA) (recordedGeneration s.recordB)

/-- The buffer with the assigned generation and the CRC-16 that follows from it (R166 steps 1 and 2). -/
def sealBuffer (generation : BitVec 16) (img : Image) : Image :=
  let numbered := imageWriteBytes img 1 (wordBytes generation)
  imageWriteBytes numbered 126 (wordBytes (imageCrc numbered))

/-- The start of a burn (R166 step 6). -/
def startBurn (p : Port) (generation : BitVec 16) (s : State) : State :=
  let target := burnTarget s.activeSlot
  { s.setRecord target .invalid with burn := some ⟨target, generation, p⟩ }

/-- A BURN IMAGE whose generation can be assigned (R166): the buffer is sealed and judged; a valid one starts the burn,
whose response comes at its completion event. -/
def burnSealed (p : Port) (generation : BitVec 16) (s : State) : Served :=
  let buffered : State := { s with buffer := sealBuffer generation s.buffer }
  match offendingOffset buffered.buffer with
  | some k => answer buffered .invalidImage [countByte k]
  | none => (startBurn p generation buffered, none)

/-- BURN IMAGE (R166). -/
def serveBurnImage (p : Port) (payload : List Byte) (s : State) : Served :=
  match payload with
  | [] => match editingRefusal s p with
    | some r => refuse s r
    | none =>
      if s.burn.isSome then refuse s .busy
      else if !isEditor s p then refuse s .notEditor
      else if Config.maxGeneration < largestGeneration s + 1 then
        answer s .genExhausted (wordBytes (BitVec.ofNat 16 (largestGeneration s)))
      else burnSealed p (BitVec.ofNat 16 (largestGeneration s + 1)) s
  | _ :: _ => refuse s .badArg

/-- The byte of the target at read-back; a missing one counts as erased. -/
def readBackByte (readBack : List Byte) (k : Nat) : Byte := readBack.getD k 0xFF#8

/-- The offsets of bytes 1 to 127 (R167). -/
def bodyOffsets : List Nat := (List.range 127).map fun k => k + 1

/-- The lowest of bytes 1 to 127 that differs from the buffer (R167 phase 3). -/
def lowestDifference (buffer : Image) (readBack : List Byte) : Option Nat :=
  bodyOffsets.find? fun k => readBackByte readBack k ≠ imageRead buffer k

/-- What the target holds when the burn has ended: bytes 1 to 127 as read back; the tag is not written after a mismatch
and stays erased (R167). -/
def burntImage (buffer : Image) (readBack : List Byte) : Image :=
  match lowestDifference buffer readBack with
  | some _ => imageOf fun k => if k = 0 then 0xFF#8 else readBackByte readBack k
  | none => imageOf (readBackByte readBack)

/-- The offset a failed burn reports, none for a burn that succeeded: the lowest differing byte, or 0 for a tag that
failed its verification (R167). -/
def burnFailure (buffer : Image) (readBack : List Byte) : Option Nat :=
  match lowestDifference buffer readBack with
  | some k => some k
  | none => if readBackByte readBack 0 = imageRead buffer 0 then none else some 0

/-- The lock after the completion of a burn (R160, R167). -/
def lockAfterBurn : EditLock → EditLock
  | .releasing => .free
  | .free => .free
  | .held p => .held p

/-- The Profile Store's operation at the completion of a burn (R167). -/
def finishBurn (b : Burning) (readBack : List Byte) (s : State) : State :=
  let stored := s.setSlot b.target (burntImage s.buffer readBack)
  let ended : State := { stored with burn := none, lock := lockAfterBurn s.lock }
  match burnFailure s.buffer readBack with
  | none => { ended.setRecord b.target (.valid b.generation) with lastBurn := .ok b.target b.generation }
  | some _ => { ended with lastBurn := .failed b.target b.generation }

/-- The reply of a burn (R167), with the stamp of the completion. -/
def burnReply (b : Burning) (readBack : List Byte) (s : State) : Reply :=
  match burnFailure s.buffer readBack with
  | none => ⟨.ok, [slotByte b.target] ++ wordBytes b.generation ++ wordBytes s.stamp⟩
  | some k => ⟨.burnFailed, [slotByte b.target, countByte k]⟩

/-! ### A burn abandoned by a device reset (R169) -/

/-- What the tag byte of a slot holds whose tag write was interrupted: any value but 3CH (R169). -/
def tornTagByte (n : Nat) : Byte := if Config.tornTag n = Config.formatTag then 0xFF#8 else Config.tornTag n

/-- The byte that an abandoned burn leaves at an offset, by the phase it had reached. `n` numbers the free values. -/
def tornByteAt (n : Nat) (old buffer : Image) (torn : Torn) (k : Nat) : Byte :=
  match torn with
  | .erasing erased => if erased.getLsbD k then 0xFF#8 else imageRead old k
  | .writing written cut body =>
    if k = 0 then 0xFF#8
    else if cut.map Fin.val = some k then Config.tornByte n
    else if written.getLsbD k then readBackByte body k
    else 0xFF#8
  | .readingBack body => if k = 0 then 0xFF#8 else readBackByte body k
  | .tagging => if k = 0 then tornTagByte n else imageRead buffer k

/-- The stored bytes of a slot after a device reset: those of the target of a burn in flight are what the interrupted
phase left, all others are unchanged (R155, R169). -/
def slotAfterReset (torn : Torn) (s : State) (x : SlotId) : Image :=
  match s.burn with
  | some b => if b.target = x then imageOf (tornByteAt s.freeCount (s.slot x) s.buffer torn) else s.slot x
  | none => s.slot x

/-- A device reset begins: every block takes its reset values, the slots keep their stored bytes, a burn in flight is
abandoned (R24, R60, R155, R169). -/
def deviceReset (kind : ResetKind) (torn : Torn) (s : State) : State :=
  heldInReset kind (slotAfterReset torn s .a) (slotAfterReset torn s .b) s.pending (s.freeCount + 1)

end Sys2Proof.Machine
end

