-- ==== Sys2Proof/Machine/Link.lean ====
section
/-! DEFINITION. The port link (chapter 10): the taking of a request and its service, PORT RESET, the completion of a
request, and the transactions. -/

namespace Sys2Proof.Machine

/-! ### Service -/

/-- The service of a request at the blocks that own the state it concerns (Table 10-10), after the Session Table has
restarted the lease. `found` is the lease remaining before that restart. PORT RESET is served by `takePortReset`. -/
def serve (r : Request) (found : Nat) (p : Port) (payload : List Byte) (s : State) : Served :=
  match r with
  | .attach => serveAttach p payload s
  | .detach => serveDetach p payload s
  | .renew => serveRenew p payload s
  | .querySelf => serveQuerySelf found p payload s
  | .queryDevice => serveQueryDevice payload s
  | .portReset => refuse s .unknown
  | .claim => serveClaim p payload s
  | .release => serveRelease p payload s
  | .cancel => serveCancel p payload s
  | .queryLine => serveQueryLine p payload s
  | .stage => serveStage p payload s
  | .unstage => serveUnstage p payload s
  | .discard => serveDiscard p payload s
  | .commit => serveCommit p payload s
  | .pulse => servePulse p payload s
  | .sample => serveSample p payload s
  | .watch => serveWatch p payload s
  | .fetchEvents => serveFetchEvents p payload s
  | .openEdit => serveOpenEdit p payload s
  | .writeImage => serveWriteImage p payload s
  | .readImage => serveReadImage p payload s
  | .burnImage => serveBurnImage p payload s
  | .closeEdit => serveCloseEdit p payload s

/-- A code that names no request is answered UNKNOWN with an empty payload (R175). -/
def serveCode (code : Byte) (found : Nat) (p : Port) (payload : List Byte) (s : State) : Served :=
  match requestOf code with
  | some r => serve r found p payload s
  | none => refuse s .unknown

/-! ### Taking and completing requests -/

/-- The lease remaining of a session as a request finds it (R139). -/
def leaseFound (p : Port) (s : State) : Nat :=
  match s.attachedPart p with
  | some a => a.lease.remaining
  | none => 0

/-- The port once a request is taken: flags cleared, EXECUTING with the request in the request slot (R174). -/
def portExecuting (frame : RequestFrame) (reply : Option Reply) (x : PortInterface) : PortInterface :=
  { x with
    state := .executing ⟨frame.code, frame.tag, frame.payload, reply⟩
    busyDrop := false
    frameError := false }

/-- The taking of a request by an IDLE port, with its service: first the Session Table restarts the lease, then the
blocks that own the state serve it (R174, R132). The reply waits for the completion event (R176). -/
def takeRequest (service : Nat → Port → List Byte → State → Served) (p : Port) (frame : RequestFrame) (s : State) :
    State :=
  let served := service (leaseFound p s) p frame.payload (restartLease p s)
  served.1.putPort p (portExecuting frame served.2 (served.1.port p))

/-- The requests a PORT RESET overtakes join the overtaken requests (R180). -/
def overtake (x : PortInterface) : List Executing :=
  match x.state with
  | .executing e => x.overtaken ++ [e]
  | .idle => x.overtaken
  | .ready _ => x.overtaken

/-- The discarded flag of PORT RESET: an unread response is discarded, or the response of an overtaken request will be,
be it the request overtaken now or an earlier one whose completion event has not come (R181, R172; log entry 16). -/
def discards (x : PortInterface) : Bool := slotFull x.state || !(overtake x).isEmpty

/-- The burn flag of PORT RESET: a burn of this port is in flight and continues (R181). -/
def burnsFor (p : Port) (s : State) : Bool :=
  match s.burn with
  | some b => b.port = p
  | none => false

/-- The taking of PORT RESET in any port state after STARTING, with its service at the Session Table and then at the
Profile Store (R180, R141, R160), and its response (R181). -/
def takePortReset (p : Port) (frame : RequestFrame) (s : State) : State :=
  let before := s.port p
  let acted := portResetLock p (portResetSession p s)
  let reply : Reply :=
    ⟨.ok, [sessionStateByte (s.session p).state, endReasonByte (acted.session p).endReason,
      flagsByte (discards before) (burnsFor p s)]⟩
  acted.putPort p { portExecuting frame (some reply) (acted.port p) with overtaken := overtake before }

/-- The completion event of the request in the request slot (R176): its response is placed. A burn in flight has not
completed. -/
def completeCurrent (p : Port) (s : State) : State :=
  match (s.port p).state with
  | .executing e => match e.reply with
    | some reply => s.putPort p { s.port p with state := .ready ⟨e.tag, e.code, reply⟩ }
    | none => s
  | .idle => s
  | .ready _ => s

/-- The completion event of an overtaken request: its response is discarded (R176, R180). -/
def completeOvertaken (p : Port) (place : Nat) (s : State) : State :=
  match (s.port p).overtaken[place]? with
  | some e => match e.reply with
    | some _ => s.putPort p { s.port p with overtaken := (s.port p).overtaken.eraseIdx place }
    | none => s
  | none => s

/-- The completion event of a burn at the port that started it (R167, R176): the response is delivered when the port is
still EXECUTING the BURN IMAGE, and discarded when the request was overtaken (R180). -/
def completeBurn (p : Port) (reply : Reply) (s : State) : State :=
  match (s.port p).state with
  | .executing e =>
    if e.reply.isNone then s.putPort p { s.port p with state := .ready ⟨e.tag, e.code, reply⟩ }
    else s.putPort p { s.port p with overtaken := (s.port p).overtaken.filter fun x => x.reply.isSome }
  | _ => s.putPort p { s.port p with overtaken := (s.port p).overtaken.filter fun x => x.reply.isSome }

/-! ### Frames -/

/-- What the Port Interface does with a well-formed request frame, by its port state and its code (R174, R180). -/
def frameArrives (service : Nat → Port → List Byte → State → Served) (p : Port) (frame : RequestFrame) (s : State) :
    State :=
  match (s.port p).state with
  | .idle => takeRequest service p frame s
  | .executing _ => flagBusyDrop p s
  | .ready _ => flagBusyDrop p s

/-- A request frame of a transaction: discarded in a STARTING transaction (R185), malformed when its payload is too long
for a frame (R173), otherwise as its code and the port state say. -/
def requestFrame (arrives : Port → RequestFrame → State → State) (p : Port) (frame : RequestFrame)
    (t : OpenTransaction) (s : State) : State :=
  if t.starting then s
  else if Config.maxPayload < frame.payload.length then flagFrameError p s
  else arrives p frame s

/-- A well-formed frame whatever its code (R174, R175, R180). -/
def anyFrameArrives (p : Port) (frame : RequestFrame) (s : State) : State :=
  if frame.code = requestCode .portReset then takePortReset p frame s
  else frameArrives (serveCode frame.code) p frame s

/-! ### Transactions -/

/-- The falling edge of Pk_CS_n: the status byte is formed, and the device state decides whether this is a STARTING
transaction (R171, R185). During a device reset, and while the chip select is already low, there is no such edge
(R170). -/
def chipSelectFalls (p : Port) (s : State) : State :=
  if s.resetting.isSome || (s.port p).transaction.isSome then s
  else s.putPort p { s.port p with transaction := some ⟨statusByte s p, s.device = .starting⟩ }

/-- The rest of a transaction up to the rising edge of Pk_CS_n. Without a recognised falling edge it is ignored (R170). -/
def finishTransaction (p : Port) (act : OpenTransaction → State → State) (s : State) : State :=
  match (s.port p).transaction with
  | none => s
  | some t => act t (s.putPort p { s.port p with transaction := none })

/-- A transaction command, as a whole or in its two parts (log entry 10). It finds the tick events that the owners have
taken at their end (R147): the expiring tick taken first, the request meets a session that has lapsed (R134, R148). -/
def transaction (p : Port) (span : Span) (act : OpenTransaction → State → State) (s : State) : State :=
  let ready := finishTicks s
  match span with
  | .whole => finishTransaction p act (chipSelectFalls p ready)
  | .fall => chipSelectFalls p ready
  | .rest => finishTransaction p act ready

/-- A status poll: the status byte, then FFH; no state of the part changes (R179). -/
def pollPart (p : Port) (clocks : Nat) (t : OpenTransaction) (s : State) : State := driveSdo p clocks [t.status] s

/-- What a read response shifts out after the status byte: the response in RESPONSE_READY, the empty frame otherwise
(R177, R178); the empty frame in a STARTING transaction (R185). -/
def readBytes (p : Port) (t : OpenTransaction) (s : State) : List Byte :=
  match (s.port p).state with
  | .ready r => if t.starting then emptyFrame else responseBytes r
  | .idle => emptyFrame
  | .executing _ => emptyFrame

/-- A read response (R177, R178): complete when all bits of the CRC byte were clocked out, and then the slot is emptied
and the port becomes IDLE. Before the eighth clock it carries no kind and is a status poll (R170). -/
def readPart (p : Port) (clocks : Nat) (t : OpenTransaction) (s : State) : State :=
  if clocks < 8 then pollPart p clocks t s
  else
    let shifted := driveSdo p clocks (t.status :: readBytes p t s) s
    match (s.port p).state with
    | .ready r =>
      if !t.starting && 8 * (1 + (responseBytes r).length) ≤ clocks then
        shifted.putPort p { shifted.port p with state := .idle }
      else shifted
    | .idle => shifted
    | .executing _ => shifted

/-- The clocks of a transaction in which these bytes were shifted in. -/
def clocksOf (w : Wire) : Nat := 8 * w.bytes.length + w.spare.val

/-- A transaction whose frame is in error: discarded whole, the frame-error flag set (R173), but for a STARTING
transaction, which sets no flag (R185). -/
def errorPart (p : Port) (t : OpenTransaction) (s : State) : State := if t.starting then s else flagFrameError p s

/-- A transaction whose kind byte names no kind: a frame error (R173). What follows the status byte is a free value
(log entry 23). -/
def unnamedPart (p : Port) (w : Wire) (t : OpenTransaction) (s : State) : State :=
  errorPart p t
    (driveSdo p (clocksOf w) (t.status :: (List.range w.bytes.length).map (Config.unnamedByte s.freeCount))
      { s with freeCount := s.freeCount + 1 })

/-- Any transaction, decided from what the master shifts in (R170, R173, R177, R179). -/
def wirePart (p : Port) (w : Wire) (t : OpenTransaction) (s : State) : State :=
  match kindOf w.bytes with
  | .poll => pollPart p (clocksOf w) t s
  | .read => readPart p (clocksOf w) t s
  | .unnamed => unnamedPart p w t s
  | .request => match parseFrame w with
    | some frame => requestFrame anyFrameArrives p frame t (driveSdo p (clocksOf w) [t.status] s)
    | none => errorPart p t (driveSdo p (clocksOf w) [t.status] s)

/-- A transaction that carries a well-formed request frame: every byte after the status byte is FFH (R170). -/
def framePart (arrives : Port → RequestFrame → State → State) (p : Port) (frame : RequestFrame) (t : OpenTransaction)
    (s : State) : State :=
  requestFrame arrives p frame t (driveSdo p (clocksOf (encodeFrame frame)) [t.status] s)

/-- A request command: the frame of a request other than PORT RESET on its port. -/
def requestCommand (r : Request) (service : Nat → Port → List Byte → State → Served) (p : Port) (tag : Byte)
    (payload : List Byte) (span : Span) (s : State) : State :=
  transaction p span (framePart (frameArrives service) p ⟨requestCode r, tag, payload⟩) s

end Sys2Proof.Machine
end

