-- ==== Sys2Proof/Machine/Resets.lean ====
section
/-! DEFINITION. The meanings of the reset and start-up commands (R155 to R157, R186), of BURN_COMPLETION (R167) and of
REQUEST_COMPLETION (R176). -/

namespace Sys2Proof.Machine

/-- What every command answers: a next state, a fault or a refusal. -/
abbrev Answer := Host.Outcome State Fault Refusal

/-- POWER_ON_RESET (R155, R186): applying the supply begins a power-on reset. -/
def execPowerOnReset (torn : Torn) (s : State) : Answer := .next (deviceReset .powerOn torn s)

/-- Whether a power-on reset lasts: then no brown-out reset and no RST_n reset begins (R186). -/
def powerOnLasts (s : State) : Bool := s.resetting = some .powerOn

/-- BROWN_OUT_RESET (R155, R186). -/
def execBrownOutReset (torn : Torn) (s : State) : Answer :=
  .next (if powerOnLasts s then s else deviceReset .brownOut torn s)

/-- RST_N_RESET (R155, R186). -/
def execRstNReset (torn : Torn) (s : State) : Answer :=
  .next (if powerOnLasts s then s else deviceReset .rstN torn s)

/-- The end of reset: MAINT is sampled, the tick count is 0, the Timebase starts at 1000 µs, the device state becomes
STARTING and the start-up load begins (R155). -/
def endReset (maint : Bool) (s : State) : State :=
  { s with resetting := none, maint := maint, tickCount := 0, tickPeriod := .us1000, device := .starting }

/-- END_OF_RESET (R155): the last cause of the reset that lasts is removed. -/
def execEndOfReset (maint : Bool) (s : State) : Answer :=
  .next (if s.resetting.isSome then endReset maint s else s)

/-- The start-up load: both slots classified, the active slot chosen and copied (R156). -/
def loadProfile (s : State) : State :=
  let a := slotStatusOf s.slotA
  let b := slotStatusOf s.slotB
  { s with
    recordA := some a
    recordB := some b
    activeSlot := chooseSlot a b
    active := (chooseSlot a b).map s.slot }

/-- The tick period after start-up (R144). -/
def startUpPeriod : Option Image → TickPeriod
  | some img => tickPeriodOfCode (profileTickCode img)
  | none => .us1000

/-- The device state after start-up (R157 step 6). -/
def startUpDevice (maint : Bool) : Option SlotId → DeviceState
  | some _ => if maint then .maintenance else .operating
  | none => if maint then .maintenance else .faulted

/-- The end of start-up (R157): the active profile takes effect, all 24 lines are handed to one pad update, and after it
the start-up sample is taken. -/
def finishStartUp (levels : LineMap) (s : State) : State :=
  let loaded := loadProfile s
  let timed := { loaded with tickPeriod := startUpPeriod loaded.active }
  let sampled := startUpSample levels (padUpdate (fun _ => true) timed)
  { sampled with device := startUpDevice sampled.maint sampled.activeSlot }

/-- END_OF_START_UP (R157): the load that an end of reset began completes. -/
def execEndOfStartUp (levels : LineMap) (s : State) : Answer :=
  .next (if s.resetting.isNone && s.device = .starting then finishStartUp levels s else s)

/-- BURN_COMPLETION (R167): the Profile Store's operation, then the response to the port that started the burn. -/
def execBurnCompletion (readBack : List Byte) (s : State) : Answer :=
  .next (match s.burn with
    | some b => completeBurn b.port (burnReply b readBack s) (finishBurn b readBack s)
    | none => s)

/-- REQUEST_COMPLETION (R176): of the request in the request slot, or of an overtaken one. -/
def execRequestCompletion (p : Port) (which : Completing) (s : State) : Answer :=
  .next (match which with
    | .current => completeCurrent p s
    | .overtaken place => completeOvertaken p place s)

end Sys2Proof.Machine
end

