-- ==== Sys2Proof/Machine/LinkCommands.lean ====
section
/-! DEFINITION. The meanings of the link commands: STATUS_POLL, READ_RESPONSE, FRAME_ERROR, BUSY_DROP,
STARTING_TRANSACTION and UNKNOWN (R170 to R179, R185). Each carries what the master shifts in, and the Port Interface
decides by its rules what becomes of it (log entry 11). -/

namespace Sys2Proof.Machine

/-- STATUS_POLL (R179). -/
def execStatusPoll (p : Port) (clocks : Nat) (span : Span) (s : State) : Answer :=
  .next (transaction p span (pollPart p clocks) s)

/-- READ_RESPONSE (R177, R178). -/
def execReadResponse (p : Port) (clocks : Nat) (span : Span) (s : State) : Answer :=
  .next (transaction p span (readPart p clocks) s)

/-- FRAME_ERROR (R173). -/
def execFrameError (p : Port) (wire : Wire) (span : Span) (s : State) : Answer :=
  .next (transaction p span (wirePart p wire) s)

/-- BUSY_DROP (R174): a well-formed request frame that meets a busy port. -/
def execBusyDrop (p : Port) (code tag : Byte) (payload : List Byte) (span : Span) (s : State) : Answer :=
  .next (transaction p span (framePart anyFrameArrives p ⟨code, tag, payload⟩) s)

/-- STARTING_TRANSACTION (R185). -/
def execStartingTransaction (p : Port) (wire : Wire) (span : Span) (s : State) : Answer :=
  .next (transaction p span (wirePart p wire) s)

/-- UNKNOWN (R175): a request frame whose code names no request. -/
def execUnknown (p : Port) (code tag : Byte) (payload : List Byte) (span : Span) (s : State) : Answer :=
  .next (transaction p span (framePart anyFrameArrives p ⟨code, tag, payload⟩) s)

end Sys2Proof.Machine
end

