-- ==== Sys2Proof/Machine/RequestCommands.lean ====
section
/-! DEFINITION. The meanings of the request commands: each is the request frame of its code on a port, taken, served and
left EXECUTING with the reply its completion event will place (R174 to R176). -/

namespace Sys2Proof.Machine

/-- ATTACH (R129, R130). -/
def execAttach (p : Port) (tag : Byte) (payload : List Byte) (span : Span) (s : State) : Answer :=
  .next (requestCommand .attach (fun _ => serveAttach) p tag payload span s)

/-- DETACH (R135). -/
def execDetach (p : Port) (tag : Byte) (payload : List Byte) (span : Span) (s : State) : Answer :=
  .next (requestCommand .detach (fun _ => serveDetach) p tag payload span s)

/-- RENEW (R136). -/
def execRenew (p : Port) (tag : Byte) (payload : List Byte) (span : Span) (s : State) : Answer :=
  .next (requestCommand .renew (fun _ => serveRenew) p tag payload span s)

/-- QUERY_SELF (R139). -/
def execQuerySelf (p : Port) (tag : Byte) (payload : List Byte) (span : Span) (s : State) : Answer :=
  .next (requestCommand .querySelf serveQuerySelf p tag payload span s)

/-- QUERY_DEVICE (R159). -/
def execQueryDevice (p : Port) (tag : Byte) (payload : List Byte) (span : Span) (s : State) : Answer :=
  .next (requestCommand .queryDevice (fun _ _ => serveQueryDevice) p tag payload span s)

/-- PORT_RESET (R180, R181). -/
def execPortReset (p : Port) (tag : Byte) (payload : List Byte) (span : Span) (s : State) : Answer :=
  .next (transaction p span (framePart takePortReset p ⟨requestCode .portReset, tag, payload⟩) s)

/-- CLAIM (R25, R26). -/
def execClaim (p : Port) (tag : Byte) (payload : List Byte) (span : Span) (s : State) : Answer :=
  .next (requestCommand .claim (fun _ => serveClaim) p tag payload span s)

/-- RELEASE (R35, R36). -/
def execRelease (p : Port) (tag : Byte) (payload : List Byte) (span : Span) (s : State) : Answer :=
  .next (requestCommand .release (fun _ => serveRelease) p tag payload span s)

/-- CANCEL (R37). -/
def execCancel (p : Port) (tag : Byte) (payload : List Byte) (span : Span) (s : State) : Answer :=
  .next (requestCommand .cancel (fun _ => serveCancel) p tag payload span s)

/-- QUERY_LINE (R21, R22). -/
def execQueryLine (p : Port) (tag : Byte) (payload : List Byte) (span : Span) (s : State) : Answer :=
  .next (requestCommand .queryLine (fun _ => serveQueryLine) p tag payload span s)

/-- STAGE (R75, R76). -/
def execStage (p : Port) (tag : Byte) (payload : List Byte) (span : Span) (s : State) : Answer :=
  .next (requestCommand .stage (fun _ => serveStage) p tag payload span s)

/-- UNSTAGE (R77). -/
def execUnstage (p : Port) (tag : Byte) (payload : List Byte) (span : Span) (s : State) : Answer :=
  .next (requestCommand .unstage (fun _ => serveUnstage) p tag payload span s)

/-- DISCARD (R78). -/
def execDiscard (p : Port) (tag : Byte) (payload : List Byte) (span : Span) (s : State) : Answer :=
  .next (requestCommand .discard (fun _ => serveDiscard) p tag payload span s)

/-- COMMIT (R79 to R82). -/
def execCommit (p : Port) (tag : Byte) (payload : List Byte) (span : Span) (s : State) : Answer :=
  .next (requestCommand .commit (fun _ => serveCommit) p tag payload span s)

/-- PULSE (R64, R65). -/
def execPulse (p : Port) (tag : Byte) (payload : List Byte) (span : Span) (s : State) : Answer :=
  .next (requestCommand .pulse (fun _ => servePulse) p tag payload span s)

/-- SAMPLE (R100). -/
def execSample (p : Port) (tag : Byte) (payload : List Byte) (span : Span) (s : State) : Answer :=
  .next (requestCommand .sample (fun _ => serveSample) p tag payload span s)

/-- WATCH (R96). -/
def execWatch (p : Port) (tag : Byte) (payload : List Byte) (span : Span) (s : State) : Answer :=
  .next (requestCommand .watch (fun _ => serveWatch) p tag payload span s)

/-- FETCH_EVENTS (R114, R115). -/
def execFetchEvents (p : Port) (tag : Byte) (payload : List Byte) (span : Span) (s : State) : Answer :=
  .next (requestCommand .fetchEvents (fun _ => serveFetchEvents) p tag payload span s)

/-- OPEN_EDIT (R162). -/
def execOpenEdit (p : Port) (tag : Byte) (payload : List Byte) (span : Span) (s : State) : Answer :=
  .next (requestCommand .openEdit (fun _ => serveOpenEdit) p tag payload span s)

/-- WRITE_IMAGE (R163). -/
def execWriteImage (p : Port) (tag : Byte) (payload : List Byte) (span : Span) (s : State) : Answer :=
  .next (requestCommand .writeImage (fun _ => serveWriteImage) p tag payload span s)

/-- READ_IMAGE (R164). -/
def execReadImage (p : Port) (tag : Byte) (payload : List Byte) (span : Span) (s : State) : Answer :=
  .next (requestCommand .readImage (fun _ => serveReadImage) p tag payload span s)

/-- BURN_IMAGE (R166). -/
def execBurnImage (p : Port) (tag : Byte) (payload : List Byte) (span : Span) (s : State) : Answer :=
  .next (requestCommand .burnImage (fun _ => serveBurnImage) p tag payload span s)

/-- CLOSE_EDIT (R165). -/
def execCloseEdit (p : Port) (tag : Byte) (payload : List Byte) (span : Span) (s : State) : Answer :=
  .next (requestCommand .closeEdit (fun _ => serveCloseEdit) p tag payload span s)

end Sys2Proof.Machine
end

