-- ==== Sys2Proof/Machine/Time.lean ====
section
/-! DEFINITION. The meanings of the time-driven commands: TICK, INPUT_SAMPLING and the expiries (chapter 8). -/

namespace Sys2Proof.Machine

/-! ### The tick event of each owner (R144, R147) -/

/-- The Session Table's tick event: every lease countdown is lowered. -/
def tickLease (x : Session) : Session :=
  match x.state with
  | .attached a => { x with state := .attached { a with lease := countdownTick a.lease } }
  | .detached => x
  | .lapsed => x

def tickSessions (s : State) : State := s.setSessions fun p => tickLease (s.session p)

/-- The LOT's tick event: every wait countdown is lowered. -/
def tickWait (w : WaitEntry) : WaitEntry := { w with countdown := w.countdown.map countdownTick }

def tickLines (s : State) : State :=
  s.setLines fun l => { s.line l with queue := (s.line l).queue.map tickWait }

/-- The Pulse Timer Pool's tick event: every pulse countdown is lowered. -/
def tickTimer (t : PulseTimer) : PulseTimer := { t with countdown := countdownTick t.countdown }

def tickTimers (s : State) : State := s.setTimers fun t => (s.timer t).map tickTimer

/-! ### TICK -/

/-- The tick generator produces a tick (R145): the count advances. During STARTING the tick reaches no owner (R150). -/
def generateTick (s : State) : State :=
  let counted := { s with tickCount := s.tickCount + 1 }
  if s.device = .starting then counted
  else
    { counted with
      lag := ⟨s.lag.sessionTable + 1, s.lag.lineTable + 1, s.lag.pulsePool + 1, s.lag.inputMonitor + 1⟩ }

/-- An owner takes an outstanding tick as its tick event (R146, R148). The Input Monitor takes its ticks by
INPUT_SAMPLING. -/
def ownerTick (o : TickOwner) (s : State) : State :=
  if lagOf s.lag o = 0 then s
  else
    match o with
    | .sessionTable => tickSessions { s with lag := { s.lag with sessionTable := s.lag.sessionTable - 1 } }
    | .lineTable => tickLines { s with lag := { s.lag with lineTable := s.lag.lineTable - 1 } }
    | .pulsePool => tickTimers { s with lag := { s.lag with pulsePool := s.lag.pulsePool - 1 } }
    | .inputMonitor => s

/-- An owner takes every tick it has not yet taken. -/
def takeTicks (o : TickOwner) (s : State) : State := (ownerTick o)^[lagOf s.lag o] s

/-- Before the next tick is produced, the owners have taken the one before it, and their tick events are at their end: a
countdown ends at the stamp of its N-th tick (R63, R146, R147). -/
def endTick (s : State) : State :=
  finishTicks (takeTicks .pulsePool (takeTicks .lineTable (takeTicks .sessionTable s)))

/-- TICK (R144, R145, R147). From the start of a device reset to its end no tick is produced (R150). -/
def execTick (event : TickEvent) (s : State) : Answer :=
  .next
    (if s.resetting.isSome then s
    else match event with
      | .whole => ownerTick .pulsePool (ownerTick .lineTable (ownerTick .sessionTable (generateTick (endTick s))))
      | .generated => generateTick (endTick s)
      | .reaches o => ownerTick o s)

/-- INPUT_SAMPLING (R88): the Input Monitor takes an outstanding tick and samples all 24 pins. The records carry the stamp
of that tick (R91, R145). -/
def execInputSampling (levels : LineMap) (s : State) : Answer :=
  .next
    (if s.lag.inputMonitor = 0 then s
    else
      let taken := { s with lag := { s.lag with inputMonitor := s.lag.inputMonitor - 1 } }
      samplePins levels (taken.stampAt .inputMonitor) taken)

/-! ### Expiries -/

/-- LEASE_EXPIRY (R133): the lapse of a session whose lease has run out. -/
def execLeaseExpiry (p : Port) (s : State) : Answer := .next (leaseExpires p s)

/-- WAIT_EXPIRY (R38): of the wait entry of a session on a line. -/
def execWaitExpiry (l : Line) (p : Port) (s : State) : Answer := .next (waitExpires l p s)

/-- PULSE_EXPIRY (R66): of a RUNNING timer. -/
def execPulseExpiry (x : TimerId) (s : State) : Answer := .next (pulseExpires x s)

end Sys2Proof.Machine
end

