-- ==== Sys2Proof/Machine/Dispatch.lean ====
section
/-! DEFINITION. The meaning of every command: one arm per row of spec/opcode_table.json. -/

namespace Sys2Proof.Machine

def exec (i : Instr) (s : State) : Host.Outcome State Fault Refusal :=
  match i with
  | .powerOnReset torn => Sys2Proof.Machine.execPowerOnReset torn s
  | .brownOutReset torn => Sys2Proof.Machine.execBrownOutReset torn s
  | .rstNReset torn => Sys2Proof.Machine.execRstNReset torn s
  | .endOfReset maint => Sys2Proof.Machine.execEndOfReset maint s
  | .endOfStartUp levels => Sys2Proof.Machine.execEndOfStartUp levels s
  | .tick event => Sys2Proof.Machine.execTick event s
  | .inputSampling levels => Sys2Proof.Machine.execInputSampling levels s
  | .leaseExpiry p => Sys2Proof.Machine.execLeaseExpiry p s
  | .waitExpiry l p => Sys2Proof.Machine.execWaitExpiry l p s
  | .pulseExpiry t => Sys2Proof.Machine.execPulseExpiry t s
  | .burnCompletion readBack => Sys2Proof.Machine.execBurnCompletion readBack s
  | .requestCompletion p which => Sys2Proof.Machine.execRequestCompletion p which s
  | .statusPoll p clocks span => Sys2Proof.Machine.execStatusPoll p clocks span s
  | .readResponse p clocks span => Sys2Proof.Machine.execReadResponse p clocks span s
  | .frameError p wire span => Sys2Proof.Machine.execFrameError p wire span s
  | .busyDrop p code tag payload span => Sys2Proof.Machine.execBusyDrop p code tag payload span s
  | .startingTransaction p wire span => Sys2Proof.Machine.execStartingTransaction p wire span s
  | .unknown p code tag payload span => Sys2Proof.Machine.execUnknown p code tag payload span s
  | .attach p tag payload span => Sys2Proof.Machine.execAttach p tag payload span s
  | .detach p tag payload span => Sys2Proof.Machine.execDetach p tag payload span s
  | .renew p tag payload span => Sys2Proof.Machine.execRenew p tag payload span s
  | .querySelf p tag payload span => Sys2Proof.Machine.execQuerySelf p tag payload span s
  | .queryDevice p tag payload span => Sys2Proof.Machine.execQueryDevice p tag payload span s
  | .portReset p tag payload span => Sys2Proof.Machine.execPortReset p tag payload span s
  | .claim p tag payload span => Sys2Proof.Machine.execClaim p tag payload span s
  | .release p tag payload span => Sys2Proof.Machine.execRelease p tag payload span s
  | .cancel p tag payload span => Sys2Proof.Machine.execCancel p tag payload span s
  | .queryLine p tag payload span => Sys2Proof.Machine.execQueryLine p tag payload span s
  | .stage p tag payload span => Sys2Proof.Machine.execStage p tag payload span s
  | .unstage p tag payload span => Sys2Proof.Machine.execUnstage p tag payload span s
  | .discard p tag payload span => Sys2Proof.Machine.execDiscard p tag payload span s
  | .commit p tag payload span => Sys2Proof.Machine.execCommit p tag payload span s
  | .pulse p tag payload span => Sys2Proof.Machine.execPulse p tag payload span s
  | .sample p tag payload span => Sys2Proof.Machine.execSample p tag payload span s
  | .watch p tag payload span => Sys2Proof.Machine.execWatch p tag payload span s
  | .fetchEvents p tag payload span => Sys2Proof.Machine.execFetchEvents p tag payload span s
  | .openEdit p tag payload span => Sys2Proof.Machine.execOpenEdit p tag payload span s
  | .writeImage p tag payload span => Sys2Proof.Machine.execWriteImage p tag payload span s
  | .readImage p tag payload span => Sys2Proof.Machine.execReadImage p tag payload span s
  | .burnImage p tag payload span => Sys2Proof.Machine.execBurnImage p tag payload span s
  | .closeEdit p tag payload span => Sys2Proof.Machine.execCloseEdit p tag payload span s

end Sys2Proof.Machine
end

