-- ==== Sys2Proof/WellFormed.lean ====
section
/-! DEFINITION. Which operand values belong to the event a command names. `exec` is total: an ill-formed command is
treated by the rules for what it carries (log entry 11). -/

namespace Sys2Proof

/-- A torn write does not count the interrupted byte as written, and byte 0 is no byte of that phase (R167); the values
the bytes took are given for a whole slot. -/
def tornWellFormed : Torn → Bool
  | .erasing _ => true
  | .writing written cut body =>
    body.length = 128 && !written.getLsbD 0 &&
      (match cut with | none => true | some k => k ≠ 0 && !written.getLsbD k.val)
  | .readingBack body => body.length = 128
  | .tagging => true

/-- A request frame carries at most 32 payload bytes (R173). -/
def payloadWellFormed (payload : List Byte) : Bool := payload.length ≤ Config.maxPayload

/-- The transaction is a frame error: its kind byte names no kind, or it is a malformed request frame (R173). -/
def wireMalformed (w : Wire) : Bool :=
  match kindOf w.bytes with
  | .unnamed => true
  | .request => (parseFrame w).isNone
  | .read => false
  | .poll => false

/-- The operands of a command are those its row can have. -/
def wellFormed : Instr → Bool
  | .powerOnReset torn => tornWellFormed torn
  | .brownOutReset torn => tornWellFormed torn
  | .rstNReset torn => tornWellFormed torn
  | .endOfReset _ => true
  | .endOfStartUp _ => true
  | .tick event => event ≠ .reaches .inputMonitor
  | .inputSampling _ => true
  | .leaseExpiry _ => true
  | .waitExpiry _ _ => true
  | .pulseExpiry _ => true
  | .burnCompletion readBack => readBack.length = 128
  | .requestCompletion _ _ => true
  | .statusPoll _ _ _ => true
  | .readResponse _ clocks _ => 8 ≤ clocks
  | .frameError _ wire _ => wireMalformed wire
  | .busyDrop _ code _ payload _ => code ≠ requestCode .portReset && payloadWellFormed payload
  | .startingTransaction _ _ _ => true
  | .unknown _ code _ payload _ => (requestOf code).isNone && payloadWellFormed payload
  | .attach _ _ payload _ => payloadWellFormed payload
  | .detach _ _ payload _ => payloadWellFormed payload
  | .renew _ _ payload _ => payloadWellFormed payload
  | .querySelf _ _ payload _ => payloadWellFormed payload
  | .queryDevice _ _ payload _ => payloadWellFormed payload
  | .portReset _ _ payload _ => payloadWellFormed payload
  | .claim _ _ payload _ => payloadWellFormed payload
  | .release _ _ payload _ => payloadWellFormed payload
  | .cancel _ _ payload _ => payloadWellFormed payload
  | .queryLine _ _ payload _ => payloadWellFormed payload
  | .stage _ _ payload _ => payloadWellFormed payload
  | .unstage _ _ payload _ => payloadWellFormed payload
  | .discard _ _ payload _ => payloadWellFormed payload
  | .commit _ _ payload _ => payloadWellFormed payload
  | .pulse _ _ payload _ => payloadWellFormed payload
  | .sample _ _ payload _ => payloadWellFormed payload
  | .watch _ _ payload _ => payloadWellFormed payload
  | .fetchEvents _ _ payload _ => payloadWellFormed payload
  | .openEdit _ _ payload _ => payloadWellFormed payload
  | .writeImage _ _ payload _ => payloadWellFormed payload
  | .readImage _ _ payload _ => payloadWellFormed payload
  | .burnImage _ _ payload _ => payloadWellFormed payload
  | .closeEdit _ _ payload _ => payloadWellFormed payload

end Sys2Proof
end

