-- ==== Sys2Proof/Safety.lean ====
section
/-! DEFINITION. What the statements are made of: what a command may change (frames), when a port takes a request, and
the invariants that every step keeps. -/

namespace Sys2Proof.Machine

/-! ### Frames -/

/-- What a command may change. Everything not listed stays. -/
structure Reach where
  lines : Line → Bool := fun _ => false
  pads : Line → Bool := fun _ => false
  timers : TimerId → Bool := fun _ => false
  staged : Port → Bool := fun _ => false
  watches : Port → Bool := fun _ => false
  queues : Port → Bool := fun _ => false
  sessions : Port → Bool := fun _ => false
  ports : Port → Bool := fun _ => false

/-- The LOT, the pads, the timers and what is kept per session and per port stay outside the reach. -/
structure SameBlocks (r : Reach) (s t : State) : Prop where
  lines : ∀ l, r.lines l = false → t.line l = s.line l
  pads : ∀ l, r.pads l = false → t.pad l = s.pad l
  timers : ∀ x, r.timers x = false → t.timer x = s.timer x
  staged : ∀ p, r.staged p = false → t.stagedSet p = s.stagedSet p
  watches : ∀ p, r.watches p = false → t.watch p = s.watch p
  queues : ∀ p, r.queues p = false → t.queue p = s.queue p
  sessions : ∀ p, r.sessions p = false → t.session p = s.session p
  ports : ∀ p, r.ports p = false → t.port p = s.port p
  attn : ∀ p, r.queues p = false → r.ports p = false → t.attn[p] = s.attn[p]

/-- The Profile Store stays: slots, recorded statuses, active profile, image buffer, edit lock, burn. -/
structure SameStore (s t : State) : Prop where
  slotA : t.slotA = s.slotA
  slotB : t.slotB = s.slotB
  recordA : t.recordA = s.recordA
  recordB : t.recordB = s.recordB
  activeSlot : t.activeSlot = s.activeSlot
  active : t.active = s.active
  buffer : t.buffer = s.buffer
  lock : t.lock = s.lock
  burn : t.burn = s.burn
  lastBurn : t.lastBurn = s.lastBurn

/-- The Timebase stays. -/
structure SameTime (s t : State) : Prop where
  tickCount : t.tickCount = s.tickCount
  tickPeriod : t.tickPeriod = s.tickPeriod
  lag : t.lag = s.lag

/-- Reset, device state, MAINT, the waiting commands and the numbering of free values stay. -/
structure SameDevice (s t : State) : Prop where
  pending : t.pending = s.pending
  resetting : t.resetting = s.resetting
  device : t.device = s.device
  maint : t.maint = s.maint
  freeCount : t.freeCount = s.freeCount

/-- Candidate levels and stability counts stay. -/
def SameFilters (s t : State) : Prop := t.filters = s.filters

/-- The frame of a command that acts on ports, sessions, lines, pads and timers within its reach. -/
structure Frame (r : Reach) (s t : State) : Prop where
  blocks : SameBlocks r s t
  store : SameStore s t
  time : SameTime s t
  device : SameDevice s t
  filters : SameFilters s t

/-- One port, one session, one line, one timer as a reach. -/
def only {α : Type} [DecidableEq α] (a : α) : α → Bool := fun x => x = a

/-- The session of a port is ATTACHED so. -/
def AttachedAs (p : Port) (a : Attached) (s : State) : Prop := (s.session p).state = .attached a

/-! ### Commands one after another -/

/-- The state after these commands, if every one answers a next state. -/
def runAll : List Instr → State → Option State
  | [], s => some s
  | c :: cs, s =>
    match exec c s with
    | .next t => runAll cs t
    | .fault _ => none
    | .refused _ => none

/-- Every expiry command, in ascending order. Where nothing is due, each leaves the part as it is. -/
def expiries : List Instr :=
  allPorts.map .leaseExpiry ++ allLines.flatMap (fun l => allPorts.map (.waitExpiry l)) ++ allTimers.map .pulseExpiry

/-- The outstanding ticks of the three owners of countdowns, each given as their tick event. -/
def outstandingTicks (lag : OwnerLag) : List Instr :=
  List.replicate lag.sessionTable (.tick (.reaches .sessionTable)) ++
    List.replicate lag.lineTable (.tick (.reaches .lineTable)) ++
    List.replicate lag.pulsePool (.tick (.reaches .pulsePool))

/-! ### The transaction commands -/

/-- The port of a transaction command. -/
def linkPort : Instr → Option Port
  | .powerOnReset _ => none
  | .brownOutReset _ => none
  | .rstNReset _ => none
  | .endOfReset _ => none
  | .endOfStartUp _ => none
  | .tick _ => none
  | .inputSampling _ => none
  | .leaseExpiry _ => none
  | .waitExpiry _ _ => none
  | .pulseExpiry _ => none
  | .burnCompletion _ => none
  | .requestCompletion _ _ => none
  | .statusPoll p _ _ => some p
  | .readResponse p _ _ => some p
  | .frameError p _ _ => some p
  | .busyDrop p _ _ _ _ => some p
  | .startingTransaction p _ _ => some p
  | .unknown p _ _ _ _ => some p
  | .attach p _ _ _ => some p
  | .detach p _ _ _ => some p
  | .renew p _ _ _ => some p
  | .querySelf p _ _ _ => some p
  | .queryDevice p _ _ _ => some p
  | .portReset p _ _ _ => some p
  | .claim p _ _ _ => some p
  | .release p _ _ _ => some p
  | .cancel p _ _ _ => some p
  | .queryLine p _ _ _ => some p
  | .stage p _ _ _ => some p
  | .unstage p _ _ _ => some p
  | .discard p _ _ _ => some p
  | .commit p _ _ _ => some p
  | .pulse p _ _ _ => some p
  | .sample p _ _ _ => some p
  | .watch p _ _ _ => some p
  | .fetchEvents p _ _ _ => some p
  | .openEdit p _ _ _ => some p
  | .writeImage p _ _ _ => some p
  | .readImage p _ _ _ => some p
  | .burnImage p _ _ _ => some p
  | .closeEdit p _ _ _ => some p

/-- The same command with another part of its transaction. -/
def spanned (x : Span) : Instr → Instr
  | .powerOnReset a => .powerOnReset a
  | .brownOutReset a => .brownOutReset a
  | .rstNReset a => .rstNReset a
  | .endOfReset a => .endOfReset a
  | .endOfStartUp a => .endOfStartUp a
  | .tick a => .tick a
  | .inputSampling a => .inputSampling a
  | .leaseExpiry a => .leaseExpiry a
  | .waitExpiry a b => .waitExpiry a b
  | .pulseExpiry a => .pulseExpiry a
  | .burnCompletion a => .burnCompletion a
  | .requestCompletion a b => .requestCompletion a b
  | .statusPoll p a _ => .statusPoll p a x
  | .readResponse p a _ => .readResponse p a x
  | .frameError p a _ => .frameError p a x
  | .busyDrop p a b c _ => .busyDrop p a b c x
  | .startingTransaction p a _ => .startingTransaction p a x
  | .unknown p a b c _ => .unknown p a b c x
  | .attach p a b _ => .attach p a b x
  | .detach p a b _ => .detach p a b x
  | .renew p a b _ => .renew p a b x
  | .querySelf p a b _ => .querySelf p a b x
  | .queryDevice p a b _ => .queryDevice p a b x
  | .portReset p a b _ => .portReset p a b x
  | .claim p a b _ => .claim p a b x
  | .release p a b _ => .release p a b x
  | .cancel p a b _ => .cancel p a b x
  | .queryLine p a b _ => .queryLine p a b x
  | .stage p a b _ => .stage p a b x
  | .unstage p a b _ => .unstage p a b x
  | .discard p a b _ => .discard p a b x
  | .commit p a b _ => .commit p a b x
  | .pulse p a b _ => .pulse p a b x
  | .sample p a b _ => .sample p a b x
  | .watch p a b _ => .watch p a b x
  | .fetchEvents p a b _ => .fetchEvents p a b x
  | .openEdit p a b _ => .openEdit p a b x
  | .writeImage p a b _ => .writeImage p a b x
  | .readImage p a b _ => .readImage p a b x
  | .burnImage p a b _ => .burnImage p a b x
  | .closeEdit p a b _ => .closeEdit p a b x

/-- The command that carries a request. -/
def requestInstr (r : Request) (p : Port) (tag : Byte) (payload : List Byte) (span : Span) : Instr :=
  match r with
  | .attach => .attach p tag payload span
  | .detach => .detach p tag payload span
  | .renew => .renew p tag payload span
  | .querySelf => .querySelf p tag payload span
  | .queryDevice => .queryDevice p tag payload span
  | .portReset => .portReset p tag payload span
  | .claim => .claim p tag payload span
  | .release => .release p tag payload span
  | .cancel => .cancel p tag payload span
  | .queryLine => .queryLine p tag payload span
  | .stage => .stage p tag payload span
  | .unstage => .unstage p tag payload span
  | .discard => .discard p tag payload span
  | .commit => .commit p tag payload span
  | .pulse => .pulse p tag payload span
  | .sample => .sample p tag payload span
  | .watch => .watch p tag payload span
  | .fetchEvents => .fetchEvents p tag payload span
  | .openEdit => .openEdit p tag payload span
  | .writeImage => .writeImage p tag payload span
  | .readImage => .readImage p tag payload span
  | .burnImage => .burnImage p tag payload span
  | .closeEdit => .closeEdit p tag payload span

/-- The payload lengths of Table 10-7. -/
def lengthFits (r : Request) (n : Nat) : Bool :=
  match r with
  | .attach => n = 3
  | .portReset => true
  | .claim => n = 6
  | .release => n = 1
  | .cancel => n = 1
  | .queryLine => n = 1
  | .stage => n = 2
  | .unstage => n = 1
  | .pulse => n = 4
  | .watch => n = 4
  | .fetchEvents => n = 1
  | .writeImage => 1 ≤ n
  | .readImage => n = 3
  | .detach => n = 0
  | .renew => n = 0
  | .querySelf => n = 0
  | .queryDevice => n = 0
  | .discard => n = 0
  | .commit => n = 0
  | .sample => n = 0
  | .openEdit => n = 0
  | .burnImage => n = 0
  | .closeEdit => n = 0

/-- The requests that an ATTACHED session alone is served (Table 7-3). -/
def needsSession : Request → Bool
  | .renew => true
  | .claim => true
  | .release => true
  | .cancel => true
  | .queryLine => true
  | .stage => true
  | .unstage => true
  | .discard => true
  | .commit => true
  | .pulse => true
  | .sample => true
  | .watch => true
  | .fetchEvents => true
  | .attach => false
  | .detach => false
  | .querySelf => false
  | .queryDevice => false
  | .portReset => false
  | .openEdit => false
  | .writeImage => false
  | .readImage => false
  | .burnImage => false
  | .closeEdit => false

/-- Every tick event that an owner has taken is at its end: no expiry is outstanding (R147). A transaction command finds
the part so (statement O21). -/
structure Settled (s : State) : Prop where
  leases : ∀ p a, AttachedAs p a s → a.lease.due = false
  waits : ∀ l w c, w ∈ (s.line l).queue → w.countdown = some c → c.due = false
  pulses : ∀ x r, s.timer x = some r → r.countdown.due = false

/-- The transaction that the rest of a transaction command belongs to: one whose falling edge comes with the command
(R170: after the end of reset, chip select high before it), or one whose falling edge came earlier. -/
inductive Opened (p : Port) (s : State) : Span → OpenTransaction → Prop where
  | whole (running : s.resetting = none) (closed : (s.port p).transaction = none) (settled : Settled s) :
    Opened p s .whole ⟨statusByte s p, s.device = .starting⟩
  | rest (o : OpenTransaction) (opened : (s.port p).transaction = some o) (settled : Settled s) : Opened p s .rest o

/-- A request frame on this port is taken: its transaction is not a STARTING transaction, the port is IDLE, and the
payload fits a frame (R173, R174, R185). -/
structure Takes (p : Port) (span : Span) (payload : List Byte) (s : State) : Prop where
  recognised : ∃ o, Opened p s span o ∧ o.starting = false
  idle : (s.port p).state = .idle
  fits : payload.length ≤ Config.maxPayload

/-- What the taking of a request makes of an ATTACHED session: the lease countdown is reloaded with the lease length
(R132, R147). -/
def renewed (a : Attached) : Attached := { a with lease := ⟨a.leaseLength, false⟩ }

/-- The status byte of a transaction on a port: the one formed at its falling edge, earlier or now (R171). -/
def statusShown (s : State) (p : Port) : Byte :=
  match (s.port p).transaction with
  | some o => o.status
  | none => statusByte s p

/-- The port after a request was taken and served: EXECUTING with this reply formed, both flags clear, the overtaken
requests as before, no open transaction, Pk_SDO high-impedance again, the status byte and then FFH shifted out during the
frame, the attention output as its two conditions say (R174, R170, R120). -/
structure Took (p : Port) (code tag : Byte) (payload : List Byte) (reply : Option Reply) (s t : State) : Prop where
  state : (t.port p).state = .executing ⟨code, tag, payload, reply⟩
  busyDrop : (t.port p).busyDrop = false
  frameError : (t.port p).frameError = false
  overtaken : (t.port p).overtaken = (s.port p).overtaken
  transaction : (t.port p).transaction = none
  sdoPin : sdoPin (t.port p) = .highImpedance
  sdo : (t.port p).sdo = shiftedOut (8 * (5 + payload.length)) [statusShown s p]
  attn : t.attn[p] = attnLow (t.queue p) (t.port p)

/-- A request of an ATTACHED session was taken, its lease restarted, and this reply formed (R132, R174). -/
structure Attended (p : Port) (a : Attached) (r : Request) (tag : Byte) (payload : List Byte) (reply : Option Reply)
    (s t : State) : Prop where
  took : Took p (requestCode r) tag payload reply s t
  lease : AttachedAs p (renewed a) t
  epoch : (t.session p).epoch = (s.session p).epoch
  endReason : (t.session p).endReason = (s.session p).endReason

/-- A request was taken and this reply formed; beside its port and the lease of its session, if that is ATTACHED, the
part stands as `s'` (R132). -/
structure Performed (p : Port) (code tag : Byte) (payload : List Byte) (reply : Option Reply) (s' s t : State) : Prop where
  took : Took p code tag payload reply s t
  session : t.session p = (restartLease p s).session p
  frame : Frame { sessions := only p, ports := only p } s' t

/-- A request was taken and answered with nothing changed but its port and the lease of its session, if that is
ATTACHED. -/
def Dismissed (p : Port) (code tag : Byte) (payload : List Byte) (reply : Reply) (s t : State) : Prop :=
  Performed p code tag payload (some reply) s s t

/-! ### Notices and teardown -/

/-- These NOTICE records, in this order, were offered to the event queues with this stamp, and no other record: the queue
of an ATTACHED session took its own ones, every other queue is as it was (R106, R107). -/
def Delivered (now : Stamp) (ns : List Notice) (s t : State) : Prop :=
  ∀ q, t.queue q =
    if isAttached (s.session q).state then
      (ns.filter fun n => n.session = q).foldl (fun u n => takeNotice n.line n.outcome now u) (s.queue q)
    else s.queue q

/-- The session of a port is holder or sharer of the line with this entry. -/
def Owns (p : Port) (e : LineEntry) : Prop :=
  (∃ h, e.owners = .held h ∧ h.session = p) ∨ ∃ ss r, e.owners = .shared ss ∧ r ∈ ss ∧ r.session = p

/-- The entry without the wait entry of the session of a port; the entries behind it close up. -/
def withoutWaits (p : Port) (e : LineEntry) : LineEntry := { e with queue := e.queue.filter fun w => w.session ≠ p }

/-- The session of a port was torn down with this stamp (R46, R137). Its own state and its port are for the cause of the
teardown to say. -/
structure TornDown (p : Port) (now : Stamp) (s t : State) : Prop where
  noRole : ∀ l, t.hasRole p l = false
  noClaims : t.claimCount p = 0
  noTimer : ∀ x, timerOf p t x = false
  otherTimers : ∀ x, timerOf p s x = false → t.timer x = s.timer x
  lines : ∀ l, t.line l = (tearDownEntry p now (s.line l)).entry
  untouched : ∀ l, s.hasRole p l = false → t.line l = s.line l ∧ t.pad l = s.pad l
  pads : ∀ l, t.pad l = if tearDownTouches p now (s.line l) then t.padFor l else s.pad l
  noStaged : t.stagedSet p = []
  otherStaged : ∀ q, q ≠ p → t.stagedSet q = s.stagedSet q
  noWatch : t.watch p = noWatches
  otherWatches : ∀ q, q ≠ p → t.watch q = s.watch q
  noRecords : t.queue p = emptyQueue
  granted : ∀ q, q ≠ p → t.queue q =
    if isAttached (s.session q).state then
      ((tearDownNotices p now s).filter fun n => n.session = q).foldl
        (fun u n => takeNotice n.line .granted now u) (s.queue q)
    else s.queue q
  otherSessions : ∀ q, q ≠ p → t.session q = s.session q
  otherPorts : ∀ q, q ≠ p → t.port q = s.port q
  store : SameStore s t
  time : SameTime s t
  device : SameDevice s t
  filters : SameFilters s t

/-! ### Resets -/

/-- Every block is held at the values a device reset of this kind gives it; the stored bytes of the slots are not said
here (R24, R60, R61, R74, R102, R119, R142, R150, R172, Table 9-5). No tick is outstanding at an owner (R89, R150; log
entry 6). The manual gives the device state, the level of MAINT, the tick count and the tick period from the end of reset
on; what they hold before it is the model's (log entries 1 and 3). -/
structure HeldInReset (kind : ResetKind) (s t : State) : Prop where
  resetting : t.resetting = some kind
  pending : t.pending = s.pending
  device : t.device = .starting
  maint : t.maint = false
  tickCount : t.tickCount = 0
  tickPeriod : t.tickPeriod = .us1000
  lag : t.lag = ⟨0, 0, 0, 0⟩
  lines : ∀ l, t.line l = ⟨.unowned, [], false⟩
  pads : ∀ l, t.pad l = ⟨.input, .none⟩
  timers : ∀ x, t.timer x = none
  staged : ∀ p, t.stagedSet p = []
  watches : ∀ (p : Port) (l : Line), (t.watch p)[l] = .none
  filters : ∀ l : Line, t.filters[l] = ⟨none, 0⟩
  queues : ∀ p, t.queue p = ⟨[], 0⟩
  attn : ∀ p : Port, t.attn[p] = false
  sessions : ∀ p, t.session p = ⟨.detached, 0, endReasonOfReset kind⟩
  ports : ∀ p, t.port p = ⟨.idle, false, false, [], none, []⟩
  sdoPins : ∀ p, sdoPin (t.port p) = .highImpedance
  recordA : t.recordA = none
  recordB : t.recordB = none
  activeSlot : t.activeSlot = none
  active : t.active = none
  buffer : ∀ k, imageRead t.buffer k = 0
  lock : t.lock = .free
  burn : t.burn = none
  lastBurn : t.lastBurn = .none

/-- A command that begins a device reset, with the kind of the reset and the phase an interrupted burn had reached. -/
inductive BeginsReset (s : State) : Instr → ResetKind → Torn → Prop where
  | powerOn (torn : Torn) : BeginsReset s (.powerOnReset torn) .powerOn torn
  | brownOut (torn : Torn) (unmasked : s.resetting ≠ some .powerOn) : BeginsReset s (.brownOutReset torn) .brownOut torn
  | rstN (torn : Torn) (unmasked : s.resetting ≠ some .powerOn) : BeginsReset s (.rstNReset torn) .rstN torn

/-! ### Claims -/

/-- A CLAIM passes the nine checks of Table 2-1 and asks for this role on this line (R26). -/
structure ClaimAdmitted (p : Port) (x : Attached) (a : ClaimArgs) (l : Line) (want : Want) (s : State) : Prop where
  attached : AttachedAs p x s
  line : lineOfByte a.line = some l
  grade : x.grade ≠ .observer
  forceGrade : a.force = true → x.grade = .priority
  permitted : s.permits l p = true
  mode : claimModeOfByte a.mode = some (modeOfWant want)
  allowed : ∃ c, s.lineClass l = some c ∧ modeAllowed c (modeOfWant want) = true
  noRole : s.hasRole p l = false
  budget : s.claimCount p < Config.claimBudget
  forcible : a.force = true → s.forcible l = true
  exclusive : a.force = true → modeOfWant want ≠ .share
  value : ∀ v, valueOfWant want = some v → valueOfByte a.value = some v

/-- The line can be neither granted at once (R27, R28) nor preempted (R30, R31). -/
structure ClaimContended (l : Line) (want : Want) (force : Bool) (s : State) : Prop where
  owned : (s.line l).owners ≠ .unowned
  notJoining : ∀ ss v, (s.line l).owners = .shared ss → want = .share v → (s.line l).queue ≠ []
  notPreempting : force = true →
    ∃ r, r ∈ ownerViews (s.line l).owners ∧ s.gradeOf r.session = some .priority

/-- The role with another resting value or vote; HOLD_INPUT has none (R81). -/
def revalued (v : Bool) : Want → Want
  | .exclusive .holdInput => .exclusive .holdInput
  | .exclusive (.drivePP _) => .exclusive (.drivePP v)
  | .exclusive (.driveOD _) => .exclusive (.driveOD v)
  | .share _ => .share v

/-- A run of samples that all differ from the confirmed level, starting with no candidate: the filter after k of them, as
long as none has confirmed a change (R90, R92). -/
def filterRun (F : Nat) (confirmed : Bool) : Nat → LineFilter
  | 0 => restingFilter
  | k + 1 => (filterSample F (filterRun F confirmed k) confirmed (!confirmed)).filter

/-! ### Invariants -/

/-- The sessions with a role on a line. -/
def roleSessions (e : LineEntry) : List Port := (ownerViews e.owners).map OwnerView.session ++ e.queue.map WaitEntry.session

/-- A consistent line entry (R2, R7, R45). -/
structure EntryWf (e : LineEntry) : Prop where
  oneRoleEach : (roleSessions e).Nodup
  sharersPresent : e.owners ≠ .shared []
  unownedQueueEmpty : e.owners = .unowned → e.queue = []
  sharedHeadExclusive : ∀ ss w, e.owners = .shared ss → e.queue.head? = some w → isShareEntry w = false

def LinesWf (s : State) : Prop := ∀ l, EntryWf (s.line l)

/-- The claim budget (R47). -/
def BudgetInv (s : State) : Prop := LinesWf s ∧ ∀ p, s.claimCount p ≤ Config.claimBudget

/-- The line of a NOTICE. -/
def noticeLine : Record → Option Line
  | .notice n => some n.line
  | .change _ => none

/-- The fold count of a record. -/
def foldsOf : Record → Nat
  | .notice n => n.folds
  | .change _ => 0

/-- A consistent event queue (R103, R109, R112). -/
structure QueueWf (q : EventQueue) : Prop where
  depth : q.records.length ≤ Config.queueDepth
  oneNoticePerLine : (q.records.filterMap noticeLine).Nodup
  dropped : q.dropped ≤ Config.droppedMax
  folds : ∀ r ∈ q.records, foldsOf r ≤ Config.foldMax

def QueuesWf (s : State) : Prop := ∀ p, QueueWf (s.queue p)

/-- The attention outputs follow their two conditions (R120). -/
def AttnAgrees (s : State) : Prop := ∀ p : Port, s.attn[p] = attnLow (s.queue p) (s.port p)

/-- The staged sets (R73). -/
def StagedWf (s : State) : Prop :=
  ∀ p, (s.stagedSet p).length ≤ Config.stageDepth ∧ ((s.stagedSet p).map StagedValue.line).Nodup

/-- Only an ATTACHED session holds, shares, waits, stages, pulses, watches or has records (R124). -/
structure Bare (p : Port) (s : State) : Prop where
  noRole : ∀ l, s.hasRole p l = false
  noTimer : ∀ t, timerOf p s t = false
  noStaged : s.stagedSet p = []
  noWatch : s.watch p = noWatches
  noRecords : s.queue p = emptyQueue

def OnlyAttachedInv (s : State) : Prop := ∀ p, isAttached (s.session p).state = false → Bare p s

/-- The pulse timers and the pulse fields name each other (R61, R72). -/
structure TimersAgree (s : State) : Prop where
  timerHasRole : ∀ t r, s.timer t = some r →
    ∃ v, ownerOf r.session (s.line r.line) = some v ∧ v.pulse = some t ∧ (valueOfWant v.want).isSome = true
  roleHasTimer : ∀ l v t, v ∈ ownerViews (s.line l).owners → v.pulse = some t →
    ∃ r, s.timer t = some r ∧ r.line = l ∧ r.session = v.session

/-- The effective value of a record (R54): the pulse value of the RUNNING timer its pulse field names, the resting value or
vote when the field is absent. -/
inductive EffectiveValue (s : State) (resting : Bool) : Option TimerId → Bool → Prop where
  | resting : EffectiveValue s resting none resting
  | pulsing (x : TimerId) (r : PulseTimer) (running : s.timer x = some r) : EffectiveValue s resting (some x) r.value

/-- Every pad shows the setting that Table 3-1 derives for its line (R51, R52). -/
def PadsAgree (s : State) : Prop := ∀ l, s.pad l = s.padFor l

/-- Lines, pulses and pads agree. -/
structure DriveInv (s : State) : Prop where
  lines : LinesWf s
  timers : TimersAgree s
  pads : PadsAgree s

/-- The filters (R87, R90): the candidate is absent with count 0, or the level opposite to the confirmed one with a count
of 1 to F. -/
def FilterWf (F : Nat) (confirmed : Bool) (f : LineFilter) : Prop :=
  f = restingFilter ∨ (f.candidate = some (!confirmed) ∧ 1 ≤ f.count ∧ f.count ≤ F)

def FiltersInv (s : State) : Prop := ∀ l : Line, FilterWf (s.filterLength l) (s.line l).confirmed s.filters[l]

/-- Every image is in canonical form. -/
structure ImagesWf (s : State) : Prop where
  slotA : imageWf s.slotA = true
  slotB : imageWf s.slotB = true
  buffer : imageWf s.buffer = true
  active : ∀ img, s.active = some img → imageWf img = true

/-- A countdown is never seen at 0 and fits 16 bits (R147). -/
def CountdownWf (c : Countdown) : Prop := 1 ≤ c.remaining ∧ c.remaining ≤ 65535

/-- Countdowns report 1 to 65535. Each owner of countdowns has at most the latest tick still to take, and a countdown whose
expiry is outstanding belongs to the latest tick: no tick passes over it (R63, R146, R147). -/
structure CountdownsInv (s : State) : Prop where
  waits : ∀ l w c, w ∈ (s.line l).queue → w.countdown = some c → CountdownWf c
  pulses : ∀ t r, s.timer t = some r → CountdownWf r.countdown
  lag : s.lag.sessionTable ≤ 1 ∧ s.lag.lineTable ≤ 1 ∧ s.lag.pulsePool ≤ 1
  leaseTicks : ∀ p a, AttachedAs p a s → a.lease.due = true → s.lag.sessionTable = 0
  waitTicks : ∀ l w c, w ∈ (s.line l).queue → w.countdown = some c → c.due = true → s.lag.lineTable = 0
  pulseTicks : ∀ t r, s.timer t = some r → r.countdown.due = true → s.lag.pulsePool = 0

/-- Leases lie within the floor and the ceiling of the active profile, and within the limits of every valid profile (Table
7-1, R123, R129, R131, R147). -/
structure LeasesInv (s : State) : Prop where
  profile : ∀ img, s.active = some img → profileValid img = true
  leases : ∀ p a, AttachedAs p a s →
    10 ≤ a.leaseLength ∧ a.leaseLength ≤ 65535 ∧ 1 ≤ a.lease.remaining ∧ a.lease.remaining ≤ a.leaseLength
  granted : ∀ p a img, AttachedAs p a s → s.active = some img →
    profileLeaseFloor img ≤ a.leaseLength ∧ a.leaseLength ≤ profileLeaseCeiling img

/-- Device state, active profile, sessions, edit lock and burn go together (R157, R158, R160, R164, R166). During a reset
no transaction is open (R170), and until the end of start-up no tick is outstanding at an owner (R89, R150). -/
structure DeviceInv (s : State) : Prop where
  resettingStarting : s.resetting ≠ none → s.device = .starting
  resettingClosed : s.resetting ≠ none → ∀ p, (s.port p).transaction = none
  startingNoTicks : s.device = .starting → s.lag = ⟨0, 0, 0, 0⟩
  startingNoProfile : s.device = .starting → s.activeSlot = none
  operatingProfile : s.device = .operating → s.activeSlot ≠ none
  faultedNoProfile : s.device = .faulted → s.activeSlot = none
  activeIsSlot : s.active = s.activeSlot.map s.slot
  attachedOperating : ∀ p, isAttached (s.session p).state = true → s.device = .operating
  lockMaintenance : s.lock ≠ .free → s.device = .maintenance
  burnLocked : s.burn ≠ none → s.lock ≠ .free
  releasingBurns : s.lock = .releasing → s.burn ≠ none
  burnSparesActive : ∀ b, s.burn = some b → s.activeSlot ≠ some b.target

end Sys2Proof.Machine
end

