-- ==== Sys2Proof/Certificates/Slice0/Obligations.lean ====
section
/-! DEFINITION. The statements for the provers. Each is about every state, also those no run reaches; where it holds of
consistent states alone, the invariant that says so is a premise and is itself stated to be kept by every step. -/

section Statements

open Sys2Proof Sys2Proof.Machine

/-! ### The machine -/

/-- A step takes the command at the front of the queue and answers what exec answers on the rest; on an empty queue the
block idles (this row's own form of a step; log entry 4). -/
def Obligations.StepRunsFrontCommand : Prop :=
  (∀ (c : Instr) (rest : List Instr) (s : State), s.pending = c :: rest → step s = exec c { s with pending := rest }) ∧
  ∀ s : State, s.pending = [] → step s = .next s

/-- No command ends in a fault or a refusal, and none touches the waiting commands. -/
def Obligations.EveryCommandAnswersNext : Prop :=
  ∀ (c : Instr) (s : State), ∃ t, exec c s = .next t ∧ t.pending = s.pending

/-- A request frame of at most 32 payload bytes is read as what was encoded, every well-formed frame is the encoding of
what is read from it, and the code of a request names that request alone (R173, R183, Table 10-10). -/
def Obligations.FramesEncodeAndParse : Prop :=
  (∀ (w : Wire) (f : RequestFrame),
    parseFrame w = some f ↔ f.payload.length ≤ Config.maxPayload ∧ w = encodeFrame f) ∧
  ∀ (r : Request) (code : Byte), requestOf code = some r ↔ code = requestCode r

/-! ### Invariants kept by every step -/

/-- The attention outputs follow the queues and the response slots (R120). -/
def Obligations.StepKeepsAttention : Prop := ∀ s t : State, AttnAgrees s → step s = .next t → AttnAgrees t

/-- One role per session and line, no wait entry on an UNOWNED line, an exclusive head on a SHARED line, and at most 16
roles per session (R2, R7, R45, R47). -/
def Obligations.StepKeepsRolesAndBudget : Prop := ∀ s t : State, BudgetInv s → step s = .next t → BudgetInv t

/-- At most 32 records, one NOTICE per line, and counts within their limits (R103, R109, R112). -/
def Obligations.StepKeepsQueues : Prop := ∀ s t : State, QueuesWf s → step s = .next t → QueuesWf t

/-- At most 8 staged entries, on distinct lines (R73). -/
def Obligations.StepKeepsStagedSets : Prop := ∀ s t : State, StagedWf s → step s = .next t → StagedWf t

/-- Only an ATTACHED session has roles, pulses, staged entries, watch settings or records (R124). -/
def Obligations.StepKeepsOnlyAttached : Prop := ∀ s t : State, OnlyAttachedInv s → step s = .next t → OnlyAttachedInv t

/-- Entries stay consistent, timers and pulse fields name each other, and every pad shows the derived setting. That
setting is, row by row of Table 3-1: INPUT with bias NONE while no profile is active; with the bias of the line record,
the safe state of an UNOWNED line, INPUT for a HOLD_INPUT holder, PUSH_PULL or OPEN_DRAIN at the effective value for a
DRIVE_PP or DRIVE_OD holder, and OPEN_DRAIN, LOW as soon as one effective vote is 0, for a SHARED line; an effective value
is the value of the running timer that the pulse field names, else the resting value or vote (R51 to R55, R61, R72). -/
def Obligations.StepKeepsPadsDerived : Prop :=
  (∀ s t : State, DriveInv s → step s = .next t → DriveInv t) ∧
  ∀ (s : State) (l : Line),
    (DriveInv s → s.pad l = s.padFor l) ∧
    (s.active = none → s.padFor l = ⟨.input, .none⟩) ∧
    ∀ img bias, s.active = some img → profileBias img l = some bias →
      ((s.line l).owners = .unowned → ∀ safe, profileSafeState img l = some safe →
        s.padFor l = ⟨match safe with
          | .input => .input
          | .driveLow => .pushPull false
          | .driveHigh => .pushPull true
          | .odLow => .openDrain false
          | .odReleased => .openDrain true, bias⟩) ∧
      (∀ h, (s.line l).owners = .held h → h.drive = .holdInput → s.padFor l = ⟨.input, bias⟩) ∧
      (∀ h resting value, (s.line l).owners = .held h → EffectiveValue s resting h.pulse value →
        (h.drive = .drivePP resting → s.padFor l = ⟨.pushPull value, bias⟩) ∧
        (h.drive = .driveOD resting → s.padFor l = ⟨.openDrain value, bias⟩)) ∧
      ∀ ss, (s.line l).owners = .shared ss →
        ((∃ r, r ∈ ss ∧ EffectiveValue s r.vote r.pulse false) → s.padFor l = ⟨.openDrain false, bias⟩) ∧
        ((∀ r, r ∈ ss → EffectiveValue s r.vote r.pulse true) → s.padFor l = ⟨.openDrain true, bias⟩)

/-- The candidate is absent with count 0, or opposite to the confirmed level with a count of 1 to F (R87, R90). -/
def Obligations.StepKeepsFilters : Prop := ∀ s t : State, FiltersInv s → step s = .next t → FiltersInv t

/-- Every profile image keeps its canonical form: the model's own form of the addressed storage. -/
def Obligations.StepKeepsImages : Prop := ∀ s t : State, ImagesWf s → step s = .next t → ImagesWf t

/-- Wait and pulse countdowns report 1 to 65535 remaining ticks; each owner of countdowns has taken every tick but the
latest, and a countdown whose expiry is outstanding belongs to a tick after which no other was produced: no tick passes
over it, so a countdown ends with its N-th tick (R63, R146, R147; log entries 6 and 7). -/
def Obligations.StepKeepsCountdowns : Prop := ∀ s t : State, CountdownsInv s → step s = .next t → CountdownsInv t

/-- The active profile is a valid image, and the lease length of every ATTACHED session lies within the lease floor and
ceiling of the active profile, and within 10 to 65535 ticks (Table 7-1, R123, R129, R131, R147, R156). -/
def Obligations.StepKeepsLeases : Prop :=
  ∀ s t : State, LeasesInv s → DeviceInv s → step s = .next t → LeasesInv t

/-- Device state, active profile, sessions, edit lock and burn go together; during a reset no transaction is open, and
until the end of start-up no tick is outstanding at an owner (R89, R150, R157, R158, R160, R164, R166, R170). That the
device state is STARTING already during a reset is the model's choice (log entry 1). -/
def Obligations.StepKeepsDevice : Prop := ∀ s t : State, DeviceInv s → step s = .next t → DeviceInv t

/-- The state after reset satisfies every invariant. That the part starts held in a power-on reset with erased slots is
the model's choice (log entries 1 and 2). -/
def Obligations.ResetSatisfiesInvariants : Prop :=
  AttnAgrees State.reset ∧ BudgetInv State.reset ∧ QueuesWf State.reset ∧ StagedWf State.reset ∧
  OnlyAttachedInv State.reset ∧ DriveInv State.reset ∧ FiltersInv State.reset ∧ ImagesWf State.reset ∧
  CountdownsInv State.reset ∧ LeasesInv State.reset ∧ DeviceInv State.reset

/-! ### Resets and start-up -/

/-- POWER_ON_RESET, BROWN_OUT_RESET and RST_N_RESET bring every block to its reset values and, with no burn in flight,
leave the stored bytes of the slots; an open transaction is abandoned and Pk_SDO becomes high-impedance; while a power-on
reset lasts, the other two begin no reset. Ticks outstanding at an owner are dropped (R24, R60, R61, R74, R89, R102, R119,
R142, R150, R155, R170, R172, R186). What the device state, the level of MAINT, the tick count and the tick period hold
until the end of reset is the model's choice (log entries 1, 3 and 6). -/
def Obligations.DeviceResetsBringResetValues : Prop :=
  (∀ (s : State) (c : Instr) (kind : ResetKind) (torn : Torn), BeginsReset s c kind torn →
    ∃ t, exec c s = .next t ∧ HeldInReset kind s t ∧ (s.burn = none → t.slotA = s.slotA ∧ t.slotB = s.slotB)) ∧
  ∀ (s : State) (torn : Torn), s.resetting = some .powerOn →
    exec (.brownOutReset torn) s = .next s ∧ exec (.rstNReset torn) s = .next s

/-- A device reset abandons a burn in flight: the other slot keeps its bytes, and the target keeps what the interrupted
phase left, byte by byte: during the writes and their read-back every written byte the value it took, which may differ
from the buffer; the byte whose write was interrupted is free, and a tag whose write was interrupted is not 3CH (R167,
R169; log entry 13). -/
def Obligations.AbandonedBurnLeavesTarget : Prop :=
  ∀ (s : State) (c : Instr) (kind : ResetKind) (torn : Torn) (b : Burning), BeginsReset s c kind torn → s.burn = some b →
    ∃ t, exec c s = .next t ∧ (∀ x, x ≠ b.target → t.slot x = s.slot x) ∧ ∀ k, k < 128 →
      (∀ erased, torn = .erasing erased → imageRead (t.slot b.target) k =
        if erased.getLsbD k then 0xFF#8 else imageRead (s.slot b.target) k) ∧
      (∀ written cut body, torn = .writing written cut body →
        (k = 0 → imageRead (t.slot b.target) k = 0xFF#8) ∧
        (k ≠ 0 → (∀ c, cut = some c → c.val ≠ k) → imageRead (t.slot b.target) k =
          if written.getLsbD k then body.getD k 0xFF#8 else 0xFF#8)) ∧
      (∀ body, torn = .readingBack body →
        imageRead (t.slot b.target) k = if k = 0 then 0xFF#8 else body.getD k 0xFF#8) ∧
      (torn = .tagging →
        (k = 0 → imageRead (t.slot b.target) k ≠ 0x3C#8) ∧ (k ≠ 0 → imageRead (t.slot b.target) k = imageRead s.buffer k))

/-- END_OF_RESET samples MAINT, sets the tick count to 0 and the period to 1000 µs, and the part is STARTING; nothing else
changes (R144, R150, R155). -/
def Obligations.EndOfResetStartsLoad : Prop :=
  ∀ (maint : Bool) (s : State), s.resetting ≠ none →
    exec (.endOfReset maint) s = .next
      { s with resetting := none, maint := maint, tickCount := 0, tickPeriod := .us1000, device := .starting }

/-- END_OF_START_UP records the classification of the slots, chooses and copies the active slot (Table 9-3), sets the
tick period, brings every pad to its safe state with its bias or leaves it at the fallback state, takes the start-up
sample and leaves STARTING (R94, R144, R156, R157, R60). Conventions of the model: log entries 6 and 18. -/
def Obligations.EndOfStartUpInstallsProfile : Prop :=
  ∀ (levels : LineMap) (s : State), s.resetting = none → s.device = .starting → (∀ l, (s.line l).owners = .unowned) →
    ∃ t, exec (.endOfStartUp levels) s = .next t ∧
      t.recordA = some (slotStatusOf s.slotA) ∧ t.recordB = some (slotStatusOf s.slotB) ∧
      (∀ a b, slotStatusOf s.slotA = .valid a → slotStatusOf s.slotB = .valid b →
        t.activeSlot = some (if b.toNat ≤ a.toNat then .a else .b)) ∧
      (∀ a, slotStatusOf s.slotA = .valid a → (∀ b, slotStatusOf s.slotB ≠ .valid b) → t.activeSlot = some .a) ∧
      (∀ b, slotStatusOf s.slotB = .valid b → (∀ a, slotStatusOf s.slotA ≠ .valid a) → t.activeSlot = some .b) ∧
      ((∀ a, slotStatusOf s.slotA ≠ .valid a) → (∀ b, slotStatusOf s.slotB ≠ .valid b) → t.activeSlot = none) ∧
      t.active = t.activeSlot.map s.slot ∧
      (t.active = none → t.tickPeriod = .us1000 ∧ ∀ l, t.pad l = ⟨.input, .none⟩) ∧
      (∀ img, t.active = some img →
        (profileTickCode img = 0 → t.tickPeriod = .us50) ∧ (profileTickCode img = 1 → t.tickPeriod = .us100) ∧
        (profileTickCode img = 2 → t.tickPeriod = .us250) ∧ (profileTickCode img = 3 → t.tickPeriod = .us1000) ∧
        ∀ l safe bias, profileSafeState img l = some safe → profileBias img l = some bias →
          t.pad l = ⟨padOfSafeState safe, bias⟩) ∧
      (∀ l, t.line l = { s.line l with confirmed := levels.getLsbD l.val }) ∧
      (∀ l : Line, t.filters[l] = ⟨none, 0⟩) ∧
      t.device = (if s.maint then .maintenance else if t.activeSlot = none then .faulted else .operating) ∧
      SameBlocks { lines := fun _ => true, pads := fun _ => true } s t ∧
      t.slotA = s.slotA ∧ t.slotB = s.slotB ∧ t.buffer = s.buffer ∧ t.lock = s.lock ∧ t.burn = s.burn ∧
      t.lastBurn = s.lastBurn ∧ t.tickCount = s.tickCount ∧ t.lag = s.lag ∧ t.pending = s.pending ∧
      t.resetting = none ∧ t.maint = s.maint ∧ t.freeCount = s.freeCount

/-! ### Time -/

/-- TICK outside a reset and STARTING, with the tick before it at its end, advances the tick count and lowers every
lease, wait and pulse countdown, or marks the one it ends as due for its expiry; the Input Monitor has one more tick to
take. In STARTING the count alone advances, from the start of a reset to its end there is no tick, and a tick given in its
parts is the whole tick (R144, R145, R146, R147, R150; log entry 6). That the expiries of a tick event are commands of
their own, made at the latest before the next tick or transaction (CountdownExpiresAtNthTick), is the model's: log entry 7.
Conventions of the model: log entry 18. -/
def Obligations.TickAdvancesTime : Prop :=
  (∀ s : State, s.resetting = none → s.device ≠ .starting → Settled s → s.lag = ⟨0, 0, 0, s.lag.inputMonitor⟩ →
    ∃ t, exec (.tick .whole) s = .next t ∧
      t.tickCount = s.tickCount + 1 ∧ t.tickPeriod = s.tickPeriod ∧
      t.lag = ⟨0, 0, 0, s.lag.inputMonitor + 1⟩ ∧
      (∀ p a, AttachedAs p a s →
        t.session p = { s.session p with state := .attached { a with lease := countdownTick a.lease } }) ∧
      (∀ p, isAttached (s.session p).state = false → t.session p = s.session p) ∧
      (∀ l, t.line l = { s.line l with
        queue := (s.line l).queue.map fun w => { w with countdown := w.countdown.map countdownTick } }) ∧
      (∀ x, t.timer x = (s.timer x).map fun r => { r with countdown := countdownTick r.countdown }) ∧
      SameBlocks { lines := fun _ => true, timers := fun _ => true, sessions := fun _ => true } s t ∧
      SameStore s t ∧ SameDevice s t ∧ SameFilters s t) ∧
  (∀ s : State, s.resetting = none → s.device = .starting → Settled s → s.lag = ⟨0, 0, 0, 0⟩ →
    exec (.tick .whole) s = .next { s with tickCount := s.tickCount + 1 }) ∧
  (∀ (e : TickEvent) (s : State), s.resetting ≠ none → exec (.tick e) s = .next s) ∧
  ∀ s : State, ∃ a b c d, exec (.tick .generated) s = .next a ∧ exec (.tick (.reaches .sessionTable)) a = .next b ∧
    exec (.tick (.reaches .lineTable)) b = .next c ∧ exec (.tick (.reaches .pulsePool)) c = .next d ∧
    exec (.tick .whole) s = .next d

/-- A countdown loaded with N reports N - k after k ticks, and its N-th tick makes its expiry due, which is part of that
tick event: every transaction command finds the part as the outstanding expiries leave it, so that a request after the
expiring tick of a lease meets a session that has lapsed; and a further tick is produced when the owners have taken the one
before it and its expiries are made (R147, R148, R134, R63). That the expiries of one tick which no LEASE_EXPIRY,
WAIT_EXPIRY or PULSE_EXPIRY has ordered before are made in ascending order is the model's choice (log entries 6 and 7). -/
def Obligations.CountdownExpiresAtNthTick : Prop :=
  (∀ N k : Nat, 1 ≤ N →
    (k < N → countdownTick^[k] (countdownLoad N) = ⟨N - k, false⟩) ∧ (countdownTick^[N] (countdownLoad N)).due = true) ∧
  (∀ s : State, ∃ u, runAll expiries s = some u ∧ Settled u ∧ (Settled s → u = s) ∧
    ∀ (c : Instr) (p : Port), linkPort c = some p → exec c s = exec c u) ∧
  ∀ s : State, s.resetting = none →
    ∃ u, runAll (outstandingTicks s.lag ++ expiries) s = some u ∧ Settled u ∧
      u.lag = ⟨0, 0, 0, s.lag.inputMonitor⟩ ∧ exec (.tick .whole) s = exec (.tick .whole) u ∧
      exec (.tick .generated) s = exec (.tick .generated) u

/-- INPUT_SAMPLING filters every line as Table 5-1 says and offers every ATTACHED session, in ascending line order,
one CHANGE record with the stamp of the tick for each confirmed change its watch setting matches. A CHANGE record is
appended at the tail of a queue of fewer than 32 records; a full queue keeps its records and counts the loss, up to 255.
Without an outstanding tick INPUT_SAMPLING changes nothing; so it is during a reset and in STARTING (R88, R89, R90, R91,
R98, R107, R108). Conventions of the model: log entries 1, 6, 8 and 18. -/
def Obligations.SamplingConfirmsChanges : Prop :=
  (∀ (c : ChangeRecord) (q : EventQueue), q.dropped ≤ 255 →
    (q.records.length < 32 → takeChange c q = ⟨q.records ++ [.change c], q.dropped⟩) ∧
    (q.records.length = 32 → takeChange c q = ⟨q.records, if q.dropped < 255 then q.dropped + 1 else 255⟩)) ∧
  (∀ (levels : LineMap) (s : State),
    (s.lag.inputMonitor = 0 → exec (.inputSampling levels) s = .next s) ∧
    (DeviceInv s → s.resetting ≠ none ∨ s.device = .starting → exec (.inputSampling levels) s = .next s)) ∧
  ∀ (levels : LineMap) (s : State), s.lag.inputMonitor ≠ 0 →
    ∃ t, exec (.inputSampling levels) s = .next t ∧
      (∀ l : Line, (t.line l).owners = (s.line l).owners ∧ (t.line l).queue = (s.line l).queue ∧
        (levels.getLsbD l.val = (s.line l).confirmed →
          t.filters[l] = ⟨none, 0⟩ ∧ (t.line l).confirmed = (s.line l).confirmed) ∧
        (levels.getLsbD l.val ≠ (s.line l).confirmed → s.filters[l].candidate = none →
          (s.filterLength l = 0 → t.filters[l] = ⟨none, 0⟩ ∧ (t.line l).confirmed = levels.getLsbD l.val) ∧
          (1 ≤ s.filterLength l →
            t.filters[l] = ⟨some (levels.getLsbD l.val), 1⟩ ∧ (t.line l).confirmed = (s.line l).confirmed)) ∧
        (levels.getLsbD l.val ≠ (s.line l).confirmed → ∀ c, s.filters[l].candidate = some c →
          (s.filters[l].count + 1 < s.filterLength l + 1 →
            t.filters[l] = ⟨some (levels.getLsbD l.val), s.filters[l].count + 1⟩ ∧
            (t.line l).confirmed = (s.line l).confirmed) ∧
          (s.filterLength l + 1 ≤ s.filters[l].count + 1 →
            t.filters[l] = ⟨none, 0⟩ ∧ (t.line l).confirmed = levels.getLsbD l.val))) ∧
      (∀ p, t.queue p =
        if isAttached (s.session p).state then
          (allLines.filter fun l => (t.line l).confirmed ≠ (s.line l).confirmed &&
              watchMatches (s.watch p)[l] (t.line l).confirmed).foldl
            (fun q l => takeChange
              ⟨l, (t.line l).confirmed, (s.tickCount - BitVec.ofNat 32 (s.lag.inputMonitor - 1)).setWidth 16⟩ q)
            (s.queue p)
        else s.queue p) ∧
      t.lag = { s.lag with inputMonitor := s.lag.inputMonitor - 1 } ∧ t.tickCount = s.tickCount ∧
      t.tickPeriod = s.tickPeriod ∧
      SameBlocks { lines := fun _ => true, queues := fun _ => true } s t ∧ SameStore s t ∧ SameDevice s t

/-- The filter of a line acts on each sample as Table 5-1 says: a sample at the confirmed level clears candidate and count;
a differing one becomes the candidate with count 1, or raises the count; at F + 1 the change is confirmed, so that the
stored count never exceeds F. A run of F + 1 differing samples thus confirms the change at its last sample, and no shorter
run confirms one (R90). -/
def Obligations.FilterConfirmsAfterRun : Prop :=
  (∀ (F : Nat) (f : LineFilter) (confirmed sampled : Bool),
    (sampled = confirmed → filterSample F f confirmed sampled = ⟨⟨none, 0⟩, confirmed, false⟩) ∧
    (sampled ≠ confirmed → f.candidate = none →
      (F = 0 → filterSample F f confirmed sampled = ⟨⟨none, 0⟩, sampled, true⟩) ∧
      (1 ≤ F → filterSample F f confirmed sampled = ⟨⟨some sampled, 1⟩, confirmed, false⟩)) ∧
    (sampled ≠ confirmed → ∀ c, f.candidate = some c →
      (FilterWf F confirmed f → c = sampled) ∧
      (f.count + 1 < F + 1 →
        filterSample F f confirmed sampled = ⟨⟨some sampled, f.count + 1⟩, confirmed, false⟩) ∧
      (f.count + 1 = F + 1 → filterSample F f confirmed sampled = ⟨⟨none, 0⟩, sampled, true⟩)) ∧
    (f.count ≤ F → (filterSample F f confirmed sampled).filter.count ≤ F)) ∧
  ∀ (F k : Nat) (confirmed : Bool), k ≤ F →
    filterRun F confirmed k = (if k = 0 then ⟨none, 0⟩ else ⟨some (!confirmed), k⟩) ∧
    (k < F → filterSample F (filterRun F confirmed k) confirmed (!confirmed) =
      ⟨⟨some (!confirmed), k + 1⟩, confirmed, false⟩) ∧
    filterSample F (filterRun F confirmed F) confirmed (!confirmed) = ⟨⟨none, 0⟩, !confirmed, true⟩ ∧
    filterSample F (filterRun F confirmed k) confirmed confirmed = ⟨⟨none, 0⟩, confirmed, false⟩

/-- LEASE_EXPIRY of a session whose lease has run out tears it down and makes it LAPSED with the end reason LAPSED;
the epoch and every port stay (R133, R137, R46). Conventions of the model: log entries 6, 7 and 18. -/
def Obligations.LeaseExpiryLapsesSession : Prop :=
  ∀ (p : Port) (a : Attached) (s : State), AttachedAs p a s → a.lease.due = true →
    ∃ t, exec (.leaseExpiry p) s = .next t ∧ TornDown p (s.stampAt .sessionTable) s t ∧
      t.session p = ⟨.lapsed, (s.session p).epoch, .lapsed⟩ ∧ t.port p = s.port p

/-- WAIT_EXPIRY deletes the wait entry, offers CLAIM_DROPPED to its session, and lets SHARE entries join a SHARED line
when one stands then at the head; only with such a join is there a pad update (R38, R44, R58). Conventions of the
model: log entries 6, 7 and 18. -/
def Obligations.WaitExpiryDropsClaim : Prop :=
  ∀ (l : Line) (p : Port) (w : WaitEntry) (c : Countdown) (s : State), waiterOf p (s.line l) = some w →
    w.countdown = some c → c.due = true →
    ∃ t, exec (.waitExpiry l p) s = .next t ∧
      (let step := headJoin (s.stampAt .lineTable)
        { s.line l with queue := (s.line l).queue.filter fun x => x.session ≠ p }
      t.line l = step.entry ∧ t.pad l = (if step.granted = [] then s.pad l else t.padFor l) ∧
      Delivered (s.stampAt .lineTable)
        (⟨p, l, .claimDropped⟩ :: step.granted.map fun q => ⟨q, l, .granted⟩) s t) ∧
      waiterOf p (t.line l) = none ∧
      Frame { lines := only l, pads := only l, queues := fun _ => true } s t

/-- PULSE_EXPIRY frees the timer, clears the pulse field of the record of its session, brings the pad to the setting
derived then, and offers PULSE_ENDED (R66, R54). Conventions of the model: log entries 6, 7 and 18. -/
def Obligations.PulseExpiryEndsPulse : Prop :=
  ∀ (x : TimerId) (r : PulseTimer) (s : State), s.timer x = some r → r.countdown.due = true →
    ∃ t, exec (.pulseExpiry x) s = .next t ∧ t.timer x = none ∧
      ownerOf r.session (t.line r.line) =
        (ownerOf r.session (s.line r.line)).map (fun v => { v with pulse := none }) ∧
      (∀ q, q ≠ r.session → ownerOf q (t.line r.line) = ownerOf q (s.line r.line)) ∧
      (t.line r.line).queue = (s.line r.line).queue ∧ (t.line r.line).confirmed = (s.line r.line).confirmed ∧
      t.pad r.line = t.padFor r.line ∧
      Delivered (s.stampAt .pulsePool) [⟨r.session, r.line, .pulseEnded⟩] s t ∧
      Frame { lines := only r.line, pads := only r.line, timers := only x, queues := fun _ => true } s t

/-! ### Completions -/

/-- BURN_COMPLETION ends the burn: read back without a difference, the target is VALID with the new generation and the
last burn result OK; otherwise the recorded status stays, the last burn result is BURN_FAILED, and the offset of the
lowest differing byte is reported, 0 for the tag. A RELEASING lock becomes FREE. The response goes to the port that is
still EXECUTING the BURN IMAGE, and is discarded otherwise (R160, R167, R168, R176, R180). Conventions of the model:
log entries 12, 15 and 18. -/
def Obligations.BurnCompletionEndsBurn : Prop :=
  ∀ (b : Burning) (readBack : List Byte) (s : State), s.burn = some b → readBack.length = 128 →
    ∃ t, exec (.burnCompletion readBack) s = .next t ∧ t.burn = none ∧
      t.lock = (if s.lock = .releasing then .free else s.lock) ∧
      (∀ x, x ≠ b.target → t.slot x = s.slot x ∧ t.record x = s.record x) ∧
      (∀ k, 1 ≤ k → k < 128 → imageRead (t.slot b.target) k = readBack.getD k 0) ∧
      (∀ reply, (∀ k, k < 128 → readBack.getD k 0 = imageRead s.buffer k) →
        reply = ⟨.ok, [slotByte b.target] ++ wordBytes b.generation ++ wordBytes s.stamp⟩ →
        imageRead (t.slot b.target) 0 = imageRead s.buffer 0 ∧
        t.record b.target = some (.valid b.generation) ∧ t.lastBurn = .ok b.target b.generation ∧
        (∀ e, (s.port b.port).state = .executing e → e.reply = none →
          t.port b.port = { s.port b.port with state := .ready ⟨e.tag, e.code, reply⟩ })) ∧
      (∀ k reply, k < 128 → readBack.getD k 0 ≠ imageRead s.buffer k →
        (∀ j, 1 ≤ j → j < 128 → readBack.getD j 0 ≠ imageRead s.buffer j → k ≤ j ∧ k ≠ 0) →
        reply = ⟨.burnFailed, [slotByte b.target, countByte k]⟩ →
        imageRead (t.slot b.target) 0 = (if k = 0 then readBack.getD 0 0 else 0xFF#8) ∧
        t.record b.target = s.record b.target ∧ t.lastBurn = .failed b.target b.generation ∧
        (∀ e, (s.port b.port).state = .executing e → e.reply = none →
          t.port b.port = { s.port b.port with state := .ready ⟨e.tag, e.code, reply⟩ })) ∧
      ((∀ e, (s.port b.port).state = .executing e → e.reply ≠ none) →
        t.port b.port =
          { s.port b.port with overtaken := (s.port b.port).overtaken.filter fun x => x.reply.isSome }) ∧
      t.activeSlot = s.activeSlot ∧ t.active = s.active ∧ t.buffer = s.buffer ∧
      SameBlocks { ports := only b.port } s t ∧ SameTime s t ∧ SameDevice s t ∧ SameFilters s t

/-- REQUEST_COMPLETION of the request in the request slot places its response, makes the port RESPONSE_READY and
drives the attention output low; of an overtaken request it discards the response (R176, R180). Conventions of the
model: log entry 12. -/
def Obligations.CompletionPlacesResponse : Prop :=
  (∀ (p : Port) (e : Executing) (reply : Reply) (s : State), (s.port p).state = .executing e → e.reply = some reply →
    ∃ t, exec (.requestCompletion p .current) s = .next t ∧
      t.port p = { s.port p with state := .ready ⟨e.tag, e.code, reply⟩ } ∧ t.attn[p] = true ∧
      Frame { ports := only p } s t) ∧
  ∀ (p : Port) (place : Nat) (e : Executing) (reply : Reply) (s : State), (s.port p).overtaken[place]? = some e →
    e.reply = some reply →
    ∃ t, exec (.requestCompletion p (.overtaken place)) s = .next t ∧
      t.port p = { s.port p with overtaken := (s.port p).overtaken.eraseIdx place } ∧
      (AttnAgrees s → t.attn[p] = s.attn[p]) ∧ Frame { ports := only p } s t

/-! ### The link -/

/-- The falling edge of the chip select latches the status byte with the flags of Table 10-5, for every transaction
command, and Pk_SDO, high-impedance before it, is driven from it on; and a transaction command is its falling edge
followed by the rest. During a device reset a transaction command changes nothing, and neither does a falling edge
while a transaction is open, nor a rest whose falling edge was not recognised (R170, R171, R185, R121, R143; log entry 10). -/
def Obligations.FallingEdgeLatchesStatus : Prop :=
  (∀ (c : Instr) (p : Port) (s : State), linkPort c = some p → s.resetting = none → (s.port p).transaction = none →
    Settled s →
    ∃ t status, exec (spanned .fall c) s = .next t ∧
      t.port p = { s.port p with transaction := some ⟨status, s.device = .starting⟩ } ∧
      sdoPin (s.port p) = .highImpedance ∧ sdoPin (t.port p) = .driven ∧
      (status.getLsbD 7 = true ↔ ∃ r, (s.port p).state = .ready r) ∧
      (status.getLsbD 6 = true ↔ ∃ e, (s.port p).state = .executing e) ∧
      status.getLsbD 5 = (s.port p).busyDrop ∧ status.getLsbD 4 = (s.port p).frameError ∧
      (status.getLsbD 3 = true ↔ (s.queue p).records ≠ []) ∧
      status.extractLsb' 1 2 = deviceStateCode s.device ∧
      (status.getLsbD 0 = true ↔ ∃ a, AttachedAs p a s) ∧
      (AttnAgrees s → t.attn[p] = s.attn[p]) ∧ Frame { ports := only p } s t) ∧
  (∀ (c : Instr) (p : Port) (s t : State), linkPort c = some p → exec (spanned .fall c) s = .next t →
    exec (spanned .whole c) s = exec (spanned .rest c) t) ∧
  ∀ (c : Instr) (p : Port) (s : State), linkPort c = some p → Settled s →
    ((s.port p).transaction ≠ none → exec (spanned .fall c) s = .next s) ∧
    ((s.port p).transaction = none → exec (spanned .rest c) s = .next s) ∧
    (s.resetting ≠ none → (s.port p).transaction = none → ∀ span, exec (spanned span c) s = .next s)

/-- STATUS_POLL shifts out the status byte MSB first, then ones, leaves Pk_SDO high-impedance, and changes no state, in
every port state and in STARTING alike (R170, R179). Conventions of the model: log entries 10 and 11. -/
def Obligations.StatusPollChangesNothing : Prop :=
  ∀ (p : Port) (clocks : Nat) (span : Span) (o : OpenTransaction) (s : State), Opened p s span o →
    ∃ t, exec (.statusPoll p clocks span) s = .next t ∧
      t.port p = { s.port p with transaction := none, sdo := (t.port p).sdo } ∧
      sdoPin (t.port p) = .highImpedance ∧ (t.port p).sdo.length = clocks ∧
      (∀ k, k < clocks → (t.port p).sdo[k]? = some (if k < 8 then o.status.getLsbD (7 - k) else true)) ∧
      (AttnAgrees s → t.attn[p] = s.attn[p]) ∧ Frame { ports := only p } s t

/-- READ_RESPONSE in RESPONSE_READY shifts out the response after the status byte; a read through the CRC byte empties
the slot, a shorter one leaves it. In IDLE and EXECUTING it shifts out the empty frame and changes nothing; Pk_SDO is
high-impedance after it (R170, R177, R178). Conventions of the model: log entries 10 and 11. -/
def Obligations.ReadResponseDeliversOnce : Prop :=
  ∀ (p : Port) (clocks : Nat) (span : Span) (o : OpenTransaction) (s : State), Opened p s span o → o.starting = false →
    8 ≤ clocks →
    (∀ r, (s.port p).state = .ready r →
      ∃ t, exec (.readResponse p clocks span) s = .next t ∧
        (t.port p).sdo = shiftedOut clocks (o.status :: ([r.tag, r.code, resultByte r.reply.result,
          countByte r.reply.payload.length] ++ r.reply.payload ++
          [crc8 ([r.tag, r.code, resultByte r.reply.result, countByte r.reply.payload.length] ++ r.reply.payload)])) ∧
        (8 * (1 + (5 + r.reply.payload.length)) ≤ clocks →
          t.port p = { s.port p with state := .idle, transaction := none, sdo := (t.port p).sdo } ∧
          (t.attn[p] = true ↔ (s.queue p).records ≠ [])) ∧
        (clocks < 8 * (1 + (5 + r.reply.payload.length)) →
          t.port p = { s.port p with transaction := none, sdo := (t.port p).sdo }) ∧
        sdoPin (t.port p) = .highImpedance ∧ Frame { ports := only p } s t) ∧
    ((∀ r, (s.port p).state ≠ .ready r) →
      ∃ t, exec (.readResponse p clocks span) s = .next t ∧
        t.port p = { s.port p with
          transaction := none, sdo := shiftedOut clocks [o.status, 0x00#8, 0x00#8, 0x00#8, 0x00#8, 0x00#8] } ∧
        sdoPin (t.port p) = .highImpedance ∧ (AttnAgrees s → t.attn[p] = s.attn[p]) ∧
        Frame { ports := only p } s t)

/-- FRAME_ERROR sets the frame-error flag and BUSY_DROP the busy-drop flag; the port state, the slots and the other
flag stay, no lease restarts, a request frame is answered with the status byte and then FFH, and Pk_SDO is
high-impedance after it (R170, R173, R174, R132). Conventions of the model: log entries 10, 11 and 23 (the counter of
the free values may advance). -/
def Obligations.LostFramesSetOneFlag : Prop :=
  (∀ (p : Port) (wire : Wire) (span : Span) (o : OpenTransaction) (s : State), Opened p s span o → o.starting = false →
    wireMalformed wire = true →
    ∃ t, exec (.frameError p wire span) s = .next t ∧
      t.port p = { s.port p with frameError := true, transaction := none, sdo := (t.port p).sdo } ∧
      (kindOf wire.bytes = .request →
        (t.port p).sdo = shiftedOut (8 * wire.bytes.length + wire.spare.val) [o.status]) ∧
      sdoPin (t.port p) = .highImpedance ∧ (AttnAgrees s → t.attn[p] = s.attn[p]) ∧
      Frame { ports := only p } { s with freeCount := t.freeCount } t) ∧
  ∀ (p : Port) (code tag : Byte) (payload : List Byte) (span : Span) (o : OpenTransaction) (s : State),
    Opened p s span o → o.starting = false → payload.length ≤ Config.maxPayload → code ≠ requestCode .portReset →
    (s.port p).state ≠ .idle →
    ∃ t, exec (.busyDrop p code tag payload span) s = .next t ∧
      t.port p = { s.port p with
        busyDrop := true, transaction := none, sdo := shiftedOut (8 * (5 + payload.length)) [o.status] } ∧
      sdoPin (t.port p) = .highImpedance ∧ (AttnAgrees s → t.attn[p] = s.attn[p]) ∧
      Frame { ports := only p } s t

/-- STARTING_TRANSACTION, like every transaction command whose falling edge came in STARTING, sets no flag and takes
no request, whatever the master shifts in; it shifts out the status byte, and a read response in it the empty frame,
and leaves Pk_SDO high-impedance (R170, R173, R185). Conventions of the model: log entries 10, 11 and 23 (the counter of the free values may advance,
and what follows the status byte is left open where the kind byte names no kind). -/
def Obligations.StartingTransactionDiscarded : Prop :=
  (∀ (p : Port) (wire : Wire) (span : Span) (o : OpenTransaction) (s : State), Opened p s span o → o.starting = true →
    ∃ t, exec (.startingTransaction p wire span) s = .next t ∧
      (t.port p).sdo.length = 8 * wire.bytes.length + wire.spare.val ∧
      (t.port p).sdo.take 8 = (bitsOfByte o.status).take (t.port p).sdo.length ∧
      (kindOf wire.bytes ≠ .unnamed →
        (t.port p).sdo = shiftedOut (8 * wire.bytes.length + wire.spare.val)
          (if wire.bytes.head? = some 0xA5#8 then [o.status, 0x00#8, 0x00#8, 0x00#8, 0x00#8, 0x00#8] else [o.status])) ∧
      t.port p = { s.port p with transaction := none, sdo := (t.port p).sdo } ∧
      sdoPin (t.port p) = .highImpedance ∧ (AttnAgrees s → t.attn[p] = s.attn[p]) ∧
      Frame { ports := only p } { s with freeCount := t.freeCount } t) ∧
  ∀ (c : Instr) (p : Port) (span : Span) (o : OpenTransaction) (s : State), linkPort c = some p → Opened p s span o →
    o.starting = true →
    ∃ t, exec (spanned span c) s = .next t ∧
      t.port p = { s.port p with transaction := none, sdo := (t.port p).sdo } ∧
      sdoPin (t.port p) = .highImpedance ∧ (AttnAgrees s → t.attn[p] = s.attn[p]) ∧
      Frame { ports := only p } { s with freeCount := t.freeCount } t

/-- UNKNOWN: a taken request whose code names no request is answered UNKNOWN with an empty payload, in every session
state and every device state after STARTING; an ATTACHED session's lease restarts (R175, R132). Conventions of the model:
log entries 7, 10 and 12. -/
def Obligations.UnknownCodeAnswered : Prop :=
  ∀ (p : Port) (code tag : Byte) (payload : List Byte) (span : Span) (s : State), requestOf code = none →
    Takes p span payload s →
    ∃ t, exec (.unknown p code tag payload span) s = .next t ∧ Dismissed p code tag payload ⟨.unknown, []⟩ s t

/-- The checks before the own checks of every request but PORT RESET: the payload length, the session state, and for
the profile requests the device state; a refused request changes its port and its lease alone (R125, R161, R175, R33).
Conventions of the model: log entries 7, 10 and 12. -/
def Obligations.RefusedBeforeOwnChecks : Prop :=
  ∀ (r : Request) (p : Port) (tag : Byte) (payload : List Byte) (span : Span) (s : State), r ≠ .portReset →
    Takes p span payload s →
    (lengthFits r payload.length = false →
      ∃ t, exec (requestInstr r p tag payload span) s = .next t ∧
        Dismissed p (requestCode r) tag payload ⟨.badArg, []⟩ s t) ∧
    (lengthFits r payload.length = true → needsSession r = true →
      ((s.session p).state = .detached →
        ∃ t, exec (requestInstr r p tag payload span) s = .next t ∧
          Dismissed p (requestCode r) tag payload ⟨.noSession, if r = .claim then payload.take 1 else []⟩ s t) ∧
      ((s.session p).state = .lapsed →
        ∃ t, exec (requestInstr r p tag payload span) s = .next t ∧
          Dismissed p (requestCode r) tag payload ⟨.lapsed, if r = .claim then payload.take 1 else []⟩ s t)) ∧
    (lengthFits r payload.length = true → r ∈ [.openEdit, .writeImage, .readImage, .burnImage, .closeEdit] →
      ((s.session p).state = .lapsed →
        ∃ t, exec (requestInstr r p tag payload span) s = .next t ∧
          Dismissed p (requestCode r) tag payload ⟨.lapsed, []⟩ s t) ∧
      ((s.session p).state ≠ .lapsed → r ≠ .readImage → s.device = .operating ∨ s.device = .faulted →
        ∃ t, exec (requestInstr r p tag payload span) s = .next t ∧
          Dismissed p (requestCode r) tag payload ⟨.notMaintenance, []⟩ s t))

/-- The taking of any request of an ATTACHED session but DETACH and PORT RESET, which end it, reloads its lease
countdown with its lease length, whatever its remaining ticks were and whatever the result (R132, R134, R147, R148).
Conventions of the model: log entries 7, 10 and 12. -/
def Obligations.TakingRestartsLease : Prop :=
  ∀ (r : Request) (p : Port) (tag : Byte) (payload : List Byte) (span : Span) (a : Attached) (s : State),
    r ≠ .detach → r ≠ .portReset → Takes p span payload s → AttachedAs p a s →
    ∃ t, exec (requestInstr r p tag payload span) s = .next t ∧
      t.session p = { s.session p with state := .attached { a with lease := ⟨a.leaseLength, false⟩ } }

/-! ### Sessions -/

/-- ATTACH opens a session with the next epoch, the requested grade and the granted lease, and reports them; its
refusals come in the order of R129 (R127, R129, R130, R131). Conventions of the model: log entries 6, 7, 10, 12 and
18. -/
def Obligations.AttachOpensSession : Prop :=
  (∀ (p : Port) (tag g hi lo : Byte) (span : Span) (img : Image) (grade : Grade) (s : State),
    Takes p span [g, hi, lo] s → s.device = .operating → s.active = some img → profileValid img = true →
    profileEnabled img p = true → isAttached (s.session p).state = false → gradeOfByte g = some grade →
    g.toNat ≤ profileGradeCode img p →
    ∃ t lease, exec (.attach p tag [g, hi, lo] span) s = .next t ∧
      t.session p = ⟨.attached ⟨grade, lease, ⟨lease, false⟩⟩, (s.session p).epoch + 1, (s.session p).endReason⟩ ∧
      ((hi ++ lo).toNat = 0 → lease = profileLeaseCeiling img) ∧
      (1 ≤ (hi ++ lo).toNat → (hi ++ lo).toNat < profileLeaseFloor img → lease = profileLeaseFloor img) ∧
      (profileLeaseFloor img ≤ (hi ++ lo).toNat → (hi ++ lo).toNat ≤ profileLeaseCeiling img →
        lease = (hi ++ lo).toNat) ∧
      (profileLeaseCeiling img < (hi ++ lo).toNat → lease = profileLeaseCeiling img) ∧
      Took p (requestCode .attach) tag [g, hi, lo]
        (some ⟨.ok, [g] ++ wordBytes (BitVec.ofNat 16 lease) ++
          [(s.session p).epoch + 1, endReasonByte (s.session p).endReason] ++ wordBytes (s.stampAt .sessionTable)⟩) s t ∧
      Frame { sessions := only p, ports := only p } s t) ∧
  ∀ (p : Port) (tag g hi lo : Byte) (span : Span) (s : State), Takes p span [g, hi, lo] s →
    let refused : Result → Prop := fun r =>
      ∃ t, exec (.attach p tag [g, hi, lo] span) s = .next t ∧
        Dismissed p (requestCode .attach) tag [g, hi, lo] ⟨r, []⟩ s t
    (s.device = .faulted → refused .profileFault) ∧
    (s.device = .maintenance → refused .maintenance) ∧
    (s.device = .operating → ∀ img, s.active = some img →
      (profileEnabled img p = false → refused .disabled) ∧
      (profileEnabled img p = true → isAttached (s.session p).state = true → refused .already) ∧
      (profileEnabled img p = true → isAttached (s.session p).state = false →
        (gradeOfByte g = none → refused .badArg) ∧
        (gradeOfByte g ≠ none → profileGradeCode img p < g.toNat → refused .grade)))

/-- DETACH of an ATTACHED session tears it down and reports the roles and wait entries removed; of a LAPSED one it
clears the state and keeps the end reason; of a DETACHED one it is refused (R135, R137). Conventions of the model: log
entries 6, 7, 10, 12 and 18. -/
def Obligations.DetachEndsSession : Prop :=
  ∀ (p : Port) (tag : Byte) (span : Span) (s : State), Takes p span [] s →
    (∀ a, AttachedAs p a s →
      ∃ t, exec (.detach p tag [] span) s = .next t ∧ TornDown p (s.stampAt .sessionTable) s t ∧
        t.session p = ⟨.detached, (s.session p).epoch, .detached⟩ ∧
        Took p (requestCode .detach) tag [] (some ⟨.ok, [(s.session p).epoch, 1,
          countByte (allLines.countP (s.holds p)), countByte (allLines.countP (s.waits p))]⟩) s t) ∧
    ((s.session p).state = .lapsed →
      ∃ t, exec (.detach p tag [] span) s = .next t ∧
        t.session p = ⟨.detached, (s.session p).epoch, (s.session p).endReason⟩ ∧
        Took p (requestCode .detach) tag [] (some ⟨.ok, [(s.session p).epoch, endReasonByte (s.session p).endReason,
          0, 0]⟩) s t ∧
        Frame { sessions := only p, ports := only p } s t) ∧
    ((s.session p).state = .detached →
      ∃ t, exec (.detach p tag [] span) s = .next t ∧
        Dismissed p (requestCode .detach) tag [] ⟨.noSession, []⟩ s t)

/-- RENEW of an ATTACHED session restarts its lease and reports the lease length and the stamp; nothing else changes
(R136, R132). Conventions of the model: log entries 6, 7, 10, 12 and 18. -/
def Obligations.RenewReportsLease : Prop :=
  ∀ (p : Port) (tag : Byte) (span : Span) (a : Attached) (s : State), Takes p span [] s → AttachedAs p a s →
    ∃ t, exec (.renew p tag [] span) s = .next t ∧
      Attended p a .renew tag []
        (some ⟨.ok, wordBytes (BitVec.ofNat 16 a.leaseLength) ++ wordBytes (s.stampAt .sessionTable)⟩) s t ∧
      Frame { sessions := only p, ports := only p } s t

/-- QUERY_SELF reports the session context, with the lease countdown as the request found it, and changes nothing but
the lease it restarts (R139, R20, R47, R182, Table 10-8). Conventions of the
model: log entries 6, 7, 10, 12 and 18. -/
def Obligations.QuerySelfReportsContext : Prop :=
  ∀ (p : Port) (tag : Byte) (span : Span) (s : State), Takes p span [] s →
    ∃ t, exec (.querySelf p tag [] span) s = .next t ∧
      Dismissed p (requestCode .querySelf) tag []
        ⟨.ok,
          (match (s.session p).state with
            | .detached => [0, 0xFF#8, 0, 0, 0, 0]
            | .attached a => [1, gradeByte a.grade] ++ wordBytes (BitVec.ofNat 16 a.leaseLength) ++
                wordBytes (BitVec.ofNat 16 a.lease.remaining)
            | .lapsed => [2, 0xFF#8, 0, 0, 0, 0]) ++
          [(s.session p).epoch, endReasonByte (s.session p).endReason, countByte (s.claimCount p),
            countByte (s.queue p).records.length, countByte (s.queue p).dropped, countByte (s.stagedSet p).length] ++
          mapBytes (lineMapOf (s.holds p)) ++ mapBytes (lineMapOf (s.waits p)) ++ mapBytes (lineMapOf (s.pulses p)) ++
          wordBytes (s.stampAt .sessionTable)⟩ s t

/-- QUERY_DEVICE reports the device and the Profile Store in every session state, with the fields of the active
profile absent when none is active, and changes nothing but the lease it restarts (R159, R182, Table 10-8).
Conventions of the model: log entries 7, 10 and 12. -/
def Obligations.QueryDeviceReportsStore : Prop :=
  ∀ (p : Port) (tag : Byte) (span : Span) (s : State), Takes p span [] s →
    ∃ t, exec (.queryDevice p tag [] span) s = .next t ∧
      Dismissed p (requestCode .queryDevice) tag []
        ⟨.ok,
          [(deviceStateCode s.device).setWidth 8,
            match s.active with | none => 0xFF#8 | some img => imageRead img 3] ++
          [slotStatusByte s.recordA] ++ wordBytes (BitVec.ofNat 16 (recordedGeneration s.recordA)) ++
          [slotStatusByte s.recordB] ++ wordBytes (BitVec.ofNat 16 (recordedGeneration s.recordB)) ++
          [match s.activeSlot with | none => 0xFF#8 | some .a => 0 | some .b => 1] ++
          (match s.active with
            | none => [0xFF#8, 0xFF#8, 0, 0, 0, 0]
            | some img => [imageRead img 8, imageRead img 9, imageRead img 4, imageRead img 5, imageRead img 6,
                imageRead img 7]) ++
          [match s.lock with | .free => 0x80#8 | .held q => BitVec.ofNat 8 q.val | .releasing => 0x81#8] ++
          [match s.burn with | none => 0 | some b => if b.target = .a then 1 else 2] ++
          (match s.lastBurn with
            | .none => [0, 0xFF#8, 0, 0]
            | .ok x g => [1, slotByte x] ++ wordBytes g
            | .failed x g => [2, slotByte x] ++ wordBytes g) ++
          [countByte (allTimers.countP fun x => (s.timer x).isNone)] ++ wordBytes (s.tickCount.setWidth 16)⟩ s t

/-- PORT_RESET is taken in every port state: it discards an unread response, clears the flags, lets an executing
request join the overtaken ones, ends the session with PORT_RESET if it was ATTACHED or LAPSED, acts on the edit lock
of its port, reports the session state found, the end reason and its two flags (discarded: an unread response, or any
overtaken request still without its completion), and shifts out the status byte and then FFH (R141, R160, R170, R180,
R181; log entry 16). Conventions of the model: log entries 6, 10, 11, 12 and 18. -/
def Obligations.PortResetReturnsPort : Prop :=
  ∀ (p : Port) (tag : Byte) (payload : List Byte) (span : Span) (o : OpenTransaction) (s : State),
    Opened p s span o → o.starting = false → payload.length ≤ Config.maxPayload →
    ∃ t, exec (.portReset p tag payload span) s = .next t ∧
      (t.port p).busyDrop = false ∧ (t.port p).frameError = false ∧ (t.port p).transaction = none ∧
      sdoPin (t.port p) = .highImpedance ∧ (t.port p).sdo = shiftedOut (8 * (5 + payload.length)) [o.status] ∧
      (∀ e, (s.port p).state = .executing e → (t.port p).overtaken = (s.port p).overtaken ++ [e]) ∧
      ((∀ e, (s.port p).state ≠ .executing e) → (t.port p).overtaken = (s.port p).overtaken) ∧
      (t.port p).state = .executing ⟨requestCode .portReset, tag, payload, some ⟨.ok,
        [sessionStateByte (s.session p).state, endReasonByte (t.session p).endReason,
          flagsByte ((s.port p).state ≠ .idle ∨ (s.port p).overtaken ≠ []) (s.burn.any fun b => b.port = p)]⟩⟩ ∧
      (t.session p).epoch = (s.session p).epoch ∧ (t.session p).state = .detached ∧
      ((s.session p).state ≠ .detached → (t.session p).endReason = .portReset) ∧
      ((s.session p).state = .detached → (t.session p).endReason = (s.session p).endReason) ∧
      t.lock = (if s.lock = .held p then (if s.burn = none then .free else .releasing) else s.lock) ∧
      (∀ a, AttachedAs p a s →
        TornDown p (s.stampAt .sessionTable) { s with lock := t.lock } t) ∧
      (isAttached (s.session p).state = false →
        Frame { sessions := only p, ports := only p } { s with lock := t.lock } t)

/-! ### Claims, waits and succession -/

/-- A CLAIM that passes its checks is granted at once on an UNOWNED line, and a SHARE claim joins a SHARED line with
an empty queue: the record is formed from the request, the pad follows, the claim count rises by one (R9, R27, R28,
R33, R47). Conventions of the model: log entries 6, 7, 10, 12 and 18. -/
def Obligations.ClaimGrantedAtOnce : Prop :=
  ∀ (p : Port) (tag : Byte) (payload : List Byte) (span : Span) (x : Attached) (a : ClaimArgs) (l : Line) (want : Want)
    (owners : Owners) (s : State), Takes p span payload s → claimArgs payload = some a → ClaimAdmitted p x a l want s →
    ((s.line l).owners = .unowned ∧
        ((∃ d, want = .exclusive d ∧ owners = .held ⟨p, d, a.stay, s.stampAt .lineTable, none⟩) ∨
          ∃ v, want = .share v ∧ owners = .shared [⟨p, v, a.stay, s.stampAt .lineTable, none⟩]) ∨
      ∃ ss v, (s.line l).owners = .shared ss ∧ (s.line l).queue = [] ∧ want = .share v ∧
        owners = .shared (ss ++ [⟨p, v, a.stay, s.stampAt .lineTable, none⟩])) →
    ∃ t, exec (.claim p tag payload span) s = .next t ∧
      t.line l = { s.line l with owners := owners } ∧ t.pad l = t.padFor l ∧
      t.claimCount p = s.claimCount p + 1 ∧ (∀ q, q ≠ p → t.claimCount q = s.claimCount q) ∧
      Attended p x .claim tag payload
        (some ⟨.granted, [a.line, 0] ++ wordBytes (s.stampAt .lineTable)⟩) s t ∧
      Frame { lines := only l, pads := only l, sessions := only p, ports := only p } s t

/-- A CLAIM that passes its checks and is neither granted at once nor preempts is refused HELD with the no-wait flag,
and queued at the tail otherwise, with its wait limit as countdown (R29, R30, R33, R47). Conventions of the model: log
entries 6, 7, 10, 12 and 18. -/
def Obligations.ClaimWaitsOrIsHeld : Prop :=
  ∀ (p : Port) (tag : Byte) (payload : List Byte) (span : Span) (x : Attached) (a : ClaimArgs) (l : Line) (want : Want)
    (s : State), Takes p span payload s → claimArgs payload = some a → ClaimAdmitted p x a l want s →
    ClaimContended l want a.force s →
    (a.noWait = true →
      ∃ t, exec (.claim p tag payload span) s = .next t ∧
        Attended p x .claim tag payload (some ⟨.held, [a.line]⟩) s t ∧
        Frame { sessions := only p, ports := only p } s t) ∧
    (a.noWait = false →
      ∃ t, exec (.claim p tag payload span) s = .next t ∧
        t.line l = { s.line l with queue := (s.line l).queue ++
          [⟨p, want, a.stay, if a.limit = 0 then none else some ⟨a.limit.toNat, false⟩, s.stampAt .lineTable⟩] } ∧
        t.claimCount p = s.claimCount p + 1 ∧ (∀ q, q ≠ p → t.claimCount q = s.claimCount q) ∧
        Attended p x .claim tag payload
          (some ⟨.queued, [a.line, countByte ((s.line l).queue.length + 1)] ++ wordBytes (s.stampAt .lineTable)⟩) s t ∧
        Frame { lines := only l, sessions := only p, ports := only p } s t)

/-- A forced CLAIM that passes its checks on a line whose owners are all below PRIORITY preempts: their pulses are
cut, those with the stay flag stand at the head of the queue in join order with their resting value or vote and no
countdown, the forcer is holder, one pad update follows, and each displaced owner is offered REVOKED (R11, R30, R31,
R32, R33, R69). Conventions of the model: log entries 6, 7, 10, 12 and 18. -/
def Obligations.ClaimPreempts : Prop :=
  ∀ (p : Port) (tag : Byte) (payload : List Byte) (span : Span) (x : Attached) (a : ClaimArgs) (l : Line) (d : Drive)
    (s : State), Takes p span payload s → claimArgs payload = some a → ClaimAdmitted p x a l (.exclusive d) s →
    a.force = true → (s.line l).owners ≠ .unowned →
    (∀ r, r ∈ ownerViews (s.line l).owners → s.gradeOf r.session ≠ some .priority) →
    ∃ t, exec (.claim p tag payload span) s = .next t ∧
      t.line l = { s.line l with
        owners := .held ⟨p, d, a.stay, s.stampAt .lineTable, none⟩
        queue := ((ownerViews (s.line l).owners).filter fun r => r.stay).map
          (fun r => ⟨r.session, r.want, r.stay, none, s.stampAt .lineTable⟩) ++ (s.line l).queue } ∧
      (∀ y, t.timer y =
        if ∃ r, r ∈ ownerViews (s.line l).owners ∧ r.pulse = some y then none else s.timer y) ∧
      t.pad l = t.padFor l ∧ t.claimCount p = s.claimCount p + 1 ∧
      Delivered (s.stampAt .lineTable)
        ((ownerViews (s.line l).owners).map fun r => ⟨r.session, l, .revoked r.pulse.isSome⟩) s t ∧
      Attended p x .claim tag payload
        (some ⟨.granted, [a.line, countByte (ownerViews (s.line l).owners).length] ++
          wordBytes (s.stampAt .lineTable)⟩) s t ∧
      Frame
        { lines := only l, pads := only l, timers := fun _ => true, queues := fun _ => true, sessions := only p,
          ports := only p } s t

/-- CLAIM of an ATTACHED session is refused in the order of Table 2-1, with the line number as requested, and changes
nothing but the lease (R26, R33). Conventions of the model: log entries 7, 10 and 12. -/
def Obligations.ClaimRefusedInOrder : Prop :=
  ∀ (p : Port) (tag : Byte) (payload : List Byte) (span : Span) (x : Attached) (a : ClaimArgs) (s : State),
    Takes p span payload s → claimArgs payload = some a → AttachedAs p x s →
    let refused : Result → Prop := fun r =>
      ∃ t, exec (.claim p tag payload span) s = .next t ∧
        Dismissed p (requestCode .claim) tag payload ⟨r, [a.line]⟩ s t
    (24 ≤ a.line.toNat → refused .range) ∧
    ∀ l : Line, a.line.toNat = l.val →
      (x.grade = .observer ∨ a.force = true ∧ x.grade ≠ .priority → refused .grade) ∧
      (x.grade ≠ .observer → (a.force = true → x.grade = .priority) →
        (s.permits l p = false → refused .notPermitted) ∧
        (s.permits l p = true → ∀ c, s.lineClass l = some c →
          (claimModeOfByte a.mode = none → refused .mode) ∧
          ∀ m, claimModeOfByte a.mode = some m →
            (modeAllowed c m = false → refused .mode) ∧
            (modeAllowed c m = true →
              (s.hasRole p l = true → refused .already) ∧
              (s.hasRole p l = false →
                (16 ≤ s.claimCount p → refused .budget) ∧
                (s.claimCount p < 16 →
                  (a.force = true → s.forcible l = false → refused .notForcible) ∧
                  ((a.force = true → s.forcible l = true) →
                    (a.force = true ∧ m = .share ∨ m ≠ .holdInput ∧ valueOfByte a.value = none → refused .badArg)))))))

/-- RELEASE of a holder or sharer cuts its pulse, deletes its record with succession when it was the last, makes one
pad update and reports; without a role it is refused NOT_HELD, and RANGE for a line number above 23 (R35, R36, R68).
Conventions of the model: log entries 6, 7, 10, 12 and 18. -/
def Obligations.ReleaseGivesUpRole : Prop :=
  ∀ (p : Port) (tag b : Byte) (span : Span) (x : Attached) (s : State), Takes p span [b] s → AttachedAs p x s →
    (∀ (l : Line) (r : OwnerView), b.toNat = l.val → ownerOf p (s.line l) = some r →
      ∃ t, exec (.release p tag [b] span) s = .next t ∧
        (let step := releaseEntry p (s.stampAt .lineTable) (s.line l)
        t.line l = step.entry ∧ Delivered (s.stampAt .lineTable) (step.granted.map fun q => ⟨q, l, .granted⟩) s t ∧
        Attended p x .release tag [b]
          (some ⟨.ok, [b, if r.pulse.isSome then 1 else 0, lineStateByte step.entry.owners,
            countByte step.granted.length]⟩) s t) ∧
        (∀ y, t.timer y = if r.pulse = some y then none else s.timer y) ∧
        t.pad l = t.padFor l ∧ (EntryWf (s.line l) → t.claimCount p + 1 = s.claimCount p) ∧
        Frame
          { lines := only l, pads := only l, timers := fun _ => true, queues := fun _ => true, sessions := only p,
            ports := only p } s t) ∧
    (∀ l : Line, b.toNat = l.val → ownerOf p (s.line l) = none →
      ∃ t, exec (.release p tag [b] span) s = .next t ∧
        Dismissed p (requestCode .release) tag [b] ⟨.notHeld, []⟩ s t) ∧
    (24 ≤ b.toNat →
      ∃ t, exec (.release p tag [b] span) s = .next t ∧ Dismissed p (requestCode .release) tag [b] ⟨.range, []⟩ s t)

/-- CANCEL of a waiting session deletes its wait entry, with head-join and its pad update when a SHARE entry stands
then at the head of a SHARED line; without a wait entry it is refused NOT_WAITING (R37, R44). Conventions of the
model: log entries 6, 7, 10, 12 and 18. -/
def Obligations.CancelWithdrawsWait : Prop :=
  ∀ (p : Port) (tag b : Byte) (span : Span) (x : Attached) (s : State), Takes p span [b] s → AttachedAs p x s →
    (∀ (l : Line) (w : WaitEntry), b.toNat = l.val → waiterOf p (s.line l) = some w →
      ∃ t, exec (.cancel p tag [b] span) s = .next t ∧
        (let step := headJoin (s.stampAt .lineTable)
          { s.line l with queue := (s.line l).queue.filter fun w => w.session ≠ p }
        t.line l = step.entry ∧ t.pad l = (if step.granted = [] then s.pad l else t.padFor l) ∧
        Delivered (s.stampAt .lineTable) (step.granted.map fun q => ⟨q, l, .granted⟩) s t ∧
        Attended p x .cancel tag [b] (some ⟨.ok, [b, countByte step.granted.length]⟩) s t) ∧
        (EntryWf (s.line l) → t.claimCount p + 1 = s.claimCount p) ∧
        Frame
          { lines := only l, pads := only l, queues := fun _ => true, sessions := only p, ports := only p } s t) ∧
    (∀ l : Line, b.toNat = l.val → waiterOf p (s.line l) = none →
      ∃ t, exec (.cancel p tag [b] span) s = .next t ∧
        Dismissed p (requestCode .cancel) tag [b] ⟨.notWaiting, []⟩ s t) ∧
    (24 ≤ b.toNat →
      ∃ t, exec (.cancel p tag [b] span) s = .next t ∧ Dismissed p (requestCode .cancel) tag [b] ⟨.range, []⟩ s t)

/-- Succession grants an exclusive head alone, or the SHARE entries up to the first exclusive one, or leaves the line
UNOWNED; head-join adds such SHARE entries to a SHARED line and does nothing elsewhere; a release starts succession exactly
when no owner remains. Teardown of a session releases its record on an entry without its wait entries, lets head-join
follow where it only waited, leaves every other entry, and hands to the Drive Resolver the lines it owned and those where
head-join granted; the sessions granted are offered GRANTED in ascending line order, never the session itself (R10, R36,
R41, R42, R43, R44, R46, R107, Tables 2-2 and 3-3). -/
def Obligations.SuccessionAndHeadJoin : Prop :=
  (∀ (p : Port) (now : Stamp) (e : LineEntry),
    (Owns p e →
      tearDownEntry p now e = releaseEntry p now (withoutWaits p e) ∧ tearDownTouches p now e = true) ∧
    (¬ Owns p e → (∃ w, w ∈ e.queue ∧ w.session = p) →
      tearDownEntry p now e = headJoin now (withoutWaits p e) ∧
      (tearDownTouches p now e = true ↔ (headJoin now (withoutWaits p e)).granted ≠ [])) ∧
    (¬ Owns p e → (∀ w, w ∈ e.queue → w.session ≠ p) →
      tearDownEntry p now e = ⟨e, []⟩ ∧ tearDownTouches p now e = false) ∧
    p ∉ (tearDownEntry p now e).granted) ∧
  (∀ (p : Port) (now : Stamp) (s : State),
    tearDownNotices p now s =
      allLines.flatMap fun l => (tearDownEntry p now (s.line l)).granted.map fun q => ⟨q, l, .granted⟩) ∧
  ∀ (now : Stamp) (e : LineEntry),
    (e.queue = [] → succession now e = ⟨{ e with owners := .unowned }, []⟩) ∧
    (∀ p d stay c q rest, e.queue = ⟨p, .exclusive d, stay, c, q⟩ :: rest →
      succession now e = ⟨{ e with owners := .held ⟨p, d, stay, now, none⟩, queue := rest }, [p]⟩) ∧
    (∀ shares rest, e.queue = shares ++ rest → (∀ w, w ∈ shares → isShareEntry w = true) →
      (∀ w, rest.head? = some w → isShareEntry w = false) →
      let joining := shares.filterMap fun w =>
        match w.want with
        | .share v => some (⟨w.session, v, w.stay, now, none⟩ : Sharer)
        | .exclusive _ => none
      joining.map Sharer.session = shares.map WaitEntry.session ∧
      (shares ≠ [] →
        succession now e = ⟨{ e with owners := .shared joining, queue := rest }, shares.map WaitEntry.session⟩) ∧
      (∀ ss, e.owners = .shared ss → ss ≠ [] →
        headJoin now e =
          ⟨{ e with owners := .shared (ss ++ joining), queue := rest }, shares.map WaitEntry.session⟩)) ∧
    ((∀ ss, e.owners ≠ .shared ss) → headJoin now e = ⟨e, []⟩) ∧
    (∀ p h, e.owners = .held h → h.session = p → releaseEntry p now e = succession now { e with owners := .unowned }) ∧
    (∀ p ss, e.owners = .shared ss →
      ((ss.filter fun r => r.session ≠ p) = [] →
        releaseEntry p now e = succession now { e with owners := .unowned }) ∧
      ((ss.filter fun r => r.session ≠ p) ≠ [] →
        releaseEntry p now e = ⟨{ e with owners := .shared (ss.filter fun r => r.session ≠ p) }, []⟩))

/-- QUERY_LINE reports the entry as it stands, and SAMPLE the confirmed levels with the held lines and the effective
values of the session; neither changes anything but the lease (R21, R22, R100, Tables 10-8 and 10-9). Conventions of
the model: log entries 6, 7, 10, 12 and 18. -/
def Obligations.LineReportsChangeNothing : Prop :=
  (∀ (p : Port) (tag b : Byte) (span : Span) (x : Attached) (s : State), Takes p span [b] s → AttachedAs p x s →
    (∀ l : Line, b.toNat = l.val →
      ∃ t, exec (.queryLine p tag [b] span) s = .next t ∧
        Dismissed p (requestCode .queryLine) tag [b]
          ⟨.ok,
            [b, lineStateByte (s.line l).owners, if (s.line l).confirmed then 1 else 0] ++
            wordBytes (s.stampAt .lineTable) ++
            [countByte (ownerViews (s.line l).owners).length, countByte (s.line l).queue.length] ++
            (ownerViews (s.line l).owners).flatMap (fun r =>
              [countByte r.session.val, claimModeByte (modeOfWant r.want), optionalValueByte (valueOfWant r.want),
                optionalValueByte ((valueOfWant r.want).map fun v => s.effective v r.pulse),
                flagsByte r.pulse.isSome r.stay] ++ wordBytes r.grantStamp) ++
            (s.line l).queue.flatMap (fun w =>
              [countByte w.session.val, claimModeByte (modeOfWant w.want), optionalValueByte (valueOfWant w.want),
                flagsByte false w.stay ||| (if w.countdown.isSome then 4 else 0)] ++
              (match w.countdown with
                | some c => wordBytes (BitVec.ofNat 16 c.remaining)
                | none => [0, 0]) ++ wordBytes w.queuedStamp)⟩ s t) ∧
    (24 ≤ b.toNat →
      ∃ t, exec (.queryLine p tag [b] span) s = .next t ∧
        Dismissed p (requestCode .queryLine) tag [b] ⟨.range, []⟩ s t)) ∧
  ∀ (p : Port) (tag : Byte) (span : Span) (x : Attached) (s : State), Takes p span [] s → AttachedAs p x s →
    ∃ t, exec (.sample p tag [] span) s = .next t ∧
      Dismissed p (requestCode .sample) tag []
        ⟨.ok,
          mapBytes (lineMapOf fun l => (s.line l).confirmed) ++ mapBytes (lineMapOf (s.holds p)) ++
          mapBytes (lineMapOf fun l =>
            match ownerOf p (s.line l) with
            | some r => match valueOfWant r.want with
              | some v => s.effective v r.pulse
              | none => false
            | none => false) ++
          wordBytes (s.stampAt .inputMonitor)⟩ s t

/-! ### Staged sets and pulses -/

/-- STAGE appends a new line at the tail of the staged set or replaces the value of a line in its place, and UNSTAGE
removes a line's entry, with their refusals in order; no line, pad or timer changes (R73, R75, R76, R77). Conventions
of the model: log entries 7, 10 and 12. -/
def Obligations.StageAndUnstageEditSet : Prop :=
  (∀ (p : Port) (tag b v : Byte) (span : Span) (x : Attached) (s : State), Takes p span [b, v] s → AttachedAs p x s →
    let refused : Result → Prop := fun r =>
      ∃ t, exec (.stage p tag [b, v] span) s = .next t ∧
        Dismissed p (requestCode .stage) tag [b, v] ⟨r, []⟩ s t
    let staged : List StagedValue → Nat → Byte → Prop := fun set position replaced =>
      ∃ t, exec (.stage p tag [b, v] span) s = .next t ∧ t.stagedSet p = set ∧
        Attended p x .stage tag [b, v] (some ⟨.ok, [b, countByte position, countByte set.length, replaced]⟩) s t ∧
        Frame { staged := only p, sessions := only p, ports := only p } s t
    (24 ≤ b.toNat → refused .range) ∧
    ∀ l : Line, b.toNat = l.val →
      (x.grade = .observer → refused .grade) ∧
      (x.grade ≠ .observer → 2 ≤ v.toNat → refused .badArg) ∧
      (x.grade ≠ .observer → ∀ value : Bool, v = (if value then 1 else 0) →
        ((∀ e, e ∈ s.stagedSet p → e.line ≠ l) → 8 ≤ (s.stagedSet p).length → refused .stageFull) ∧
        ((∀ e, e ∈ s.stagedSet p → e.line ≠ l) → (s.stagedSet p).length < 8 →
          staged (s.stagedSet p ++ [⟨l, value⟩]) ((s.stagedSet p).length + 1) 0) ∧
        ∀ before e after, s.stagedSet p = before ++ e :: after → e.line = l →
          (∀ f, f ∈ before ++ after → f.line ≠ l) → staged (before ++ ⟨l, value⟩ :: after) (before.length + 1) 1)) ∧
  ∀ (p : Port) (tag b : Byte) (span : Span) (x : Attached) (s : State), Takes p span [b] s → AttachedAs p x s →
    (24 ≤ b.toNat →
      ∃ t, exec (.unstage p tag [b] span) s = .next t ∧
        Dismissed p (requestCode .unstage) tag [b] ⟨.range, []⟩ s t) ∧
    ∀ l : Line, b.toNat = l.val →
      (x.grade = .observer →
        ∃ t, exec (.unstage p tag [b] span) s = .next t ∧
          Dismissed p (requestCode .unstage) tag [b] ⟨.grade, []⟩ s t) ∧
      (x.grade ≠ .observer →
        ∃ t, exec (.unstage p tag [b] span) s = .next t ∧
          t.stagedSet p = (s.stagedSet p).filter (fun e => e.line ≠ l) ∧
          Attended p x .unstage tag [b]
            (some ⟨.ok, [b, if ∃ e, e ∈ s.stagedSet p ∧ e.line = l then 0 else 1,
              countByte (t.stagedSet p).length]⟩) s t ∧
          Frame { staged := only p, sessions := only p, ports := only p } s t)

/-- DISCARD empties the requesting session's staged set and reports how many entries it removed; it needs an ATTACHED
session above OBSERVER, changes no line, pad or timer, and restarts the lease whatever its result (R78). Conventions
of the model: log entries 7, 10 and 12. -/
def Obligations.DiscardEmptiesStagedSet : Prop :=
  ∀ (p : Port) (tag : Byte) (span : Span) (s : State), Takes p span [] s →
    (∀ x, AttachedAs p x s → x.grade ≠ .observer →
      ∃ t, exec (.discard p tag [] span) s = .next t ∧ t.stagedSet p = [] ∧
        Attended p x .discard tag [] (some ⟨.ok, [countByte (s.stagedSet p).length]⟩) s t ∧
        Frame { staged := only p, sessions := only p, ports := only p } s t) ∧
    (∀ x, AttachedAs p x s → x.grade = .observer →
      ∃ t, exec (.discard p tag [] span) s = .next t ∧
        Attended p x .discard tag [] (some ⟨.grade, []⟩) s t ∧
        Frame { sessions := only p, ports := only p } s t) ∧
    ((s.session p).state = .detached →
      ∃ t, exec (.discard p tag [] span) s = .next t ∧
        Took p (requestCode .discard) tag [] (some ⟨.noSession, []⟩) s t ∧ Frame { ports := only p } s t) ∧
    ((s.session p).state = .lapsed →
      ∃ t, exec (.discard p tag [] span) s = .next t ∧
        Took p (requestCode .discard) tag [] (some ⟨.lapsed, []⟩) s t ∧ Frame { ports := only p } s t) ∧
    ∀ x payload, payload ≠ [] → Takes p span payload s → AttachedAs p x s →
      ∃ t, exec (.discard p tag payload span) s = .next t ∧
        Attended p x .discard tag payload (some ⟨.badArg, []⟩) s t ∧ Frame { sessions := only p, ports := only p } s t

/-- COMMIT applies every entry of the staged set, when each names a line the session drives or shares, in one pad
update, and empties the set; otherwise it applies none, keeps the set and reports STALE with every failing line (R79,
R80, R81, R82, R83). Conventions of the model: log entries 6, 7, 10, 12 and 18. -/
def Obligations.CommitAppliesAllOrNone : Prop :=
  ∀ (p : Port) (tag : Byte) (span : Span) (x : Attached) (s : State), Takes p span [] s → AttachedAs p x s →
    ((s.stagedSet p).map StagedValue.line).Nodup →
    let inSet : Line → Bool := fun l => (s.stagedSet p).any fun e => e.line = l
    let passes : Line → Bool := fun l =>
      match ownerOf p (s.line l) with
      | some r => (valueOfWant r.want).isSome
      | none => false
    (x.grade = .observer →
      ∃ t, exec (.commit p tag [] span) s = .next t ∧ Dismissed p (requestCode .commit) tag [] ⟨.grade, []⟩ s t) ∧
    (x.grade ≠ .observer → (∀ e, e ∈ s.stagedSet p → passes e.line = true) →
      ∃ t, exec (.commit p tag [] span) s = .next t ∧
        (∀ e, e ∈ s.stagedSet p →
          ownerOf p (t.line e.line) =
            (ownerOf p (s.line e.line)).map (fun r => { r with want := revalued e.value r.want }) ∧
          (∀ q, q ≠ p → ownerOf q (t.line e.line) = ownerOf q (s.line e.line)) ∧
          (t.line e.line).queue = (s.line e.line).queue ∧ (t.line e.line).confirmed = (s.line e.line).confirmed ∧
          t.pad e.line = t.padFor e.line) ∧
        t.stagedSet p = [] ∧
        Attended p x .commit tag []
          (some ⟨.ok, [countByte (s.stagedSet p).length] ++ wordBytes (s.stampAt .lineTable) ++
            mapBytes (lineMapOf fun l => inSet l && s.pulses p l)⟩) s t ∧
        Frame { lines := inSet, pads := inSet, staged := only p, sessions := only p, ports := only p } s t) ∧
    (x.grade ≠ .observer → (∃ e, e ∈ s.stagedSet p ∧ passes e.line = false) →
      ∃ t, exec (.commit p tag [] span) s = .next t ∧
        Dismissed p (requestCode .commit) tag []
          ⟨.stale, mapBytes (lineMapOf fun l => inSet l && !passes l) ++ [countByte (s.stagedSet p).length]⟩ s t)

/-- PULSE takes the lowest-numbered FREE timer, sets the pulse field of the session's record, makes one pad update and
reports the start and end stamps; its refusals come in the order of Table 3-4 (R62, R64, R65). Conventions of the
model: log entries 6, 7, 10, 12 and 18. -/
def Obligations.PulseStartsTimer : Prop :=
  ∀ (p : Port) (tag b v hi lo : Byte) (span : Span) (x : Attached) (s : State), Takes p span [b, v, hi, lo] s →
    AttachedAs p x s →
    let refused : Result → Prop := fun r =>
      ∃ t, exec (.pulse p tag [b, v, hi, lo] span) s = .next t ∧
        Dismissed p (requestCode .pulse) tag [b, v, hi, lo] ⟨r, []⟩ s t
    (24 ≤ b.toNat → refused .range) ∧
    ∀ l : Line, b.toNat = l.val →
      (x.grade = .observer → refused .grade) ∧
      (x.grade ≠ .observer →
        (ownerOf p (s.line l) = none → refused .notHeld) ∧
        ∀ r, ownerOf p (s.line l) = some r →
          (valueOfWant r.want = none → refused .mode) ∧
          (valueOfWant r.want ≠ none →
            (2 ≤ v.toNat ∨ hi ++ lo = 0#16 → refused .badArg) ∧
            (∀ value : Bool, v = (if value then 1 else 0) → hi ++ lo ≠ 0#16 →
              (r.pulse ≠ none → refused .busy) ∧
              (r.pulse = none →
                ((∀ y, s.timer y ≠ none) → refused .noTimer) ∧
                (∀ y, s.timer y = none → (∀ z, z < y → s.timer z ≠ none) →
                  ∃ t, exec (.pulse p tag [b, v, hi, lo] span) s = .next t ∧
                    t.timer y = some ⟨l, p, value, ⟨(hi ++ lo).toNat, false⟩⟩ ∧
                    ownerOf p (t.line l) = some { r with pulse := some y } ∧
                    (∀ q, q ≠ p → ownerOf q (t.line l) = ownerOf q (s.line l)) ∧
                    (t.line l).queue = (s.line l).queue ∧ (t.line l).confirmed = (s.line l).confirmed ∧
                    t.pad l = t.padFor l ∧
                    Attended p x .pulse tag [b, v, hi, lo]
                      (some ⟨.ok, [b, countByte y.val] ++ wordBytes (s.stampAt .pulsePool) ++
                        wordBytes (s.stampAt .pulsePool + (hi ++ lo))⟩) s t ∧
                    Frame
                      { lines := only l, pads := only l, timers := only y, sessions := only p, ports := only p } s t)))))

/-! ### Watching and events -/

/-- WATCH replaces the session's setting of every line of the mask and reports the watched edges and the confirmed
levels; an undefined edge setting is refused BAD_ARG (R96). Conventions of the model: log
entries 6, 7, 10, 12 and 18. -/
def Obligations.WatchSetsEdges : Prop :=
  ∀ (p : Port) (tag b2 b1 b0 e : Byte) (span : Span) (x : Attached) (s : State), Takes p span [b2, b1, b0, e] s →
    AttachedAs p x s →
    (4 ≤ e.toNat →
      ∃ t, exec (.watch p tag [b2, b1, b0, e] span) s = .next t ∧
        Dismissed p (requestCode .watch) tag [b2, b1, b0, e] ⟨.badArg, []⟩ s t) ∧
    ∀ setting, watchOfByte e = some setting →
      ∃ t, exec (.watch p tag [b2, b1, b0, e] span) s = .next t ∧
        (∀ l : Line, (t.watch p)[l] = if (b2 ++ b1 ++ b0).getLsbD l.val then setting else (s.watch p)[l]) ∧
        Attended p x .watch tag [b2, b1, b0, e]
          (some ⟨.ok, mapBytes (lineMapOf fun l => (t.watch p)[l] = .rise ∨ (t.watch p)[l] = .both) ++
            mapBytes (lineMapOf fun l => (t.watch p)[l] = .fall ∨ (t.watch p)[l] = .both) ++
            mapBytes (lineMapOf fun l => (s.line l).confirmed) ++ wordBytes (s.stampAt .inputMonitor)⟩) s t ∧
        Frame { watches := only p, sessions := only p, ports := only p } s t

/-- FETCH_EVENTS removes up to n records from the head of the queue, reports them oldest first with the dropped count
and the remaining depth, and clears the dropped count; n above 7 is refused BAD_ARG (R114, R115). Conventions of the
model: log entries 7, 10 and 12. -/
def Obligations.FetchEventsDrainsQueue : Prop :=
  ∀ (p : Port) (tag n : Byte) (span : Span) (x : Attached) (s : State), Takes p span [n] s → AttachedAs p x s →
    (8 ≤ n.toNat →
      ∃ t, exec (.fetchEvents p tag [n] span) s = .next t ∧
        Dismissed p (requestCode .fetchEvents) tag [n] ⟨.badArg, []⟩ s t) ∧
    (n.toNat ≤ 7 →
      ∃ t, exec (.fetchEvents p tag [n] span) s = .next t ∧
        t.queue p = ⟨(s.queue p).records.drop n.toNat, 0⟩ ∧
        Attended p x .fetchEvents tag [n]
          (some ⟨.ok, [countByte (min n.toNat (s.queue p).records.length), countByte (s.queue p).dropped,
            countByte ((s.queue p).records.length - n.toNat)] ++
            ((s.queue p).records.take n.toNat).flatMap recordBytes⟩) s t ∧
        Frame { queues := only p, sessions := only p, ports := only p } s t)

/-- A NOTICE offered to the queue of an ATTACHED session is folded into the NOTICE of its line in its place when there is
one, and otherwise appended with a fold count of 0, in a full queue in the place of the oldest CHANGE record, which is
counted as dropped (R109, R110). -/
def Obligations.NoticesFoldOrEvict : Prop :=
  ∀ (p : Port) (l : Line) (o : NoticeOutcome) (now : Stamp) (s : State), isAttached (s.session p).state = true →
    QueueWf (s.queue p) →
    ∃ q, (offerNotice now s ⟨p, l, o⟩).queue p = q ∧
      (∀ before n after, (s.queue p).records = before ++ .notice n :: after → n.line = l →
        q.records = before ++ .notice ⟨l, o, if n.folds < 15 then n.folds + 1 else 15, now⟩ :: after ∧
        q.dropped = (s.queue p).dropped) ∧
      ((∀ n, .notice n ∈ (s.queue p).records → n.line ≠ l) →
        ((s.queue p).records.length < 32 →
          q.records = (s.queue p).records ++ [.notice ⟨l, o, 0, now⟩] ∧ q.dropped = (s.queue p).dropped) ∧
        ((s.queue p).records.length = 32 →
          ∃ before c after, (s.queue p).records = before ++ .change c :: after ∧
            (∀ d, .change d ∉ before) ∧ q.records = before ++ after ++ [.notice ⟨l, o, 0, now⟩] ∧
            q.dropped = if (s.queue p).dropped < 255 then (s.queue p).dropped + 1 else 255)) ∧
      Frame { queues := only p } s (offerNotice now s ⟨p, l, o⟩)

/-! ### Profile editing -/

/-- OPEN_EDIT takes a FREE lock and fills the image buffer; CLOSE_EDIT of the editor frees the lock and keeps the
buffer; the refusals EDIT_HELD, BUSY and NOT_EDITOR change nothing (R160, R161, R162, R165). Conventions of the model:
log entries 7, 10 and 12. -/
def Obligations.EditLockTakenAndFreed : Prop :=
  (∀ (p : Port) (tag : Byte) (span : Span) (s : State), Takes p span [] s → s.device = .maintenance →
    (s.session p).state ≠ .lapsed →
    (s.lock = .free →
      ∃ t, exec (.openEdit p tag [] span) s = .next t ∧ t.lock = .held p ∧
        (∀ k, k < 128 → imageRead t.buffer k = match s.active with | some img => imageRead img k | none => 0) ∧
        Performed p (requestCode .openEdit) tag []
          (some ⟨.ok, match s.active with
            | some img => [0, imageRead img 1, imageRead img 2]
            | none => [1, 0, 0]⟩) { s with lock := .held p, buffer := t.buffer } s t) ∧
    (s.lock ≠ .free →
      ∃ t, exec (.openEdit p tag [] span) s = .next t ∧
        Dismissed p (requestCode .openEdit) tag []
          ⟨.editHeld, [match s.lock with | .held q => BitVec.ofNat 8 q.val | _ => 0x81#8]⟩ s t)) ∧
  ∀ (p : Port) (tag : Byte) (span : Span) (s : State), Takes p span [] s → s.device = .maintenance →
    (s.session p).state ≠ .lapsed →
    (s.burn ≠ none →
      ∃ t, exec (.closeEdit p tag [] span) s = .next t ∧
        Dismissed p (requestCode .closeEdit) tag [] ⟨.busy, []⟩ s t) ∧
    (s.burn = none → s.lock ≠ .held p →
      ∃ t, exec (.closeEdit p tag [] span) s = .next t ∧
        Dismissed p (requestCode .closeEdit) tag [] ⟨.notEditor, []⟩ s t) ∧
    (s.burn = none → s.lock = .held p →
      ∃ t, exec (.closeEdit p tag [] span) s = .next t ∧
        Performed p (requestCode .closeEdit) tag [] (some ⟨.ok, []⟩) { s with lock := .free } s t)

/-- WRITE_IMAGE of the editor replaces the bytes of the image buffer from the offset upward and leaves the others;
READ_IMAGE returns bytes of the four sources and changes nothing; their refusals come in order (R161, R163, R164).
Conventions of the model: log entries 7, 10 and 12. -/
def Obligations.ImageBytesWrittenAndRead : Prop :=
  (∀ (p : Port) (tag offset : Byte) (data : List Byte) (span : Span) (s : State), Takes p span (offset :: data) s →
    imageWf s.buffer = true → s.device = .maintenance → (s.session p).state ≠ .lapsed →
    let refused : Result → Prop := fun r =>
      ∃ t, exec (.writeImage p tag (offset :: data) span) s = .next t ∧
        Dismissed p (requestCode .writeImage) tag (offset :: data) ⟨r, []⟩ s t
    (s.burn ≠ none → refused .busy) ∧
    (s.burn = none → s.lock ≠ .held p → refused .notEditor) ∧
    (s.burn = none → s.lock = .held p →
      (data = [] ∨ 24 < data.length → refused .badArg) ∧
      (data ≠ [] → data.length ≤ 24 → 128 < offset.toNat + data.length → refused .range) ∧
      (data ≠ [] → data.length ≤ 24 → offset.toNat + data.length ≤ 128 →
        ∃ t, exec (.writeImage p tag (offset :: data) span) s = .next t ∧
          (∀ k, imageRead t.buffer k =
            if offset.toNat ≤ k ∧ k < offset.toNat + data.length then data.getD (k - offset.toNat) 0
            else imageRead s.buffer k) ∧
          Performed p (requestCode .writeImage) tag (offset :: data)
            (some ⟨.ok, [offset, countByte data.length]⟩) { s with buffer := t.buffer } s t))) ∧
  ∀ (p : Port) (tag source offset count : Byte) (span : Span) (s : State), Takes p span [source, offset, count] s →
    (s.session p).state ≠ .lapsed →
    let answered : Result → List Byte → Prop := fun r bytes =>
      ∃ t, exec (.readImage p tag [source, offset, count] span) s = .next t ∧
        Dismissed p (requestCode .readImage) tag [source, offset, count] ⟨r, bytes⟩ s t
    let served : Image → Prop := fun img =>
      answered .ok ([source, offset, count] ++ (List.range count.toNat).map fun k => imageRead img (offset.toNat + k))
    (4 ≤ source.toNat → answered .badArg []) ∧
    (source.toNat ≤ 3 → count = 0 ∨ 32 < count.toNat → answered .badArg []) ∧
    (source.toNat ≤ 3 → count ≠ 0 → count.toNat ≤ 32 →
      (128 < offset.toNat + count.toNat → answered .range []) ∧
      (offset.toNat + count.toNat ≤ 128 →
        (source = 0 → s.active = none → answered .profileFault []) ∧
        (source = 0 → ∀ img, s.active = some img → served img) ∧
        (source = 3 → s.lock ≠ .held p → answered .notEditor []) ∧
        (source = 3 → s.lock = .held p → served s.buffer) ∧
        (∀ slot, source = (match slot with | SlotId.a => 1 | SlotId.b => 2) →
          ((∃ b, s.burn = some b ∧ b.target = slot) → answered .busy []) ∧
          ((∀ b, s.burn = some b → b.target ≠ slot) → served (s.slot slot)))))

/-- BURN_IMAGE of the editor writes the next generation and the CRC-16 into the buffer and, when the buffer is valid,
starts a burn into the slot that is not active, which leaves the port EXECUTING without a response; otherwise it is
refused (R166, R153, R168). Conventions of the model: log entries 7, 10 and 12. -/
def Obligations.BurnImageStartsBurn : Prop :=
  ∀ (p : Port) (tag : Byte) (span : Span) (s : State), Takes p span [] s → imageWf s.buffer = true →
    s.device = .maintenance →
    (s.session p).state ≠ .lapsed →
    (s.burn ≠ none →
      ∃ t, exec (.burnImage p tag [] span) s = .next t ∧ Dismissed p (requestCode .burnImage) tag [] ⟨.busy, []⟩ s t) ∧
    (s.burn = none → s.lock ≠ .held p →
      ∃ t, exec (.burnImage p tag [] span) s = .next t ∧
        Dismissed p (requestCode .burnImage) tag [] ⟨.notEditor, []⟩ s t) ∧
    (s.burn = none → s.lock = .held p → ∀ generation : Nat,
      generation = max (recordedGeneration s.recordA) (recordedGeneration s.recordB) →
      (65534 ≤ generation →
        ∃ t, exec (.burnImage p tag [] span) s = .next t ∧
          Dismissed p (requestCode .burnImage) tag [] ⟨.genExhausted, wordBytes (BitVec.ofNat 16 generation)⟩ s t) ∧
      (generation < 65534 →
        ∃ t, exec (.burnImage p tag [] span) s = .next t ∧
          profileGeneration t.buffer = BitVec.ofNat 16 (generation + 1) ∧
          imageWord t.buffer 126 = imageCrc t.buffer ∧
          (∀ k, k ≠ 1 → k ≠ 2 → k ≠ 126 → k ≠ 127 → imageRead t.buffer k = imageRead s.buffer k) ∧
          (∀ offset, offendingOffset t.buffer = some offset →
            Performed p (requestCode .burnImage) tag [] (some ⟨.invalidImage, [countByte offset]⟩)
              { s with buffer := t.buffer } s t) ∧
          (profileValid t.buffer = true →
            ∃ target, (s.activeSlot = some .a → target = .b) ∧ (s.activeSlot ≠ some .a → target = .a) ∧
              t.burn = some ⟨target, BitVec.ofNat 16 (generation + 1), p⟩ ∧ t.record target = some .invalid ∧
              (∀ x, x ≠ target → t.record x = s.record x) ∧
              Performed p (requestCode .burnImage) tag [] none
                { s with buffer := t.buffer, burn := t.burn, recordA := t.recordA, recordB := t.recordB } s t)))

end Statements
end

