-- ==== Sys2Proof/Laws/State.lean ====
section
/-! SUPPORT. What each update of the state leaves as it was: one lemma per field and per accessor, and what the changed
part holds afterwards. -/

namespace Sys2Proof.Machine

/-! ### setLine -/

@[simp] theorem setLine_pending (s : State) (l : Line) (e : LineEntry) : (s.setLine l e).pending = s.pending := rfl
@[simp] theorem setLine_resetting (s : State) (l : Line) (e : LineEntry) : (s.setLine l e).resetting = s.resetting := rfl
@[simp] theorem setLine_device (s : State) (l : Line) (e : LineEntry) : (s.setLine l e).device = s.device := rfl
@[simp] theorem setLine_maint (s : State) (l : Line) (e : LineEntry) : (s.setLine l e).maint = s.maint := rfl
@[simp] theorem setLine_tickCount (s : State) (l : Line) (e : LineEntry) : (s.setLine l e).tickCount = s.tickCount := rfl
@[simp] theorem setLine_tickPeriod (s : State) (l : Line) (e : LineEntry) : (s.setLine l e).tickPeriod = s.tickPeriod := rfl
@[simp] theorem setLine_lag (s : State) (l : Line) (e : LineEntry) : (s.setLine l e).lag = s.lag := rfl
@[simp] theorem setLine_pads (s : State) (l : Line) (e : LineEntry) : (s.setLine l e).pads = s.pads := rfl
@[simp] theorem setLine_timers (s : State) (l : Line) (e : LineEntry) : (s.setLine l e).timers = s.timers := rfl
@[simp] theorem setLine_staged (s : State) (l : Line) (e : LineEntry) : (s.setLine l e).staged = s.staged := rfl
@[simp] theorem setLine_filters (s : State) (l : Line) (e : LineEntry) : (s.setLine l e).filters = s.filters := rfl
@[simp] theorem setLine_watches (s : State) (l : Line) (e : LineEntry) : (s.setLine l e).watches = s.watches := rfl
@[simp] theorem setLine_queues (s : State) (l : Line) (e : LineEntry) : (s.setLine l e).queues = s.queues := rfl
@[simp] theorem setLine_attn (s : State) (l : Line) (e : LineEntry) : (s.setLine l e).attn = s.attn := rfl
@[simp] theorem setLine_sessions (s : State) (l : Line) (e : LineEntry) : (s.setLine l e).sessions = s.sessions := rfl
@[simp] theorem setLine_slotA (s : State) (l : Line) (e : LineEntry) : (s.setLine l e).slotA = s.slotA := rfl
@[simp] theorem setLine_slotB (s : State) (l : Line) (e : LineEntry) : (s.setLine l e).slotB = s.slotB := rfl
@[simp] theorem setLine_recordA (s : State) (l : Line) (e : LineEntry) : (s.setLine l e).recordA = s.recordA := rfl
@[simp] theorem setLine_recordB (s : State) (l : Line) (e : LineEntry) : (s.setLine l e).recordB = s.recordB := rfl
@[simp] theorem setLine_activeSlot (s : State) (l : Line) (e : LineEntry) : (s.setLine l e).activeSlot = s.activeSlot := rfl
@[simp] theorem setLine_active (s : State) (l : Line) (e : LineEntry) : (s.setLine l e).active = s.active := rfl
@[simp] theorem setLine_buffer (s : State) (l : Line) (e : LineEntry) : (s.setLine l e).buffer = s.buffer := rfl
@[simp] theorem setLine_lock (s : State) (l : Line) (e : LineEntry) : (s.setLine l e).lock = s.lock := rfl
@[simp] theorem setLine_burn (s : State) (l : Line) (e : LineEntry) : (s.setLine l e).burn = s.burn := rfl
@[simp] theorem setLine_lastBurn (s : State) (l : Line) (e : LineEntry) : (s.setLine l e).lastBurn = s.lastBurn := rfl
@[simp] theorem setLine_ports (s : State) (l : Line) (e : LineEntry) : (s.setLine l e).ports = s.ports := rfl
@[simp] theorem setLine_freeCount (s : State) (l : Line) (e : LineEntry) : (s.setLine l e).freeCount = s.freeCount := rfl
@[simp] theorem pad_setLine (s : State) (l : Line) (e : LineEntry) (k : Line) : (s.setLine l e).pad k = s.pad k := rfl
@[simp] theorem timer_setLine (s : State) (l : Line) (e : LineEntry) (k : TimerId) : (s.setLine l e).timer k = s.timer k := rfl
@[simp] theorem stagedSet_setLine (s : State) (l : Line) (e : LineEntry) (k : Port) : (s.setLine l e).stagedSet k = s.stagedSet k := rfl
@[simp] theorem watch_setLine (s : State) (l : Line) (e : LineEntry) (k : Port) : (s.setLine l e).watch k = s.watch k := rfl
@[simp] theorem queue_setLine (s : State) (l : Line) (e : LineEntry) (k : Port) : (s.setLine l e).queue k = s.queue k := rfl
@[simp] theorem session_setLine (s : State) (l : Line) (e : LineEntry) (k : Port) : (s.setLine l e).session k = s.session k := rfl
@[simp] theorem port_setLine (s : State) (l : Line) (e : LineEntry) (k : Port) : (s.setLine l e).port k = s.port k := rfl

/-! ### setTimer -/

@[simp] theorem setTimer_pending (s : State) (i : TimerId) (x : Option PulseTimer) : (s.setTimer i x).pending = s.pending := rfl
@[simp] theorem setTimer_resetting (s : State) (i : TimerId) (x : Option PulseTimer) : (s.setTimer i x).resetting = s.resetting := rfl
@[simp] theorem setTimer_device (s : State) (i : TimerId) (x : Option PulseTimer) : (s.setTimer i x).device = s.device := rfl
@[simp] theorem setTimer_maint (s : State) (i : TimerId) (x : Option PulseTimer) : (s.setTimer i x).maint = s.maint := rfl
@[simp] theorem setTimer_tickCount (s : State) (i : TimerId) (x : Option PulseTimer) : (s.setTimer i x).tickCount = s.tickCount := rfl
@[simp] theorem setTimer_tickPeriod (s : State) (i : TimerId) (x : Option PulseTimer) : (s.setTimer i x).tickPeriod = s.tickPeriod := rfl
@[simp] theorem setTimer_lag (s : State) (i : TimerId) (x : Option PulseTimer) : (s.setTimer i x).lag = s.lag := rfl
@[simp] theorem setTimer_lines (s : State) (i : TimerId) (x : Option PulseTimer) : (s.setTimer i x).lines = s.lines := rfl
@[simp] theorem setTimer_pads (s : State) (i : TimerId) (x : Option PulseTimer) : (s.setTimer i x).pads = s.pads := rfl
@[simp] theorem setTimer_staged (s : State) (i : TimerId) (x : Option PulseTimer) : (s.setTimer i x).staged = s.staged := rfl
@[simp] theorem setTimer_filters (s : State) (i : TimerId) (x : Option PulseTimer) : (s.setTimer i x).filters = s.filters := rfl
@[simp] theorem setTimer_watches (s : State) (i : TimerId) (x : Option PulseTimer) : (s.setTimer i x).watches = s.watches := rfl
@[simp] theorem setTimer_queues (s : State) (i : TimerId) (x : Option PulseTimer) : (s.setTimer i x).queues = s.queues := rfl
@[simp] theorem setTimer_attn (s : State) (i : TimerId) (x : Option PulseTimer) : (s.setTimer i x).attn = s.attn := rfl
@[simp] theorem setTimer_sessions (s : State) (i : TimerId) (x : Option PulseTimer) : (s.setTimer i x).sessions = s.sessions := rfl
@[simp] theorem setTimer_slotA (s : State) (i : TimerId) (x : Option PulseTimer) : (s.setTimer i x).slotA = s.slotA := rfl
@[simp] theorem setTimer_slotB (s : State) (i : TimerId) (x : Option PulseTimer) : (s.setTimer i x).slotB = s.slotB := rfl
@[simp] theorem setTimer_recordA (s : State) (i : TimerId) (x : Option PulseTimer) : (s.setTimer i x).recordA = s.recordA := rfl
@[simp] theorem setTimer_recordB (s : State) (i : TimerId) (x : Option PulseTimer) : (s.setTimer i x).recordB = s.recordB := rfl
@[simp] theorem setTimer_activeSlot (s : State) (i : TimerId) (x : Option PulseTimer) : (s.setTimer i x).activeSlot = s.activeSlot := rfl
@[simp] theorem setTimer_active (s : State) (i : TimerId) (x : Option PulseTimer) : (s.setTimer i x).active = s.active := rfl
@[simp] theorem setTimer_buffer (s : State) (i : TimerId) (x : Option PulseTimer) : (s.setTimer i x).buffer = s.buffer := rfl
@[simp] theorem setTimer_lock (s : State) (i : TimerId) (x : Option PulseTimer) : (s.setTimer i x).lock = s.lock := rfl
@[simp] theorem setTimer_burn (s : State) (i : TimerId) (x : Option PulseTimer) : (s.setTimer i x).burn = s.burn := rfl
@[simp] theorem setTimer_lastBurn (s : State) (i : TimerId) (x : Option PulseTimer) : (s.setTimer i x).lastBurn = s.lastBurn := rfl
@[simp] theorem setTimer_ports (s : State) (i : TimerId) (x : Option PulseTimer) : (s.setTimer i x).ports = s.ports := rfl
@[simp] theorem setTimer_freeCount (s : State) (i : TimerId) (x : Option PulseTimer) : (s.setTimer i x).freeCount = s.freeCount := rfl
@[simp] theorem line_setTimer (s : State) (i : TimerId) (x : Option PulseTimer) (k : Line) : (s.setTimer i x).line k = s.line k := rfl
@[simp] theorem pad_setTimer (s : State) (i : TimerId) (x : Option PulseTimer) (k : Line) : (s.setTimer i x).pad k = s.pad k := rfl
@[simp] theorem stagedSet_setTimer (s : State) (i : TimerId) (x : Option PulseTimer) (k : Port) : (s.setTimer i x).stagedSet k = s.stagedSet k := rfl
@[simp] theorem watch_setTimer (s : State) (i : TimerId) (x : Option PulseTimer) (k : Port) : (s.setTimer i x).watch k = s.watch k := rfl
@[simp] theorem queue_setTimer (s : State) (i : TimerId) (x : Option PulseTimer) (k : Port) : (s.setTimer i x).queue k = s.queue k := rfl
@[simp] theorem session_setTimer (s : State) (i : TimerId) (x : Option PulseTimer) (k : Port) : (s.setTimer i x).session k = s.session k := rfl
@[simp] theorem port_setTimer (s : State) (i : TimerId) (x : Option PulseTimer) (k : Port) : (s.setTimer i x).port k = s.port k := rfl

/-! ### setStaged -/

@[simp] theorem setStaged_pending (s : State) (p : Port) (x : List StagedValue) : (s.setStaged p x).pending = s.pending := rfl
@[simp] theorem setStaged_resetting (s : State) (p : Port) (x : List StagedValue) : (s.setStaged p x).resetting = s.resetting := rfl
@[simp] theorem setStaged_device (s : State) (p : Port) (x : List StagedValue) : (s.setStaged p x).device = s.device := rfl
@[simp] theorem setStaged_maint (s : State) (p : Port) (x : List StagedValue) : (s.setStaged p x).maint = s.maint := rfl
@[simp] theorem setStaged_tickCount (s : State) (p : Port) (x : List StagedValue) : (s.setStaged p x).tickCount = s.tickCount := rfl
@[simp] theorem setStaged_tickPeriod (s : State) (p : Port) (x : List StagedValue) : (s.setStaged p x).tickPeriod = s.tickPeriod := rfl
@[simp] theorem setStaged_lag (s : State) (p : Port) (x : List StagedValue) : (s.setStaged p x).lag = s.lag := rfl
@[simp] theorem setStaged_lines (s : State) (p : Port) (x : List StagedValue) : (s.setStaged p x).lines = s.lines := rfl
@[simp] theorem setStaged_pads (s : State) (p : Port) (x : List StagedValue) : (s.setStaged p x).pads = s.pads := rfl
@[simp] theorem setStaged_timers (s : State) (p : Port) (x : List StagedValue) : (s.setStaged p x).timers = s.timers := rfl
@[simp] theorem setStaged_filters (s : State) (p : Port) (x : List StagedValue) : (s.setStaged p x).filters = s.filters := rfl
@[simp] theorem setStaged_watches (s : State) (p : Port) (x : List StagedValue) : (s.setStaged p x).watches = s.watches := rfl
@[simp] theorem setStaged_queues (s : State) (p : Port) (x : List StagedValue) : (s.setStaged p x).queues = s.queues := rfl
@[simp] theorem setStaged_attn (s : State) (p : Port) (x : List StagedValue) : (s.setStaged p x).attn = s.attn := rfl
@[simp] theorem setStaged_sessions (s : State) (p : Port) (x : List StagedValue) : (s.setStaged p x).sessions = s.sessions := rfl
@[simp] theorem setStaged_slotA (s : State) (p : Port) (x : List StagedValue) : (s.setStaged p x).slotA = s.slotA := rfl
@[simp] theorem setStaged_slotB (s : State) (p : Port) (x : List StagedValue) : (s.setStaged p x).slotB = s.slotB := rfl
@[simp] theorem setStaged_recordA (s : State) (p : Port) (x : List StagedValue) : (s.setStaged p x).recordA = s.recordA := rfl
@[simp] theorem setStaged_recordB (s : State) (p : Port) (x : List StagedValue) : (s.setStaged p x).recordB = s.recordB := rfl
@[simp] theorem setStaged_activeSlot (s : State) (p : Port) (x : List StagedValue) : (s.setStaged p x).activeSlot = s.activeSlot := rfl
@[simp] theorem setStaged_active (s : State) (p : Port) (x : List StagedValue) : (s.setStaged p x).active = s.active := rfl
@[simp] theorem setStaged_buffer (s : State) (p : Port) (x : List StagedValue) : (s.setStaged p x).buffer = s.buffer := rfl
@[simp] theorem setStaged_lock (s : State) (p : Port) (x : List StagedValue) : (s.setStaged p x).lock = s.lock := rfl
@[simp] theorem setStaged_burn (s : State) (p : Port) (x : List StagedValue) : (s.setStaged p x).burn = s.burn := rfl
@[simp] theorem setStaged_lastBurn (s : State) (p : Port) (x : List StagedValue) : (s.setStaged p x).lastBurn = s.lastBurn := rfl
@[simp] theorem setStaged_ports (s : State) (p : Port) (x : List StagedValue) : (s.setStaged p x).ports = s.ports := rfl
@[simp] theorem setStaged_freeCount (s : State) (p : Port) (x : List StagedValue) : (s.setStaged p x).freeCount = s.freeCount := rfl
@[simp] theorem line_setStaged (s : State) (p : Port) (x : List StagedValue) (k : Line) : (s.setStaged p x).line k = s.line k := rfl
@[simp] theorem pad_setStaged (s : State) (p : Port) (x : List StagedValue) (k : Line) : (s.setStaged p x).pad k = s.pad k := rfl
@[simp] theorem timer_setStaged (s : State) (p : Port) (x : List StagedValue) (k : TimerId) : (s.setStaged p x).timer k = s.timer k := rfl
@[simp] theorem watch_setStaged (s : State) (p : Port) (x : List StagedValue) (k : Port) : (s.setStaged p x).watch k = s.watch k := rfl
@[simp] theorem queue_setStaged (s : State) (p : Port) (x : List StagedValue) (k : Port) : (s.setStaged p x).queue k = s.queue k := rfl
@[simp] theorem session_setStaged (s : State) (p : Port) (x : List StagedValue) (k : Port) : (s.setStaged p x).session k = s.session k := rfl
@[simp] theorem port_setStaged (s : State) (p : Port) (x : List StagedValue) (k : Port) : (s.setStaged p x).port k = s.port k := rfl

/-! ### setWatch -/

@[simp] theorem setWatch_pending (s : State) (p : Port) (x : Vector WatchSetting 24) : (s.setWatch p x).pending = s.pending := rfl
@[simp] theorem setWatch_resetting (s : State) (p : Port) (x : Vector WatchSetting 24) : (s.setWatch p x).resetting = s.resetting := rfl
@[simp] theorem setWatch_device (s : State) (p : Port) (x : Vector WatchSetting 24) : (s.setWatch p x).device = s.device := rfl
@[simp] theorem setWatch_maint (s : State) (p : Port) (x : Vector WatchSetting 24) : (s.setWatch p x).maint = s.maint := rfl
@[simp] theorem setWatch_tickCount (s : State) (p : Port) (x : Vector WatchSetting 24) : (s.setWatch p x).tickCount = s.tickCount := rfl
@[simp] theorem setWatch_tickPeriod (s : State) (p : Port) (x : Vector WatchSetting 24) : (s.setWatch p x).tickPeriod = s.tickPeriod := rfl
@[simp] theorem setWatch_lag (s : State) (p : Port) (x : Vector WatchSetting 24) : (s.setWatch p x).lag = s.lag := rfl
@[simp] theorem setWatch_lines (s : State) (p : Port) (x : Vector WatchSetting 24) : (s.setWatch p x).lines = s.lines := rfl
@[simp] theorem setWatch_pads (s : State) (p : Port) (x : Vector WatchSetting 24) : (s.setWatch p x).pads = s.pads := rfl
@[simp] theorem setWatch_timers (s : State) (p : Port) (x : Vector WatchSetting 24) : (s.setWatch p x).timers = s.timers := rfl
@[simp] theorem setWatch_staged (s : State) (p : Port) (x : Vector WatchSetting 24) : (s.setWatch p x).staged = s.staged := rfl
@[simp] theorem setWatch_filters (s : State) (p : Port) (x : Vector WatchSetting 24) : (s.setWatch p x).filters = s.filters := rfl
@[simp] theorem setWatch_queues (s : State) (p : Port) (x : Vector WatchSetting 24) : (s.setWatch p x).queues = s.queues := rfl
@[simp] theorem setWatch_attn (s : State) (p : Port) (x : Vector WatchSetting 24) : (s.setWatch p x).attn = s.attn := rfl
@[simp] theorem setWatch_sessions (s : State) (p : Port) (x : Vector WatchSetting 24) : (s.setWatch p x).sessions = s.sessions := rfl
@[simp] theorem setWatch_slotA (s : State) (p : Port) (x : Vector WatchSetting 24) : (s.setWatch p x).slotA = s.slotA := rfl
@[simp] theorem setWatch_slotB (s : State) (p : Port) (x : Vector WatchSetting 24) : (s.setWatch p x).slotB = s.slotB := rfl
@[simp] theorem setWatch_recordA (s : State) (p : Port) (x : Vector WatchSetting 24) : (s.setWatch p x).recordA = s.recordA := rfl
@[simp] theorem setWatch_recordB (s : State) (p : Port) (x : Vector WatchSetting 24) : (s.setWatch p x).recordB = s.recordB := rfl
@[simp] theorem setWatch_activeSlot (s : State) (p : Port) (x : Vector WatchSetting 24) : (s.setWatch p x).activeSlot = s.activeSlot := rfl
@[simp] theorem setWatch_active (s : State) (p : Port) (x : Vector WatchSetting 24) : (s.setWatch p x).active = s.active := rfl
@[simp] theorem setWatch_buffer (s : State) (p : Port) (x : Vector WatchSetting 24) : (s.setWatch p x).buffer = s.buffer := rfl
@[simp] theorem setWatch_lock (s : State) (p : Port) (x : Vector WatchSetting 24) : (s.setWatch p x).lock = s.lock := rfl
@[simp] theorem setWatch_burn (s : State) (p : Port) (x : Vector WatchSetting 24) : (s.setWatch p x).burn = s.burn := rfl
@[simp] theorem setWatch_lastBurn (s : State) (p : Port) (x : Vector WatchSetting 24) : (s.setWatch p x).lastBurn = s.lastBurn := rfl
@[simp] theorem setWatch_ports (s : State) (p : Port) (x : Vector WatchSetting 24) : (s.setWatch p x).ports = s.ports := rfl
@[simp] theorem setWatch_freeCount (s : State) (p : Port) (x : Vector WatchSetting 24) : (s.setWatch p x).freeCount = s.freeCount := rfl
@[simp] theorem line_setWatch (s : State) (p : Port) (x : Vector WatchSetting 24) (k : Line) : (s.setWatch p x).line k = s.line k := rfl
@[simp] theorem pad_setWatch (s : State) (p : Port) (x : Vector WatchSetting 24) (k : Line) : (s.setWatch p x).pad k = s.pad k := rfl
@[simp] theorem timer_setWatch (s : State) (p : Port) (x : Vector WatchSetting 24) (k : TimerId) : (s.setWatch p x).timer k = s.timer k := rfl
@[simp] theorem stagedSet_setWatch (s : State) (p : Port) (x : Vector WatchSetting 24) (k : Port) : (s.setWatch p x).stagedSet k = s.stagedSet k := rfl
@[simp] theorem queue_setWatch (s : State) (p : Port) (x : Vector WatchSetting 24) (k : Port) : (s.setWatch p x).queue k = s.queue k := rfl
@[simp] theorem session_setWatch (s : State) (p : Port) (x : Vector WatchSetting 24) (k : Port) : (s.setWatch p x).session k = s.session k := rfl
@[simp] theorem port_setWatch (s : State) (p : Port) (x : Vector WatchSetting 24) (k : Port) : (s.setWatch p x).port k = s.port k := rfl

/-! ### setSession -/

@[simp] theorem setSession_pending (s : State) (p : Port) (x : Session) : (s.setSession p x).pending = s.pending := rfl
@[simp] theorem setSession_resetting (s : State) (p : Port) (x : Session) : (s.setSession p x).resetting = s.resetting := rfl
@[simp] theorem setSession_device (s : State) (p : Port) (x : Session) : (s.setSession p x).device = s.device := rfl
@[simp] theorem setSession_maint (s : State) (p : Port) (x : Session) : (s.setSession p x).maint = s.maint := rfl
@[simp] theorem setSession_tickCount (s : State) (p : Port) (x : Session) : (s.setSession p x).tickCount = s.tickCount := rfl
@[simp] theorem setSession_tickPeriod (s : State) (p : Port) (x : Session) : (s.setSession p x).tickPeriod = s.tickPeriod := rfl
@[simp] theorem setSession_lag (s : State) (p : Port) (x : Session) : (s.setSession p x).lag = s.lag := rfl
@[simp] theorem setSession_lines (s : State) (p : Port) (x : Session) : (s.setSession p x).lines = s.lines := rfl
@[simp] theorem setSession_pads (s : State) (p : Port) (x : Session) : (s.setSession p x).pads = s.pads := rfl
@[simp] theorem setSession_timers (s : State) (p : Port) (x : Session) : (s.setSession p x).timers = s.timers := rfl
@[simp] theorem setSession_staged (s : State) (p : Port) (x : Session) : (s.setSession p x).staged = s.staged := rfl
@[simp] theorem setSession_filters (s : State) (p : Port) (x : Session) : (s.setSession p x).filters = s.filters := rfl
@[simp] theorem setSession_watches (s : State) (p : Port) (x : Session) : (s.setSession p x).watches = s.watches := rfl
@[simp] theorem setSession_queues (s : State) (p : Port) (x : Session) : (s.setSession p x).queues = s.queues := rfl
@[simp] theorem setSession_attn (s : State) (p : Port) (x : Session) : (s.setSession p x).attn = s.attn := rfl
@[simp] theorem setSession_slotA (s : State) (p : Port) (x : Session) : (s.setSession p x).slotA = s.slotA := rfl
@[simp] theorem setSession_slotB (s : State) (p : Port) (x : Session) : (s.setSession p x).slotB = s.slotB := rfl
@[simp] theorem setSession_recordA (s : State) (p : Port) (x : Session) : (s.setSession p x).recordA = s.recordA := rfl
@[simp] theorem setSession_recordB (s : State) (p : Port) (x : Session) : (s.setSession p x).recordB = s.recordB := rfl
@[simp] theorem setSession_activeSlot (s : State) (p : Port) (x : Session) : (s.setSession p x).activeSlot = s.activeSlot := rfl
@[simp] theorem setSession_active (s : State) (p : Port) (x : Session) : (s.setSession p x).active = s.active := rfl
@[simp] theorem setSession_buffer (s : State) (p : Port) (x : Session) : (s.setSession p x).buffer = s.buffer := rfl
@[simp] theorem setSession_lock (s : State) (p : Port) (x : Session) : (s.setSession p x).lock = s.lock := rfl
@[simp] theorem setSession_burn (s : State) (p : Port) (x : Session) : (s.setSession p x).burn = s.burn := rfl
@[simp] theorem setSession_lastBurn (s : State) (p : Port) (x : Session) : (s.setSession p x).lastBurn = s.lastBurn := rfl
@[simp] theorem setSession_ports (s : State) (p : Port) (x : Session) : (s.setSession p x).ports = s.ports := rfl
@[simp] theorem setSession_freeCount (s : State) (p : Port) (x : Session) : (s.setSession p x).freeCount = s.freeCount := rfl
@[simp] theorem line_setSession (s : State) (p : Port) (x : Session) (k : Line) : (s.setSession p x).line k = s.line k := rfl
@[simp] theorem pad_setSession (s : State) (p : Port) (x : Session) (k : Line) : (s.setSession p x).pad k = s.pad k := rfl
@[simp] theorem timer_setSession (s : State) (p : Port) (x : Session) (k : TimerId) : (s.setSession p x).timer k = s.timer k := rfl
@[simp] theorem stagedSet_setSession (s : State) (p : Port) (x : Session) (k : Port) : (s.setSession p x).stagedSet k = s.stagedSet k := rfl
@[simp] theorem watch_setSession (s : State) (p : Port) (x : Session) (k : Port) : (s.setSession p x).watch k = s.watch k := rfl
@[simp] theorem queue_setSession (s : State) (p : Port) (x : Session) (k : Port) : (s.setSession p x).queue k = s.queue k := rfl
@[simp] theorem port_setSession (s : State) (p : Port) (x : Session) (k : Port) : (s.setSession p x).port k = s.port k := rfl

/-! ### putQueue -/

@[simp] theorem putQueue_pending (s : State) (p : Port) (x : EventQueue) : (s.putQueue p x).pending = s.pending := rfl
@[simp] theorem putQueue_resetting (s : State) (p : Port) (x : EventQueue) : (s.putQueue p x).resetting = s.resetting := rfl
@[simp] theorem putQueue_device (s : State) (p : Port) (x : EventQueue) : (s.putQueue p x).device = s.device := rfl
@[simp] theorem putQueue_maint (s : State) (p : Port) (x : EventQueue) : (s.putQueue p x).maint = s.maint := rfl
@[simp] theorem putQueue_tickCount (s : State) (p : Port) (x : EventQueue) : (s.putQueue p x).tickCount = s.tickCount := rfl
@[simp] theorem putQueue_tickPeriod (s : State) (p : Port) (x : EventQueue) : (s.putQueue p x).tickPeriod = s.tickPeriod := rfl
@[simp] theorem putQueue_lag (s : State) (p : Port) (x : EventQueue) : (s.putQueue p x).lag = s.lag := rfl
@[simp] theorem putQueue_lines (s : State) (p : Port) (x : EventQueue) : (s.putQueue p x).lines = s.lines := rfl
@[simp] theorem putQueue_pads (s : State) (p : Port) (x : EventQueue) : (s.putQueue p x).pads = s.pads := rfl
@[simp] theorem putQueue_timers (s : State) (p : Port) (x : EventQueue) : (s.putQueue p x).timers = s.timers := rfl
@[simp] theorem putQueue_staged (s : State) (p : Port) (x : EventQueue) : (s.putQueue p x).staged = s.staged := rfl
@[simp] theorem putQueue_filters (s : State) (p : Port) (x : EventQueue) : (s.putQueue p x).filters = s.filters := rfl
@[simp] theorem putQueue_watches (s : State) (p : Port) (x : EventQueue) : (s.putQueue p x).watches = s.watches := rfl
@[simp] theorem putQueue_sessions (s : State) (p : Port) (x : EventQueue) : (s.putQueue p x).sessions = s.sessions := rfl
@[simp] theorem putQueue_slotA (s : State) (p : Port) (x : EventQueue) : (s.putQueue p x).slotA = s.slotA := rfl
@[simp] theorem putQueue_slotB (s : State) (p : Port) (x : EventQueue) : (s.putQueue p x).slotB = s.slotB := rfl
@[simp] theorem putQueue_recordA (s : State) (p : Port) (x : EventQueue) : (s.putQueue p x).recordA = s.recordA := rfl
@[simp] theorem putQueue_recordB (s : State) (p : Port) (x : EventQueue) : (s.putQueue p x).recordB = s.recordB := rfl
@[simp] theorem putQueue_activeSlot (s : State) (p : Port) (x : EventQueue) : (s.putQueue p x).activeSlot = s.activeSlot := rfl
@[simp] theorem putQueue_active (s : State) (p : Port) (x : EventQueue) : (s.putQueue p x).active = s.active := rfl
@[simp] theorem putQueue_buffer (s : State) (p : Port) (x : EventQueue) : (s.putQueue p x).buffer = s.buffer := rfl
@[simp] theorem putQueue_lock (s : State) (p : Port) (x : EventQueue) : (s.putQueue p x).lock = s.lock := rfl
@[simp] theorem putQueue_burn (s : State) (p : Port) (x : EventQueue) : (s.putQueue p x).burn = s.burn := rfl
@[simp] theorem putQueue_lastBurn (s : State) (p : Port) (x : EventQueue) : (s.putQueue p x).lastBurn = s.lastBurn := rfl
@[simp] theorem putQueue_ports (s : State) (p : Port) (x : EventQueue) : (s.putQueue p x).ports = s.ports := rfl
@[simp] theorem putQueue_freeCount (s : State) (p : Port) (x : EventQueue) : (s.putQueue p x).freeCount = s.freeCount := rfl
@[simp] theorem line_putQueue (s : State) (p : Port) (x : EventQueue) (k : Line) : (s.putQueue p x).line k = s.line k := rfl
@[simp] theorem pad_putQueue (s : State) (p : Port) (x : EventQueue) (k : Line) : (s.putQueue p x).pad k = s.pad k := rfl
@[simp] theorem timer_putQueue (s : State) (p : Port) (x : EventQueue) (k : TimerId) : (s.putQueue p x).timer k = s.timer k := rfl
@[simp] theorem stagedSet_putQueue (s : State) (p : Port) (x : EventQueue) (k : Port) : (s.putQueue p x).stagedSet k = s.stagedSet k := rfl
@[simp] theorem watch_putQueue (s : State) (p : Port) (x : EventQueue) (k : Port) : (s.putQueue p x).watch k = s.watch k := rfl
@[simp] theorem session_putQueue (s : State) (p : Port) (x : EventQueue) (k : Port) : (s.putQueue p x).session k = s.session k := rfl
@[simp] theorem port_putQueue (s : State) (p : Port) (x : EventQueue) (k : Port) : (s.putQueue p x).port k = s.port k := rfl

/-! ### putPort -/

@[simp] theorem putPort_pending (s : State) (p : Port) (x : PortInterface) : (s.putPort p x).pending = s.pending := rfl
@[simp] theorem putPort_resetting (s : State) (p : Port) (x : PortInterface) : (s.putPort p x).resetting = s.resetting := rfl
@[simp] theorem putPort_device (s : State) (p : Port) (x : PortInterface) : (s.putPort p x).device = s.device := rfl
@[simp] theorem putPort_maint (s : State) (p : Port) (x : PortInterface) : (s.putPort p x).maint = s.maint := rfl
@[simp] theorem putPort_tickCount (s : State) (p : Port) (x : PortInterface) : (s.putPort p x).tickCount = s.tickCount := rfl
@[simp] theorem putPort_tickPeriod (s : State) (p : Port) (x : PortInterface) : (s.putPort p x).tickPeriod = s.tickPeriod := rfl
@[simp] theorem putPort_lag (s : State) (p : Port) (x : PortInterface) : (s.putPort p x).lag = s.lag := rfl
@[simp] theorem putPort_lines (s : State) (p : Port) (x : PortInterface) : (s.putPort p x).lines = s.lines := rfl
@[simp] theorem putPort_pads (s : State) (p : Port) (x : PortInterface) : (s.putPort p x).pads = s.pads := rfl
@[simp] theorem putPort_timers (s : State) (p : Port) (x : PortInterface) : (s.putPort p x).timers = s.timers := rfl
@[simp] theorem putPort_staged (s : State) (p : Port) (x : PortInterface) : (s.putPort p x).staged = s.staged := rfl
@[simp] theorem putPort_filters (s : State) (p : Port) (x : PortInterface) : (s.putPort p x).filters = s.filters := rfl
@[simp] theorem putPort_watches (s : State) (p : Port) (x : PortInterface) : (s.putPort p x).watches = s.watches := rfl
@[simp] theorem putPort_queues (s : State) (p : Port) (x : PortInterface) : (s.putPort p x).queues = s.queues := rfl
@[simp] theorem putPort_sessions (s : State) (p : Port) (x : PortInterface) : (s.putPort p x).sessions = s.sessions := rfl
@[simp] theorem putPort_slotA (s : State) (p : Port) (x : PortInterface) : (s.putPort p x).slotA = s.slotA := rfl
@[simp] theorem putPort_slotB (s : State) (p : Port) (x : PortInterface) : (s.putPort p x).slotB = s.slotB := rfl
@[simp] theorem putPort_recordA (s : State) (p : Port) (x : PortInterface) : (s.putPort p x).recordA = s.recordA := rfl
@[simp] theorem putPort_recordB (s : State) (p : Port) (x : PortInterface) : (s.putPort p x).recordB = s.recordB := rfl
@[simp] theorem putPort_activeSlot (s : State) (p : Port) (x : PortInterface) : (s.putPort p x).activeSlot = s.activeSlot := rfl
@[simp] theorem putPort_active (s : State) (p : Port) (x : PortInterface) : (s.putPort p x).active = s.active := rfl
@[simp] theorem putPort_buffer (s : State) (p : Port) (x : PortInterface) : (s.putPort p x).buffer = s.buffer := rfl
@[simp] theorem putPort_lock (s : State) (p : Port) (x : PortInterface) : (s.putPort p x).lock = s.lock := rfl
@[simp] theorem putPort_burn (s : State) (p : Port) (x : PortInterface) : (s.putPort p x).burn = s.burn := rfl
@[simp] theorem putPort_lastBurn (s : State) (p : Port) (x : PortInterface) : (s.putPort p x).lastBurn = s.lastBurn := rfl
@[simp] theorem putPort_freeCount (s : State) (p : Port) (x : PortInterface) : (s.putPort p x).freeCount = s.freeCount := rfl
@[simp] theorem line_putPort (s : State) (p : Port) (x : PortInterface) (k : Line) : (s.putPort p x).line k = s.line k := rfl
@[simp] theorem pad_putPort (s : State) (p : Port) (x : PortInterface) (k : Line) : (s.putPort p x).pad k = s.pad k := rfl
@[simp] theorem timer_putPort (s : State) (p : Port) (x : PortInterface) (k : TimerId) : (s.putPort p x).timer k = s.timer k := rfl
@[simp] theorem stagedSet_putPort (s : State) (p : Port) (x : PortInterface) (k : Port) : (s.putPort p x).stagedSet k = s.stagedSet k := rfl
@[simp] theorem watch_putPort (s : State) (p : Port) (x : PortInterface) (k : Port) : (s.putPort p x).watch k = s.watch k := rfl
@[simp] theorem queue_putPort (s : State) (p : Port) (x : PortInterface) (k : Port) : (s.putPort p x).queue k = s.queue k := rfl
@[simp] theorem session_putPort (s : State) (p : Port) (x : PortInterface) (k : Port) : (s.putPort p x).session k = s.session k := rfl

/-! ### setLines -/

@[simp] theorem setLines_pending (s : State) (f : Line → LineEntry) : (s.setLines f).pending = s.pending := by dsimp only [State.setLines]
@[simp] theorem setLines_resetting (s : State) (f : Line → LineEntry) : (s.setLines f).resetting = s.resetting := by dsimp only [State.setLines]
@[simp] theorem setLines_device (s : State) (f : Line → LineEntry) : (s.setLines f).device = s.device := by dsimp only [State.setLines]
@[simp] theorem setLines_maint (s : State) (f : Line → LineEntry) : (s.setLines f).maint = s.maint := by dsimp only [State.setLines]
@[simp] theorem setLines_tickCount (s : State) (f : Line → LineEntry) : (s.setLines f).tickCount = s.tickCount := by dsimp only [State.setLines]
@[simp] theorem setLines_tickPeriod (s : State) (f : Line → LineEntry) : (s.setLines f).tickPeriod = s.tickPeriod := by dsimp only [State.setLines]
@[simp] theorem setLines_lag (s : State) (f : Line → LineEntry) : (s.setLines f).lag = s.lag := by dsimp only [State.setLines]
@[simp] theorem setLines_pads (s : State) (f : Line → LineEntry) : (s.setLines f).pads = s.pads := by dsimp only [State.setLines]
@[simp] theorem setLines_timers (s : State) (f : Line → LineEntry) : (s.setLines f).timers = s.timers := by dsimp only [State.setLines]
@[simp] theorem setLines_staged (s : State) (f : Line → LineEntry) : (s.setLines f).staged = s.staged := by dsimp only [State.setLines]
@[simp] theorem setLines_filters (s : State) (f : Line → LineEntry) : (s.setLines f).filters = s.filters := by dsimp only [State.setLines]
@[simp] theorem setLines_watches (s : State) (f : Line → LineEntry) : (s.setLines f).watches = s.watches := by dsimp only [State.setLines]
@[simp] theorem setLines_queues (s : State) (f : Line → LineEntry) : (s.setLines f).queues = s.queues := by dsimp only [State.setLines]
@[simp] theorem setLines_attn (s : State) (f : Line → LineEntry) : (s.setLines f).attn = s.attn := by dsimp only [State.setLines]
@[simp] theorem setLines_sessions (s : State) (f : Line → LineEntry) : (s.setLines f).sessions = s.sessions := by dsimp only [State.setLines]
@[simp] theorem setLines_slotA (s : State) (f : Line → LineEntry) : (s.setLines f).slotA = s.slotA := by dsimp only [State.setLines]
@[simp] theorem setLines_slotB (s : State) (f : Line → LineEntry) : (s.setLines f).slotB = s.slotB := by dsimp only [State.setLines]
@[simp] theorem setLines_recordA (s : State) (f : Line → LineEntry) : (s.setLines f).recordA = s.recordA := by dsimp only [State.setLines]
@[simp] theorem setLines_recordB (s : State) (f : Line → LineEntry) : (s.setLines f).recordB = s.recordB := by dsimp only [State.setLines]
@[simp] theorem setLines_activeSlot (s : State) (f : Line → LineEntry) : (s.setLines f).activeSlot = s.activeSlot := by dsimp only [State.setLines]
@[simp] theorem setLines_active (s : State) (f : Line → LineEntry) : (s.setLines f).active = s.active := by dsimp only [State.setLines]
@[simp] theorem setLines_buffer (s : State) (f : Line → LineEntry) : (s.setLines f).buffer = s.buffer := by dsimp only [State.setLines]
@[simp] theorem setLines_lock (s : State) (f : Line → LineEntry) : (s.setLines f).lock = s.lock := by dsimp only [State.setLines]
@[simp] theorem setLines_burn (s : State) (f : Line → LineEntry) : (s.setLines f).burn = s.burn := by dsimp only [State.setLines]
@[simp] theorem setLines_lastBurn (s : State) (f : Line → LineEntry) : (s.setLines f).lastBurn = s.lastBurn := by dsimp only [State.setLines]
@[simp] theorem setLines_ports (s : State) (f : Line → LineEntry) : (s.setLines f).ports = s.ports := by dsimp only [State.setLines]
@[simp] theorem setLines_freeCount (s : State) (f : Line → LineEntry) : (s.setLines f).freeCount = s.freeCount := by dsimp only [State.setLines]
@[simp] theorem pad_setLines (s : State) (f : Line → LineEntry) (k : Line) : (s.setLines f).pad k = s.pad k := by simp only [State.pad, State.setLines]
@[simp] theorem timer_setLines (s : State) (f : Line → LineEntry) (k : TimerId) : (s.setLines f).timer k = s.timer k := by simp only [State.timer, State.setLines]
@[simp] theorem stagedSet_setLines (s : State) (f : Line → LineEntry) (k : Port) : (s.setLines f).stagedSet k = s.stagedSet k := by simp only [State.stagedSet, State.setLines]
@[simp] theorem watch_setLines (s : State) (f : Line → LineEntry) (k : Port) : (s.setLines f).watch k = s.watch k := by simp only [State.watch, State.setLines]
@[simp] theorem queue_setLines (s : State) (f : Line → LineEntry) (k : Port) : (s.setLines f).queue k = s.queue k := by simp only [State.queue, State.setLines]
@[simp] theorem session_setLines (s : State) (f : Line → LineEntry) (k : Port) : (s.setLines f).session k = s.session k := by simp only [State.session, State.setLines]
@[simp] theorem port_setLines (s : State) (f : Line → LineEntry) (k : Port) : (s.setLines f).port k = s.port k := by simp only [State.port, State.setLines]

/-! ### setTimers -/

@[simp] theorem setTimers_pending (s : State) (f : TimerId → Option PulseTimer) : (s.setTimers f).pending = s.pending := by dsimp only [State.setTimers]
@[simp] theorem setTimers_resetting (s : State) (f : TimerId → Option PulseTimer) : (s.setTimers f).resetting = s.resetting := by dsimp only [State.setTimers]
@[simp] theorem setTimers_device (s : State) (f : TimerId → Option PulseTimer) : (s.setTimers f).device = s.device := by dsimp only [State.setTimers]
@[simp] theorem setTimers_maint (s : State) (f : TimerId → Option PulseTimer) : (s.setTimers f).maint = s.maint := by dsimp only [State.setTimers]
@[simp] theorem setTimers_tickCount (s : State) (f : TimerId → Option PulseTimer) : (s.setTimers f).tickCount = s.tickCount := by dsimp only [State.setTimers]
@[simp] theorem setTimers_tickPeriod (s : State) (f : TimerId → Option PulseTimer) : (s.setTimers f).tickPeriod = s.tickPeriod := by dsimp only [State.setTimers]
@[simp] theorem setTimers_lag (s : State) (f : TimerId → Option PulseTimer) : (s.setTimers f).lag = s.lag := by dsimp only [State.setTimers]
@[simp] theorem setTimers_lines (s : State) (f : TimerId → Option PulseTimer) : (s.setTimers f).lines = s.lines := by dsimp only [State.setTimers]
@[simp] theorem setTimers_pads (s : State) (f : TimerId → Option PulseTimer) : (s.setTimers f).pads = s.pads := by dsimp only [State.setTimers]
@[simp] theorem setTimers_staged (s : State) (f : TimerId → Option PulseTimer) : (s.setTimers f).staged = s.staged := by dsimp only [State.setTimers]
@[simp] theorem setTimers_filters (s : State) (f : TimerId → Option PulseTimer) : (s.setTimers f).filters = s.filters := by dsimp only [State.setTimers]
@[simp] theorem setTimers_watches (s : State) (f : TimerId → Option PulseTimer) : (s.setTimers f).watches = s.watches := by dsimp only [State.setTimers]
@[simp] theorem setTimers_queues (s : State) (f : TimerId → Option PulseTimer) : (s.setTimers f).queues = s.queues := by dsimp only [State.setTimers]
@[simp] theorem setTimers_attn (s : State) (f : TimerId → Option PulseTimer) : (s.setTimers f).attn = s.attn := by dsimp only [State.setTimers]
@[simp] theorem setTimers_sessions (s : State) (f : TimerId → Option PulseTimer) : (s.setTimers f).sessions = s.sessions := by dsimp only [State.setTimers]
@[simp] theorem setTimers_slotA (s : State) (f : TimerId → Option PulseTimer) : (s.setTimers f).slotA = s.slotA := by dsimp only [State.setTimers]
@[simp] theorem setTimers_slotB (s : State) (f : TimerId → Option PulseTimer) : (s.setTimers f).slotB = s.slotB := by dsimp only [State.setTimers]
@[simp] theorem setTimers_recordA (s : State) (f : TimerId → Option PulseTimer) : (s.setTimers f).recordA = s.recordA := by dsimp only [State.setTimers]
@[simp] theorem setTimers_recordB (s : State) (f : TimerId → Option PulseTimer) : (s.setTimers f).recordB = s.recordB := by dsimp only [State.setTimers]
@[simp] theorem setTimers_activeSlot (s : State) (f : TimerId → Option PulseTimer) : (s.setTimers f).activeSlot = s.activeSlot := by dsimp only [State.setTimers]
@[simp] theorem setTimers_active (s : State) (f : TimerId → Option PulseTimer) : (s.setTimers f).active = s.active := by dsimp only [State.setTimers]
@[simp] theorem setTimers_buffer (s : State) (f : TimerId → Option PulseTimer) : (s.setTimers f).buffer = s.buffer := by dsimp only [State.setTimers]
@[simp] theorem setTimers_lock (s : State) (f : TimerId → Option PulseTimer) : (s.setTimers f).lock = s.lock := by dsimp only [State.setTimers]
@[simp] theorem setTimers_burn (s : State) (f : TimerId → Option PulseTimer) : (s.setTimers f).burn = s.burn := by dsimp only [State.setTimers]
@[simp] theorem setTimers_lastBurn (s : State) (f : TimerId → Option PulseTimer) : (s.setTimers f).lastBurn = s.lastBurn := by dsimp only [State.setTimers]
@[simp] theorem setTimers_ports (s : State) (f : TimerId → Option PulseTimer) : (s.setTimers f).ports = s.ports := by dsimp only [State.setTimers]
@[simp] theorem setTimers_freeCount (s : State) (f : TimerId → Option PulseTimer) : (s.setTimers f).freeCount = s.freeCount := by dsimp only [State.setTimers]
@[simp] theorem line_setTimers (s : State) (f : TimerId → Option PulseTimer) (k : Line) : (s.setTimers f).line k = s.line k := by simp only [State.line, State.setTimers]
@[simp] theorem pad_setTimers (s : State) (f : TimerId → Option PulseTimer) (k : Line) : (s.setTimers f).pad k = s.pad k := by simp only [State.pad, State.setTimers]
@[simp] theorem stagedSet_setTimers (s : State) (f : TimerId → Option PulseTimer) (k : Port) : (s.setTimers f).stagedSet k = s.stagedSet k := by simp only [State.stagedSet, State.setTimers]
@[simp] theorem watch_setTimers (s : State) (f : TimerId → Option PulseTimer) (k : Port) : (s.setTimers f).watch k = s.watch k := by simp only [State.watch, State.setTimers]
@[simp] theorem queue_setTimers (s : State) (f : TimerId → Option PulseTimer) (k : Port) : (s.setTimers f).queue k = s.queue k := by simp only [State.queue, State.setTimers]
@[simp] theorem session_setTimers (s : State) (f : TimerId → Option PulseTimer) (k : Port) : (s.setTimers f).session k = s.session k := by simp only [State.session, State.setTimers]
@[simp] theorem port_setTimers (s : State) (f : TimerId → Option PulseTimer) (k : Port) : (s.setTimers f).port k = s.port k := by simp only [State.port, State.setTimers]

/-! ### setSessions -/

@[simp] theorem setSessions_pending (s : State) (f : Port → Session) : (s.setSessions f).pending = s.pending := by dsimp only [State.setSessions]
@[simp] theorem setSessions_resetting (s : State) (f : Port → Session) : (s.setSessions f).resetting = s.resetting := by dsimp only [State.setSessions]
@[simp] theorem setSessions_device (s : State) (f : Port → Session) : (s.setSessions f).device = s.device := by dsimp only [State.setSessions]
@[simp] theorem setSessions_maint (s : State) (f : Port → Session) : (s.setSessions f).maint = s.maint := by dsimp only [State.setSessions]
@[simp] theorem setSessions_tickCount (s : State) (f : Port → Session) : (s.setSessions f).tickCount = s.tickCount := by dsimp only [State.setSessions]
@[simp] theorem setSessions_tickPeriod (s : State) (f : Port → Session) : (s.setSessions f).tickPeriod = s.tickPeriod := by dsimp only [State.setSessions]
@[simp] theorem setSessions_lag (s : State) (f : Port → Session) : (s.setSessions f).lag = s.lag := by dsimp only [State.setSessions]
@[simp] theorem setSessions_lines (s : State) (f : Port → Session) : (s.setSessions f).lines = s.lines := by dsimp only [State.setSessions]
@[simp] theorem setSessions_pads (s : State) (f : Port → Session) : (s.setSessions f).pads = s.pads := by dsimp only [State.setSessions]
@[simp] theorem setSessions_timers (s : State) (f : Port → Session) : (s.setSessions f).timers = s.timers := by dsimp only [State.setSessions]
@[simp] theorem setSessions_staged (s : State) (f : Port → Session) : (s.setSessions f).staged = s.staged := by dsimp only [State.setSessions]
@[simp] theorem setSessions_filters (s : State) (f : Port → Session) : (s.setSessions f).filters = s.filters := by dsimp only [State.setSessions]
@[simp] theorem setSessions_watches (s : State) (f : Port → Session) : (s.setSessions f).watches = s.watches := by dsimp only [State.setSessions]
@[simp] theorem setSessions_queues (s : State) (f : Port → Session) : (s.setSessions f).queues = s.queues := by dsimp only [State.setSessions]
@[simp] theorem setSessions_attn (s : State) (f : Port → Session) : (s.setSessions f).attn = s.attn := by dsimp only [State.setSessions]
@[simp] theorem setSessions_slotA (s : State) (f : Port → Session) : (s.setSessions f).slotA = s.slotA := by dsimp only [State.setSessions]
@[simp] theorem setSessions_slotB (s : State) (f : Port → Session) : (s.setSessions f).slotB = s.slotB := by dsimp only [State.setSessions]
@[simp] theorem setSessions_recordA (s : State) (f : Port → Session) : (s.setSessions f).recordA = s.recordA := by dsimp only [State.setSessions]
@[simp] theorem setSessions_recordB (s : State) (f : Port → Session) : (s.setSessions f).recordB = s.recordB := by dsimp only [State.setSessions]
@[simp] theorem setSessions_activeSlot (s : State) (f : Port → Session) : (s.setSessions f).activeSlot = s.activeSlot := by dsimp only [State.setSessions]
@[simp] theorem setSessions_active (s : State) (f : Port → Session) : (s.setSessions f).active = s.active := by dsimp only [State.setSessions]
@[simp] theorem setSessions_buffer (s : State) (f : Port → Session) : (s.setSessions f).buffer = s.buffer := by dsimp only [State.setSessions]
@[simp] theorem setSessions_lock (s : State) (f : Port → Session) : (s.setSessions f).lock = s.lock := by dsimp only [State.setSessions]
@[simp] theorem setSessions_burn (s : State) (f : Port → Session) : (s.setSessions f).burn = s.burn := by dsimp only [State.setSessions]
@[simp] theorem setSessions_lastBurn (s : State) (f : Port → Session) : (s.setSessions f).lastBurn = s.lastBurn := by dsimp only [State.setSessions]
@[simp] theorem setSessions_ports (s : State) (f : Port → Session) : (s.setSessions f).ports = s.ports := by dsimp only [State.setSessions]
@[simp] theorem setSessions_freeCount (s : State) (f : Port → Session) : (s.setSessions f).freeCount = s.freeCount := by dsimp only [State.setSessions]
@[simp] theorem line_setSessions (s : State) (f : Port → Session) (k : Line) : (s.setSessions f).line k = s.line k := by simp only [State.line, State.setSessions]
@[simp] theorem pad_setSessions (s : State) (f : Port → Session) (k : Line) : (s.setSessions f).pad k = s.pad k := by simp only [State.pad, State.setSessions]
@[simp] theorem timer_setSessions (s : State) (f : Port → Session) (k : TimerId) : (s.setSessions f).timer k = s.timer k := by simp only [State.timer, State.setSessions]
@[simp] theorem stagedSet_setSessions (s : State) (f : Port → Session) (k : Port) : (s.setSessions f).stagedSet k = s.stagedSet k := by simp only [State.stagedSet, State.setSessions]
@[simp] theorem watch_setSessions (s : State) (f : Port → Session) (k : Port) : (s.setSessions f).watch k = s.watch k := by simp only [State.watch, State.setSessions]
@[simp] theorem queue_setSessions (s : State) (f : Port → Session) (k : Port) : (s.setSessions f).queue k = s.queue k := by simp only [State.queue, State.setSessions]
@[simp] theorem port_setSessions (s : State) (f : Port → Session) (k : Port) : (s.setSessions f).port k = s.port k := by simp only [State.port, State.setSessions]

/-! ### setPads -/

@[simp] theorem setPads_pending (s : State) (f : Line → PadSetting) : (s.setPads f).pending = s.pending := by dsimp only [State.setPads]
@[simp] theorem setPads_resetting (s : State) (f : Line → PadSetting) : (s.setPads f).resetting = s.resetting := by dsimp only [State.setPads]
@[simp] theorem setPads_device (s : State) (f : Line → PadSetting) : (s.setPads f).device = s.device := by dsimp only [State.setPads]
@[simp] theorem setPads_maint (s : State) (f : Line → PadSetting) : (s.setPads f).maint = s.maint := by dsimp only [State.setPads]
@[simp] theorem setPads_tickCount (s : State) (f : Line → PadSetting) : (s.setPads f).tickCount = s.tickCount := by dsimp only [State.setPads]
@[simp] theorem setPads_tickPeriod (s : State) (f : Line → PadSetting) : (s.setPads f).tickPeriod = s.tickPeriod := by dsimp only [State.setPads]
@[simp] theorem setPads_lag (s : State) (f : Line → PadSetting) : (s.setPads f).lag = s.lag := by dsimp only [State.setPads]
@[simp] theorem setPads_lines (s : State) (f : Line → PadSetting) : (s.setPads f).lines = s.lines := by dsimp only [State.setPads]
@[simp] theorem setPads_timers (s : State) (f : Line → PadSetting) : (s.setPads f).timers = s.timers := by dsimp only [State.setPads]
@[simp] theorem setPads_staged (s : State) (f : Line → PadSetting) : (s.setPads f).staged = s.staged := by dsimp only [State.setPads]
@[simp] theorem setPads_filters (s : State) (f : Line → PadSetting) : (s.setPads f).filters = s.filters := by dsimp only [State.setPads]
@[simp] theorem setPads_watches (s : State) (f : Line → PadSetting) : (s.setPads f).watches = s.watches := by dsimp only [State.setPads]
@[simp] theorem setPads_queues (s : State) (f : Line → PadSetting) : (s.setPads f).queues = s.queues := by dsimp only [State.setPads]
@[simp] theorem setPads_attn (s : State) (f : Line → PadSetting) : (s.setPads f).attn = s.attn := by dsimp only [State.setPads]
@[simp] theorem setPads_sessions (s : State) (f : Line → PadSetting) : (s.setPads f).sessions = s.sessions := by dsimp only [State.setPads]
@[simp] theorem setPads_slotA (s : State) (f : Line → PadSetting) : (s.setPads f).slotA = s.slotA := by dsimp only [State.setPads]
@[simp] theorem setPads_slotB (s : State) (f : Line → PadSetting) : (s.setPads f).slotB = s.slotB := by dsimp only [State.setPads]
@[simp] theorem setPads_recordA (s : State) (f : Line → PadSetting) : (s.setPads f).recordA = s.recordA := by dsimp only [State.setPads]
@[simp] theorem setPads_recordB (s : State) (f : Line → PadSetting) : (s.setPads f).recordB = s.recordB := by dsimp only [State.setPads]
@[simp] theorem setPads_activeSlot (s : State) (f : Line → PadSetting) : (s.setPads f).activeSlot = s.activeSlot := by dsimp only [State.setPads]
@[simp] theorem setPads_active (s : State) (f : Line → PadSetting) : (s.setPads f).active = s.active := by dsimp only [State.setPads]
@[simp] theorem setPads_buffer (s : State) (f : Line → PadSetting) : (s.setPads f).buffer = s.buffer := by dsimp only [State.setPads]
@[simp] theorem setPads_lock (s : State) (f : Line → PadSetting) : (s.setPads f).lock = s.lock := by dsimp only [State.setPads]
@[simp] theorem setPads_burn (s : State) (f : Line → PadSetting) : (s.setPads f).burn = s.burn := by dsimp only [State.setPads]
@[simp] theorem setPads_lastBurn (s : State) (f : Line → PadSetting) : (s.setPads f).lastBurn = s.lastBurn := by dsimp only [State.setPads]
@[simp] theorem setPads_ports (s : State) (f : Line → PadSetting) : (s.setPads f).ports = s.ports := by dsimp only [State.setPads]
@[simp] theorem setPads_freeCount (s : State) (f : Line → PadSetting) : (s.setPads f).freeCount = s.freeCount := by dsimp only [State.setPads]
@[simp] theorem line_setPads (s : State) (f : Line → PadSetting) (k : Line) : (s.setPads f).line k = s.line k := by simp only [State.line, State.setPads]
@[simp] theorem timer_setPads (s : State) (f : Line → PadSetting) (k : TimerId) : (s.setPads f).timer k = s.timer k := by simp only [State.timer, State.setPads]
@[simp] theorem stagedSet_setPads (s : State) (f : Line → PadSetting) (k : Port) : (s.setPads f).stagedSet k = s.stagedSet k := by simp only [State.stagedSet, State.setPads]
@[simp] theorem watch_setPads (s : State) (f : Line → PadSetting) (k : Port) : (s.setPads f).watch k = s.watch k := by simp only [State.watch, State.setPads]
@[simp] theorem queue_setPads (s : State) (f : Line → PadSetting) (k : Port) : (s.setPads f).queue k = s.queue k := by simp only [State.queue, State.setPads]
@[simp] theorem session_setPads (s : State) (f : Line → PadSetting) (k : Port) : (s.setPads f).session k = s.session k := by simp only [State.session, State.setPads]
@[simp] theorem port_setPads (s : State) (f : Line → PadSetting) (k : Port) : (s.setPads f).port k = s.port k := by simp only [State.port, State.setPads]

/-! ### padUpdate -/

@[simp] theorem padUpdate_pending (f : Line → Bool) (s : State) : (padUpdate f s).pending = s.pending := by simp only [padUpdate, setPads_pending]
@[simp] theorem padUpdate_resetting (f : Line → Bool) (s : State) : (padUpdate f s).resetting = s.resetting := by simp only [padUpdate, setPads_resetting]
@[simp] theorem padUpdate_device (f : Line → Bool) (s : State) : (padUpdate f s).device = s.device := by simp only [padUpdate, setPads_device]
@[simp] theorem padUpdate_maint (f : Line → Bool) (s : State) : (padUpdate f s).maint = s.maint := by simp only [padUpdate, setPads_maint]
@[simp] theorem padUpdate_tickCount (f : Line → Bool) (s : State) : (padUpdate f s).tickCount = s.tickCount := by simp only [padUpdate, setPads_tickCount]
@[simp] theorem padUpdate_tickPeriod (f : Line → Bool) (s : State) : (padUpdate f s).tickPeriod = s.tickPeriod := by simp only [padUpdate, setPads_tickPeriod]
@[simp] theorem padUpdate_lag (f : Line → Bool) (s : State) : (padUpdate f s).lag = s.lag := by simp only [padUpdate, setPads_lag]
@[simp] theorem padUpdate_lines (f : Line → Bool) (s : State) : (padUpdate f s).lines = s.lines := by simp only [padUpdate, setPads_lines]
@[simp] theorem padUpdate_timers (f : Line → Bool) (s : State) : (padUpdate f s).timers = s.timers := by simp only [padUpdate, setPads_timers]
@[simp] theorem padUpdate_staged (f : Line → Bool) (s : State) : (padUpdate f s).staged = s.staged := by simp only [padUpdate, setPads_staged]
@[simp] theorem padUpdate_filters (f : Line → Bool) (s : State) : (padUpdate f s).filters = s.filters := by simp only [padUpdate, setPads_filters]
@[simp] theorem padUpdate_watches (f : Line → Bool) (s : State) : (padUpdate f s).watches = s.watches := by simp only [padUpdate, setPads_watches]
@[simp] theorem padUpdate_queues (f : Line → Bool) (s : State) : (padUpdate f s).queues = s.queues := by simp only [padUpdate, setPads_queues]
@[simp] theorem padUpdate_attn (f : Line → Bool) (s : State) : (padUpdate f s).attn = s.attn := by simp only [padUpdate, setPads_attn]
@[simp] theorem padUpdate_sessions (f : Line → Bool) (s : State) : (padUpdate f s).sessions = s.sessions := by simp only [padUpdate, setPads_sessions]
@[simp] theorem padUpdate_slotA (f : Line → Bool) (s : State) : (padUpdate f s).slotA = s.slotA := by simp only [padUpdate, setPads_slotA]
@[simp] theorem padUpdate_slotB (f : Line → Bool) (s : State) : (padUpdate f s).slotB = s.slotB := by simp only [padUpdate, setPads_slotB]
@[simp] theorem padUpdate_recordA (f : Line → Bool) (s : State) : (padUpdate f s).recordA = s.recordA := by simp only [padUpdate, setPads_recordA]
@[simp] theorem padUpdate_recordB (f : Line → Bool) (s : State) : (padUpdate f s).recordB = s.recordB := by simp only [padUpdate, setPads_recordB]
@[simp] theorem padUpdate_activeSlot (f : Line → Bool) (s : State) : (padUpdate f s).activeSlot = s.activeSlot := by simp only [padUpdate, setPads_activeSlot]
@[simp] theorem padUpdate_active (f : Line → Bool) (s : State) : (padUpdate f s).active = s.active := by simp only [padUpdate, setPads_active]
@[simp] theorem padUpdate_buffer (f : Line → Bool) (s : State) : (padUpdate f s).buffer = s.buffer := by simp only [padUpdate, setPads_buffer]
@[simp] theorem padUpdate_lock (f : Line → Bool) (s : State) : (padUpdate f s).lock = s.lock := by simp only [padUpdate, setPads_lock]
@[simp] theorem padUpdate_burn (f : Line → Bool) (s : State) : (padUpdate f s).burn = s.burn := by simp only [padUpdate, setPads_burn]
@[simp] theorem padUpdate_lastBurn (f : Line → Bool) (s : State) : (padUpdate f s).lastBurn = s.lastBurn := by simp only [padUpdate, setPads_lastBurn]
@[simp] theorem padUpdate_ports (f : Line → Bool) (s : State) : (padUpdate f s).ports = s.ports := by simp only [padUpdate, setPads_ports]
@[simp] theorem padUpdate_freeCount (f : Line → Bool) (s : State) : (padUpdate f s).freeCount = s.freeCount := by simp only [padUpdate, setPads_freeCount]
@[simp] theorem line_padUpdate (f : Line → Bool) (s : State) (k : Line) : (padUpdate f s).line k = s.line k := by simp [State.line]
@[simp] theorem timer_padUpdate (f : Line → Bool) (s : State) (k : TimerId) : (padUpdate f s).timer k = s.timer k := by simp [State.timer]
@[simp] theorem stagedSet_padUpdate (f : Line → Bool) (s : State) (k : Port) : (padUpdate f s).stagedSet k = s.stagedSet k := by simp [State.stagedSet]
@[simp] theorem watch_padUpdate (f : Line → Bool) (s : State) (k : Port) : (padUpdate f s).watch k = s.watch k := by simp [State.watch]
@[simp] theorem queue_padUpdate (f : Line → Bool) (s : State) (k : Port) : (padUpdate f s).queue k = s.queue k := by simp [State.queue]
@[simp] theorem session_padUpdate (f : Line → Bool) (s : State) (k : Port) : (padUpdate f s).session k = s.session k := by simp [State.session]
@[simp] theorem port_padUpdate (f : Line → Bool) (s : State) (k : Port) : (padUpdate f s).port k = s.port k := by simp [State.port]

/-! ### freeTimers -/

@[simp] theorem freeTimers_pending (f : TimerId → Bool) (s : State) : (freeTimers f s).pending = s.pending := by simp only [freeTimers, setTimers_pending]
@[simp] theorem freeTimers_resetting (f : TimerId → Bool) (s : State) : (freeTimers f s).resetting = s.resetting := by simp only [freeTimers, setTimers_resetting]
@[simp] theorem freeTimers_device (f : TimerId → Bool) (s : State) : (freeTimers f s).device = s.device := by simp only [freeTimers, setTimers_device]
@[simp] theorem freeTimers_maint (f : TimerId → Bool) (s : State) : (freeTimers f s).maint = s.maint := by simp only [freeTimers, setTimers_maint]
@[simp] theorem freeTimers_tickCount (f : TimerId → Bool) (s : State) : (freeTimers f s).tickCount = s.tickCount := by simp only [freeTimers, setTimers_tickCount]
@[simp] theorem freeTimers_tickPeriod (f : TimerId → Bool) (s : State) : (freeTimers f s).tickPeriod = s.tickPeriod := by simp only [freeTimers, setTimers_tickPeriod]
@[simp] theorem freeTimers_lag (f : TimerId → Bool) (s : State) : (freeTimers f s).lag = s.lag := by simp only [freeTimers, setTimers_lag]
@[simp] theorem freeTimers_lines (f : TimerId → Bool) (s : State) : (freeTimers f s).lines = s.lines := by simp only [freeTimers, setTimers_lines]
@[simp] theorem freeTimers_pads (f : TimerId → Bool) (s : State) : (freeTimers f s).pads = s.pads := by simp only [freeTimers, setTimers_pads]
@[simp] theorem freeTimers_staged (f : TimerId → Bool) (s : State) : (freeTimers f s).staged = s.staged := by simp only [freeTimers, setTimers_staged]
@[simp] theorem freeTimers_filters (f : TimerId → Bool) (s : State) : (freeTimers f s).filters = s.filters := by simp only [freeTimers, setTimers_filters]
@[simp] theorem freeTimers_watches (f : TimerId → Bool) (s : State) : (freeTimers f s).watches = s.watches := by simp only [freeTimers, setTimers_watches]
@[simp] theorem freeTimers_queues (f : TimerId → Bool) (s : State) : (freeTimers f s).queues = s.queues := by simp only [freeTimers, setTimers_queues]
@[simp] theorem freeTimers_attn (f : TimerId → Bool) (s : State) : (freeTimers f s).attn = s.attn := by simp only [freeTimers, setTimers_attn]
@[simp] theorem freeTimers_sessions (f : TimerId → Bool) (s : State) : (freeTimers f s).sessions = s.sessions := by simp only [freeTimers, setTimers_sessions]
@[simp] theorem freeTimers_slotA (f : TimerId → Bool) (s : State) : (freeTimers f s).slotA = s.slotA := by simp only [freeTimers, setTimers_slotA]
@[simp] theorem freeTimers_slotB (f : TimerId → Bool) (s : State) : (freeTimers f s).slotB = s.slotB := by simp only [freeTimers, setTimers_slotB]
@[simp] theorem freeTimers_recordA (f : TimerId → Bool) (s : State) : (freeTimers f s).recordA = s.recordA := by simp only [freeTimers, setTimers_recordA]
@[simp] theorem freeTimers_recordB (f : TimerId → Bool) (s : State) : (freeTimers f s).recordB = s.recordB := by simp only [freeTimers, setTimers_recordB]
@[simp] theorem freeTimers_activeSlot (f : TimerId → Bool) (s : State) : (freeTimers f s).activeSlot = s.activeSlot := by simp only [freeTimers, setTimers_activeSlot]
@[simp] theorem freeTimers_active (f : TimerId → Bool) (s : State) : (freeTimers f s).active = s.active := by simp only [freeTimers, setTimers_active]
@[simp] theorem freeTimers_buffer (f : TimerId → Bool) (s : State) : (freeTimers f s).buffer = s.buffer := by simp only [freeTimers, setTimers_buffer]
@[simp] theorem freeTimers_lock (f : TimerId → Bool) (s : State) : (freeTimers f s).lock = s.lock := by simp only [freeTimers, setTimers_lock]
@[simp] theorem freeTimers_burn (f : TimerId → Bool) (s : State) : (freeTimers f s).burn = s.burn := by simp only [freeTimers, setTimers_burn]
@[simp] theorem freeTimers_lastBurn (f : TimerId → Bool) (s : State) : (freeTimers f s).lastBurn = s.lastBurn := by simp only [freeTimers, setTimers_lastBurn]
@[simp] theorem freeTimers_ports (f : TimerId → Bool) (s : State) : (freeTimers f s).ports = s.ports := by simp only [freeTimers, setTimers_ports]
@[simp] theorem freeTimers_freeCount (f : TimerId → Bool) (s : State) : (freeTimers f s).freeCount = s.freeCount := by simp only [freeTimers, setTimers_freeCount]
@[simp] theorem line_freeTimers (f : TimerId → Bool) (s : State) (k : Line) : (freeTimers f s).line k = s.line k := by simp [State.line]
@[simp] theorem pad_freeTimers (f : TimerId → Bool) (s : State) (k : Line) : (freeTimers f s).pad k = s.pad k := by simp [State.pad]
@[simp] theorem stagedSet_freeTimers (f : TimerId → Bool) (s : State) (k : Port) : (freeTimers f s).stagedSet k = s.stagedSet k := by simp [State.stagedSet]
@[simp] theorem watch_freeTimers (f : TimerId → Bool) (s : State) (k : Port) : (freeTimers f s).watch k = s.watch k := by simp [State.watch]
@[simp] theorem queue_freeTimers (f : TimerId → Bool) (s : State) (k : Port) : (freeTimers f s).queue k = s.queue k := by simp [State.queue]
@[simp] theorem session_freeTimers (f : TimerId → Bool) (s : State) (k : Port) : (freeTimers f s).session k = s.session k := by simp [State.session]
@[simp] theorem port_freeTimers (f : TimerId → Bool) (s : State) (k : Port) : (freeTimers f s).port k = s.port k := by simp [State.port]

/-! ### setSlot -/

@[simp] theorem setSlot_pending (s : State) (x : SlotId) (img : Image) : (s.setSlot x img).pending = s.pending := by cases x <;> rfl
@[simp] theorem setSlot_resetting (s : State) (x : SlotId) (img : Image) : (s.setSlot x img).resetting = s.resetting := by cases x <;> rfl
@[simp] theorem setSlot_device (s : State) (x : SlotId) (img : Image) : (s.setSlot x img).device = s.device := by cases x <;> rfl
@[simp] theorem setSlot_maint (s : State) (x : SlotId) (img : Image) : (s.setSlot x img).maint = s.maint := by cases x <;> rfl
@[simp] theorem setSlot_tickCount (s : State) (x : SlotId) (img : Image) : (s.setSlot x img).tickCount = s.tickCount := by cases x <;> rfl
@[simp] theorem setSlot_tickPeriod (s : State) (x : SlotId) (img : Image) : (s.setSlot x img).tickPeriod = s.tickPeriod := by cases x <;> rfl
@[simp] theorem setSlot_lag (s : State) (x : SlotId) (img : Image) : (s.setSlot x img).lag = s.lag := by cases x <;> rfl
@[simp] theorem setSlot_lines (s : State) (x : SlotId) (img : Image) : (s.setSlot x img).lines = s.lines := by cases x <;> rfl
@[simp] theorem setSlot_pads (s : State) (x : SlotId) (img : Image) : (s.setSlot x img).pads = s.pads := by cases x <;> rfl
@[simp] theorem setSlot_timers (s : State) (x : SlotId) (img : Image) : (s.setSlot x img).timers = s.timers := by cases x <;> rfl
@[simp] theorem setSlot_staged (s : State) (x : SlotId) (img : Image) : (s.setSlot x img).staged = s.staged := by cases x <;> rfl
@[simp] theorem setSlot_filters (s : State) (x : SlotId) (img : Image) : (s.setSlot x img).filters = s.filters := by cases x <;> rfl
@[simp] theorem setSlot_watches (s : State) (x : SlotId) (img : Image) : (s.setSlot x img).watches = s.watches := by cases x <;> rfl
@[simp] theorem setSlot_queues (s : State) (x : SlotId) (img : Image) : (s.setSlot x img).queues = s.queues := by cases x <;> rfl
@[simp] theorem setSlot_attn (s : State) (x : SlotId) (img : Image) : (s.setSlot x img).attn = s.attn := by cases x <;> rfl
@[simp] theorem setSlot_sessions (s : State) (x : SlotId) (img : Image) : (s.setSlot x img).sessions = s.sessions := by cases x <;> rfl
@[simp] theorem setSlot_recordA (s : State) (x : SlotId) (img : Image) : (s.setSlot x img).recordA = s.recordA := by cases x <;> rfl
@[simp] theorem setSlot_recordB (s : State) (x : SlotId) (img : Image) : (s.setSlot x img).recordB = s.recordB := by cases x <;> rfl
@[simp] theorem setSlot_activeSlot (s : State) (x : SlotId) (img : Image) : (s.setSlot x img).activeSlot = s.activeSlot := by cases x <;> rfl
@[simp] theorem setSlot_active (s : State) (x : SlotId) (img : Image) : (s.setSlot x img).active = s.active := by cases x <;> rfl
@[simp] theorem setSlot_buffer (s : State) (x : SlotId) (img : Image) : (s.setSlot x img).buffer = s.buffer := by cases x <;> rfl
@[simp] theorem setSlot_lock (s : State) (x : SlotId) (img : Image) : (s.setSlot x img).lock = s.lock := by cases x <;> rfl
@[simp] theorem setSlot_burn (s : State) (x : SlotId) (img : Image) : (s.setSlot x img).burn = s.burn := by cases x <;> rfl
@[simp] theorem setSlot_lastBurn (s : State) (x : SlotId) (img : Image) : (s.setSlot x img).lastBurn = s.lastBurn := by cases x <;> rfl
@[simp] theorem setSlot_ports (s : State) (x : SlotId) (img : Image) : (s.setSlot x img).ports = s.ports := by cases x <;> rfl
@[simp] theorem setSlot_freeCount (s : State) (x : SlotId) (img : Image) : (s.setSlot x img).freeCount = s.freeCount := by cases x <;> rfl
@[simp] theorem line_setSlot (s : State) (x : SlotId) (img : Image) (k : Line) : (s.setSlot x img).line k = s.line k := by simp [State.line]
@[simp] theorem pad_setSlot (s : State) (x : SlotId) (img : Image) (k : Line) : (s.setSlot x img).pad k = s.pad k := by simp [State.pad]
@[simp] theorem timer_setSlot (s : State) (x : SlotId) (img : Image) (k : TimerId) : (s.setSlot x img).timer k = s.timer k := by simp [State.timer]
@[simp] theorem stagedSet_setSlot (s : State) (x : SlotId) (img : Image) (k : Port) : (s.setSlot x img).stagedSet k = s.stagedSet k := by simp [State.stagedSet]
@[simp] theorem watch_setSlot (s : State) (x : SlotId) (img : Image) (k : Port) : (s.setSlot x img).watch k = s.watch k := by simp [State.watch]
@[simp] theorem queue_setSlot (s : State) (x : SlotId) (img : Image) (k : Port) : (s.setSlot x img).queue k = s.queue k := by simp [State.queue]
@[simp] theorem session_setSlot (s : State) (x : SlotId) (img : Image) (k : Port) : (s.setSlot x img).session k = s.session k := by simp [State.session]
@[simp] theorem port_setSlot (s : State) (x : SlotId) (img : Image) (k : Port) : (s.setSlot x img).port k = s.port k := by simp [State.port]

/-! ### setRecord -/

@[simp] theorem setRecord_pending (s : State) (x : SlotId) (r : SlotStatus) : (s.setRecord x r).pending = s.pending := by cases x <;> rfl
@[simp] theorem setRecord_resetting (s : State) (x : SlotId) (r : SlotStatus) : (s.setRecord x r).resetting = s.resetting := by cases x <;> rfl
@[simp] theorem setRecord_device (s : State) (x : SlotId) (r : SlotStatus) : (s.setRecord x r).device = s.device := by cases x <;> rfl
@[simp] theorem setRecord_maint (s : State) (x : SlotId) (r : SlotStatus) : (s.setRecord x r).maint = s.maint := by cases x <;> rfl
@[simp] theorem setRecord_tickCount (s : State) (x : SlotId) (r : SlotStatus) : (s.setRecord x r).tickCount = s.tickCount := by cases x <;> rfl
@[simp] theorem setRecord_tickPeriod (s : State) (x : SlotId) (r : SlotStatus) : (s.setRecord x r).tickPeriod = s.tickPeriod := by cases x <;> rfl
@[simp] theorem setRecord_lag (s : State) (x : SlotId) (r : SlotStatus) : (s.setRecord x r).lag = s.lag := by cases x <;> rfl
@[simp] theorem setRecord_lines (s : State) (x : SlotId) (r : SlotStatus) : (s.setRecord x r).lines = s.lines := by cases x <;> rfl
@[simp] theorem setRecord_pads (s : State) (x : SlotId) (r : SlotStatus) : (s.setRecord x r).pads = s.pads := by cases x <;> rfl
@[simp] theorem setRecord_timers (s : State) (x : SlotId) (r : SlotStatus) : (s.setRecord x r).timers = s.timers := by cases x <;> rfl
@[simp] theorem setRecord_staged (s : State) (x : SlotId) (r : SlotStatus) : (s.setRecord x r).staged = s.staged := by cases x <;> rfl
@[simp] theorem setRecord_filters (s : State) (x : SlotId) (r : SlotStatus) : (s.setRecord x r).filters = s.filters := by cases x <;> rfl
@[simp] theorem setRecord_watches (s : State) (x : SlotId) (r : SlotStatus) : (s.setRecord x r).watches = s.watches := by cases x <;> rfl
@[simp] theorem setRecord_queues (s : State) (x : SlotId) (r : SlotStatus) : (s.setRecord x r).queues = s.queues := by cases x <;> rfl
@[simp] theorem setRecord_attn (s : State) (x : SlotId) (r : SlotStatus) : (s.setRecord x r).attn = s.attn := by cases x <;> rfl
@[simp] theorem setRecord_sessions (s : State) (x : SlotId) (r : SlotStatus) : (s.setRecord x r).sessions = s.sessions := by cases x <;> rfl
@[simp] theorem setRecord_slotA (s : State) (x : SlotId) (r : SlotStatus) : (s.setRecord x r).slotA = s.slotA := by cases x <;> rfl
@[simp] theorem setRecord_slotB (s : State) (x : SlotId) (r : SlotStatus) : (s.setRecord x r).slotB = s.slotB := by cases x <;> rfl
@[simp] theorem setRecord_activeSlot (s : State) (x : SlotId) (r : SlotStatus) : (s.setRecord x r).activeSlot = s.activeSlot := by cases x <;> rfl
@[simp] theorem setRecord_active (s : State) (x : SlotId) (r : SlotStatus) : (s.setRecord x r).active = s.active := by cases x <;> rfl
@[simp] theorem setRecord_buffer (s : State) (x : SlotId) (r : SlotStatus) : (s.setRecord x r).buffer = s.buffer := by cases x <;> rfl
@[simp] theorem setRecord_lock (s : State) (x : SlotId) (r : SlotStatus) : (s.setRecord x r).lock = s.lock := by cases x <;> rfl
@[simp] theorem setRecord_burn (s : State) (x : SlotId) (r : SlotStatus) : (s.setRecord x r).burn = s.burn := by cases x <;> rfl
@[simp] theorem setRecord_lastBurn (s : State) (x : SlotId) (r : SlotStatus) : (s.setRecord x r).lastBurn = s.lastBurn := by cases x <;> rfl
@[simp] theorem setRecord_ports (s : State) (x : SlotId) (r : SlotStatus) : (s.setRecord x r).ports = s.ports := by cases x <;> rfl
@[simp] theorem setRecord_freeCount (s : State) (x : SlotId) (r : SlotStatus) : (s.setRecord x r).freeCount = s.freeCount := by cases x <;> rfl
@[simp] theorem line_setRecord (s : State) (x : SlotId) (r : SlotStatus) (k : Line) : (s.setRecord x r).line k = s.line k := by simp [State.line]
@[simp] theorem pad_setRecord (s : State) (x : SlotId) (r : SlotStatus) (k : Line) : (s.setRecord x r).pad k = s.pad k := by simp [State.pad]
@[simp] theorem timer_setRecord (s : State) (x : SlotId) (r : SlotStatus) (k : TimerId) : (s.setRecord x r).timer k = s.timer k := by simp [State.timer]
@[simp] theorem stagedSet_setRecord (s : State) (x : SlotId) (r : SlotStatus) (k : Port) : (s.setRecord x r).stagedSet k = s.stagedSet k := by simp [State.stagedSet]
@[simp] theorem watch_setRecord (s : State) (x : SlotId) (r : SlotStatus) (k : Port) : (s.setRecord x r).watch k = s.watch k := by simp [State.watch]
@[simp] theorem queue_setRecord (s : State) (x : SlotId) (r : SlotStatus) (k : Port) : (s.setRecord x r).queue k = s.queue k := by simp [State.queue]
@[simp] theorem session_setRecord (s : State) (x : SlotId) (r : SlotStatus) (k : Port) : (s.setRecord x r).session k = s.session k := by simp [State.session]
@[simp] theorem port_setRecord (s : State) (x : SlotId) (r : SlotStatus) (k : Port) : (s.setRecord x r).port k = s.port k := by simp [State.port]

/-! ### restartLease -/

@[simp] theorem restartLease_pending (p : Port) (s : State) : (restartLease p s).pending = s.pending := by unfold restartLease; split <;> rfl
@[simp] theorem restartLease_resetting (p : Port) (s : State) : (restartLease p s).resetting = s.resetting := by unfold restartLease; split <;> rfl
@[simp] theorem restartLease_device (p : Port) (s : State) : (restartLease p s).device = s.device := by unfold restartLease; split <;> rfl
@[simp] theorem restartLease_maint (p : Port) (s : State) : (restartLease p s).maint = s.maint := by unfold restartLease; split <;> rfl
@[simp] theorem restartLease_tickCount (p : Port) (s : State) : (restartLease p s).tickCount = s.tickCount := by unfold restartLease; split <;> rfl
@[simp] theorem restartLease_tickPeriod (p : Port) (s : State) : (restartLease p s).tickPeriod = s.tickPeriod := by unfold restartLease; split <;> rfl
@[simp] theorem restartLease_lag (p : Port) (s : State) : (restartLease p s).lag = s.lag := by unfold restartLease; split <;> rfl
@[simp] theorem restartLease_lines (p : Port) (s : State) : (restartLease p s).lines = s.lines := by unfold restartLease; split <;> rfl
@[simp] theorem restartLease_pads (p : Port) (s : State) : (restartLease p s).pads = s.pads := by unfold restartLease; split <;> rfl
@[simp] theorem restartLease_timers (p : Port) (s : State) : (restartLease p s).timers = s.timers := by unfold restartLease; split <;> rfl
@[simp] theorem restartLease_staged (p : Port) (s : State) : (restartLease p s).staged = s.staged := by unfold restartLease; split <;> rfl
@[simp] theorem restartLease_filters (p : Port) (s : State) : (restartLease p s).filters = s.filters := by unfold restartLease; split <;> rfl
@[simp] theorem restartLease_watches (p : Port) (s : State) : (restartLease p s).watches = s.watches := by unfold restartLease; split <;> rfl
@[simp] theorem restartLease_queues (p : Port) (s : State) : (restartLease p s).queues = s.queues := by unfold restartLease; split <;> rfl
@[simp] theorem restartLease_attn (p : Port) (s : State) : (restartLease p s).attn = s.attn := by unfold restartLease; split <;> rfl
@[simp] theorem restartLease_slotA (p : Port) (s : State) : (restartLease p s).slotA = s.slotA := by unfold restartLease; split <;> rfl
@[simp] theorem restartLease_slotB (p : Port) (s : State) : (restartLease p s).slotB = s.slotB := by unfold restartLease; split <;> rfl
@[simp] theorem restartLease_recordA (p : Port) (s : State) : (restartLease p s).recordA = s.recordA := by unfold restartLease; split <;> rfl
@[simp] theorem restartLease_recordB (p : Port) (s : State) : (restartLease p s).recordB = s.recordB := by unfold restartLease; split <;> rfl
@[simp] theorem restartLease_activeSlot (p : Port) (s : State) : (restartLease p s).activeSlot = s.activeSlot := by unfold restartLease; split <;> rfl
@[simp] theorem restartLease_active (p : Port) (s : State) : (restartLease p s).active = s.active := by unfold restartLease; split <;> rfl
@[simp] theorem restartLease_buffer (p : Port) (s : State) : (restartLease p s).buffer = s.buffer := by unfold restartLease; split <;> rfl
@[simp] theorem restartLease_lock (p : Port) (s : State) : (restartLease p s).lock = s.lock := by unfold restartLease; split <;> rfl
@[simp] theorem restartLease_burn (p : Port) (s : State) : (restartLease p s).burn = s.burn := by unfold restartLease; split <;> rfl
@[simp] theorem restartLease_lastBurn (p : Port) (s : State) : (restartLease p s).lastBurn = s.lastBurn := by unfold restartLease; split <;> rfl
@[simp] theorem restartLease_ports (p : Port) (s : State) : (restartLease p s).ports = s.ports := by unfold restartLease; split <;> rfl
@[simp] theorem restartLease_freeCount (p : Port) (s : State) : (restartLease p s).freeCount = s.freeCount := by unfold restartLease; split <;> rfl
@[simp] theorem line_restartLease (p : Port) (s : State) (k : Line) : (restartLease p s).line k = s.line k := by simp [State.line]
@[simp] theorem pad_restartLease (p : Port) (s : State) (k : Line) : (restartLease p s).pad k = s.pad k := by simp [State.pad]
@[simp] theorem timer_restartLease (p : Port) (s : State) (k : TimerId) : (restartLease p s).timer k = s.timer k := by simp [State.timer]
@[simp] theorem stagedSet_restartLease (p : Port) (s : State) (k : Port) : (restartLease p s).stagedSet k = s.stagedSet k := by simp [State.stagedSet]
@[simp] theorem watch_restartLease (p : Port) (s : State) (k : Port) : (restartLease p s).watch k = s.watch k := by simp [State.watch]
@[simp] theorem queue_restartLease (p : Port) (s : State) (k : Port) : (restartLease p s).queue k = s.queue k := by simp [State.queue]
@[simp] theorem port_restartLease (p : Port) (s : State) (k : Port) : (restartLease p s).port k = s.port k := by simp [State.port]

/-! ### The changed part -/

theorem line_setLine (s : State) (l : Line) (e : LineEntry) (k : Line) :
    (s.setLine l e).line k = if k = l then e else s.line k := by
  simp [State.line, State.setLine, Vector.getElem_set, Fin.ext_iff, eq_comm]

@[simp] theorem line_setLine_self (s : State) (l : Line) (e : LineEntry) : (s.setLine l e).line l = e := by
  simp [line_setLine]

theorem timer_setTimer (s : State) (i : TimerId) (x : Option PulseTimer) (k : TimerId) :
    (s.setTimer i x).timer k = if k = i then x else s.timer k := by
  simp [State.timer, State.setTimer, Vector.getElem_set, Fin.ext_iff, eq_comm]

@[simp] theorem timer_setTimer_self (s : State) (i : TimerId) (x : Option PulseTimer) :
    (s.setTimer i x).timer i = x := by
  simp [timer_setTimer]

theorem stagedSet_setStaged (s : State) (p : Port) (x : List StagedValue) (k : Port) :
    (s.setStaged p x).stagedSet k = if k = p then x else s.stagedSet k := by
  simp [State.stagedSet, State.setStaged, Vector.getElem_set, Fin.ext_iff, eq_comm]

@[simp] theorem stagedSet_setStaged_self (s : State) (p : Port) (x : List StagedValue) :
    (s.setStaged p x).stagedSet p = x := by
  simp [stagedSet_setStaged]

theorem watch_setWatch (s : State) (p : Port) (x : Vector WatchSetting 24) (k : Port) :
    (s.setWatch p x).watch k = if k = p then x else s.watch k := by
  simp [State.watch, State.setWatch, Vector.getElem_set, Fin.ext_iff, eq_comm]

@[simp] theorem watch_setWatch_self (s : State) (p : Port) (x : Vector WatchSetting 24) :
    (s.setWatch p x).watch p = x := by
  simp [watch_setWatch]

theorem session_setSession (s : State) (p : Port) (x : Session) (k : Port) :
    (s.setSession p x).session k = if k = p then x else s.session k := by
  simp [State.session, State.setSession, Vector.getElem_set, Fin.ext_iff, eq_comm]

@[simp] theorem session_setSession_self (s : State) (p : Port) (x : Session) : (s.setSession p x).session p = x := by
  simp [session_setSession]

theorem queue_putQueue (s : State) (p : Port) (x : EventQueue) (k : Port) :
    (s.putQueue p x).queue k = if k = p then x else s.queue k := by
  simp [State.queue, State.putQueue, Vector.getElem_set, Fin.ext_iff, eq_comm]

@[simp] theorem queue_putQueue_self (s : State) (p : Port) (x : EventQueue) : (s.putQueue p x).queue p = x := by
  simp [queue_putQueue]

theorem port_putPort (s : State) (p : Port) (x : PortInterface) (k : Port) :
    (s.putPort p x).port k = if k = p then x else s.port k := by
  simp [State.port, State.putPort, Vector.getElem_set, Fin.ext_iff, eq_comm]

@[simp] theorem port_putPort_self (s : State) (p : Port) (x : PortInterface) : (s.putPort p x).port p = x := by
  simp [port_putPort]

theorem attn_putQueue (s : State) (p : Port) (x : EventQueue) (k : Port) :
    (s.putQueue p x).attn[k.val] = if k = p then attnLow x (s.port p) else s.attn[k.val] := by
  simp [State.putQueue, Vector.getElem_set, Fin.ext_iff, eq_comm]

theorem attn_putPort (s : State) (p : Port) (x : PortInterface) (k : Port) :
    (s.putPort p x).attn[k.val] = if k = p then attnLow (s.queue p) x else s.attn[k.val] := by
  simp [State.putPort, Vector.getElem_set, Fin.ext_iff, eq_comm]

/-- An attention output under a Fin index and under its number. -/
theorem attn_val (s : State) (k : Port) : s.attn[k] = s.attn[k.val] := rfl

theorem putPort_putPort (s : State) (p : Port) (x y : PortInterface) : (s.putPort p x).putPort p y = s.putPort p y := by
  simp [State.putPort, State.queue]

@[simp] theorem line_setLines (s : State) (f : Line → LineEntry) (k : Line) : (s.setLines f).line k = f k := by
  simp [State.line, State.setLines]

@[simp] theorem timer_setTimers (s : State) (f : TimerId → Option PulseTimer) (k : TimerId) :
    (s.setTimers f).timer k = f k := by
  simp [State.timer, State.setTimers]

@[simp] theorem session_setSessions (s : State) (f : Port → Session) (k : Port) :
    (s.setSessions f).session k = f k := by
  simp [State.session, State.setSessions]

@[simp] theorem pad_setPads (s : State) (f : Line → PadSetting) (k : Line) : (s.setPads f).pad k = f k := by
  simp [State.pad, State.setPads]

@[simp] theorem pad_padUpdate (f : Line → Bool) (s : State) (k : Line) :
    (padUpdate f s).pad k = if f k then s.padFor k else s.pad k := by
  simp [padUpdate]

@[simp] theorem timer_freeTimers (f : TimerId → Bool) (s : State) (k : TimerId) :
    (freeTimers f s).timer k = if f k then none else s.timer k := by
  simp [freeTimers]

theorem slot_setSlot (s : State) (x y : SlotId) (img : Image) :
    (s.setSlot x img).slot y = if y = x then img else s.slot y := by
  cases x <;> cases y <;> rfl

theorem record_setRecord (s : State) (x y : SlotId) (r : SlotStatus) :
    (s.setRecord x r).record y = if y = x then some r else s.record y := by
  cases x <;> cases y <;> rfl

theorem session_restartLease (p k : Port) (s : State) (h : k ≠ p) :
    (restartLease p s).session k = s.session k := by
  unfold restartLease
  split <;> simp [session_setSession, h]

/-- The taking of a request reloads the lease of an ATTACHED session, and leaves any other session as it is (R132). -/
theorem session_restartLease_self (p : Port) (s : State) :
    (restartLease p s).session p =
      match (s.session p).state with
      | .attached a =>
        { s.session p with state := .attached { a with lease := countdownLoad a.leaseLength } }
      | .detached => s.session p
      | .lapsed => s.session p := by
  unfold restartLease
  split <;> simp [*]

/-! ### Enumerations -/

theorem mem_allLines (l : Line) : l ∈ allLines := by revert l; decide

theorem mem_allPorts (p : Port) : p ∈ allPorts := by revert p; decide

theorem mem_allTimers (x : TimerId) : x ∈ allTimers := by revert x; decide

/-! ### The derived pad under an update that leaves profile, line and timers -/

theorem padFor_congr {s t : State} {l : Line} (ha : t.active = s.active) (hl : t.line l = s.line l)
    (ht : t.timers = s.timers) : t.padFor l = s.padFor l := by
  simp [State.padFor, State.driveFor, State.effective, State.timer, ha, hl, ht]

end Sys2Proof.Machine
end

