-- ==== Sys2Proof/Laws/Offers.lean ====
section
/-! SUPPORT. Offering records: what an offer leaves, and what each event queue takes. -/

namespace Sys2Proof.Machine

/-! ### offer -/

@[simp] theorem offer_pending (p : Port) (take : EventQueue → EventQueue) (s : State) : (offer p take s).pending = s.pending := by unfold offer; split <;> simp
@[simp] theorem offer_resetting (p : Port) (take : EventQueue → EventQueue) (s : State) : (offer p take s).resetting = s.resetting := by unfold offer; split <;> simp
@[simp] theorem offer_device (p : Port) (take : EventQueue → EventQueue) (s : State) : (offer p take s).device = s.device := by unfold offer; split <;> simp
@[simp] theorem offer_maint (p : Port) (take : EventQueue → EventQueue) (s : State) : (offer p take s).maint = s.maint := by unfold offer; split <;> simp
@[simp] theorem offer_tickCount (p : Port) (take : EventQueue → EventQueue) (s : State) : (offer p take s).tickCount = s.tickCount := by unfold offer; split <;> simp
@[simp] theorem offer_tickPeriod (p : Port) (take : EventQueue → EventQueue) (s : State) : (offer p take s).tickPeriod = s.tickPeriod := by unfold offer; split <;> simp
@[simp] theorem offer_lag (p : Port) (take : EventQueue → EventQueue) (s : State) : (offer p take s).lag = s.lag := by unfold offer; split <;> simp
@[simp] theorem offer_lines (p : Port) (take : EventQueue → EventQueue) (s : State) : (offer p take s).lines = s.lines := by unfold offer; split <;> simp
@[simp] theorem offer_pads (p : Port) (take : EventQueue → EventQueue) (s : State) : (offer p take s).pads = s.pads := by unfold offer; split <;> simp
@[simp] theorem offer_timers (p : Port) (take : EventQueue → EventQueue) (s : State) : (offer p take s).timers = s.timers := by unfold offer; split <;> simp
@[simp] theorem offer_staged (p : Port) (take : EventQueue → EventQueue) (s : State) : (offer p take s).staged = s.staged := by unfold offer; split <;> simp
@[simp] theorem offer_filters (p : Port) (take : EventQueue → EventQueue) (s : State) : (offer p take s).filters = s.filters := by unfold offer; split <;> simp
@[simp] theorem offer_watches (p : Port) (take : EventQueue → EventQueue) (s : State) : (offer p take s).watches = s.watches := by unfold offer; split <;> simp
@[simp] theorem offer_sessions (p : Port) (take : EventQueue → EventQueue) (s : State) : (offer p take s).sessions = s.sessions := by unfold offer; split <;> simp
@[simp] theorem offer_slotA (p : Port) (take : EventQueue → EventQueue) (s : State) : (offer p take s).slotA = s.slotA := by unfold offer; split <;> simp
@[simp] theorem offer_slotB (p : Port) (take : EventQueue → EventQueue) (s : State) : (offer p take s).slotB = s.slotB := by unfold offer; split <;> simp
@[simp] theorem offer_recordA (p : Port) (take : EventQueue → EventQueue) (s : State) : (offer p take s).recordA = s.recordA := by unfold offer; split <;> simp
@[simp] theorem offer_recordB (p : Port) (take : EventQueue → EventQueue) (s : State) : (offer p take s).recordB = s.recordB := by unfold offer; split <;> simp
@[simp] theorem offer_activeSlot (p : Port) (take : EventQueue → EventQueue) (s : State) : (offer p take s).activeSlot = s.activeSlot := by unfold offer; split <;> simp
@[simp] theorem offer_active (p : Port) (take : EventQueue → EventQueue) (s : State) : (offer p take s).active = s.active := by unfold offer; split <;> simp
@[simp] theorem offer_buffer (p : Port) (take : EventQueue → EventQueue) (s : State) : (offer p take s).buffer = s.buffer := by unfold offer; split <;> simp
@[simp] theorem offer_lock (p : Port) (take : EventQueue → EventQueue) (s : State) : (offer p take s).lock = s.lock := by unfold offer; split <;> simp
@[simp] theorem offer_burn (p : Port) (take : EventQueue → EventQueue) (s : State) : (offer p take s).burn = s.burn := by unfold offer; split <;> simp
@[simp] theorem offer_lastBurn (p : Port) (take : EventQueue → EventQueue) (s : State) : (offer p take s).lastBurn = s.lastBurn := by unfold offer; split <;> simp
@[simp] theorem offer_ports (p : Port) (take : EventQueue → EventQueue) (s : State) : (offer p take s).ports = s.ports := by unfold offer; split <;> simp
@[simp] theorem offer_freeCount (p : Port) (take : EventQueue → EventQueue) (s : State) : (offer p take s).freeCount = s.freeCount := by unfold offer; split <;> simp
@[simp] theorem line_offer (p : Port) (take : EventQueue → EventQueue) (s : State) (k : Line) : (offer p take s).line k = s.line k := by simp [State.line]
@[simp] theorem pad_offer (p : Port) (take : EventQueue → EventQueue) (s : State) (k : Line) : (offer p take s).pad k = s.pad k := by simp [State.pad]
@[simp] theorem timer_offer (p : Port) (take : EventQueue → EventQueue) (s : State) (k : TimerId) : (offer p take s).timer k = s.timer k := by simp [State.timer]
@[simp] theorem stagedSet_offer (p : Port) (take : EventQueue → EventQueue) (s : State) (k : Port) : (offer p take s).stagedSet k = s.stagedSet k := by simp [State.stagedSet]
@[simp] theorem watch_offer (p : Port) (take : EventQueue → EventQueue) (s : State) (k : Port) : (offer p take s).watch k = s.watch k := by simp [State.watch]
@[simp] theorem session_offer (p : Port) (take : EventQueue → EventQueue) (s : State) (k : Port) : (offer p take s).session k = s.session k := by simp [State.session]
@[simp] theorem port_offer (p : Port) (take : EventQueue → EventQueue) (s : State) (k : Port) : (offer p take s).port k = s.port k := by simp [State.port]

/-! ### offerNotice -/

@[simp] theorem offerNotice_pending (now : Stamp) (s : State) (n : Notice) : (offerNotice now s n).pending = s.pending := by simp [offerNotice]
@[simp] theorem offerNotice_resetting (now : Stamp) (s : State) (n : Notice) : (offerNotice now s n).resetting = s.resetting := by simp [offerNotice]
@[simp] theorem offerNotice_device (now : Stamp) (s : State) (n : Notice) : (offerNotice now s n).device = s.device := by simp [offerNotice]
@[simp] theorem offerNotice_maint (now : Stamp) (s : State) (n : Notice) : (offerNotice now s n).maint = s.maint := by simp [offerNotice]
@[simp] theorem offerNotice_tickCount (now : Stamp) (s : State) (n : Notice) : (offerNotice now s n).tickCount = s.tickCount := by simp [offerNotice]
@[simp] theorem offerNotice_tickPeriod (now : Stamp) (s : State) (n : Notice) : (offerNotice now s n).tickPeriod = s.tickPeriod := by simp [offerNotice]
@[simp] theorem offerNotice_lag (now : Stamp) (s : State) (n : Notice) : (offerNotice now s n).lag = s.lag := by simp [offerNotice]
@[simp] theorem offerNotice_lines (now : Stamp) (s : State) (n : Notice) : (offerNotice now s n).lines = s.lines := by simp [offerNotice]
@[simp] theorem offerNotice_pads (now : Stamp) (s : State) (n : Notice) : (offerNotice now s n).pads = s.pads := by simp [offerNotice]
@[simp] theorem offerNotice_timers (now : Stamp) (s : State) (n : Notice) : (offerNotice now s n).timers = s.timers := by simp [offerNotice]
@[simp] theorem offerNotice_staged (now : Stamp) (s : State) (n : Notice) : (offerNotice now s n).staged = s.staged := by simp [offerNotice]
@[simp] theorem offerNotice_filters (now : Stamp) (s : State) (n : Notice) : (offerNotice now s n).filters = s.filters := by simp [offerNotice]
@[simp] theorem offerNotice_watches (now : Stamp) (s : State) (n : Notice) : (offerNotice now s n).watches = s.watches := by simp [offerNotice]
@[simp] theorem offerNotice_sessions (now : Stamp) (s : State) (n : Notice) : (offerNotice now s n).sessions = s.sessions := by simp [offerNotice]
@[simp] theorem offerNotice_slotA (now : Stamp) (s : State) (n : Notice) : (offerNotice now s n).slotA = s.slotA := by simp [offerNotice]
@[simp] theorem offerNotice_slotB (now : Stamp) (s : State) (n : Notice) : (offerNotice now s n).slotB = s.slotB := by simp [offerNotice]
@[simp] theorem offerNotice_recordA (now : Stamp) (s : State) (n : Notice) : (offerNotice now s n).recordA = s.recordA := by simp [offerNotice]
@[simp] theorem offerNotice_recordB (now : Stamp) (s : State) (n : Notice) : (offerNotice now s n).recordB = s.recordB := by simp [offerNotice]
@[simp] theorem offerNotice_activeSlot (now : Stamp) (s : State) (n : Notice) : (offerNotice now s n).activeSlot = s.activeSlot := by simp [offerNotice]
@[simp] theorem offerNotice_active (now : Stamp) (s : State) (n : Notice) : (offerNotice now s n).active = s.active := by simp [offerNotice]
@[simp] theorem offerNotice_buffer (now : Stamp) (s : State) (n : Notice) : (offerNotice now s n).buffer = s.buffer := by simp [offerNotice]
@[simp] theorem offerNotice_lock (now : Stamp) (s : State) (n : Notice) : (offerNotice now s n).lock = s.lock := by simp [offerNotice]
@[simp] theorem offerNotice_burn (now : Stamp) (s : State) (n : Notice) : (offerNotice now s n).burn = s.burn := by simp [offerNotice]
@[simp] theorem offerNotice_lastBurn (now : Stamp) (s : State) (n : Notice) : (offerNotice now s n).lastBurn = s.lastBurn := by simp [offerNotice]
@[simp] theorem offerNotice_ports (now : Stamp) (s : State) (n : Notice) : (offerNotice now s n).ports = s.ports := by simp [offerNotice]
@[simp] theorem offerNotice_freeCount (now : Stamp) (s : State) (n : Notice) : (offerNotice now s n).freeCount = s.freeCount := by simp [offerNotice]
@[simp] theorem line_offerNotice (now : Stamp) (s : State) (n : Notice) (k : Line) : (offerNotice now s n).line k = s.line k := by simp [State.line]
@[simp] theorem pad_offerNotice (now : Stamp) (s : State) (n : Notice) (k : Line) : (offerNotice now s n).pad k = s.pad k := by simp [State.pad]
@[simp] theorem timer_offerNotice (now : Stamp) (s : State) (n : Notice) (k : TimerId) : (offerNotice now s n).timer k = s.timer k := by simp [State.timer]
@[simp] theorem stagedSet_offerNotice (now : Stamp) (s : State) (n : Notice) (k : Port) : (offerNotice now s n).stagedSet k = s.stagedSet k := by simp [State.stagedSet]
@[simp] theorem watch_offerNotice (now : Stamp) (s : State) (n : Notice) (k : Port) : (offerNotice now s n).watch k = s.watch k := by simp [State.watch]
@[simp] theorem session_offerNotice (now : Stamp) (s : State) (n : Notice) (k : Port) : (offerNotice now s n).session k = s.session k := by simp [State.session]
@[simp] theorem port_offerNotice (now : Stamp) (s : State) (n : Notice) (k : Port) : (offerNotice now s n).port k = s.port k := by simp [State.port]

theorem offerNotices_nil (now : Stamp) (s : State) : offerNotices now [] s = s := rfl

theorem offerNotices_cons (now : Stamp) (n : Notice) (ns : List Notice) (s : State) :
    offerNotices now (n :: ns) s = offerNotices now ns (offerNotice now s n) := rfl

theorem offerNotices_append (now : Stamp) (ms ns : List Notice) (s : State) :
    offerNotices now (ms ++ ns) s = offerNotices now ns (offerNotices now ms s) := by
  simp [offerNotices, List.foldl_append]

/-! ### offerNotices -/

@[simp] theorem offerNotices_pending (now : Stamp) (ns : List Notice) (s : State) : (offerNotices now ns s).pending = s.pending := by
  induction ns generalizing s with
  | nil => rfl
  | cons n ns ih => rw [offerNotices_cons, ih]; simp
@[simp] theorem offerNotices_resetting (now : Stamp) (ns : List Notice) (s : State) : (offerNotices now ns s).resetting = s.resetting := by
  induction ns generalizing s with
  | nil => rfl
  | cons n ns ih => rw [offerNotices_cons, ih]; simp
@[simp] theorem offerNotices_device (now : Stamp) (ns : List Notice) (s : State) : (offerNotices now ns s).device = s.device := by
  induction ns generalizing s with
  | nil => rfl
  | cons n ns ih => rw [offerNotices_cons, ih]; simp
@[simp] theorem offerNotices_maint (now : Stamp) (ns : List Notice) (s : State) : (offerNotices now ns s).maint = s.maint := by
  induction ns generalizing s with
  | nil => rfl
  | cons n ns ih => rw [offerNotices_cons, ih]; simp
@[simp] theorem offerNotices_tickCount (now : Stamp) (ns : List Notice) (s : State) : (offerNotices now ns s).tickCount = s.tickCount := by
  induction ns generalizing s with
  | nil => rfl
  | cons n ns ih => rw [offerNotices_cons, ih]; simp
@[simp] theorem offerNotices_tickPeriod (now : Stamp) (ns : List Notice) (s : State) : (offerNotices now ns s).tickPeriod = s.tickPeriod := by
  induction ns generalizing s with
  | nil => rfl
  | cons n ns ih => rw [offerNotices_cons, ih]; simp
@[simp] theorem offerNotices_lag (now : Stamp) (ns : List Notice) (s : State) : (offerNotices now ns s).lag = s.lag := by
  induction ns generalizing s with
  | nil => rfl
  | cons n ns ih => rw [offerNotices_cons, ih]; simp
@[simp] theorem offerNotices_lines (now : Stamp) (ns : List Notice) (s : State) : (offerNotices now ns s).lines = s.lines := by
  induction ns generalizing s with
  | nil => rfl
  | cons n ns ih => rw [offerNotices_cons, ih]; simp
@[simp] theorem offerNotices_pads (now : Stamp) (ns : List Notice) (s : State) : (offerNotices now ns s).pads = s.pads := by
  induction ns generalizing s with
  | nil => rfl
  | cons n ns ih => rw [offerNotices_cons, ih]; simp
@[simp] theorem offerNotices_timers (now : Stamp) (ns : List Notice) (s : State) : (offerNotices now ns s).timers = s.timers := by
  induction ns generalizing s with
  | nil => rfl
  | cons n ns ih => rw [offerNotices_cons, ih]; simp
@[simp] theorem offerNotices_staged (now : Stamp) (ns : List Notice) (s : State) : (offerNotices now ns s).staged = s.staged := by
  induction ns generalizing s with
  | nil => rfl
  | cons n ns ih => rw [offerNotices_cons, ih]; simp
@[simp] theorem offerNotices_filters (now : Stamp) (ns : List Notice) (s : State) : (offerNotices now ns s).filters = s.filters := by
  induction ns generalizing s with
  | nil => rfl
  | cons n ns ih => rw [offerNotices_cons, ih]; simp
@[simp] theorem offerNotices_watches (now : Stamp) (ns : List Notice) (s : State) : (offerNotices now ns s).watches = s.watches := by
  induction ns generalizing s with
  | nil => rfl
  | cons n ns ih => rw [offerNotices_cons, ih]; simp
@[simp] theorem offerNotices_sessions (now : Stamp) (ns : List Notice) (s : State) : (offerNotices now ns s).sessions = s.sessions := by
  induction ns generalizing s with
  | nil => rfl
  | cons n ns ih => rw [offerNotices_cons, ih]; simp
@[simp] theorem offerNotices_slotA (now : Stamp) (ns : List Notice) (s : State) : (offerNotices now ns s).slotA = s.slotA := by
  induction ns generalizing s with
  | nil => rfl
  | cons n ns ih => rw [offerNotices_cons, ih]; simp
@[simp] theorem offerNotices_slotB (now : Stamp) (ns : List Notice) (s : State) : (offerNotices now ns s).slotB = s.slotB := by
  induction ns generalizing s with
  | nil => rfl
  | cons n ns ih => rw [offerNotices_cons, ih]; simp
@[simp] theorem offerNotices_recordA (now : Stamp) (ns : List Notice) (s : State) : (offerNotices now ns s).recordA = s.recordA := by
  induction ns generalizing s with
  | nil => rfl
  | cons n ns ih => rw [offerNotices_cons, ih]; simp
@[simp] theorem offerNotices_recordB (now : Stamp) (ns : List Notice) (s : State) : (offerNotices now ns s).recordB = s.recordB := by
  induction ns generalizing s with
  | nil => rfl
  | cons n ns ih => rw [offerNotices_cons, ih]; simp
@[simp] theorem offerNotices_activeSlot (now : Stamp) (ns : List Notice) (s : State) : (offerNotices now ns s).activeSlot = s.activeSlot := by
  induction ns generalizing s with
  | nil => rfl
  | cons n ns ih => rw [offerNotices_cons, ih]; simp
@[simp] theorem offerNotices_active (now : Stamp) (ns : List Notice) (s : State) : (offerNotices now ns s).active = s.active := by
  induction ns generalizing s with
  | nil => rfl
  | cons n ns ih => rw [offerNotices_cons, ih]; simp
@[simp] theorem offerNotices_buffer (now : Stamp) (ns : List Notice) (s : State) : (offerNotices now ns s).buffer = s.buffer := by
  induction ns generalizing s with
  | nil => rfl
  | cons n ns ih => rw [offerNotices_cons, ih]; simp
@[simp] theorem offerNotices_lock (now : Stamp) (ns : List Notice) (s : State) : (offerNotices now ns s).lock = s.lock := by
  induction ns generalizing s with
  | nil => rfl
  | cons n ns ih => rw [offerNotices_cons, ih]; simp
@[simp] theorem offerNotices_burn (now : Stamp) (ns : List Notice) (s : State) : (offerNotices now ns s).burn = s.burn := by
  induction ns generalizing s with
  | nil => rfl
  | cons n ns ih => rw [offerNotices_cons, ih]; simp
@[simp] theorem offerNotices_lastBurn (now : Stamp) (ns : List Notice) (s : State) : (offerNotices now ns s).lastBurn = s.lastBurn := by
  induction ns generalizing s with
  | nil => rfl
  | cons n ns ih => rw [offerNotices_cons, ih]; simp
@[simp] theorem offerNotices_ports (now : Stamp) (ns : List Notice) (s : State) : (offerNotices now ns s).ports = s.ports := by
  induction ns generalizing s with
  | nil => rfl
  | cons n ns ih => rw [offerNotices_cons, ih]; simp
@[simp] theorem offerNotices_freeCount (now : Stamp) (ns : List Notice) (s : State) : (offerNotices now ns s).freeCount = s.freeCount := by
  induction ns generalizing s with
  | nil => rfl
  | cons n ns ih => rw [offerNotices_cons, ih]; simp
@[simp] theorem line_offerNotices (now : Stamp) (ns : List Notice) (s : State) (k : Line) : (offerNotices now ns s).line k = s.line k := by simp [State.line]
@[simp] theorem pad_offerNotices (now : Stamp) (ns : List Notice) (s : State) (k : Line) : (offerNotices now ns s).pad k = s.pad k := by simp [State.pad]
@[simp] theorem timer_offerNotices (now : Stamp) (ns : List Notice) (s : State) (k : TimerId) : (offerNotices now ns s).timer k = s.timer k := by simp [State.timer]
@[simp] theorem stagedSet_offerNotices (now : Stamp) (ns : List Notice) (s : State) (k : Port) : (offerNotices now ns s).stagedSet k = s.stagedSet k := by simp [State.stagedSet]
@[simp] theorem watch_offerNotices (now : Stamp) (ns : List Notice) (s : State) (k : Port) : (offerNotices now ns s).watch k = s.watch k := by simp [State.watch]
@[simp] theorem session_offerNotices (now : Stamp) (ns : List Notice) (s : State) (k : Port) : (offerNotices now ns s).session k = s.session k := by simp [State.session]
@[simp] theorem port_offerNotices (now : Stamp) (ns : List Notice) (s : State) (k : Port) : (offerNotices now ns s).port k = s.port k := by simp [State.port]

/-! ### The queues -/

/-- Only an ATTACHED session's queue takes a record (R106). -/
theorem queue_offer (p : Port) (take : EventQueue → EventQueue) (s : State) (q : Port) :
    (offer p take s).queue q =
      if q = p ∧ isAttached (s.session q).state = true then take (s.queue q) else s.queue q := by
  unfold offer
  by_cases h : q = p
  · subst h
    cases hs : (s.session q).state <;> simp [isAttached]
  · split <;> simp [queue_putQueue, h]

theorem queue_offerNotice (now : Stamp) (s : State) (n : Notice) (q : Port) :
    (offerNotice now s n).queue q =
      if n.session = q ∧ isAttached (s.session q).state = true then takeNotice n.line n.outcome now (s.queue q)
      else s.queue q := by
  unfold offerNotice
  rw [queue_offer]
  by_cases h : q = n.session
  · subst h; simp
  · simp [h, Ne.symm h]

/-- Each queue takes the notices of its own session in order (R107). -/
theorem queue_offerNotices (now : Stamp) (ns : List Notice) (s : State) (q : Port) :
    (offerNotices now ns s).queue q =
      if isAttached (s.session q).state then
        (ns.filter fun n => n.session = q).foldl (fun u n => takeNotice n.line n.outcome now u) (s.queue q)
      else s.queue q := by
  induction ns generalizing s with
  | nil => simp [offerNotices_nil]
  | cons n ns ih =>
    rw [offerNotices_cons, ih, queue_offerNotice, session_offerNotice]
    by_cases ha : isAttached (s.session q).state = true
    · by_cases hn : n.session = q <;> simp [ha, hn]
    · simp [ha]

/-- A state whose attention outputs follow their conditions keeps them so through a change of a queue. -/
theorem attn_offer (p : Port) (take : EventQueue → EventQueue) (s : State) (q : Port)
    (h : s.attn[q] = attnLow (s.queue q) (s.port q)) :
    (offer p take s).attn[q] = attnLow ((offer p take s).queue q) (s.port q) := by
  rw [attn_val] at h ⊢
  unfold offer
  split
  · by_cases hq : q = p
    · subst hq; simp [attn_putQueue]
    · simp [attn_putQueue, queue_putQueue, hq, h]
  · exact h
  · exact h

/-- An attention output is as it was where the queue is not the one of the offer. -/
theorem attn_offer_other (p : Port) (take : EventQueue → EventQueue) (s : State) (q : Port) (h : q ≠ p) :
    (offer p take s).attn[q] = s.attn[q] := by
  rw [attn_val, attn_val]
  unfold offer
  split <;> simp [attn_putQueue, h]

theorem attn_offerNotices (now : Stamp) (ns : List Notice) (s : State) (q : Port)
    (h : s.attn[q] = attnLow (s.queue q) (s.port q)) :
    (offerNotices now ns s).attn[q] = attnLow ((offerNotices now ns s).queue q) (s.port q) := by
  induction ns generalizing s with
  | nil => exact h
  | cons n ns ih =>
    rw [offerNotices_cons]
    have := ih (offerNotice now s n) (by rw [port_offerNotice]; exact attn_offer _ _ _ _ h)
    rwa [port_offerNotice] at this

theorem attn_offerNotices_other (now : Stamp) (ns : List Notice) (s : State) (q : Port)
    (h : ∀ n ∈ ns, n.session ≠ q) : (offerNotices now ns s).attn[q] = s.attn[q] := by
  induction ns generalizing s with
  | nil => rfl
  | cons n ns ih =>
    rw [offerNotices_cons, ih _ fun m hm => h m (List.mem_cons_of_mem _ hm)]
    exact attn_offer_other _ _ _ _ (h n List.mem_cons_self).symm

/-- A chain of offers as one list of notices: the delivery of both lists. -/
theorem attnLow_congr {q q' : EventQueue} {x x' : PortInterface} (hq : q.records = q'.records) (hx : x.state = x'.state) :
    attnLow q x = attnLow q' x' := by
  simp [attnLow, hq, hx]

end Sys2Proof.Machine
end

