-- ==== Sys2Proof/Laws/Frames.lean ====
section
/-! SUPPORT. Frames: the reach of each update of the state, and how reaches compose. -/

namespace Sys2Proof.Machine

/-- A reach within another. -/
structure Reach.Within (r r' : Reach) : Prop where
  lines : ∀ l, r'.lines l = false → r.lines l = false
  pads : ∀ l, r'.pads l = false → r.pads l = false
  timers : ∀ x, r'.timers x = false → r.timers x = false
  staged : ∀ p, r'.staged p = false → r.staged p = false
  watches : ∀ p, r'.watches p = false → r.watches p = false
  queues : ∀ p, r'.queues p = false → r.queues p = false
  sessions : ∀ p, r'.sessions p = false → r.sessions p = false
  ports : ∀ p, r'.ports p = false → r.ports p = false

theorem Frame.refl (r : Reach) (s : State) : Frame r s s :=
  ⟨⟨fun _ _ => rfl, fun _ _ => rfl, fun _ _ => rfl, fun _ _ => rfl, fun _ _ => rfl, fun _ _ => rfl, fun _ _ => rfl,
    fun _ _ => rfl, fun _ _ _ => rfl⟩, ⟨rfl, rfl, rfl, rfl, rfl, rfl, rfl, rfl, rfl, rfl⟩, ⟨rfl, rfl, rfl⟩,
    ⟨rfl, rfl, rfl, rfl, rfl⟩, rfl⟩

theorem Frame.trans {r : Reach} {s t u : State} (h : Frame r s t) (k : Frame r t u) : Frame r s u :=
  ⟨⟨fun l w => (k.blocks.lines l w).trans (h.blocks.lines l w), fun l w => (k.blocks.pads l w).trans (h.blocks.pads l w),
    fun l w => (k.blocks.timers l w).trans (h.blocks.timers l w),
    fun l w => (k.blocks.staged l w).trans (h.blocks.staged l w),
    fun l w => (k.blocks.watches l w).trans (h.blocks.watches l w),
    fun l w => (k.blocks.queues l w).trans (h.blocks.queues l w),
    fun l w => (k.blocks.sessions l w).trans (h.blocks.sessions l w),
    fun l w => (k.blocks.ports l w).trans (h.blocks.ports l w),
    fun l w v => (k.blocks.attn l w v).trans (h.blocks.attn l w v)⟩,
    ⟨k.store.slotA.trans h.store.slotA, k.store.slotB.trans h.store.slotB, k.store.recordA.trans h.store.recordA,
      k.store.recordB.trans h.store.recordB, k.store.activeSlot.trans h.store.activeSlot,
      k.store.active.trans h.store.active, k.store.buffer.trans h.store.buffer, k.store.lock.trans h.store.lock,
      k.store.burn.trans h.store.burn, k.store.lastBurn.trans h.store.lastBurn⟩,
    ⟨k.time.tickCount.trans h.time.tickCount, k.time.tickPeriod.trans h.time.tickPeriod, k.time.lag.trans h.time.lag⟩,
    ⟨k.device.pending.trans h.device.pending, k.device.resetting.trans h.device.resetting,
      k.device.device.trans h.device.device, k.device.maint.trans h.device.maint,
      k.device.freeCount.trans h.device.freeCount⟩, Eq.trans k.filters h.filters⟩

theorem Frame.mono {r r' : Reach} {s t : State} (w : r.Within r') (h : Frame r s t) : Frame r' s t :=
  ⟨⟨fun l k => h.blocks.lines l (w.lines l k), fun l k => h.blocks.pads l (w.pads l k),
    fun l k => h.blocks.timers l (w.timers l k), fun l k => h.blocks.staged l (w.staged l k),
    fun l k => h.blocks.watches l (w.watches l k), fun l k => h.blocks.queues l (w.queues l k),
    fun l k => h.blocks.sessions l (w.sessions l k), fun l k => h.blocks.ports l (w.ports l k),
    fun l k k' => h.blocks.attn l (w.queues l k) (w.ports l k')⟩, h.store, h.time, h.device, h.filters⟩

/-- A frame within a wider reach; the reaches written out are compared by simp. -/
theorem Frame.widen {r r' : Reach} {s t : State} (h : Frame r s t) (w : r.Within r' := by constructor <;> simp) :
    Frame r' s t :=
  Frame.mono w h

theorem only_self {α : Type} [DecidableEq α] (a : α) : only a a = true := by simp [only]

theorem only_false {α : Type} [DecidableEq α] {a b : α} : only a b = false ↔ b ≠ a := by simp [only]

theorem Frame.setLine (s : State) (l : Line) (e : LineEntry) : Frame { lines := only l } s (s.setLine l e) :=
  ⟨⟨by simp +contextual [line_setLine, only_false], by simp, by simp, by simp, by simp, by simp, by simp,
    by simp, by simp⟩,
    ⟨by simp, by simp, by simp, by simp, by simp, by simp, by simp, by simp, by simp, by simp⟩, ⟨by simp, by simp, by simp⟩,
    ⟨by simp, by simp, by simp, by simp, by simp⟩, by simp [SameFilters]⟩

theorem Frame.setLines (s : State) (f : Line → LineEntry) (k : Line → Bool) (h : ∀ l, k l = false → f l = s.line l) : Frame { lines := k } s (s.setLines f) :=
  ⟨⟨fun l w => by simp [h l w], by simp, by simp, by simp, by simp, by simp, by simp,
    by simp, by simp⟩,
    ⟨by simp, by simp, by simp, by simp, by simp, by simp, by simp, by simp, by simp, by simp⟩, ⟨by simp, by simp, by simp⟩,
    ⟨by simp, by simp, by simp, by simp, by simp⟩, by simp [SameFilters]⟩

theorem Frame.setTimer (s : State) (x : TimerId) (r : Option PulseTimer) : Frame { timers := only x } s (s.setTimer x r) :=
  ⟨⟨by simp, by simp, by simp +contextual [timer_setTimer, only_false], by simp, by simp, by simp, by simp,
    by simp, by simp⟩,
    ⟨by simp, by simp, by simp, by simp, by simp, by simp, by simp, by simp, by simp, by simp⟩, ⟨by simp, by simp, by simp⟩,
    ⟨by simp, by simp, by simp, by simp, by simp⟩, by simp [SameFilters]⟩

theorem Frame.freeTimers (f : TimerId → Bool) (s : State) : Frame { timers := f } s (freeTimers f s) :=
  ⟨⟨by simp, by simp, by simp +contextual, by simp, by simp, by simp, by simp,
    by simp, by simp⟩,
    ⟨by simp, by simp, by simp, by simp, by simp, by simp, by simp, by simp, by simp, by simp⟩, ⟨by simp, by simp, by simp⟩,
    ⟨by simp, by simp, by simp, by simp, by simp⟩, by simp [SameFilters]⟩

theorem Frame.setStaged (s : State) (p : Port) (x : List StagedValue) : Frame { staged := only p } s (s.setStaged p x) :=
  ⟨⟨by simp, by simp, by simp, by simp +contextual [stagedSet_setStaged, only_false], by simp, by simp, by simp,
    by simp, by simp⟩,
    ⟨by simp, by simp, by simp, by simp, by simp, by simp, by simp, by simp, by simp, by simp⟩, ⟨by simp, by simp, by simp⟩,
    ⟨by simp, by simp, by simp, by simp, by simp⟩, by simp [SameFilters]⟩

theorem Frame.setWatch (s : State) (p : Port) (x : Vector WatchSetting 24) : Frame { watches := only p } s (s.setWatch p x) :=
  ⟨⟨by simp, by simp, by simp, by simp, by simp +contextual [watch_setWatch, only_false], by simp, by simp,
    by simp, by simp⟩,
    ⟨by simp, by simp, by simp, by simp, by simp, by simp, by simp, by simp, by simp, by simp⟩, ⟨by simp, by simp, by simp⟩,
    ⟨by simp, by simp, by simp, by simp, by simp⟩, by simp [SameFilters]⟩

theorem Frame.setSession (s : State) (p : Port) (x : Session) : Frame { sessions := only p } s (s.setSession p x) :=
  ⟨⟨by simp, by simp, by simp, by simp, by simp, by simp, by simp +contextual [session_setSession, only_false],
    by simp, by simp⟩,
    ⟨by simp, by simp, by simp, by simp, by simp, by simp, by simp, by simp, by simp, by simp⟩, ⟨by simp, by simp, by simp⟩,
    ⟨by simp, by simp, by simp, by simp, by simp⟩, by simp [SameFilters]⟩

theorem Frame.restartLease (p : Port) (s : State) : Frame { sessions := only p } s (restartLease p s) :=
  ⟨⟨by simp, by simp, by simp, by simp, by simp, by simp, by simp +contextual [session_restartLease, only_false],
    by simp, by simp⟩,
    ⟨by simp, by simp, by simp, by simp, by simp, by simp, by simp, by simp, by simp, by simp⟩, ⟨by simp, by simp, by simp⟩,
    ⟨by simp, by simp, by simp, by simp, by simp⟩, by simp [SameFilters]⟩

theorem Frame.padUpdate (f : Line → Bool) (s : State) : Frame { pads := f } s (padUpdate f s) :=
  ⟨⟨by simp, by simp +contextual, by simp, by simp, by simp, by simp, by simp,
    by simp, by simp⟩,
    ⟨by simp, by simp, by simp, by simp, by simp, by simp, by simp, by simp, by simp, by simp⟩, ⟨by simp, by simp, by simp⟩,
    ⟨by simp, by simp, by simp, by simp, by simp⟩, by simp [SameFilters]⟩

theorem Frame.putQueue (s : State) (p : Port) (x : EventQueue) : Frame { queues := only p } s (s.putQueue p x) :=
  ⟨⟨by simp, by simp, by simp, by simp, by simp, by simp +contextual [queue_putQueue, only_false], by simp,
    by simp, by simp +contextual [attn_putQueue, only_false]⟩,
    ⟨by simp, by simp, by simp, by simp, by simp, by simp, by simp, by simp, by simp, by simp⟩, ⟨by simp, by simp, by simp⟩,
    ⟨by simp, by simp, by simp, by simp, by simp⟩, by simp [SameFilters]⟩

theorem Frame.putPort (s : State) (p : Port) (x : PortInterface) : Frame { ports := only p } s (s.putPort p x) :=
  ⟨⟨by simp, by simp, by simp, by simp, by simp, by simp, by simp,
    by simp +contextual [port_putPort, only_false], by simp +contextual [attn_putPort, only_false]⟩,
    ⟨by simp, by simp, by simp, by simp, by simp, by simp, by simp, by simp, by simp, by simp⟩, ⟨by simp, by simp, by simp⟩,
    ⟨by simp, by simp, by simp, by simp, by simp⟩, by simp [SameFilters]⟩

theorem Frame.offerNotices (now : Stamp) (ns : List Notice) (s : State) (k : Port → Bool)
    (h : ∀ n ∈ ns, k n.session = true) : Frame { queues := k } s (offerNotices now ns s) :=
  ⟨⟨by simp, by simp, by simp, by simp, by simp, fun q w => by
      rw [queue_offerNotices]
      have none : (ns.filter fun n => n.session = q) = [] :=
        List.filter_eq_nil_iff.2 fun n hn hq => by
          have e : n.session = q := by simpa using hq
          have c := h n hn
          rw [e] at c
          exact Bool.noConfusion (c.symm.trans w)
      simp [none],
    by simp, by simp,
    fun q w _ => attn_offerNotices_other now ns s q fun n hn e => by
      have c := h n hn
      rw [e] at c
      exact Bool.noConfusion (c.symm.trans w)⟩,
    ⟨by simp, by simp, by simp, by simp, by simp, by simp, by simp, by simp, by simp, by simp⟩, ⟨by simp, by simp, by simp⟩,
    ⟨by simp, by simp, by simp, by simp, by simp⟩, by simp [SameFilters]⟩

theorem Frame.offerNotice (now : Stamp) (s : State) (n : Notice) :
    Frame { queues := only n.session } s (offerNotice now s n) :=
  Frame.offerNotices now [n] s (only n.session) fun m hm => by
    rw [List.mem_singleton.1 hm]
    exact only_self _

end Sys2Proof.Machine
end

