-- ==== Sys2Proof/Laws/Queues.lean ====
section
/-! SUPPORT. The event queues: what taking a record does to a consistent queue, and what a sampling operation offers. -/

namespace Sys2Proof.Machine

/-! ### Consistent queues -/

theorem queueWf_empty : QueueWf emptyQueue := ⟨by simp [emptyQueue], by simp [emptyQueue], by simp [emptyQueue], by simp [emptyQueue]⟩

theorem raiseDropped_le {n : Nat} (h : n ≤ Config.droppedMax) : raiseDropped n ≤ Config.droppedMax := by
  unfold raiseDropped
  split <;> omega

/-- A CHANGE record is appended, or counted as dropped in a full queue (R108). -/
theorem queueWf_takeChange {q : EventQueue} (h : QueueWf q) (c : ChangeRecord) : QueueWf (takeChange c q) := by
  unfold takeChange
  split
  · refine ⟨by simp; omega, ?_, h.dropped, ?_⟩
    · rw [List.filterMap_append, show [Record.change c].filterMap noticeLine = [] from rfl, List.append_nil]
      exact h.oneNoticePerLine
    · intro r hr
      rcases List.mem_append.1 hr with hr | hr
      · exact h.folds r hr
      · rw [List.mem_singleton.1 hr]; exact Nat.zero_le _
  · exact ⟨h.depth, h.oneNoticePerLine, raiseDropped_le h.dropped, h.folds⟩

theorem noticeLine_foldNotice (l : Line) (o : NoticeOutcome) (now : Stamp) (r : Record) :
    noticeLine (foldNotice l o now r) = noticeLine r := by
  cases r with
  | change c => rfl
  | notice n => simp only [foldNotice]; split <;> rfl

theorem isNoticeFor_iff {l : Line} {r : Record} : isNoticeFor l r = true ↔ noticeLine r = some l := by
  cases r <;> simp [isNoticeFor, noticeLine]

/-- Records without a NOTICE for two lines in common leave room below the number of lines: a queue of 32 records holds a
CHANGE record. -/
theorem change_of_full {records : List Record} (h : (records.filterMap noticeLine).Nodup)
    (full : Config.queueDepth ≤ records.length) : ∃ c, .change c ∈ records := by
  apply Classical.byContradiction
  intro no
  have all : ∀ r ∈ records, (noticeLine r).isSome = true := by
    intro r hr
    cases r with
    | change c => exact absurd ⟨c, hr⟩ no
    | notice n => rfl
  have len : (records.filterMap noticeLine).length = records.length := by
    clear h full no
    induction records with
    | nil => rfl
    | cons r rest ih =>
      have hr := all r (List.mem_cons_self ..)
      cases hn : noticeLine r with
      | none => rw [hn] at hr; cases hr
      | some l =>
        rw [List.filterMap_cons_some hn, List.length_cons, List.length_cons,
          ih fun r m => all r (List.mem_cons_of_mem _ m)]
  have := h.length_le_card
  simp [len, Config.queueDepth] at this full
  omega

theorem filterMap_eraseP_isChange (records : List Record) :
    (records.eraseP isChange).filterMap noticeLine = records.filterMap noticeLine := by
  induction records with
  | nil => rfl
  | cons r rest ih =>
    cases r with
    | change c => rfl
    | notice n =>
      rw [List.eraseP_cons_of_neg (by simp [isChange])]
      simp [ih, noticeLine]

/-- A NOTICE is folded, appended, or stored in the place of the oldest CHANGE record (R109, R110). -/
theorem queueWf_takeNotice {q : EventQueue} (h : QueueWf q) (l : Line) (o : NoticeOutcome) (now : Stamp) :
    QueueWf (takeNotice l o now q) := by
  unfold takeNotice
  split
  · refine ⟨by simpa using h.depth, ?_, h.dropped, ?_⟩
    · rw [List.filterMap_map, show noticeLine ∘ foldNotice l o now = noticeLine from
        funext fun r => noticeLine_foldNotice l o now r]
      exact h.oneNoticePerLine
    · intro r hr
      obtain ⟨r', hr', rfl⟩ := List.mem_map.1 hr
      have := h.folds r' hr'
      cases r' with
      | change c => exact Nat.zero_le _
      | notice n =>
        simp only [foldNotice]
        split
        · simp only [foldsOf] at this ⊢
          split <;> omega
        · exact this
  · rename_i no
    have fresh : l ∉ q.records.filterMap noticeLine := by
      intro m
      obtain ⟨r, hr, hn⟩ := List.mem_filterMap.1 m
      exact no (List.any_eq_true.2 ⟨r, hr, isNoticeFor_iff.2 hn⟩)
    have folds : ∀ records : List Record, (∀ r ∈ records, r ∈ q.records) →
        ∀ r ∈ records ++ [Record.notice ⟨l, o, 0, now⟩], foldsOf r ≤ Config.foldMax := by
      intro records sub r hr
      rcases List.mem_append.1 hr with hr | hr
      · exact h.folds r (sub r hr)
      · rw [List.mem_singleton.1 hr]; exact Nat.zero_le _
    have nodup : (q.records.filterMap noticeLine ++ [l]).Nodup :=
      List.Nodup.append h.oneNoticePerLine (List.nodup_singleton l) (by simpa using fresh)
    split
    · refine ⟨by simp; omega, ?_, h.dropped, folds _ fun _ m => m⟩
      rw [List.filterMap_append]
      exact nodup
    · rename_i full
      obtain ⟨c, hc⟩ := change_of_full h.oneNoticePerLine (Nat.le_of_not_lt full)
      have len : (q.records.eraseP isChange).length = q.records.length - 1 :=
        List.length_eraseP_of_mem hc rfl
      have pos : 0 < q.records.length := List.length_pos_of_mem hc
      have depth := h.depth
      refine ⟨?_, ?_, raiseDropped_le h.dropped, folds _ fun _ m => List.mem_of_mem_eraseP m⟩
      · simp only [List.length_append, List.length_singleton, len]
        omega
      · rw [List.filterMap_append, filterMap_eraseP_isChange]
        exact nodup

theorem queueWf_drop {q : EventQueue} (h : QueueWf q) (n : Nat) : QueueWf ⟨q.records.drop n, 0⟩ := by
  refine ⟨?_, ?_, Nat.zero_le _, fun r hr => h.folds r (List.mem_of_mem_drop hr)⟩
  · have := h.depth
    simp only [List.length_drop]
    omega
  · exact h.oneNoticePerLine.sublist ((List.drop_sublist n _).filterMap _)

theorem queueWf_foldl {ns : List Notice} {now : Stamp} {q : EventQueue} (h : QueueWf q) :
    QueueWf (ns.foldl (fun u n => takeNotice n.line n.outcome now u) q) := by
  induction ns generalizing q with
  | nil => exact h
  | cons n ns ih => exact ih (queueWf_takeNotice h _ _ _)

/-- Notices offered to consistent queues leave them consistent. -/
theorem queuesWf_offerNotices {s : State} (h : QueuesWf s) (now : Stamp) (ns : List Notice) :
    QueuesWf (offerNotices now ns s) := by
  intro q
  rw [queue_offerNotices]
  split
  · exact queueWf_foldl (h q)
  · exact h q

/-! ### Sampling -/

@[simp] theorem filterLines_pending (levels : LineMap) (s : State) : (filterLines levels s).pending = s.pending := by
  dsimp only [filterLines, State.setLines]

@[simp] theorem filterLines_resetting (levels : LineMap) (s : State) : (filterLines levels s).resetting = s.resetting := by
  dsimp only [filterLines, State.setLines]

@[simp] theorem filterLines_device (levels : LineMap) (s : State) : (filterLines levels s).device = s.device := by
  dsimp only [filterLines, State.setLines]

@[simp] theorem filterLines_maint (levels : LineMap) (s : State) : (filterLines levels s).maint = s.maint := by
  dsimp only [filterLines, State.setLines]

@[simp] theorem filterLines_tickCount (levels : LineMap) (s : State) : (filterLines levels s).tickCount = s.tickCount := by
  dsimp only [filterLines, State.setLines]

@[simp] theorem filterLines_tickPeriod (levels : LineMap) (s : State) : (filterLines levels s).tickPeriod = s.tickPeriod := by
  dsimp only [filterLines, State.setLines]

@[simp] theorem filterLines_lag (levels : LineMap) (s : State) : (filterLines levels s).lag = s.lag := by
  dsimp only [filterLines, State.setLines]

@[simp] theorem filterLines_pads (levels : LineMap) (s : State) : (filterLines levels s).pads = s.pads := by
  dsimp only [filterLines, State.setLines]

@[simp] theorem filterLines_timers (levels : LineMap) (s : State) : (filterLines levels s).timers = s.timers := by
  dsimp only [filterLines, State.setLines]

@[simp] theorem filterLines_staged (levels : LineMap) (s : State) : (filterLines levels s).staged = s.staged := by
  dsimp only [filterLines, State.setLines]

@[simp] theorem filterLines_watches (levels : LineMap) (s : State) : (filterLines levels s).watches = s.watches := by
  dsimp only [filterLines, State.setLines]

@[simp] theorem filterLines_queues (levels : LineMap) (s : State) : (filterLines levels s).queues = s.queues := by
  dsimp only [filterLines, State.setLines]

@[simp] theorem filterLines_attn (levels : LineMap) (s : State) : (filterLines levels s).attn = s.attn := by
  dsimp only [filterLines, State.setLines]

@[simp] theorem filterLines_sessions (levels : LineMap) (s : State) : (filterLines levels s).sessions = s.sessions := by
  dsimp only [filterLines, State.setLines]

@[simp] theorem filterLines_slotA (levels : LineMap) (s : State) : (filterLines levels s).slotA = s.slotA := by
  dsimp only [filterLines, State.setLines]

@[simp] theorem filterLines_slotB (levels : LineMap) (s : State) : (filterLines levels s).slotB = s.slotB := by
  dsimp only [filterLines, State.setLines]

@[simp] theorem filterLines_recordA (levels : LineMap) (s : State) : (filterLines levels s).recordA = s.recordA := by
  dsimp only [filterLines, State.setLines]

@[simp] theorem filterLines_recordB (levels : LineMap) (s : State) : (filterLines levels s).recordB = s.recordB := by
  dsimp only [filterLines, State.setLines]

@[simp] theorem filterLines_activeSlot (levels : LineMap) (s : State) : (filterLines levels s).activeSlot = s.activeSlot := by
  dsimp only [filterLines, State.setLines]

@[simp] theorem filterLines_active (levels : LineMap) (s : State) : (filterLines levels s).active = s.active := by
  dsimp only [filterLines, State.setLines]

@[simp] theorem filterLines_buffer (levels : LineMap) (s : State) : (filterLines levels s).buffer = s.buffer := by
  dsimp only [filterLines, State.setLines]

@[simp] theorem filterLines_lock (levels : LineMap) (s : State) : (filterLines levels s).lock = s.lock := by
  dsimp only [filterLines, State.setLines]

@[simp] theorem filterLines_burn (levels : LineMap) (s : State) : (filterLines levels s).burn = s.burn := by
  dsimp only [filterLines, State.setLines]

@[simp] theorem filterLines_lastBurn (levels : LineMap) (s : State) : (filterLines levels s).lastBurn = s.lastBurn := by
  dsimp only [filterLines, State.setLines]

@[simp] theorem filterLines_ports (levels : LineMap) (s : State) : (filterLines levels s).ports = s.ports := by
  dsimp only [filterLines, State.setLines]

@[simp] theorem filterLines_freeCount (levels : LineMap) (s : State) : (filterLines levels s).freeCount = s.freeCount := by
  dsimp only [filterLines, State.setLines]

theorem line_filterLines (levels : LineMap) (s : State) (l : Line) :
    (filterLines levels s).line l = { s.line l with confirmed := (sampleLine levels s l).confirmed } := by
  simp only [filterLines, State.line, State.setLines, Fin.getElem_fin, Vector.getElem_ofFn]

theorem filters_filterLines (levels : LineMap) (s : State) (l : Line) :
    (filterLines levels s).filters[l] = (sampleLine levels s l).filter := by
  simp only [filterLines, Fin.getElem_fin, Vector.getElem_ofFn]

/-- What the offers of one confirmed change leave as it was, and what they add to a queue (R98). -/
theorem offerChange_frame (now : Stamp) (l : Line) (level : Bool) (s : State) :
    Frame { queues := fun _ => true } s (offerChange now l level s) := by
  have one : ∀ (p : Port) (take : EventQueue → EventQueue) (s : State), Frame { queues := fun _ => true } s (offer p take s) := by
    intro p take s
    unfold offer
    split
    · exact (Frame.putQueue s p _).widen
    · exact Frame.refl _ _
    · exact Frame.refl _ _
  unfold offerChange
  generalize allPorts = ports
  induction ports generalizing s with
  | nil => exact Frame.refl _ _
  | cons p ports ih =>
    rw [List.foldl_cons]
    split
    · exact (one p _ s).trans (ih _)
    · exact ih s

theorem offerChange_sessions (now : Stamp) (l : Line) (level : Bool) (s : State) :
    (offerChange now l level s).sessions = s.sessions := by
  unfold offerChange
  generalize allPorts = ports
  induction ports generalizing s with
  | nil => rfl
  | cons p ports ih =>
    rw [List.foldl_cons, ih]
    split <;> simp

theorem offerChange_watches (now : Stamp) (l : Line) (level : Bool) (s : State) :
    (offerChange now l level s).watches = s.watches := by
  unfold offerChange
  generalize allPorts = ports
  induction ports generalizing s with
  | nil => rfl
  | cons p ports ih =>
    rw [List.foldl_cons, ih]
    split <;> simp

theorem queue_offerChange (now : Stamp) (l : Line) (level : Bool) (s : State) (q : Port) :
    (offerChange now l level s).queue q =
      if isAttached (s.session q).state && watchMatches (s.watch q)[l] level then takeChange ⟨l, level, now⟩ (s.queue q)
      else s.queue q := by
  have key : ∀ (ports : List Port) (s : State), ports.Nodup →
      (ports.foldl (fun s p => if watchMatches (s.watch p)[l] level then offer p (takeChange ⟨l, level, now⟩) s else s)
        s).queue q =
      if q ∈ ports ∧ isAttached (s.session q).state = true ∧ watchMatches (s.watch q)[l] level = true then
        takeChange ⟨l, level, now⟩ (s.queue q)
      else s.queue q := by
    intro ports
    induction ports with
    | nil => intro s _; simp
    | cons p ports ih =>
      intro s nd
      obtain ⟨np, nd⟩ := List.nodup_cons.1 nd
      rw [List.foldl_cons, ih _ nd]
      by_cases hq : q = p
      · subst hq
        have hw : ∀ c, watchMatches (s.watch q)[l] level = c → watchMatches (s.watch q)[l.val] level = c := fun _ e => e
        cases e : watchMatches (s.watch q)[l] level <;> simp [np, hw _ e, queue_offer]
      · cases e : watchMatches (s.watch p)[l] level <;> simp [hq, queue_offer]
  unfold offerChange
  rw [key allPorts s (by decide)]
  simp [mem_allPorts, Bool.and_eq_true]

theorem attn_offerChange (now : Stamp) (l : Line) (level : Bool) (s : State) (h : AttnAgrees s) :
    AttnAgrees (offerChange now l level s) := by
  unfold offerChange
  generalize allPorts = ports
  induction ports generalizing s with
  | nil => exact h
  | cons p ports ih =>
    rw [List.foldl_cons]
    split
    · exact ih _ fun q => by
        have := attn_offer p (takeChange ⟨l, level, now⟩) s q (h q)
        simpa using this
    · exact ih s h

/-- The CHANGE records that a sampling operation offers to one queue (R98, R107). -/
theorem queue_samplePins (levels : LineMap) (now : Stamp) (s : State) (q : Port) :
    (samplePins levels now s).queue q =
      if isAttached (s.session q).state then
        (allLines.filter fun l => (sampleLine levels s l).changed &&
            watchMatches (s.watch q)[l] (sampleLine levels s l).confirmed).foldl
          (fun u l => takeChange ⟨l, (sampleLine levels s l).confirmed, now⟩ u) (s.queue q)
      else s.queue q := by
  have key : ∀ (lines : List Line) (t : State), t.sessions = s.sessions → t.watches = s.watches →
      (lines.foldl (fun t l => if (sampleLine levels s l).changed then
          offerChange now l (sampleLine levels s l).confirmed t else t) t).queue q =
      if isAttached (s.session q).state then
        (lines.filter fun l => (sampleLine levels s l).changed &&
            watchMatches (s.watch q)[l] (sampleLine levels s l).confirmed).foldl
          (fun u l => takeChange ⟨l, (sampleLine levels s l).confirmed, now⟩ u) (t.queue q)
      else t.queue q := by
    intro lines
    induction lines with
    | nil => intro t _ _; simp
    | cons l lines ih =>
      intro t hs hw
      have es : t.session q = s.session q := by simp [State.session, hs]
      have ew : t.watch q = s.watch q := by simp [State.watch, hw]
      rw [List.foldl_cons]
      by_cases hc : (sampleLine levels s l).changed = true
      · rw [if_pos hc, ih _ (by rw [offerChange_sessions, hs]) (by rw [offerChange_watches, hw]), queue_offerChange, es, ew]
        cases isAttached (s.session q).state with
        | false => simp
        | true =>
          simp only [Bool.true_and, if_true, List.filter_cons, hc]
          split <;> simp
      · rw [if_neg hc, ih _ hs hw]
        simp [hc]
  have e : (filterLines levels s).queue q = s.queue q := by simp [State.queue]
  unfold samplePins
  rw [key allLines (filterLines levels s) (by simp) (by simp), e]

theorem samplePins_frame (levels : LineMap) (now : Stamp) (s : State) :
    Frame { queues := fun _ => true } (filterLines levels s) (samplePins levels now s) := by
  have key : ∀ (lines : List Line) (t : State), Frame { queues := fun _ => true } t
      (lines.foldl (fun t l => if (sampleLine levels s l).changed then
          offerChange now l (sampleLine levels s l).confirmed t else t) t) := by
    intro lines
    induction lines with
    | nil => exact fun t => Frame.refl _ _
    | cons l lines ih =>
      intro t
      rw [List.foldl_cons]
      split
      · exact (offerChange_frame now l _ t).trans (ih _)
      · exact ih t
  unfold samplePins
  exact key _ _

theorem attn_samplePins (levels : LineMap) (now : Stamp) (s : State) (h : AttnAgrees s) :
    AttnAgrees (samplePins levels now s) := by
  have key : ∀ (lines : List Line) (t : State), AttnAgrees t →
      AttnAgrees (lines.foldl (fun t l => if (sampleLine levels s l).changed then
          offerChange now l (sampleLine levels s l).confirmed t else t) t) := by
    intro lines
    induction lines with
    | nil => exact fun t h => h
    | cons l lines ih =>
      intro t h
      rw [List.foldl_cons]
      split
      · exact ih _ (attn_offerChange now l _ t h)
      · exact ih t h
  unfold samplePins
  refine key _ _ fun q => ?_
  have hq := h q
  rw [attn_val] at hq ⊢
  simpa [State.queue, State.port] using hq

end Sys2Proof.Machine
end

