-- ==== Sys2Proof/Laws/Blocks.lean ====
section
/-! SUPPORT. What each operation of the blocks leaves as it was: one lemma per field and per accessor. What an operation
changes stands in the files of its block. -/

namespace Sys2Proof.Machine

/-! ### tearDownLines -/
@[simp] theorem tearDownLines_pending (p : Port) (now : Stamp) (s : State) : (tearDownLines p now s).pending = s.pending := by simp [tearDownLines]
@[simp] theorem tearDownLines_resetting (p : Port) (now : Stamp) (s : State) : (tearDownLines p now s).resetting = s.resetting := by simp [tearDownLines]
@[simp] theorem tearDownLines_device (p : Port) (now : Stamp) (s : State) : (tearDownLines p now s).device = s.device := by simp [tearDownLines]
@[simp] theorem tearDownLines_maint (p : Port) (now : Stamp) (s : State) : (tearDownLines p now s).maint = s.maint := by simp [tearDownLines]
@[simp] theorem tearDownLines_tickCount (p : Port) (now : Stamp) (s : State) : (tearDownLines p now s).tickCount = s.tickCount := by simp [tearDownLines]
@[simp] theorem tearDownLines_tickPeriod (p : Port) (now : Stamp) (s : State) : (tearDownLines p now s).tickPeriod = s.tickPeriod := by simp [tearDownLines]
@[simp] theorem tearDownLines_lag (p : Port) (now : Stamp) (s : State) : (tearDownLines p now s).lag = s.lag := by simp [tearDownLines]
@[simp] theorem tearDownLines_pads (p : Port) (now : Stamp) (s : State) : (tearDownLines p now s).pads = s.pads := by simp [tearDownLines]
@[simp] theorem tearDownLines_timers (p : Port) (now : Stamp) (s : State) : (tearDownLines p now s).timers = s.timers := by simp [tearDownLines]
@[simp] theorem tearDownLines_staged (p : Port) (now : Stamp) (s : State) : (tearDownLines p now s).staged = s.staged := by simp [tearDownLines]
@[simp] theorem tearDownLines_filters (p : Port) (now : Stamp) (s : State) : (tearDownLines p now s).filters = s.filters := by simp [tearDownLines]
@[simp] theorem tearDownLines_watches (p : Port) (now : Stamp) (s : State) : (tearDownLines p now s).watches = s.watches := by simp [tearDownLines]
@[simp] theorem tearDownLines_queues (p : Port) (now : Stamp) (s : State) : (tearDownLines p now s).queues = s.queues := by simp [tearDownLines]
@[simp] theorem tearDownLines_attn (p : Port) (now : Stamp) (s : State) : (tearDownLines p now s).attn = s.attn := by simp [tearDownLines]
@[simp] theorem tearDownLines_sessions (p : Port) (now : Stamp) (s : State) : (tearDownLines p now s).sessions = s.sessions := by simp [tearDownLines]
@[simp] theorem tearDownLines_slotA (p : Port) (now : Stamp) (s : State) : (tearDownLines p now s).slotA = s.slotA := by simp [tearDownLines]
@[simp] theorem tearDownLines_slotB (p : Port) (now : Stamp) (s : State) : (tearDownLines p now s).slotB = s.slotB := by simp [tearDownLines]
@[simp] theorem tearDownLines_recordA (p : Port) (now : Stamp) (s : State) : (tearDownLines p now s).recordA = s.recordA := by simp [tearDownLines]
@[simp] theorem tearDownLines_recordB (p : Port) (now : Stamp) (s : State) : (tearDownLines p now s).recordB = s.recordB := by simp [tearDownLines]
@[simp] theorem tearDownLines_activeSlot (p : Port) (now : Stamp) (s : State) : (tearDownLines p now s).activeSlot = s.activeSlot := by simp [tearDownLines]
@[simp] theorem tearDownLines_active (p : Port) (now : Stamp) (s : State) : (tearDownLines p now s).active = s.active := by simp [tearDownLines]
@[simp] theorem tearDownLines_buffer (p : Port) (now : Stamp) (s : State) : (tearDownLines p now s).buffer = s.buffer := by simp [tearDownLines]
@[simp] theorem tearDownLines_lock (p : Port) (now : Stamp) (s : State) : (tearDownLines p now s).lock = s.lock := by simp [tearDownLines]
@[simp] theorem tearDownLines_burn (p : Port) (now : Stamp) (s : State) : (tearDownLines p now s).burn = s.burn := by simp [tearDownLines]
@[simp] theorem tearDownLines_lastBurn (p : Port) (now : Stamp) (s : State) : (tearDownLines p now s).lastBurn = s.lastBurn := by simp [tearDownLines]
@[simp] theorem tearDownLines_ports (p : Port) (now : Stamp) (s : State) : (tearDownLines p now s).ports = s.ports := by simp [tearDownLines]
@[simp] theorem tearDownLines_freeCount (p : Port) (now : Stamp) (s : State) : (tearDownLines p now s).freeCount = s.freeCount := by simp [tearDownLines]
@[simp] theorem pad_tearDownLines (p : Port) (now : Stamp) (s : State) (k : Line) : (tearDownLines p now s).pad k = s.pad k := by simp [State.pad]
@[simp] theorem timer_tearDownLines (p : Port) (now : Stamp) (s : State) (k : TimerId) : (tearDownLines p now s).timer k = s.timer k := by simp [State.timer]
@[simp] theorem stagedSet_tearDownLines (p : Port) (now : Stamp) (s : State) (k : Port) : (tearDownLines p now s).stagedSet k = s.stagedSet k := by simp [State.stagedSet]
@[simp] theorem watch_tearDownLines (p : Port) (now : Stamp) (s : State) (k : Port) : (tearDownLines p now s).watch k = s.watch k := by simp [State.watch]
@[simp] theorem queue_tearDownLines (p : Port) (now : Stamp) (s : State) (k : Port) : (tearDownLines p now s).queue k = s.queue k := by simp [State.queue]
@[simp] theorem session_tearDownLines (p : Port) (now : Stamp) (s : State) (k : Port) : (tearDownLines p now s).session k = s.session k := by simp [State.session]
@[simp] theorem port_tearDownLines (p : Port) (now : Stamp) (s : State) (k : Port) : (tearDownLines p now s).port k = s.port k := by simp [State.port]

/-! ### teardown -/
@[simp] theorem teardown_pending (p : Port) (s : State) : (teardown p s).pending = s.pending := by simp [teardown]
@[simp] theorem teardown_resetting (p : Port) (s : State) : (teardown p s).resetting = s.resetting := by simp [teardown]
@[simp] theorem teardown_device (p : Port) (s : State) : (teardown p s).device = s.device := by simp [teardown]
@[simp] theorem teardown_maint (p : Port) (s : State) : (teardown p s).maint = s.maint := by simp [teardown]
@[simp] theorem teardown_tickCount (p : Port) (s : State) : (teardown p s).tickCount = s.tickCount := by simp [teardown]
@[simp] theorem teardown_tickPeriod (p : Port) (s : State) : (teardown p s).tickPeriod = s.tickPeriod := by simp [teardown]
@[simp] theorem teardown_lag (p : Port) (s : State) : (teardown p s).lag = s.lag := by simp [teardown]
@[simp] theorem teardown_filters (p : Port) (s : State) : (teardown p s).filters = s.filters := by simp [teardown]
@[simp] theorem teardown_sessions (p : Port) (s : State) : (teardown p s).sessions = s.sessions := by simp [teardown]
@[simp] theorem teardown_slotA (p : Port) (s : State) : (teardown p s).slotA = s.slotA := by simp [teardown]
@[simp] theorem teardown_slotB (p : Port) (s : State) : (teardown p s).slotB = s.slotB := by simp [teardown]
@[simp] theorem teardown_recordA (p : Port) (s : State) : (teardown p s).recordA = s.recordA := by simp [teardown]
@[simp] theorem teardown_recordB (p : Port) (s : State) : (teardown p s).recordB = s.recordB := by simp [teardown]
@[simp] theorem teardown_activeSlot (p : Port) (s : State) : (teardown p s).activeSlot = s.activeSlot := by simp [teardown]
@[simp] theorem teardown_active (p : Port) (s : State) : (teardown p s).active = s.active := by simp [teardown]
@[simp] theorem teardown_buffer (p : Port) (s : State) : (teardown p s).buffer = s.buffer := by simp [teardown]
@[simp] theorem teardown_lock (p : Port) (s : State) : (teardown p s).lock = s.lock := by simp [teardown]
@[simp] theorem teardown_burn (p : Port) (s : State) : (teardown p s).burn = s.burn := by simp [teardown]
@[simp] theorem teardown_lastBurn (p : Port) (s : State) : (teardown p s).lastBurn = s.lastBurn := by simp [teardown]
@[simp] theorem teardown_ports (p : Port) (s : State) : (teardown p s).ports = s.ports := by simp [teardown]
@[simp] theorem teardown_freeCount (p : Port) (s : State) : (teardown p s).freeCount = s.freeCount := by simp [teardown]
@[simp] theorem session_teardown (p : Port) (s : State) (k : Port) : (teardown p s).session k = s.session k := by simp [State.session]
@[simp] theorem port_teardown (p : Port) (s : State) (k : Port) : (teardown p s).port k = s.port k := by simp [State.port]

/-! ### endSession -/
@[simp] theorem endSession_pending (p : Port) (x : SessionState) (r : EndReason) (s : State) : (endSession p x r s).pending = s.pending := by simp [endSession]
@[simp] theorem endSession_resetting (p : Port) (x : SessionState) (r : EndReason) (s : State) : (endSession p x r s).resetting = s.resetting := by simp [endSession]
@[simp] theorem endSession_device (p : Port) (x : SessionState) (r : EndReason) (s : State) : (endSession p x r s).device = s.device := by simp [endSession]
@[simp] theorem endSession_maint (p : Port) (x : SessionState) (r : EndReason) (s : State) : (endSession p x r s).maint = s.maint := by simp [endSession]
@[simp] theorem endSession_tickCount (p : Port) (x : SessionState) (r : EndReason) (s : State) : (endSession p x r s).tickCount = s.tickCount := by simp [endSession]
@[simp] theorem endSession_tickPeriod (p : Port) (x : SessionState) (r : EndReason) (s : State) : (endSession p x r s).tickPeriod = s.tickPeriod := by simp [endSession]
@[simp] theorem endSession_lag (p : Port) (x : SessionState) (r : EndReason) (s : State) : (endSession p x r s).lag = s.lag := by simp [endSession]
@[simp] theorem endSession_lines (p : Port) (x : SessionState) (r : EndReason) (s : State) : (endSession p x r s).lines = s.lines := by simp [endSession]
@[simp] theorem endSession_pads (p : Port) (x : SessionState) (r : EndReason) (s : State) : (endSession p x r s).pads = s.pads := by simp [endSession]
@[simp] theorem endSession_timers (p : Port) (x : SessionState) (r : EndReason) (s : State) : (endSession p x r s).timers = s.timers := by simp [endSession]
@[simp] theorem endSession_staged (p : Port) (x : SessionState) (r : EndReason) (s : State) : (endSession p x r s).staged = s.staged := by simp [endSession]
@[simp] theorem endSession_filters (p : Port) (x : SessionState) (r : EndReason) (s : State) : (endSession p x r s).filters = s.filters := by simp [endSession]
@[simp] theorem endSession_watches (p : Port) (x : SessionState) (r : EndReason) (s : State) : (endSession p x r s).watches = s.watches := by simp [endSession]
@[simp] theorem endSession_queues (p : Port) (x : SessionState) (r : EndReason) (s : State) : (endSession p x r s).queues = s.queues := by simp [endSession]
@[simp] theorem endSession_attn (p : Port) (x : SessionState) (r : EndReason) (s : State) : (endSession p x r s).attn = s.attn := by simp [endSession]
@[simp] theorem endSession_slotA (p : Port) (x : SessionState) (r : EndReason) (s : State) : (endSession p x r s).slotA = s.slotA := by simp [endSession]
@[simp] theorem endSession_slotB (p : Port) (x : SessionState) (r : EndReason) (s : State) : (endSession p x r s).slotB = s.slotB := by simp [endSession]
@[simp] theorem endSession_recordA (p : Port) (x : SessionState) (r : EndReason) (s : State) : (endSession p x r s).recordA = s.recordA := by simp [endSession]
@[simp] theorem endSession_recordB (p : Port) (x : SessionState) (r : EndReason) (s : State) : (endSession p x r s).recordB = s.recordB := by simp [endSession]
@[simp] theorem endSession_activeSlot (p : Port) (x : SessionState) (r : EndReason) (s : State) : (endSession p x r s).activeSlot = s.activeSlot := by simp [endSession]
@[simp] theorem endSession_active (p : Port) (x : SessionState) (r : EndReason) (s : State) : (endSession p x r s).active = s.active := by simp [endSession]
@[simp] theorem endSession_buffer (p : Port) (x : SessionState) (r : EndReason) (s : State) : (endSession p x r s).buffer = s.buffer := by simp [endSession]
@[simp] theorem endSession_lock (p : Port) (x : SessionState) (r : EndReason) (s : State) : (endSession p x r s).lock = s.lock := by simp [endSession]
@[simp] theorem endSession_burn (p : Port) (x : SessionState) (r : EndReason) (s : State) : (endSession p x r s).burn = s.burn := by simp [endSession]
@[simp] theorem endSession_lastBurn (p : Port) (x : SessionState) (r : EndReason) (s : State) : (endSession p x r s).lastBurn = s.lastBurn := by simp [endSession]
@[simp] theorem endSession_ports (p : Port) (x : SessionState) (r : EndReason) (s : State) : (endSession p x r s).ports = s.ports := by simp [endSession]
@[simp] theorem endSession_freeCount (p : Port) (x : SessionState) (r : EndReason) (s : State) : (endSession p x r s).freeCount = s.freeCount := by simp [endSession]
@[simp] theorem line_endSession (p : Port) (x : SessionState) (r : EndReason) (s : State) (k : Line) : (endSession p x r s).line k = s.line k := by simp [State.line]
@[simp] theorem pad_endSession (p : Port) (x : SessionState) (r : EndReason) (s : State) (k : Line) : (endSession p x r s).pad k = s.pad k := by simp [State.pad]
@[simp] theorem timer_endSession (p : Port) (x : SessionState) (r : EndReason) (s : State) (k : TimerId) : (endSession p x r s).timer k = s.timer k := by simp [State.timer]
@[simp] theorem stagedSet_endSession (p : Port) (x : SessionState) (r : EndReason) (s : State) (k : Port) : (endSession p x r s).stagedSet k = s.stagedSet k := by simp [State.stagedSet]
@[simp] theorem watch_endSession (p : Port) (x : SessionState) (r : EndReason) (s : State) (k : Port) : (endSession p x r s).watch k = s.watch k := by simp [State.watch]
@[simp] theorem queue_endSession (p : Port) (x : SessionState) (r : EndReason) (s : State) (k : Port) : (endSession p x r s).queue k = s.queue k := by simp [State.queue]
@[simp] theorem port_endSession (p : Port) (x : SessionState) (r : EndReason) (s : State) (k : Port) : (endSession p x r s).port k = s.port k := by simp [State.port]

/-! ### applyLineStep -/
@[simp] theorem applyLineStep_pending (l : Line) (x : LineStep) (now : Stamp) (handed : Bool) (s : State) : (applyLineStep l x now handed s).pending = s.pending := by simp [applyLineStep]
@[simp] theorem applyLineStep_resetting (l : Line) (x : LineStep) (now : Stamp) (handed : Bool) (s : State) : (applyLineStep l x now handed s).resetting = s.resetting := by simp [applyLineStep]
@[simp] theorem applyLineStep_device (l : Line) (x : LineStep) (now : Stamp) (handed : Bool) (s : State) : (applyLineStep l x now handed s).device = s.device := by simp [applyLineStep]
@[simp] theorem applyLineStep_maint (l : Line) (x : LineStep) (now : Stamp) (handed : Bool) (s : State) : (applyLineStep l x now handed s).maint = s.maint := by simp [applyLineStep]
@[simp] theorem applyLineStep_tickCount (l : Line) (x : LineStep) (now : Stamp) (handed : Bool) (s : State) : (applyLineStep l x now handed s).tickCount = s.tickCount := by simp [applyLineStep]
@[simp] theorem applyLineStep_tickPeriod (l : Line) (x : LineStep) (now : Stamp) (handed : Bool) (s : State) : (applyLineStep l x now handed s).tickPeriod = s.tickPeriod := by simp [applyLineStep]
@[simp] theorem applyLineStep_lag (l : Line) (x : LineStep) (now : Stamp) (handed : Bool) (s : State) : (applyLineStep l x now handed s).lag = s.lag := by simp [applyLineStep]
@[simp] theorem applyLineStep_timers (l : Line) (x : LineStep) (now : Stamp) (handed : Bool) (s : State) : (applyLineStep l x now handed s).timers = s.timers := by simp [applyLineStep]
@[simp] theorem applyLineStep_staged (l : Line) (x : LineStep) (now : Stamp) (handed : Bool) (s : State) : (applyLineStep l x now handed s).staged = s.staged := by simp [applyLineStep]
@[simp] theorem applyLineStep_filters (l : Line) (x : LineStep) (now : Stamp) (handed : Bool) (s : State) : (applyLineStep l x now handed s).filters = s.filters := by simp [applyLineStep]
@[simp] theorem applyLineStep_watches (l : Line) (x : LineStep) (now : Stamp) (handed : Bool) (s : State) : (applyLineStep l x now handed s).watches = s.watches := by simp [applyLineStep]
@[simp] theorem applyLineStep_sessions (l : Line) (x : LineStep) (now : Stamp) (handed : Bool) (s : State) : (applyLineStep l x now handed s).sessions = s.sessions := by simp [applyLineStep]
@[simp] theorem applyLineStep_slotA (l : Line) (x : LineStep) (now : Stamp) (handed : Bool) (s : State) : (applyLineStep l x now handed s).slotA = s.slotA := by simp [applyLineStep]
@[simp] theorem applyLineStep_slotB (l : Line) (x : LineStep) (now : Stamp) (handed : Bool) (s : State) : (applyLineStep l x now handed s).slotB = s.slotB := by simp [applyLineStep]
@[simp] theorem applyLineStep_recordA (l : Line) (x : LineStep) (now : Stamp) (handed : Bool) (s : State) : (applyLineStep l x now handed s).recordA = s.recordA := by simp [applyLineStep]
@[simp] theorem applyLineStep_recordB (l : Line) (x : LineStep) (now : Stamp) (handed : Bool) (s : State) : (applyLineStep l x now handed s).recordB = s.recordB := by simp [applyLineStep]
@[simp] theorem applyLineStep_activeSlot (l : Line) (x : LineStep) (now : Stamp) (handed : Bool) (s : State) : (applyLineStep l x now handed s).activeSlot = s.activeSlot := by simp [applyLineStep]
@[simp] theorem applyLineStep_active (l : Line) (x : LineStep) (now : Stamp) (handed : Bool) (s : State) : (applyLineStep l x now handed s).active = s.active := by simp [applyLineStep]
@[simp] theorem applyLineStep_buffer (l : Line) (x : LineStep) (now : Stamp) (handed : Bool) (s : State) : (applyLineStep l x now handed s).buffer = s.buffer := by simp [applyLineStep]
@[simp] theorem applyLineStep_lock (l : Line) (x : LineStep) (now : Stamp) (handed : Bool) (s : State) : (applyLineStep l x now handed s).lock = s.lock := by simp [applyLineStep]
@[simp] theorem applyLineStep_burn (l : Line) (x : LineStep) (now : Stamp) (handed : Bool) (s : State) : (applyLineStep l x now handed s).burn = s.burn := by simp [applyLineStep]
@[simp] theorem applyLineStep_lastBurn (l : Line) (x : LineStep) (now : Stamp) (handed : Bool) (s : State) : (applyLineStep l x now handed s).lastBurn = s.lastBurn := by simp [applyLineStep]
@[simp] theorem applyLineStep_ports (l : Line) (x : LineStep) (now : Stamp) (handed : Bool) (s : State) : (applyLineStep l x now handed s).ports = s.ports := by simp [applyLineStep]
@[simp] theorem applyLineStep_freeCount (l : Line) (x : LineStep) (now : Stamp) (handed : Bool) (s : State) : (applyLineStep l x now handed s).freeCount = s.freeCount := by simp [applyLineStep]
@[simp] theorem timer_applyLineStep (l : Line) (x : LineStep) (now : Stamp) (handed : Bool) (s : State) (k : TimerId) : (applyLineStep l x now handed s).timer k = s.timer k := by simp [State.timer]
@[simp] theorem stagedSet_applyLineStep (l : Line) (x : LineStep) (now : Stamp) (handed : Bool) (s : State) (k : Port) : (applyLineStep l x now handed s).stagedSet k = s.stagedSet k := by simp [State.stagedSet]
@[simp] theorem watch_applyLineStep (l : Line) (x : LineStep) (now : Stamp) (handed : Bool) (s : State) (k : Port) : (applyLineStep l x now handed s).watch k = s.watch k := by simp [State.watch]
@[simp] theorem session_applyLineStep (l : Line) (x : LineStep) (now : Stamp) (handed : Bool) (s : State) (k : Port) : (applyLineStep l x now handed s).session k = s.session k := by simp [State.session]
@[simp] theorem port_applyLineStep (l : Line) (x : LineStep) (now : Stamp) (handed : Bool) (s : State) (k : Port) : (applyLineStep l x now handed s).port k = s.port k := by simp [State.port]

/-! ### installOwners -/
@[simp] theorem installOwners_pending (l : Line) (o : Owners) (s : State) : (installOwners l o s).pending = s.pending := by simp [installOwners]
@[simp] theorem installOwners_resetting (l : Line) (o : Owners) (s : State) : (installOwners l o s).resetting = s.resetting := by simp [installOwners]
@[simp] theorem installOwners_device (l : Line) (o : Owners) (s : State) : (installOwners l o s).device = s.device := by simp [installOwners]
@[simp] theorem installOwners_maint (l : Line) (o : Owners) (s : State) : (installOwners l o s).maint = s.maint := by simp [installOwners]
@[simp] theorem installOwners_tickCount (l : Line) (o : Owners) (s : State) : (installOwners l o s).tickCount = s.tickCount := by simp [installOwners]
@[simp] theorem installOwners_tickPeriod (l : Line) (o : Owners) (s : State) : (installOwners l o s).tickPeriod = s.tickPeriod := by simp [installOwners]
@[simp] theorem installOwners_lag (l : Line) (o : Owners) (s : State) : (installOwners l o s).lag = s.lag := by simp [installOwners]
@[simp] theorem installOwners_timers (l : Line) (o : Owners) (s : State) : (installOwners l o s).timers = s.timers := by simp [installOwners]
@[simp] theorem installOwners_staged (l : Line) (o : Owners) (s : State) : (installOwners l o s).staged = s.staged := by simp [installOwners]
@[simp] theorem installOwners_filters (l : Line) (o : Owners) (s : State) : (installOwners l o s).filters = s.filters := by simp [installOwners]
@[simp] theorem installOwners_watches (l : Line) (o : Owners) (s : State) : (installOwners l o s).watches = s.watches := by simp [installOwners]
@[simp] theorem installOwners_queues (l : Line) (o : Owners) (s : State) : (installOwners l o s).queues = s.queues := by simp [installOwners]
@[simp] theorem installOwners_attn (l : Line) (o : Owners) (s : State) : (installOwners l o s).attn = s.attn := by simp [installOwners]
@[simp] theorem installOwners_sessions (l : Line) (o : Owners) (s : State) : (installOwners l o s).sessions = s.sessions := by simp [installOwners]
@[simp] theorem installOwners_slotA (l : Line) (o : Owners) (s : State) : (installOwners l o s).slotA = s.slotA := by simp [installOwners]
@[simp] theorem installOwners_slotB (l : Line) (o : Owners) (s : State) : (installOwners l o s).slotB = s.slotB := by simp [installOwners]
@[simp] theorem installOwners_recordA (l : Line) (o : Owners) (s : State) : (installOwners l o s).recordA = s.recordA := by simp [installOwners]
@[simp] theorem installOwners_recordB (l : Line) (o : Owners) (s : State) : (installOwners l o s).recordB = s.recordB := by simp [installOwners]
@[simp] theorem installOwners_activeSlot (l : Line) (o : Owners) (s : State) : (installOwners l o s).activeSlot = s.activeSlot := by simp [installOwners]
@[simp] theorem installOwners_active (l : Line) (o : Owners) (s : State) : (installOwners l o s).active = s.active := by simp [installOwners]
@[simp] theorem installOwners_buffer (l : Line) (o : Owners) (s : State) : (installOwners l o s).buffer = s.buffer := by simp [installOwners]
@[simp] theorem installOwners_lock (l : Line) (o : Owners) (s : State) : (installOwners l o s).lock = s.lock := by simp [installOwners]
@[simp] theorem installOwners_burn (l : Line) (o : Owners) (s : State) : (installOwners l o s).burn = s.burn := by simp [installOwners]
@[simp] theorem installOwners_lastBurn (l : Line) (o : Owners) (s : State) : (installOwners l o s).lastBurn = s.lastBurn := by simp [installOwners]
@[simp] theorem installOwners_ports (l : Line) (o : Owners) (s : State) : (installOwners l o s).ports = s.ports := by simp [installOwners]
@[simp] theorem installOwners_freeCount (l : Line) (o : Owners) (s : State) : (installOwners l o s).freeCount = s.freeCount := by simp [installOwners]
@[simp] theorem timer_installOwners (l : Line) (o : Owners) (s : State) (k : TimerId) : (installOwners l o s).timer k = s.timer k := by simp [State.timer]
@[simp] theorem stagedSet_installOwners (l : Line) (o : Owners) (s : State) (k : Port) : (installOwners l o s).stagedSet k = s.stagedSet k := by simp [State.stagedSet]
@[simp] theorem watch_installOwners (l : Line) (o : Owners) (s : State) (k : Port) : (installOwners l o s).watch k = s.watch k := by simp [State.watch]
@[simp] theorem queue_installOwners (l : Line) (o : Owners) (s : State) (k : Port) : (installOwners l o s).queue k = s.queue k := by simp [State.queue]
@[simp] theorem session_installOwners (l : Line) (o : Owners) (s : State) (k : Port) : (installOwners l o s).session k = s.session k := by simp [State.session]
@[simp] theorem port_installOwners (l : Line) (o : Owners) (s : State) (k : Port) : (installOwners l o s).port k = s.port k := by simp [State.port]

/-! ### preempt -/
@[simp] theorem preempt_pending (p : Port) (l : Line) (want : Want) (stay : Bool) (s : State) : (preempt p l want stay s).pending = s.pending := by simp [preempt]
@[simp] theorem preempt_resetting (p : Port) (l : Line) (want : Want) (stay : Bool) (s : State) : (preempt p l want stay s).resetting = s.resetting := by simp [preempt]
@[simp] theorem preempt_device (p : Port) (l : Line) (want : Want) (stay : Bool) (s : State) : (preempt p l want stay s).device = s.device := by simp [preempt]
@[simp] theorem preempt_maint (p : Port) (l : Line) (want : Want) (stay : Bool) (s : State) : (preempt p l want stay s).maint = s.maint := by simp [preempt]
@[simp] theorem preempt_tickCount (p : Port) (l : Line) (want : Want) (stay : Bool) (s : State) : (preempt p l want stay s).tickCount = s.tickCount := by simp [preempt]
@[simp] theorem preempt_tickPeriod (p : Port) (l : Line) (want : Want) (stay : Bool) (s : State) : (preempt p l want stay s).tickPeriod = s.tickPeriod := by simp [preempt]
@[simp] theorem preempt_lag (p : Port) (l : Line) (want : Want) (stay : Bool) (s : State) : (preempt p l want stay s).lag = s.lag := by simp [preempt]
@[simp] theorem preempt_staged (p : Port) (l : Line) (want : Want) (stay : Bool) (s : State) : (preempt p l want stay s).staged = s.staged := by simp [preempt]
@[simp] theorem preempt_filters (p : Port) (l : Line) (want : Want) (stay : Bool) (s : State) : (preempt p l want stay s).filters = s.filters := by simp [preempt]
@[simp] theorem preempt_watches (p : Port) (l : Line) (want : Want) (stay : Bool) (s : State) : (preempt p l want stay s).watches = s.watches := by simp [preempt]
@[simp] theorem preempt_sessions (p : Port) (l : Line) (want : Want) (stay : Bool) (s : State) : (preempt p l want stay s).sessions = s.sessions := by simp [preempt]
@[simp] theorem preempt_slotA (p : Port) (l : Line) (want : Want) (stay : Bool) (s : State) : (preempt p l want stay s).slotA = s.slotA := by simp [preempt]
@[simp] theorem preempt_slotB (p : Port) (l : Line) (want : Want) (stay : Bool) (s : State) : (preempt p l want stay s).slotB = s.slotB := by simp [preempt]
@[simp] theorem preempt_recordA (p : Port) (l : Line) (want : Want) (stay : Bool) (s : State) : (preempt p l want stay s).recordA = s.recordA := by simp [preempt]
@[simp] theorem preempt_recordB (p : Port) (l : Line) (want : Want) (stay : Bool) (s : State) : (preempt p l want stay s).recordB = s.recordB := by simp [preempt]
@[simp] theorem preempt_activeSlot (p : Port) (l : Line) (want : Want) (stay : Bool) (s : State) : (preempt p l want stay s).activeSlot = s.activeSlot := by simp [preempt]
@[simp] theorem preempt_active (p : Port) (l : Line) (want : Want) (stay : Bool) (s : State) : (preempt p l want stay s).active = s.active := by simp [preempt]
@[simp] theorem preempt_buffer (p : Port) (l : Line) (want : Want) (stay : Bool) (s : State) : (preempt p l want stay s).buffer = s.buffer := by simp [preempt]
@[simp] theorem preempt_lock (p : Port) (l : Line) (want : Want) (stay : Bool) (s : State) : (preempt p l want stay s).lock = s.lock := by simp [preempt]
@[simp] theorem preempt_burn (p : Port) (l : Line) (want : Want) (stay : Bool) (s : State) : (preempt p l want stay s).burn = s.burn := by simp [preempt]
@[simp] theorem preempt_lastBurn (p : Port) (l : Line) (want : Want) (stay : Bool) (s : State) : (preempt p l want stay s).lastBurn = s.lastBurn := by simp [preempt]
@[simp] theorem preempt_ports (p : Port) (l : Line) (want : Want) (stay : Bool) (s : State) : (preempt p l want stay s).ports = s.ports := by simp [preempt]
@[simp] theorem preempt_freeCount (p : Port) (l : Line) (want : Want) (stay : Bool) (s : State) : (preempt p l want stay s).freeCount = s.freeCount := by simp [preempt]
@[simp] theorem stagedSet_preempt (p : Port) (l : Line) (want : Want) (stay : Bool) (s : State) (k : Port) : (preempt p l want stay s).stagedSet k = s.stagedSet k := by simp [State.stagedSet]
@[simp] theorem watch_preempt (p : Port) (l : Line) (want : Want) (stay : Bool) (s : State) (k : Port) : (preempt p l want stay s).watch k = s.watch k := by simp [State.watch]
@[simp] theorem session_preempt (p : Port) (l : Line) (want : Want) (stay : Bool) (s : State) (k : Port) : (preempt p l want stay s).session k = s.session k := by simp [State.session]
@[simp] theorem port_preempt (p : Port) (l : Line) (want : Want) (stay : Bool) (s : State) (k : Port) : (preempt p l want stay s).port k = s.port k := by simp [State.port]

/-! ### expireWait -/
@[simp] theorem expireWait_pending (l : Line) (p : Port) (s : State) : (expireWait l p s).pending = s.pending := by simp [expireWait]
@[simp] theorem expireWait_resetting (l : Line) (p : Port) (s : State) : (expireWait l p s).resetting = s.resetting := by simp [expireWait]
@[simp] theorem expireWait_device (l : Line) (p : Port) (s : State) : (expireWait l p s).device = s.device := by simp [expireWait]
@[simp] theorem expireWait_maint (l : Line) (p : Port) (s : State) : (expireWait l p s).maint = s.maint := by simp [expireWait]
@[simp] theorem expireWait_tickCount (l : Line) (p : Port) (s : State) : (expireWait l p s).tickCount = s.tickCount := by simp [expireWait]
@[simp] theorem expireWait_tickPeriod (l : Line) (p : Port) (s : State) : (expireWait l p s).tickPeriod = s.tickPeriod := by simp [expireWait]
@[simp] theorem expireWait_lag (l : Line) (p : Port) (s : State) : (expireWait l p s).lag = s.lag := by simp [expireWait]
@[simp] theorem expireWait_timers (l : Line) (p : Port) (s : State) : (expireWait l p s).timers = s.timers := by simp [expireWait]
@[simp] theorem expireWait_staged (l : Line) (p : Port) (s : State) : (expireWait l p s).staged = s.staged := by simp [expireWait]
@[simp] theorem expireWait_filters (l : Line) (p : Port) (s : State) : (expireWait l p s).filters = s.filters := by simp [expireWait]
@[simp] theorem expireWait_watches (l : Line) (p : Port) (s : State) : (expireWait l p s).watches = s.watches := by simp [expireWait]
@[simp] theorem expireWait_sessions (l : Line) (p : Port) (s : State) : (expireWait l p s).sessions = s.sessions := by simp [expireWait]
@[simp] theorem expireWait_slotA (l : Line) (p : Port) (s : State) : (expireWait l p s).slotA = s.slotA := by simp [expireWait]
@[simp] theorem expireWait_slotB (l : Line) (p : Port) (s : State) : (expireWait l p s).slotB = s.slotB := by simp [expireWait]
@[simp] theorem expireWait_recordA (l : Line) (p : Port) (s : State) : (expireWait l p s).recordA = s.recordA := by simp [expireWait]
@[simp] theorem expireWait_recordB (l : Line) (p : Port) (s : State) : (expireWait l p s).recordB = s.recordB := by simp [expireWait]
@[simp] theorem expireWait_activeSlot (l : Line) (p : Port) (s : State) : (expireWait l p s).activeSlot = s.activeSlot := by simp [expireWait]
@[simp] theorem expireWait_active (l : Line) (p : Port) (s : State) : (expireWait l p s).active = s.active := by simp [expireWait]
@[simp] theorem expireWait_buffer (l : Line) (p : Port) (s : State) : (expireWait l p s).buffer = s.buffer := by simp [expireWait]
@[simp] theorem expireWait_lock (l : Line) (p : Port) (s : State) : (expireWait l p s).lock = s.lock := by simp [expireWait]
@[simp] theorem expireWait_burn (l : Line) (p : Port) (s : State) : (expireWait l p s).burn = s.burn := by simp [expireWait]
@[simp] theorem expireWait_lastBurn (l : Line) (p : Port) (s : State) : (expireWait l p s).lastBurn = s.lastBurn := by simp [expireWait]
@[simp] theorem expireWait_ports (l : Line) (p : Port) (s : State) : (expireWait l p s).ports = s.ports := by simp [expireWait]
@[simp] theorem expireWait_freeCount (l : Line) (p : Port) (s : State) : (expireWait l p s).freeCount = s.freeCount := by simp [expireWait]
@[simp] theorem timer_expireWait (l : Line) (p : Port) (s : State) (k : TimerId) : (expireWait l p s).timer k = s.timer k := by simp [State.timer]
@[simp] theorem stagedSet_expireWait (l : Line) (p : Port) (s : State) (k : Port) : (expireWait l p s).stagedSet k = s.stagedSet k := by simp [State.stagedSet]
@[simp] theorem watch_expireWait (l : Line) (p : Port) (s : State) (k : Port) : (expireWait l p s).watch k = s.watch k := by simp [State.watch]
@[simp] theorem session_expireWait (l : Line) (p : Port) (s : State) (k : Port) : (expireWait l p s).session k = s.session k := by simp [State.session]
@[simp] theorem port_expireWait (l : Line) (p : Port) (s : State) (k : Port) : (expireWait l p s).port k = s.port k := by simp [State.port]

/-! ### expirePulse -/
@[simp] theorem expirePulse_pending (x : TimerId) (r : PulseTimer) (s : State) : (expirePulse x r s).pending = s.pending := by simp [expirePulse]
@[simp] theorem expirePulse_resetting (x : TimerId) (r : PulseTimer) (s : State) : (expirePulse x r s).resetting = s.resetting := by simp [expirePulse]
@[simp] theorem expirePulse_device (x : TimerId) (r : PulseTimer) (s : State) : (expirePulse x r s).device = s.device := by simp [expirePulse]
@[simp] theorem expirePulse_maint (x : TimerId) (r : PulseTimer) (s : State) : (expirePulse x r s).maint = s.maint := by simp [expirePulse]
@[simp] theorem expirePulse_tickCount (x : TimerId) (r : PulseTimer) (s : State) : (expirePulse x r s).tickCount = s.tickCount := by simp [expirePulse]
@[simp] theorem expirePulse_tickPeriod (x : TimerId) (r : PulseTimer) (s : State) : (expirePulse x r s).tickPeriod = s.tickPeriod := by simp [expirePulse]
@[simp] theorem expirePulse_lag (x : TimerId) (r : PulseTimer) (s : State) : (expirePulse x r s).lag = s.lag := by simp [expirePulse]
@[simp] theorem expirePulse_staged (x : TimerId) (r : PulseTimer) (s : State) : (expirePulse x r s).staged = s.staged := by simp [expirePulse]
@[simp] theorem expirePulse_filters (x : TimerId) (r : PulseTimer) (s : State) : (expirePulse x r s).filters = s.filters := by simp [expirePulse]
@[simp] theorem expirePulse_watches (x : TimerId) (r : PulseTimer) (s : State) : (expirePulse x r s).watches = s.watches := by simp [expirePulse]
@[simp] theorem expirePulse_sessions (x : TimerId) (r : PulseTimer) (s : State) : (expirePulse x r s).sessions = s.sessions := by simp [expirePulse]
@[simp] theorem expirePulse_slotA (x : TimerId) (r : PulseTimer) (s : State) : (expirePulse x r s).slotA = s.slotA := by simp [expirePulse]
@[simp] theorem expirePulse_slotB (x : TimerId) (r : PulseTimer) (s : State) : (expirePulse x r s).slotB = s.slotB := by simp [expirePulse]
@[simp] theorem expirePulse_recordA (x : TimerId) (r : PulseTimer) (s : State) : (expirePulse x r s).recordA = s.recordA := by simp [expirePulse]
@[simp] theorem expirePulse_recordB (x : TimerId) (r : PulseTimer) (s : State) : (expirePulse x r s).recordB = s.recordB := by simp [expirePulse]
@[simp] theorem expirePulse_activeSlot (x : TimerId) (r : PulseTimer) (s : State) : (expirePulse x r s).activeSlot = s.activeSlot := by simp [expirePulse]
@[simp] theorem expirePulse_active (x : TimerId) (r : PulseTimer) (s : State) : (expirePulse x r s).active = s.active := by simp [expirePulse]
@[simp] theorem expirePulse_buffer (x : TimerId) (r : PulseTimer) (s : State) : (expirePulse x r s).buffer = s.buffer := by simp [expirePulse]
@[simp] theorem expirePulse_lock (x : TimerId) (r : PulseTimer) (s : State) : (expirePulse x r s).lock = s.lock := by simp [expirePulse]
@[simp] theorem expirePulse_burn (x : TimerId) (r : PulseTimer) (s : State) : (expirePulse x r s).burn = s.burn := by simp [expirePulse]
@[simp] theorem expirePulse_lastBurn (x : TimerId) (r : PulseTimer) (s : State) : (expirePulse x r s).lastBurn = s.lastBurn := by simp [expirePulse]
@[simp] theorem expirePulse_ports (x : TimerId) (r : PulseTimer) (s : State) : (expirePulse x r s).ports = s.ports := by simp [expirePulse]
@[simp] theorem expirePulse_freeCount (x : TimerId) (r : PulseTimer) (s : State) : (expirePulse x r s).freeCount = s.freeCount := by simp [expirePulse]
@[simp] theorem stagedSet_expirePulse (x : TimerId) (r : PulseTimer) (s : State) (k : Port) : (expirePulse x r s).stagedSet k = s.stagedSet k := by simp [State.stagedSet]
@[simp] theorem watch_expirePulse (x : TimerId) (r : PulseTimer) (s : State) (k : Port) : (expirePulse x r s).watch k = s.watch k := by simp [State.watch]
@[simp] theorem session_expirePulse (x : TimerId) (r : PulseTimer) (s : State) (k : Port) : (expirePulse x r s).session k = s.session k := by simp [State.session]
@[simp] theorem port_expirePulse (x : TimerId) (r : PulseTimer) (s : State) (k : Port) : (expirePulse x r s).port k = s.port k := by simp [State.port]

/-! ### startPulse -/
@[simp] theorem startPulse_pending (p : Port) (l : Line) (v : Bool) (n : Nat) (x : TimerId) (s : State) : (startPulse p l v n x s).pending = s.pending := by simp [startPulse]
@[simp] theorem startPulse_resetting (p : Port) (l : Line) (v : Bool) (n : Nat) (x : TimerId) (s : State) : (startPulse p l v n x s).resetting = s.resetting := by simp [startPulse]
@[simp] theorem startPulse_device (p : Port) (l : Line) (v : Bool) (n : Nat) (x : TimerId) (s : State) : (startPulse p l v n x s).device = s.device := by simp [startPulse]
@[simp] theorem startPulse_maint (p : Port) (l : Line) (v : Bool) (n : Nat) (x : TimerId) (s : State) : (startPulse p l v n x s).maint = s.maint := by simp [startPulse]
@[simp] theorem startPulse_tickCount (p : Port) (l : Line) (v : Bool) (n : Nat) (x : TimerId) (s : State) : (startPulse p l v n x s).tickCount = s.tickCount := by simp [startPulse]
@[simp] theorem startPulse_tickPeriod (p : Port) (l : Line) (v : Bool) (n : Nat) (x : TimerId) (s : State) : (startPulse p l v n x s).tickPeriod = s.tickPeriod := by simp [startPulse]
@[simp] theorem startPulse_lag (p : Port) (l : Line) (v : Bool) (n : Nat) (x : TimerId) (s : State) : (startPulse p l v n x s).lag = s.lag := by simp [startPulse]
@[simp] theorem startPulse_staged (p : Port) (l : Line) (v : Bool) (n : Nat) (x : TimerId) (s : State) : (startPulse p l v n x s).staged = s.staged := by simp [startPulse]
@[simp] theorem startPulse_filters (p : Port) (l : Line) (v : Bool) (n : Nat) (x : TimerId) (s : State) : (startPulse p l v n x s).filters = s.filters := by simp [startPulse]
@[simp] theorem startPulse_watches (p : Port) (l : Line) (v : Bool) (n : Nat) (x : TimerId) (s : State) : (startPulse p l v n x s).watches = s.watches := by simp [startPulse]
@[simp] theorem startPulse_queues (p : Port) (l : Line) (v : Bool) (n : Nat) (x : TimerId) (s : State) : (startPulse p l v n x s).queues = s.queues := by simp [startPulse]
@[simp] theorem startPulse_attn (p : Port) (l : Line) (v : Bool) (n : Nat) (x : TimerId) (s : State) : (startPulse p l v n x s).attn = s.attn := by simp [startPulse]
@[simp] theorem startPulse_sessions (p : Port) (l : Line) (v : Bool) (n : Nat) (x : TimerId) (s : State) : (startPulse p l v n x s).sessions = s.sessions := by simp [startPulse]
@[simp] theorem startPulse_slotA (p : Port) (l : Line) (v : Bool) (n : Nat) (x : TimerId) (s : State) : (startPulse p l v n x s).slotA = s.slotA := by simp [startPulse]
@[simp] theorem startPulse_slotB (p : Port) (l : Line) (v : Bool) (n : Nat) (x : TimerId) (s : State) : (startPulse p l v n x s).slotB = s.slotB := by simp [startPulse]
@[simp] theorem startPulse_recordA (p : Port) (l : Line) (v : Bool) (n : Nat) (x : TimerId) (s : State) : (startPulse p l v n x s).recordA = s.recordA := by simp [startPulse]
@[simp] theorem startPulse_recordB (p : Port) (l : Line) (v : Bool) (n : Nat) (x : TimerId) (s : State) : (startPulse p l v n x s).recordB = s.recordB := by simp [startPulse]
@[simp] theorem startPulse_activeSlot (p : Port) (l : Line) (v : Bool) (n : Nat) (x : TimerId) (s : State) : (startPulse p l v n x s).activeSlot = s.activeSlot := by simp [startPulse]
@[simp] theorem startPulse_active (p : Port) (l : Line) (v : Bool) (n : Nat) (x : TimerId) (s : State) : (startPulse p l v n x s).active = s.active := by simp [startPulse]
@[simp] theorem startPulse_buffer (p : Port) (l : Line) (v : Bool) (n : Nat) (x : TimerId) (s : State) : (startPulse p l v n x s).buffer = s.buffer := by simp [startPulse]
@[simp] theorem startPulse_lock (p : Port) (l : Line) (v : Bool) (n : Nat) (x : TimerId) (s : State) : (startPulse p l v n x s).lock = s.lock := by simp [startPulse]
@[simp] theorem startPulse_burn (p : Port) (l : Line) (v : Bool) (n : Nat) (x : TimerId) (s : State) : (startPulse p l v n x s).burn = s.burn := by simp [startPulse]
@[simp] theorem startPulse_lastBurn (p : Port) (l : Line) (v : Bool) (n : Nat) (x : TimerId) (s : State) : (startPulse p l v n x s).lastBurn = s.lastBurn := by simp [startPulse]
@[simp] theorem startPulse_ports (p : Port) (l : Line) (v : Bool) (n : Nat) (x : TimerId) (s : State) : (startPulse p l v n x s).ports = s.ports := by simp [startPulse]
@[simp] theorem startPulse_freeCount (p : Port) (l : Line) (v : Bool) (n : Nat) (x : TimerId) (s : State) : (startPulse p l v n x s).freeCount = s.freeCount := by simp [startPulse]
@[simp] theorem stagedSet_startPulse (p : Port) (l : Line) (v : Bool) (n : Nat) (x : TimerId) (s : State) (k : Port) : (startPulse p l v n x s).stagedSet k = s.stagedSet k := by simp [State.stagedSet]
@[simp] theorem watch_startPulse (p : Port) (l : Line) (v : Bool) (n : Nat) (x : TimerId) (s : State) (k : Port) : (startPulse p l v n x s).watch k = s.watch k := by simp [State.watch]
@[simp] theorem queue_startPulse (p : Port) (l : Line) (v : Bool) (n : Nat) (x : TimerId) (s : State) (k : Port) : (startPulse p l v n x s).queue k = s.queue k := by simp [State.queue]
@[simp] theorem session_startPulse (p : Port) (l : Line) (v : Bool) (n : Nat) (x : TimerId) (s : State) (k : Port) : (startPulse p l v n x s).session k = s.session k := by simp [State.session]
@[simp] theorem port_startPulse (p : Port) (l : Line) (v : Bool) (n : Nat) (x : TimerId) (s : State) (k : Port) : (startPulse p l v n x s).port k = s.port k := by simp [State.port]

/-! ### applyStaged -/
@[simp] theorem applyStaged_pending (p : Port) (s : State) : (applyStaged p s).pending = s.pending := by simp [applyStaged]
@[simp] theorem applyStaged_resetting (p : Port) (s : State) : (applyStaged p s).resetting = s.resetting := by simp [applyStaged]
@[simp] theorem applyStaged_device (p : Port) (s : State) : (applyStaged p s).device = s.device := by simp [applyStaged]
@[simp] theorem applyStaged_maint (p : Port) (s : State) : (applyStaged p s).maint = s.maint := by simp [applyStaged]
@[simp] theorem applyStaged_tickCount (p : Port) (s : State) : (applyStaged p s).tickCount = s.tickCount := by simp [applyStaged]
@[simp] theorem applyStaged_tickPeriod (p : Port) (s : State) : (applyStaged p s).tickPeriod = s.tickPeriod := by simp [applyStaged]
@[simp] theorem applyStaged_lag (p : Port) (s : State) : (applyStaged p s).lag = s.lag := by simp [applyStaged]
@[simp] theorem applyStaged_timers (p : Port) (s : State) : (applyStaged p s).timers = s.timers := by simp [applyStaged]
@[simp] theorem applyStaged_filters (p : Port) (s : State) : (applyStaged p s).filters = s.filters := by simp [applyStaged]
@[simp] theorem applyStaged_watches (p : Port) (s : State) : (applyStaged p s).watches = s.watches := by simp [applyStaged]
@[simp] theorem applyStaged_queues (p : Port) (s : State) : (applyStaged p s).queues = s.queues := by simp [applyStaged]
@[simp] theorem applyStaged_attn (p : Port) (s : State) : (applyStaged p s).attn = s.attn := by simp [applyStaged]
@[simp] theorem applyStaged_sessions (p : Port) (s : State) : (applyStaged p s).sessions = s.sessions := by simp [applyStaged]
@[simp] theorem applyStaged_slotA (p : Port) (s : State) : (applyStaged p s).slotA = s.slotA := by simp [applyStaged]
@[simp] theorem applyStaged_slotB (p : Port) (s : State) : (applyStaged p s).slotB = s.slotB := by simp [applyStaged]
@[simp] theorem applyStaged_recordA (p : Port) (s : State) : (applyStaged p s).recordA = s.recordA := by simp [applyStaged]
@[simp] theorem applyStaged_recordB (p : Port) (s : State) : (applyStaged p s).recordB = s.recordB := by simp [applyStaged]
@[simp] theorem applyStaged_activeSlot (p : Port) (s : State) : (applyStaged p s).activeSlot = s.activeSlot := by simp [applyStaged]
@[simp] theorem applyStaged_active (p : Port) (s : State) : (applyStaged p s).active = s.active := by simp [applyStaged]
@[simp] theorem applyStaged_buffer (p : Port) (s : State) : (applyStaged p s).buffer = s.buffer := by simp [applyStaged]
@[simp] theorem applyStaged_lock (p : Port) (s : State) : (applyStaged p s).lock = s.lock := by simp [applyStaged]
@[simp] theorem applyStaged_burn (p : Port) (s : State) : (applyStaged p s).burn = s.burn := by simp [applyStaged]
@[simp] theorem applyStaged_lastBurn (p : Port) (s : State) : (applyStaged p s).lastBurn = s.lastBurn := by simp [applyStaged]
@[simp] theorem applyStaged_ports (p : Port) (s : State) : (applyStaged p s).ports = s.ports := by simp [applyStaged]
@[simp] theorem applyStaged_freeCount (p : Port) (s : State) : (applyStaged p s).freeCount = s.freeCount := by simp [applyStaged]
@[simp] theorem timer_applyStaged (p : Port) (s : State) (k : TimerId) : (applyStaged p s).timer k = s.timer k := by simp [State.timer]
@[simp] theorem watch_applyStaged (p : Port) (s : State) (k : Port) : (applyStaged p s).watch k = s.watch k := by simp [State.watch]
@[simp] theorem queue_applyStaged (p : Port) (s : State) (k : Port) : (applyStaged p s).queue k = s.queue k := by simp [State.queue]
@[simp] theorem session_applyStaged (p : Port) (s : State) (k : Port) : (applyStaged p s).session k = s.session k := by simp [State.session]
@[simp] theorem port_applyStaged (p : Port) (s : State) (k : Port) : (applyStaged p s).port k = s.port k := by simp [State.port]

/-! ### samplePins -/
@[simp] theorem samplePins_pending (levels : LineMap) (now : Stamp) (s : State) : (samplePins levels now s).pending = s.pending := by rw [(samplePins_frame levels now s).device.pending, filterLines_pending]
@[simp] theorem samplePins_resetting (levels : LineMap) (now : Stamp) (s : State) : (samplePins levels now s).resetting = s.resetting := by rw [(samplePins_frame levels now s).device.resetting, filterLines_resetting]
@[simp] theorem samplePins_device (levels : LineMap) (now : Stamp) (s : State) : (samplePins levels now s).device = s.device := by rw [(samplePins_frame levels now s).device.device, filterLines_device]
@[simp] theorem samplePins_maint (levels : LineMap) (now : Stamp) (s : State) : (samplePins levels now s).maint = s.maint := by rw [(samplePins_frame levels now s).device.maint, filterLines_maint]
@[simp] theorem samplePins_tickCount (levels : LineMap) (now : Stamp) (s : State) : (samplePins levels now s).tickCount = s.tickCount := by rw [(samplePins_frame levels now s).time.tickCount, filterLines_tickCount]
@[simp] theorem samplePins_tickPeriod (levels : LineMap) (now : Stamp) (s : State) : (samplePins levels now s).tickPeriod = s.tickPeriod := by rw [(samplePins_frame levels now s).time.tickPeriod, filterLines_tickPeriod]
@[simp] theorem samplePins_lag (levels : LineMap) (now : Stamp) (s : State) : (samplePins levels now s).lag = s.lag := by rw [(samplePins_frame levels now s).time.lag, filterLines_lag]
@[simp] theorem samplePins_pads (levels : LineMap) (now : Stamp) (s : State) : (samplePins levels now s).pads = s.pads := by
  exact Vector.ext fun i hi => ((samplePins_frame levels now s).blocks.pads ⟨i, hi⟩ rfl).trans (by simp [State.pad])
@[simp] theorem samplePins_timers (levels : LineMap) (now : Stamp) (s : State) : (samplePins levels now s).timers = s.timers := by
  exact Vector.ext fun i hi => ((samplePins_frame levels now s).blocks.timers ⟨i, hi⟩ rfl).trans (by simp [State.timer])
@[simp] theorem samplePins_staged (levels : LineMap) (now : Stamp) (s : State) : (samplePins levels now s).staged = s.staged := by
  exact Vector.ext fun i hi => ((samplePins_frame levels now s).blocks.staged ⟨i, hi⟩ rfl).trans (by simp [State.stagedSet])
@[simp] theorem samplePins_watches (levels : LineMap) (now : Stamp) (s : State) : (samplePins levels now s).watches = s.watches := by
  exact Vector.ext fun i hi => ((samplePins_frame levels now s).blocks.watches ⟨i, hi⟩ rfl).trans (by simp [State.watch])
@[simp] theorem samplePins_sessions (levels : LineMap) (now : Stamp) (s : State) : (samplePins levels now s).sessions = s.sessions := by
  exact Vector.ext fun i hi => ((samplePins_frame levels now s).blocks.sessions ⟨i, hi⟩ rfl).trans (by simp [State.session])
@[simp] theorem samplePins_slotA (levels : LineMap) (now : Stamp) (s : State) : (samplePins levels now s).slotA = s.slotA := by rw [(samplePins_frame levels now s).store.slotA, filterLines_slotA]
@[simp] theorem samplePins_slotB (levels : LineMap) (now : Stamp) (s : State) : (samplePins levels now s).slotB = s.slotB := by rw [(samplePins_frame levels now s).store.slotB, filterLines_slotB]
@[simp] theorem samplePins_recordA (levels : LineMap) (now : Stamp) (s : State) : (samplePins levels now s).recordA = s.recordA := by rw [(samplePins_frame levels now s).store.recordA, filterLines_recordA]
@[simp] theorem samplePins_recordB (levels : LineMap) (now : Stamp) (s : State) : (samplePins levels now s).recordB = s.recordB := by rw [(samplePins_frame levels now s).store.recordB, filterLines_recordB]
@[simp] theorem samplePins_activeSlot (levels : LineMap) (now : Stamp) (s : State) : (samplePins levels now s).activeSlot = s.activeSlot := by rw [(samplePins_frame levels now s).store.activeSlot, filterLines_activeSlot]
@[simp] theorem samplePins_active (levels : LineMap) (now : Stamp) (s : State) : (samplePins levels now s).active = s.active := by rw [(samplePins_frame levels now s).store.active, filterLines_active]
@[simp] theorem samplePins_buffer (levels : LineMap) (now : Stamp) (s : State) : (samplePins levels now s).buffer = s.buffer := by rw [(samplePins_frame levels now s).store.buffer, filterLines_buffer]
@[simp] theorem samplePins_lock (levels : LineMap) (now : Stamp) (s : State) : (samplePins levels now s).lock = s.lock := by rw [(samplePins_frame levels now s).store.lock, filterLines_lock]
@[simp] theorem samplePins_burn (levels : LineMap) (now : Stamp) (s : State) : (samplePins levels now s).burn = s.burn := by rw [(samplePins_frame levels now s).store.burn, filterLines_burn]
@[simp] theorem samplePins_lastBurn (levels : LineMap) (now : Stamp) (s : State) : (samplePins levels now s).lastBurn = s.lastBurn := by rw [(samplePins_frame levels now s).store.lastBurn, filterLines_lastBurn]
@[simp] theorem samplePins_ports (levels : LineMap) (now : Stamp) (s : State) : (samplePins levels now s).ports = s.ports := by
  exact Vector.ext fun i hi => ((samplePins_frame levels now s).blocks.ports ⟨i, hi⟩ rfl).trans (by simp [State.port])
@[simp] theorem samplePins_freeCount (levels : LineMap) (now : Stamp) (s : State) : (samplePins levels now s).freeCount = s.freeCount := by rw [(samplePins_frame levels now s).device.freeCount, filterLines_freeCount]
@[simp] theorem pad_samplePins (levels : LineMap) (now : Stamp) (s : State) (k : Line) : (samplePins levels now s).pad k = s.pad k := by simp [State.pad]
@[simp] theorem timer_samplePins (levels : LineMap) (now : Stamp) (s : State) (k : TimerId) : (samplePins levels now s).timer k = s.timer k := by simp [State.timer]
@[simp] theorem stagedSet_samplePins (levels : LineMap) (now : Stamp) (s : State) (k : Port) : (samplePins levels now s).stagedSet k = s.stagedSet k := by simp [State.stagedSet]
@[simp] theorem watch_samplePins (levels : LineMap) (now : Stamp) (s : State) (k : Port) : (samplePins levels now s).watch k = s.watch k := by simp [State.watch]
@[simp] theorem session_samplePins (levels : LineMap) (now : Stamp) (s : State) (k : Port) : (samplePins levels now s).session k = s.session k := by simp [State.session]
@[simp] theorem port_samplePins (levels : LineMap) (now : Stamp) (s : State) (k : Port) : (samplePins levels now s).port k = s.port k := by simp [State.port]

/-! ### startUpSample -/
@[simp] theorem startUpSample_pending (levels : LineMap) (s : State) : (startUpSample levels s).pending = s.pending := by dsimp only [startUpSample, State.setLines]
@[simp] theorem startUpSample_resetting (levels : LineMap) (s : State) : (startUpSample levels s).resetting = s.resetting := by dsimp only [startUpSample, State.setLines]
@[simp] theorem startUpSample_device (levels : LineMap) (s : State) : (startUpSample levels s).device = s.device := by dsimp only [startUpSample, State.setLines]
@[simp] theorem startUpSample_maint (levels : LineMap) (s : State) : (startUpSample levels s).maint = s.maint := by dsimp only [startUpSample, State.setLines]
@[simp] theorem startUpSample_tickCount (levels : LineMap) (s : State) : (startUpSample levels s).tickCount = s.tickCount := by dsimp only [startUpSample, State.setLines]
@[simp] theorem startUpSample_tickPeriod (levels : LineMap) (s : State) : (startUpSample levels s).tickPeriod = s.tickPeriod := by dsimp only [startUpSample, State.setLines]
@[simp] theorem startUpSample_lag (levels : LineMap) (s : State) : (startUpSample levels s).lag = s.lag := by dsimp only [startUpSample, State.setLines]
@[simp] theorem startUpSample_pads (levels : LineMap) (s : State) : (startUpSample levels s).pads = s.pads := by dsimp only [startUpSample, State.setLines]
@[simp] theorem startUpSample_timers (levels : LineMap) (s : State) : (startUpSample levels s).timers = s.timers := by dsimp only [startUpSample, State.setLines]
@[simp] theorem startUpSample_staged (levels : LineMap) (s : State) : (startUpSample levels s).staged = s.staged := by dsimp only [startUpSample, State.setLines]
@[simp] theorem startUpSample_watches (levels : LineMap) (s : State) : (startUpSample levels s).watches = s.watches := by dsimp only [startUpSample, State.setLines]
@[simp] theorem startUpSample_queues (levels : LineMap) (s : State) : (startUpSample levels s).queues = s.queues := by dsimp only [startUpSample, State.setLines]
@[simp] theorem startUpSample_attn (levels : LineMap) (s : State) : (startUpSample levels s).attn = s.attn := by dsimp only [startUpSample, State.setLines]
@[simp] theorem startUpSample_sessions (levels : LineMap) (s : State) : (startUpSample levels s).sessions = s.sessions := by dsimp only [startUpSample, State.setLines]
@[simp] theorem startUpSample_slotA (levels : LineMap) (s : State) : (startUpSample levels s).slotA = s.slotA := by dsimp only [startUpSample, State.setLines]
@[simp] theorem startUpSample_slotB (levels : LineMap) (s : State) : (startUpSample levels s).slotB = s.slotB := by dsimp only [startUpSample, State.setLines]
@[simp] theorem startUpSample_recordA (levels : LineMap) (s : State) : (startUpSample levels s).recordA = s.recordA := by dsimp only [startUpSample, State.setLines]
@[simp] theorem startUpSample_recordB (levels : LineMap) (s : State) : (startUpSample levels s).recordB = s.recordB := by dsimp only [startUpSample, State.setLines]
@[simp] theorem startUpSample_activeSlot (levels : LineMap) (s : State) : (startUpSample levels s).activeSlot = s.activeSlot := by dsimp only [startUpSample, State.setLines]
@[simp] theorem startUpSample_active (levels : LineMap) (s : State) : (startUpSample levels s).active = s.active := by dsimp only [startUpSample, State.setLines]
@[simp] theorem startUpSample_buffer (levels : LineMap) (s : State) : (startUpSample levels s).buffer = s.buffer := by dsimp only [startUpSample, State.setLines]
@[simp] theorem startUpSample_lock (levels : LineMap) (s : State) : (startUpSample levels s).lock = s.lock := by dsimp only [startUpSample, State.setLines]
@[simp] theorem startUpSample_burn (levels : LineMap) (s : State) : (startUpSample levels s).burn = s.burn := by dsimp only [startUpSample, State.setLines]
@[simp] theorem startUpSample_lastBurn (levels : LineMap) (s : State) : (startUpSample levels s).lastBurn = s.lastBurn := by dsimp only [startUpSample, State.setLines]
@[simp] theorem startUpSample_ports (levels : LineMap) (s : State) : (startUpSample levels s).ports = s.ports := by dsimp only [startUpSample, State.setLines]
@[simp] theorem startUpSample_freeCount (levels : LineMap) (s : State) : (startUpSample levels s).freeCount = s.freeCount := by dsimp only [startUpSample, State.setLines]
@[simp] theorem pad_startUpSample (levels : LineMap) (s : State) (k : Line) : (startUpSample levels s).pad k = s.pad k := by simp [State.pad]
@[simp] theorem timer_startUpSample (levels : LineMap) (s : State) (k : TimerId) : (startUpSample levels s).timer k = s.timer k := by simp [State.timer]
@[simp] theorem stagedSet_startUpSample (levels : LineMap) (s : State) (k : Port) : (startUpSample levels s).stagedSet k = s.stagedSet k := by simp [State.stagedSet]
@[simp] theorem watch_startUpSample (levels : LineMap) (s : State) (k : Port) : (startUpSample levels s).watch k = s.watch k := by simp [State.watch]
@[simp] theorem queue_startUpSample (levels : LineMap) (s : State) (k : Port) : (startUpSample levels s).queue k = s.queue k := by simp [State.queue]
@[simp] theorem session_startUpSample (levels : LineMap) (s : State) (k : Port) : (startUpSample levels s).session k = s.session k := by simp [State.session]
@[simp] theorem port_startUpSample (levels : LineMap) (s : State) (k : Port) : (startUpSample levels s).port k = s.port k := by simp [State.port]

/-! ### loadProfile -/
@[simp] theorem loadProfile_pending (s : State) : (loadProfile s).pending = s.pending := by dsimp only [loadProfile]
@[simp] theorem loadProfile_resetting (s : State) : (loadProfile s).resetting = s.resetting := by dsimp only [loadProfile]
@[simp] theorem loadProfile_device (s : State) : (loadProfile s).device = s.device := by dsimp only [loadProfile]
@[simp] theorem loadProfile_maint (s : State) : (loadProfile s).maint = s.maint := by dsimp only [loadProfile]
@[simp] theorem loadProfile_tickCount (s : State) : (loadProfile s).tickCount = s.tickCount := by dsimp only [loadProfile]
@[simp] theorem loadProfile_tickPeriod (s : State) : (loadProfile s).tickPeriod = s.tickPeriod := by dsimp only [loadProfile]
@[simp] theorem loadProfile_lag (s : State) : (loadProfile s).lag = s.lag := by dsimp only [loadProfile]
@[simp] theorem loadProfile_lines (s : State) : (loadProfile s).lines = s.lines := by dsimp only [loadProfile]
@[simp] theorem loadProfile_pads (s : State) : (loadProfile s).pads = s.pads := by dsimp only [loadProfile]
@[simp] theorem loadProfile_timers (s : State) : (loadProfile s).timers = s.timers := by dsimp only [loadProfile]
@[simp] theorem loadProfile_staged (s : State) : (loadProfile s).staged = s.staged := by dsimp only [loadProfile]
@[simp] theorem loadProfile_filters (s : State) : (loadProfile s).filters = s.filters := by dsimp only [loadProfile]
@[simp] theorem loadProfile_watches (s : State) : (loadProfile s).watches = s.watches := by dsimp only [loadProfile]
@[simp] theorem loadProfile_queues (s : State) : (loadProfile s).queues = s.queues := by dsimp only [loadProfile]
@[simp] theorem loadProfile_attn (s : State) : (loadProfile s).attn = s.attn := by dsimp only [loadProfile]
@[simp] theorem loadProfile_sessions (s : State) : (loadProfile s).sessions = s.sessions := by dsimp only [loadProfile]
@[simp] theorem loadProfile_slotA (s : State) : (loadProfile s).slotA = s.slotA := by dsimp only [loadProfile]
@[simp] theorem loadProfile_slotB (s : State) : (loadProfile s).slotB = s.slotB := by dsimp only [loadProfile]
@[simp] theorem loadProfile_buffer (s : State) : (loadProfile s).buffer = s.buffer := by dsimp only [loadProfile]
@[simp] theorem loadProfile_lock (s : State) : (loadProfile s).lock = s.lock := by dsimp only [loadProfile]
@[simp] theorem loadProfile_burn (s : State) : (loadProfile s).burn = s.burn := by dsimp only [loadProfile]
@[simp] theorem loadProfile_lastBurn (s : State) : (loadProfile s).lastBurn = s.lastBurn := by dsimp only [loadProfile]
@[simp] theorem loadProfile_ports (s : State) : (loadProfile s).ports = s.ports := by dsimp only [loadProfile]
@[simp] theorem loadProfile_freeCount (s : State) : (loadProfile s).freeCount = s.freeCount := by dsimp only [loadProfile]
@[simp] theorem line_loadProfile (s : State) (k : Line) : (loadProfile s).line k = s.line k := by simp [State.line]
@[simp] theorem pad_loadProfile (s : State) (k : Line) : (loadProfile s).pad k = s.pad k := by simp [State.pad]
@[simp] theorem timer_loadProfile (s : State) (k : TimerId) : (loadProfile s).timer k = s.timer k := by simp [State.timer]
@[simp] theorem stagedSet_loadProfile (s : State) (k : Port) : (loadProfile s).stagedSet k = s.stagedSet k := by simp [State.stagedSet]
@[simp] theorem watch_loadProfile (s : State) (k : Port) : (loadProfile s).watch k = s.watch k := by simp [State.watch]
@[simp] theorem queue_loadProfile (s : State) (k : Port) : (loadProfile s).queue k = s.queue k := by simp [State.queue]
@[simp] theorem session_loadProfile (s : State) (k : Port) : (loadProfile s).session k = s.session k := by simp [State.session]
@[simp] theorem port_loadProfile (s : State) (k : Port) : (loadProfile s).port k = s.port k := by simp [State.port]

/-! ### finishStartUp -/
@[simp] theorem finishStartUp_pending (levels : LineMap) (s : State) : (finishStartUp levels s).pending = s.pending := by simp [finishStartUp]
@[simp] theorem finishStartUp_resetting (levels : LineMap) (s : State) : (finishStartUp levels s).resetting = s.resetting := by simp [finishStartUp]
@[simp] theorem finishStartUp_maint (levels : LineMap) (s : State) : (finishStartUp levels s).maint = s.maint := by simp [finishStartUp]
@[simp] theorem finishStartUp_tickCount (levels : LineMap) (s : State) : (finishStartUp levels s).tickCount = s.tickCount := by simp [finishStartUp]
@[simp] theorem finishStartUp_lag (levels : LineMap) (s : State) : (finishStartUp levels s).lag = s.lag := by simp [finishStartUp]
@[simp] theorem finishStartUp_timers (levels : LineMap) (s : State) : (finishStartUp levels s).timers = s.timers := by simp [finishStartUp]
@[simp] theorem finishStartUp_staged (levels : LineMap) (s : State) : (finishStartUp levels s).staged = s.staged := by simp [finishStartUp]
@[simp] theorem finishStartUp_watches (levels : LineMap) (s : State) : (finishStartUp levels s).watches = s.watches := by simp [finishStartUp]
@[simp] theorem finishStartUp_queues (levels : LineMap) (s : State) : (finishStartUp levels s).queues = s.queues := by simp [finishStartUp]
@[simp] theorem finishStartUp_attn (levels : LineMap) (s : State) : (finishStartUp levels s).attn = s.attn := by simp [finishStartUp]
@[simp] theorem finishStartUp_sessions (levels : LineMap) (s : State) : (finishStartUp levels s).sessions = s.sessions := by simp [finishStartUp]
@[simp] theorem finishStartUp_slotA (levels : LineMap) (s : State) : (finishStartUp levels s).slotA = s.slotA := by simp [finishStartUp]
@[simp] theorem finishStartUp_slotB (levels : LineMap) (s : State) : (finishStartUp levels s).slotB = s.slotB := by simp [finishStartUp]
@[simp] theorem finishStartUp_buffer (levels : LineMap) (s : State) : (finishStartUp levels s).buffer = s.buffer := by simp [finishStartUp]
@[simp] theorem finishStartUp_lock (levels : LineMap) (s : State) : (finishStartUp levels s).lock = s.lock := by simp [finishStartUp]
@[simp] theorem finishStartUp_burn (levels : LineMap) (s : State) : (finishStartUp levels s).burn = s.burn := by simp [finishStartUp]
@[simp] theorem finishStartUp_lastBurn (levels : LineMap) (s : State) : (finishStartUp levels s).lastBurn = s.lastBurn := by simp [finishStartUp]
@[simp] theorem finishStartUp_ports (levels : LineMap) (s : State) : (finishStartUp levels s).ports = s.ports := by simp [finishStartUp]
@[simp] theorem finishStartUp_freeCount (levels : LineMap) (s : State) : (finishStartUp levels s).freeCount = s.freeCount := by simp [finishStartUp]
@[simp] theorem timer_finishStartUp (levels : LineMap) (s : State) (k : TimerId) : (finishStartUp levels s).timer k = s.timer k := by simp [State.timer]
@[simp] theorem stagedSet_finishStartUp (levels : LineMap) (s : State) (k : Port) : (finishStartUp levels s).stagedSet k = s.stagedSet k := by simp [State.stagedSet]
@[simp] theorem watch_finishStartUp (levels : LineMap) (s : State) (k : Port) : (finishStartUp levels s).watch k = s.watch k := by simp [State.watch]
@[simp] theorem queue_finishStartUp (levels : LineMap) (s : State) (k : Port) : (finishStartUp levels s).queue k = s.queue k := by simp [State.queue]
@[simp] theorem session_finishStartUp (levels : LineMap) (s : State) (k : Port) : (finishStartUp levels s).session k = s.session k := by simp [State.session]
@[simp] theorem port_finishStartUp (levels : LineMap) (s : State) (k : Port) : (finishStartUp levels s).port k = s.port k := by simp [State.port]

/-! ### generateTick -/
@[simp] theorem generateTick_pending (s : State) : (generateTick s).pending = s.pending := by
  unfold generateTick; dsimp only; split <;> rfl
@[simp] theorem generateTick_resetting (s : State) : (generateTick s).resetting = s.resetting := by
  unfold generateTick; dsimp only; split <;> rfl
@[simp] theorem generateTick_device (s : State) : (generateTick s).device = s.device := by
  unfold generateTick; dsimp only; split <;> rfl
@[simp] theorem generateTick_maint (s : State) : (generateTick s).maint = s.maint := by
  unfold generateTick; dsimp only; split <;> rfl
@[simp] theorem generateTick_tickPeriod (s : State) : (generateTick s).tickPeriod = s.tickPeriod := by
  unfold generateTick; dsimp only; split <;> rfl
@[simp] theorem generateTick_lines (s : State) : (generateTick s).lines = s.lines := by
  unfold generateTick; dsimp only; split <;> rfl
@[simp] theorem generateTick_pads (s : State) : (generateTick s).pads = s.pads := by
  unfold generateTick; dsimp only; split <;> rfl
@[simp] theorem generateTick_timers (s : State) : (generateTick s).timers = s.timers := by
  unfold generateTick; dsimp only; split <;> rfl
@[simp] theorem generateTick_staged (s : State) : (generateTick s).staged = s.staged := by
  unfold generateTick; dsimp only; split <;> rfl
@[simp] theorem generateTick_filters (s : State) : (generateTick s).filters = s.filters := by
  unfold generateTick; dsimp only; split <;> rfl
@[simp] theorem generateTick_watches (s : State) : (generateTick s).watches = s.watches := by
  unfold generateTick; dsimp only; split <;> rfl
@[simp] theorem generateTick_queues (s : State) : (generateTick s).queues = s.queues := by
  unfold generateTick; dsimp only; split <;> rfl
@[simp] theorem generateTick_attn (s : State) : (generateTick s).attn = s.attn := by
  unfold generateTick; dsimp only; split <;> rfl
@[simp] theorem generateTick_sessions (s : State) : (generateTick s).sessions = s.sessions := by
  unfold generateTick; dsimp only; split <;> rfl
@[simp] theorem generateTick_slotA (s : State) : (generateTick s).slotA = s.slotA := by
  unfold generateTick; dsimp only; split <;> rfl
@[simp] theorem generateTick_slotB (s : State) : (generateTick s).slotB = s.slotB := by
  unfold generateTick; dsimp only; split <;> rfl
@[simp] theorem generateTick_recordA (s : State) : (generateTick s).recordA = s.recordA := by
  unfold generateTick; dsimp only; split <;> rfl
@[simp] theorem generateTick_recordB (s : State) : (generateTick s).recordB = s.recordB := by
  unfold generateTick; dsimp only; split <;> rfl
@[simp] theorem generateTick_activeSlot (s : State) : (generateTick s).activeSlot = s.activeSlot := by
  unfold generateTick; dsimp only; split <;> rfl
@[simp] theorem generateTick_active (s : State) : (generateTick s).active = s.active := by
  unfold generateTick; dsimp only; split <;> rfl
@[simp] theorem generateTick_buffer (s : State) : (generateTick s).buffer = s.buffer := by
  unfold generateTick; dsimp only; split <;> rfl
@[simp] theorem generateTick_lock (s : State) : (generateTick s).lock = s.lock := by
  unfold generateTick; dsimp only; split <;> rfl
@[simp] theorem generateTick_burn (s : State) : (generateTick s).burn = s.burn := by
  unfold generateTick; dsimp only; split <;> rfl
@[simp] theorem generateTick_lastBurn (s : State) : (generateTick s).lastBurn = s.lastBurn := by
  unfold generateTick; dsimp only; split <;> rfl
@[simp] theorem generateTick_ports (s : State) : (generateTick s).ports = s.ports := by
  unfold generateTick; dsimp only; split <;> rfl
@[simp] theorem generateTick_freeCount (s : State) : (generateTick s).freeCount = s.freeCount := by
  unfold generateTick; dsimp only; split <;> rfl
@[simp] theorem line_generateTick (s : State) (k : Line) : (generateTick s).line k = s.line k := by simp [State.line]
@[simp] theorem pad_generateTick (s : State) (k : Line) : (generateTick s).pad k = s.pad k := by simp [State.pad]
@[simp] theorem timer_generateTick (s : State) (k : TimerId) : (generateTick s).timer k = s.timer k := by simp [State.timer]
@[simp] theorem stagedSet_generateTick (s : State) (k : Port) : (generateTick s).stagedSet k = s.stagedSet k := by simp [State.stagedSet]
@[simp] theorem watch_generateTick (s : State) (k : Port) : (generateTick s).watch k = s.watch k := by simp [State.watch]
@[simp] theorem queue_generateTick (s : State) (k : Port) : (generateTick s).queue k = s.queue k := by simp [State.queue]
@[simp] theorem session_generateTick (s : State) (k : Port) : (generateTick s).session k = s.session k := by simp [State.session]
@[simp] theorem port_generateTick (s : State) (k : Port) : (generateTick s).port k = s.port k := by simp [State.port]

/-! ### tickSessions -/
@[simp] theorem tickSessions_pending (s : State) : (tickSessions s).pending = s.pending := by simp [tickSessions]
@[simp] theorem tickSessions_resetting (s : State) : (tickSessions s).resetting = s.resetting := by simp [tickSessions]
@[simp] theorem tickSessions_device (s : State) : (tickSessions s).device = s.device := by simp [tickSessions]
@[simp] theorem tickSessions_maint (s : State) : (tickSessions s).maint = s.maint := by simp [tickSessions]
@[simp] theorem tickSessions_tickCount (s : State) : (tickSessions s).tickCount = s.tickCount := by simp [tickSessions]
@[simp] theorem tickSessions_tickPeriod (s : State) : (tickSessions s).tickPeriod = s.tickPeriod := by simp [tickSessions]
@[simp] theorem tickSessions_lag (s : State) : (tickSessions s).lag = s.lag := by simp [tickSessions]
@[simp] theorem tickSessions_lines (s : State) : (tickSessions s).lines = s.lines := by simp [tickSessions]
@[simp] theorem tickSessions_pads (s : State) : (tickSessions s).pads = s.pads := by simp [tickSessions]
@[simp] theorem tickSessions_timers (s : State) : (tickSessions s).timers = s.timers := by simp [tickSessions]
@[simp] theorem tickSessions_staged (s : State) : (tickSessions s).staged = s.staged := by simp [tickSessions]
@[simp] theorem tickSessions_filters (s : State) : (tickSessions s).filters = s.filters := by simp [tickSessions]
@[simp] theorem tickSessions_watches (s : State) : (tickSessions s).watches = s.watches := by simp [tickSessions]
@[simp] theorem tickSessions_queues (s : State) : (tickSessions s).queues = s.queues := by simp [tickSessions]
@[simp] theorem tickSessions_attn (s : State) : (tickSessions s).attn = s.attn := by simp [tickSessions]
@[simp] theorem tickSessions_slotA (s : State) : (tickSessions s).slotA = s.slotA := by simp [tickSessions]
@[simp] theorem tickSessions_slotB (s : State) : (tickSessions s).slotB = s.slotB := by simp [tickSessions]
@[simp] theorem tickSessions_recordA (s : State) : (tickSessions s).recordA = s.recordA := by simp [tickSessions]
@[simp] theorem tickSessions_recordB (s : State) : (tickSessions s).recordB = s.recordB := by simp [tickSessions]
@[simp] theorem tickSessions_activeSlot (s : State) : (tickSessions s).activeSlot = s.activeSlot := by simp [tickSessions]
@[simp] theorem tickSessions_active (s : State) : (tickSessions s).active = s.active := by simp [tickSessions]
@[simp] theorem tickSessions_buffer (s : State) : (tickSessions s).buffer = s.buffer := by simp [tickSessions]
@[simp] theorem tickSessions_lock (s : State) : (tickSessions s).lock = s.lock := by simp [tickSessions]
@[simp] theorem tickSessions_burn (s : State) : (tickSessions s).burn = s.burn := by simp [tickSessions]
@[simp] theorem tickSessions_lastBurn (s : State) : (tickSessions s).lastBurn = s.lastBurn := by simp [tickSessions]
@[simp] theorem tickSessions_ports (s : State) : (tickSessions s).ports = s.ports := by simp [tickSessions]
@[simp] theorem tickSessions_freeCount (s : State) : (tickSessions s).freeCount = s.freeCount := by simp [tickSessions]
@[simp] theorem line_tickSessions (s : State) (k : Line) : (tickSessions s).line k = s.line k := by simp [State.line]
@[simp] theorem pad_tickSessions (s : State) (k : Line) : (tickSessions s).pad k = s.pad k := by simp [State.pad]
@[simp] theorem timer_tickSessions (s : State) (k : TimerId) : (tickSessions s).timer k = s.timer k := by simp [State.timer]
@[simp] theorem stagedSet_tickSessions (s : State) (k : Port) : (tickSessions s).stagedSet k = s.stagedSet k := by simp [State.stagedSet]
@[simp] theorem watch_tickSessions (s : State) (k : Port) : (tickSessions s).watch k = s.watch k := by simp [State.watch]
@[simp] theorem queue_tickSessions (s : State) (k : Port) : (tickSessions s).queue k = s.queue k := by simp [State.queue]
@[simp] theorem port_tickSessions (s : State) (k : Port) : (tickSessions s).port k = s.port k := by simp [State.port]

/-! ### tickLines -/
@[simp] theorem tickLines_pending (s : State) : (tickLines s).pending = s.pending := by simp [tickLines]
@[simp] theorem tickLines_resetting (s : State) : (tickLines s).resetting = s.resetting := by simp [tickLines]
@[simp] theorem tickLines_device (s : State) : (tickLines s).device = s.device := by simp [tickLines]
@[simp] theorem tickLines_maint (s : State) : (tickLines s).maint = s.maint := by simp [tickLines]
@[simp] theorem tickLines_tickCount (s : State) : (tickLines s).tickCount = s.tickCount := by simp [tickLines]
@[simp] theorem tickLines_tickPeriod (s : State) : (tickLines s).tickPeriod = s.tickPeriod := by simp [tickLines]
@[simp] theorem tickLines_lag (s : State) : (tickLines s).lag = s.lag := by simp [tickLines]
@[simp] theorem tickLines_pads (s : State) : (tickLines s).pads = s.pads := by simp [tickLines]
@[simp] theorem tickLines_timers (s : State) : (tickLines s).timers = s.timers := by simp [tickLines]
@[simp] theorem tickLines_staged (s : State) : (tickLines s).staged = s.staged := by simp [tickLines]
@[simp] theorem tickLines_filters (s : State) : (tickLines s).filters = s.filters := by simp [tickLines]
@[simp] theorem tickLines_watches (s : State) : (tickLines s).watches = s.watches := by simp [tickLines]
@[simp] theorem tickLines_queues (s : State) : (tickLines s).queues = s.queues := by simp [tickLines]
@[simp] theorem tickLines_attn (s : State) : (tickLines s).attn = s.attn := by simp [tickLines]
@[simp] theorem tickLines_sessions (s : State) : (tickLines s).sessions = s.sessions := by simp [tickLines]
@[simp] theorem tickLines_slotA (s : State) : (tickLines s).slotA = s.slotA := by simp [tickLines]
@[simp] theorem tickLines_slotB (s : State) : (tickLines s).slotB = s.slotB := by simp [tickLines]
@[simp] theorem tickLines_recordA (s : State) : (tickLines s).recordA = s.recordA := by simp [tickLines]
@[simp] theorem tickLines_recordB (s : State) : (tickLines s).recordB = s.recordB := by simp [tickLines]
@[simp] theorem tickLines_activeSlot (s : State) : (tickLines s).activeSlot = s.activeSlot := by simp [tickLines]
@[simp] theorem tickLines_active (s : State) : (tickLines s).active = s.active := by simp [tickLines]
@[simp] theorem tickLines_buffer (s : State) : (tickLines s).buffer = s.buffer := by simp [tickLines]
@[simp] theorem tickLines_lock (s : State) : (tickLines s).lock = s.lock := by simp [tickLines]
@[simp] theorem tickLines_burn (s : State) : (tickLines s).burn = s.burn := by simp [tickLines]
@[simp] theorem tickLines_lastBurn (s : State) : (tickLines s).lastBurn = s.lastBurn := by simp [tickLines]
@[simp] theorem tickLines_ports (s : State) : (tickLines s).ports = s.ports := by simp [tickLines]
@[simp] theorem tickLines_freeCount (s : State) : (tickLines s).freeCount = s.freeCount := by simp [tickLines]
@[simp] theorem pad_tickLines (s : State) (k : Line) : (tickLines s).pad k = s.pad k := by simp [State.pad]
@[simp] theorem timer_tickLines (s : State) (k : TimerId) : (tickLines s).timer k = s.timer k := by simp [State.timer]
@[simp] theorem stagedSet_tickLines (s : State) (k : Port) : (tickLines s).stagedSet k = s.stagedSet k := by simp [State.stagedSet]
@[simp] theorem watch_tickLines (s : State) (k : Port) : (tickLines s).watch k = s.watch k := by simp [State.watch]
@[simp] theorem queue_tickLines (s : State) (k : Port) : (tickLines s).queue k = s.queue k := by simp [State.queue]
@[simp] theorem session_tickLines (s : State) (k : Port) : (tickLines s).session k = s.session k := by simp [State.session]
@[simp] theorem port_tickLines (s : State) (k : Port) : (tickLines s).port k = s.port k := by simp [State.port]

/-! ### tickTimers -/
@[simp] theorem tickTimers_pending (s : State) : (tickTimers s).pending = s.pending := by simp [tickTimers]
@[simp] theorem tickTimers_resetting (s : State) : (tickTimers s).resetting = s.resetting := by simp [tickTimers]
@[simp] theorem tickTimers_device (s : State) : (tickTimers s).device = s.device := by simp [tickTimers]
@[simp] theorem tickTimers_maint (s : State) : (tickTimers s).maint = s.maint := by simp [tickTimers]
@[simp] theorem tickTimers_tickCount (s : State) : (tickTimers s).tickCount = s.tickCount := by simp [tickTimers]
@[simp] theorem tickTimers_tickPeriod (s : State) : (tickTimers s).tickPeriod = s.tickPeriod := by simp [tickTimers]
@[simp] theorem tickTimers_lag (s : State) : (tickTimers s).lag = s.lag := by simp [tickTimers]
@[simp] theorem tickTimers_lines (s : State) : (tickTimers s).lines = s.lines := by simp [tickTimers]
@[simp] theorem tickTimers_pads (s : State) : (tickTimers s).pads = s.pads := by simp [tickTimers]
@[simp] theorem tickTimers_staged (s : State) : (tickTimers s).staged = s.staged := by simp [tickTimers]
@[simp] theorem tickTimers_filters (s : State) : (tickTimers s).filters = s.filters := by simp [tickTimers]
@[simp] theorem tickTimers_watches (s : State) : (tickTimers s).watches = s.watches := by simp [tickTimers]
@[simp] theorem tickTimers_queues (s : State) : (tickTimers s).queues = s.queues := by simp [tickTimers]
@[simp] theorem tickTimers_attn (s : State) : (tickTimers s).attn = s.attn := by simp [tickTimers]
@[simp] theorem tickTimers_sessions (s : State) : (tickTimers s).sessions = s.sessions := by simp [tickTimers]
@[simp] theorem tickTimers_slotA (s : State) : (tickTimers s).slotA = s.slotA := by simp [tickTimers]
@[simp] theorem tickTimers_slotB (s : State) : (tickTimers s).slotB = s.slotB := by simp [tickTimers]
@[simp] theorem tickTimers_recordA (s : State) : (tickTimers s).recordA = s.recordA := by simp [tickTimers]
@[simp] theorem tickTimers_recordB (s : State) : (tickTimers s).recordB = s.recordB := by simp [tickTimers]
@[simp] theorem tickTimers_activeSlot (s : State) : (tickTimers s).activeSlot = s.activeSlot := by simp [tickTimers]
@[simp] theorem tickTimers_active (s : State) : (tickTimers s).active = s.active := by simp [tickTimers]
@[simp] theorem tickTimers_buffer (s : State) : (tickTimers s).buffer = s.buffer := by simp [tickTimers]
@[simp] theorem tickTimers_lock (s : State) : (tickTimers s).lock = s.lock := by simp [tickTimers]
@[simp] theorem tickTimers_burn (s : State) : (tickTimers s).burn = s.burn := by simp [tickTimers]
@[simp] theorem tickTimers_lastBurn (s : State) : (tickTimers s).lastBurn = s.lastBurn := by simp [tickTimers]
@[simp] theorem tickTimers_ports (s : State) : (tickTimers s).ports = s.ports := by simp [tickTimers]
@[simp] theorem tickTimers_freeCount (s : State) : (tickTimers s).freeCount = s.freeCount := by simp [tickTimers]
@[simp] theorem line_tickTimers (s : State) (k : Line) : (tickTimers s).line k = s.line k := by simp [State.line]
@[simp] theorem pad_tickTimers (s : State) (k : Line) : (tickTimers s).pad k = s.pad k := by simp [State.pad]
@[simp] theorem stagedSet_tickTimers (s : State) (k : Port) : (tickTimers s).stagedSet k = s.stagedSet k := by simp [State.stagedSet]
@[simp] theorem watch_tickTimers (s : State) (k : Port) : (tickTimers s).watch k = s.watch k := by simp [State.watch]
@[simp] theorem queue_tickTimers (s : State) (k : Port) : (tickTimers s).queue k = s.queue k := by simp [State.queue]
@[simp] theorem session_tickTimers (s : State) (k : Port) : (tickTimers s).session k = s.session k := by simp [State.session]
@[simp] theorem port_tickTimers (s : State) (k : Port) : (tickTimers s).port k = s.port k := by simp [State.port]

/-! ### ownerTick -/
@[simp] theorem ownerTick_pending (o : TickOwner) (s : State) : (ownerTick o s).pending = s.pending := by
  unfold ownerTick; split; · rfl
  · cases o <;> simp
@[simp] theorem ownerTick_resetting (o : TickOwner) (s : State) : (ownerTick o s).resetting = s.resetting := by
  unfold ownerTick; split; · rfl
  · cases o <;> simp
@[simp] theorem ownerTick_device (o : TickOwner) (s : State) : (ownerTick o s).device = s.device := by
  unfold ownerTick; split; · rfl
  · cases o <;> simp
@[simp] theorem ownerTick_maint (o : TickOwner) (s : State) : (ownerTick o s).maint = s.maint := by
  unfold ownerTick; split; · rfl
  · cases o <;> simp
@[simp] theorem ownerTick_tickCount (o : TickOwner) (s : State) : (ownerTick o s).tickCount = s.tickCount := by
  unfold ownerTick; split; · rfl
  · cases o <;> simp
@[simp] theorem ownerTick_tickPeriod (o : TickOwner) (s : State) : (ownerTick o s).tickPeriod = s.tickPeriod := by
  unfold ownerTick; split; · rfl
  · cases o <;> simp
@[simp] theorem ownerTick_pads (o : TickOwner) (s : State) : (ownerTick o s).pads = s.pads := by
  unfold ownerTick; split; · rfl
  · cases o <;> simp
@[simp] theorem ownerTick_staged (o : TickOwner) (s : State) : (ownerTick o s).staged = s.staged := by
  unfold ownerTick; split; · rfl
  · cases o <;> simp
@[simp] theorem ownerTick_filters (o : TickOwner) (s : State) : (ownerTick o s).filters = s.filters := by
  unfold ownerTick; split; · rfl
  · cases o <;> simp
@[simp] theorem ownerTick_watches (o : TickOwner) (s : State) : (ownerTick o s).watches = s.watches := by
  unfold ownerTick; split; · rfl
  · cases o <;> simp
@[simp] theorem ownerTick_queues (o : TickOwner) (s : State) : (ownerTick o s).queues = s.queues := by
  unfold ownerTick; split; · rfl
  · cases o <;> simp
@[simp] theorem ownerTick_attn (o : TickOwner) (s : State) : (ownerTick o s).attn = s.attn := by
  unfold ownerTick; split; · rfl
  · cases o <;> simp
@[simp] theorem ownerTick_slotA (o : TickOwner) (s : State) : (ownerTick o s).slotA = s.slotA := by
  unfold ownerTick; split; · rfl
  · cases o <;> simp
@[simp] theorem ownerTick_slotB (o : TickOwner) (s : State) : (ownerTick o s).slotB = s.slotB := by
  unfold ownerTick; split; · rfl
  · cases o <;> simp
@[simp] theorem ownerTick_recordA (o : TickOwner) (s : State) : (ownerTick o s).recordA = s.recordA := by
  unfold ownerTick; split; · rfl
  · cases o <;> simp
@[simp] theorem ownerTick_recordB (o : TickOwner) (s : State) : (ownerTick o s).recordB = s.recordB := by
  unfold ownerTick; split; · rfl
  · cases o <;> simp
@[simp] theorem ownerTick_activeSlot (o : TickOwner) (s : State) : (ownerTick o s).activeSlot = s.activeSlot := by
  unfold ownerTick; split; · rfl
  · cases o <;> simp
@[simp] theorem ownerTick_active (o : TickOwner) (s : State) : (ownerTick o s).active = s.active := by
  unfold ownerTick; split; · rfl
  · cases o <;> simp
@[simp] theorem ownerTick_buffer (o : TickOwner) (s : State) : (ownerTick o s).buffer = s.buffer := by
  unfold ownerTick; split; · rfl
  · cases o <;> simp
@[simp] theorem ownerTick_lock (o : TickOwner) (s : State) : (ownerTick o s).lock = s.lock := by
  unfold ownerTick; split; · rfl
  · cases o <;> simp
@[simp] theorem ownerTick_burn (o : TickOwner) (s : State) : (ownerTick o s).burn = s.burn := by
  unfold ownerTick; split; · rfl
  · cases o <;> simp
@[simp] theorem ownerTick_lastBurn (o : TickOwner) (s : State) : (ownerTick o s).lastBurn = s.lastBurn := by
  unfold ownerTick; split; · rfl
  · cases o <;> simp
@[simp] theorem ownerTick_ports (o : TickOwner) (s : State) : (ownerTick o s).ports = s.ports := by
  unfold ownerTick; split; · rfl
  · cases o <;> simp
@[simp] theorem ownerTick_freeCount (o : TickOwner) (s : State) : (ownerTick o s).freeCount = s.freeCount := by
  unfold ownerTick; split; · rfl
  · cases o <;> simp
@[simp] theorem pad_ownerTick (o : TickOwner) (s : State) (k : Line) : (ownerTick o s).pad k = s.pad k := by simp [State.pad]
@[simp] theorem stagedSet_ownerTick (o : TickOwner) (s : State) (k : Port) : (ownerTick o s).stagedSet k = s.stagedSet k := by simp [State.stagedSet]
@[simp] theorem watch_ownerTick (o : TickOwner) (s : State) (k : Port) : (ownerTick o s).watch k = s.watch k := by simp [State.watch]
@[simp] theorem queue_ownerTick (o : TickOwner) (s : State) (k : Port) : (ownerTick o s).queue k = s.queue k := by simp [State.queue]
@[simp] theorem port_ownerTick (o : TickOwner) (s : State) (k : Port) : (ownerTick o s).port k = s.port k := by simp [State.port]

/-! ### portResetLock -/
@[simp] theorem portResetLock_pending (p : Port) (s : State) : (portResetLock p s).pending = s.pending := by
  unfold portResetLock; split <;> rfl
@[simp] theorem portResetLock_resetting (p : Port) (s : State) : (portResetLock p s).resetting = s.resetting := by
  unfold portResetLock; split <;> rfl
@[simp] theorem portResetLock_device (p : Port) (s : State) : (portResetLock p s).device = s.device := by
  unfold portResetLock; split <;> rfl
@[simp] theorem portResetLock_maint (p : Port) (s : State) : (portResetLock p s).maint = s.maint := by
  unfold portResetLock; split <;> rfl
@[simp] theorem portResetLock_tickCount (p : Port) (s : State) : (portResetLock p s).tickCount = s.tickCount := by
  unfold portResetLock; split <;> rfl
@[simp] theorem portResetLock_tickPeriod (p : Port) (s : State) : (portResetLock p s).tickPeriod = s.tickPeriod := by
  unfold portResetLock; split <;> rfl
@[simp] theorem portResetLock_lag (p : Port) (s : State) : (portResetLock p s).lag = s.lag := by
  unfold portResetLock; split <;> rfl
@[simp] theorem portResetLock_lines (p : Port) (s : State) : (portResetLock p s).lines = s.lines := by
  unfold portResetLock; split <;> rfl
@[simp] theorem portResetLock_pads (p : Port) (s : State) : (portResetLock p s).pads = s.pads := by
  unfold portResetLock; split <;> rfl
@[simp] theorem portResetLock_timers (p : Port) (s : State) : (portResetLock p s).timers = s.timers := by
  unfold portResetLock; split <;> rfl
@[simp] theorem portResetLock_staged (p : Port) (s : State) : (portResetLock p s).staged = s.staged := by
  unfold portResetLock; split <;> rfl
@[simp] theorem portResetLock_filters (p : Port) (s : State) : (portResetLock p s).filters = s.filters := by
  unfold portResetLock; split <;> rfl
@[simp] theorem portResetLock_watches (p : Port) (s : State) : (portResetLock p s).watches = s.watches := by
  unfold portResetLock; split <;> rfl
@[simp] theorem portResetLock_queues (p : Port) (s : State) : (portResetLock p s).queues = s.queues := by
  unfold portResetLock; split <;> rfl
@[simp] theorem portResetLock_attn (p : Port) (s : State) : (portResetLock p s).attn = s.attn := by
  unfold portResetLock; split <;> rfl
@[simp] theorem portResetLock_sessions (p : Port) (s : State) : (portResetLock p s).sessions = s.sessions := by
  unfold portResetLock; split <;> rfl
@[simp] theorem portResetLock_slotA (p : Port) (s : State) : (portResetLock p s).slotA = s.slotA := by
  unfold portResetLock; split <;> rfl
@[simp] theorem portResetLock_slotB (p : Port) (s : State) : (portResetLock p s).slotB = s.slotB := by
  unfold portResetLock; split <;> rfl
@[simp] theorem portResetLock_recordA (p : Port) (s : State) : (portResetLock p s).recordA = s.recordA := by
  unfold portResetLock; split <;> rfl
@[simp] theorem portResetLock_recordB (p : Port) (s : State) : (portResetLock p s).recordB = s.recordB := by
  unfold portResetLock; split <;> rfl
@[simp] theorem portResetLock_activeSlot (p : Port) (s : State) : (portResetLock p s).activeSlot = s.activeSlot := by
  unfold portResetLock; split <;> rfl
@[simp] theorem portResetLock_active (p : Port) (s : State) : (portResetLock p s).active = s.active := by
  unfold portResetLock; split <;> rfl
@[simp] theorem portResetLock_buffer (p : Port) (s : State) : (portResetLock p s).buffer = s.buffer := by
  unfold portResetLock; split <;> rfl
@[simp] theorem portResetLock_burn (p : Port) (s : State) : (portResetLock p s).burn = s.burn := by
  unfold portResetLock; split <;> rfl
@[simp] theorem portResetLock_lastBurn (p : Port) (s : State) : (portResetLock p s).lastBurn = s.lastBurn := by
  unfold portResetLock; split <;> rfl
@[simp] theorem portResetLock_ports (p : Port) (s : State) : (portResetLock p s).ports = s.ports := by
  unfold portResetLock; split <;> rfl
@[simp] theorem portResetLock_freeCount (p : Port) (s : State) : (portResetLock p s).freeCount = s.freeCount := by
  unfold portResetLock; split <;> rfl
@[simp] theorem line_portResetLock (p : Port) (s : State) (k : Line) : (portResetLock p s).line k = s.line k := by simp [State.line]
@[simp] theorem pad_portResetLock (p : Port) (s : State) (k : Line) : (portResetLock p s).pad k = s.pad k := by simp [State.pad]
@[simp] theorem timer_portResetLock (p : Port) (s : State) (k : TimerId) : (portResetLock p s).timer k = s.timer k := by simp [State.timer]
@[simp] theorem stagedSet_portResetLock (p : Port) (s : State) (k : Port) : (portResetLock p s).stagedSet k = s.stagedSet k := by simp [State.stagedSet]
@[simp] theorem watch_portResetLock (p : Port) (s : State) (k : Port) : (portResetLock p s).watch k = s.watch k := by simp [State.watch]
@[simp] theorem queue_portResetLock (p : Port) (s : State) (k : Port) : (portResetLock p s).queue k = s.queue k := by simp [State.queue]
@[simp] theorem session_portResetLock (p : Port) (s : State) (k : Port) : (portResetLock p s).session k = s.session k := by simp [State.session]
@[simp] theorem port_portResetLock (p : Port) (s : State) (k : Port) : (portResetLock p s).port k = s.port k := by simp [State.port]

/-! ### finishBurn -/
@[simp] theorem finishBurn_pending (b : Burning) (readBack : List Byte) (s : State) : (finishBurn b readBack s).pending = s.pending := by
  unfold finishBurn; dsimp only; split <;> simp
@[simp] theorem finishBurn_resetting (b : Burning) (readBack : List Byte) (s : State) : (finishBurn b readBack s).resetting = s.resetting := by
  unfold finishBurn; dsimp only; split <;> simp
@[simp] theorem finishBurn_device (b : Burning) (readBack : List Byte) (s : State) : (finishBurn b readBack s).device = s.device := by
  unfold finishBurn; dsimp only; split <;> simp
@[simp] theorem finishBurn_maint (b : Burning) (readBack : List Byte) (s : State) : (finishBurn b readBack s).maint = s.maint := by
  unfold finishBurn; dsimp only; split <;> simp
@[simp] theorem finishBurn_tickCount (b : Burning) (readBack : List Byte) (s : State) : (finishBurn b readBack s).tickCount = s.tickCount := by
  unfold finishBurn; dsimp only; split <;> simp
@[simp] theorem finishBurn_tickPeriod (b : Burning) (readBack : List Byte) (s : State) : (finishBurn b readBack s).tickPeriod = s.tickPeriod := by
  unfold finishBurn; dsimp only; split <;> simp
@[simp] theorem finishBurn_lag (b : Burning) (readBack : List Byte) (s : State) : (finishBurn b readBack s).lag = s.lag := by
  unfold finishBurn; dsimp only; split <;> simp
@[simp] theorem finishBurn_lines (b : Burning) (readBack : List Byte) (s : State) : (finishBurn b readBack s).lines = s.lines := by
  unfold finishBurn; dsimp only; split <;> simp
@[simp] theorem finishBurn_pads (b : Burning) (readBack : List Byte) (s : State) : (finishBurn b readBack s).pads = s.pads := by
  unfold finishBurn; dsimp only; split <;> simp
@[simp] theorem finishBurn_timers (b : Burning) (readBack : List Byte) (s : State) : (finishBurn b readBack s).timers = s.timers := by
  unfold finishBurn; dsimp only; split <;> simp
@[simp] theorem finishBurn_staged (b : Burning) (readBack : List Byte) (s : State) : (finishBurn b readBack s).staged = s.staged := by
  unfold finishBurn; dsimp only; split <;> simp
@[simp] theorem finishBurn_filters (b : Burning) (readBack : List Byte) (s : State) : (finishBurn b readBack s).filters = s.filters := by
  unfold finishBurn; dsimp only; split <;> simp
@[simp] theorem finishBurn_watches (b : Burning) (readBack : List Byte) (s : State) : (finishBurn b readBack s).watches = s.watches := by
  unfold finishBurn; dsimp only; split <;> simp
@[simp] theorem finishBurn_queues (b : Burning) (readBack : List Byte) (s : State) : (finishBurn b readBack s).queues = s.queues := by
  unfold finishBurn; dsimp only; split <;> simp
@[simp] theorem finishBurn_attn (b : Burning) (readBack : List Byte) (s : State) : (finishBurn b readBack s).attn = s.attn := by
  unfold finishBurn; dsimp only; split <;> simp
@[simp] theorem finishBurn_sessions (b : Burning) (readBack : List Byte) (s : State) : (finishBurn b readBack s).sessions = s.sessions := by
  unfold finishBurn; dsimp only; split <;> simp
@[simp] theorem finishBurn_activeSlot (b : Burning) (readBack : List Byte) (s : State) : (finishBurn b readBack s).activeSlot = s.activeSlot := by
  unfold finishBurn; dsimp only; split <;> simp
@[simp] theorem finishBurn_active (b : Burning) (readBack : List Byte) (s : State) : (finishBurn b readBack s).active = s.active := by
  unfold finishBurn; dsimp only; split <;> simp
@[simp] theorem finishBurn_buffer (b : Burning) (readBack : List Byte) (s : State) : (finishBurn b readBack s).buffer = s.buffer := by
  unfold finishBurn; dsimp only; split <;> simp
@[simp] theorem finishBurn_ports (b : Burning) (readBack : List Byte) (s : State) : (finishBurn b readBack s).ports = s.ports := by
  unfold finishBurn; dsimp only; split <;> simp
@[simp] theorem finishBurn_freeCount (b : Burning) (readBack : List Byte) (s : State) : (finishBurn b readBack s).freeCount = s.freeCount := by
  unfold finishBurn; dsimp only; split <;> simp
@[simp] theorem line_finishBurn (b : Burning) (readBack : List Byte) (s : State) (k : Line) : (finishBurn b readBack s).line k = s.line k := by simp [State.line]
@[simp] theorem pad_finishBurn (b : Burning) (readBack : List Byte) (s : State) (k : Line) : (finishBurn b readBack s).pad k = s.pad k := by simp [State.pad]
@[simp] theorem timer_finishBurn (b : Burning) (readBack : List Byte) (s : State) (k : TimerId) : (finishBurn b readBack s).timer k = s.timer k := by simp [State.timer]
@[simp] theorem stagedSet_finishBurn (b : Burning) (readBack : List Byte) (s : State) (k : Port) : (finishBurn b readBack s).stagedSet k = s.stagedSet k := by simp [State.stagedSet]
@[simp] theorem watch_finishBurn (b : Burning) (readBack : List Byte) (s : State) (k : Port) : (finishBurn b readBack s).watch k = s.watch k := by simp [State.watch]
@[simp] theorem queue_finishBurn (b : Burning) (readBack : List Byte) (s : State) (k : Port) : (finishBurn b readBack s).queue k = s.queue k := by simp [State.queue]
@[simp] theorem session_finishBurn (b : Burning) (readBack : List Byte) (s : State) (k : Port) : (finishBurn b readBack s).session k = s.session k := by simp [State.session]
@[simp] theorem port_finishBurn (b : Burning) (readBack : List Byte) (s : State) (k : Port) : (finishBurn b readBack s).port k = s.port k := by simp [State.port]

/-! ### startBurn -/
@[simp] theorem startBurn_pending (p : Port) (g : BitVec 16) (s : State) : (startBurn p g s).pending = s.pending := by simp [startBurn]
@[simp] theorem startBurn_resetting (p : Port) (g : BitVec 16) (s : State) : (startBurn p g s).resetting = s.resetting := by simp [startBurn]
@[simp] theorem startBurn_device (p : Port) (g : BitVec 16) (s : State) : (startBurn p g s).device = s.device := by simp [startBurn]
@[simp] theorem startBurn_maint (p : Port) (g : BitVec 16) (s : State) : (startBurn p g s).maint = s.maint := by simp [startBurn]
@[simp] theorem startBurn_tickCount (p : Port) (g : BitVec 16) (s : State) : (startBurn p g s).tickCount = s.tickCount := by simp [startBurn]
@[simp] theorem startBurn_tickPeriod (p : Port) (g : BitVec 16) (s : State) : (startBurn p g s).tickPeriod = s.tickPeriod := by simp [startBurn]
@[simp] theorem startBurn_lag (p : Port) (g : BitVec 16) (s : State) : (startBurn p g s).lag = s.lag := by simp [startBurn]
@[simp] theorem startBurn_lines (p : Port) (g : BitVec 16) (s : State) : (startBurn p g s).lines = s.lines := by simp [startBurn]
@[simp] theorem startBurn_pads (p : Port) (g : BitVec 16) (s : State) : (startBurn p g s).pads = s.pads := by simp [startBurn]
@[simp] theorem startBurn_timers (p : Port) (g : BitVec 16) (s : State) : (startBurn p g s).timers = s.timers := by simp [startBurn]
@[simp] theorem startBurn_staged (p : Port) (g : BitVec 16) (s : State) : (startBurn p g s).staged = s.staged := by simp [startBurn]
@[simp] theorem startBurn_filters (p : Port) (g : BitVec 16) (s : State) : (startBurn p g s).filters = s.filters := by simp [startBurn]
@[simp] theorem startBurn_watches (p : Port) (g : BitVec 16) (s : State) : (startBurn p g s).watches = s.watches := by simp [startBurn]
@[simp] theorem startBurn_queues (p : Port) (g : BitVec 16) (s : State) : (startBurn p g s).queues = s.queues := by simp [startBurn]
@[simp] theorem startBurn_attn (p : Port) (g : BitVec 16) (s : State) : (startBurn p g s).attn = s.attn := by simp [startBurn]
@[simp] theorem startBurn_sessions (p : Port) (g : BitVec 16) (s : State) : (startBurn p g s).sessions = s.sessions := by simp [startBurn]
@[simp] theorem startBurn_slotA (p : Port) (g : BitVec 16) (s : State) : (startBurn p g s).slotA = s.slotA := by simp [startBurn]
@[simp] theorem startBurn_slotB (p : Port) (g : BitVec 16) (s : State) : (startBurn p g s).slotB = s.slotB := by simp [startBurn]
@[simp] theorem startBurn_activeSlot (p : Port) (g : BitVec 16) (s : State) : (startBurn p g s).activeSlot = s.activeSlot := by simp [startBurn]
@[simp] theorem startBurn_active (p : Port) (g : BitVec 16) (s : State) : (startBurn p g s).active = s.active := by simp [startBurn]
@[simp] theorem startBurn_buffer (p : Port) (g : BitVec 16) (s : State) : (startBurn p g s).buffer = s.buffer := by simp [startBurn]
@[simp] theorem startBurn_lock (p : Port) (g : BitVec 16) (s : State) : (startBurn p g s).lock = s.lock := by simp [startBurn]
@[simp] theorem startBurn_lastBurn (p : Port) (g : BitVec 16) (s : State) : (startBurn p g s).lastBurn = s.lastBurn := by simp [startBurn]
@[simp] theorem startBurn_ports (p : Port) (g : BitVec 16) (s : State) : (startBurn p g s).ports = s.ports := by simp [startBurn]
@[simp] theorem startBurn_freeCount (p : Port) (g : BitVec 16) (s : State) : (startBurn p g s).freeCount = s.freeCount := by simp [startBurn]
@[simp] theorem line_startBurn (p : Port) (g : BitVec 16) (s : State) (k : Line) : (startBurn p g s).line k = s.line k := by simp [State.line]
@[simp] theorem pad_startBurn (p : Port) (g : BitVec 16) (s : State) (k : Line) : (startBurn p g s).pad k = s.pad k := by simp [State.pad]
@[simp] theorem timer_startBurn (p : Port) (g : BitVec 16) (s : State) (k : TimerId) : (startBurn p g s).timer k = s.timer k := by simp [State.timer]
@[simp] theorem stagedSet_startBurn (p : Port) (g : BitVec 16) (s : State) (k : Port) : (startBurn p g s).stagedSet k = s.stagedSet k := by simp [State.stagedSet]
@[simp] theorem watch_startBurn (p : Port) (g : BitVec 16) (s : State) (k : Port) : (startBurn p g s).watch k = s.watch k := by simp [State.watch]
@[simp] theorem queue_startBurn (p : Port) (g : BitVec 16) (s : State) (k : Port) : (startBurn p g s).queue k = s.queue k := by simp [State.queue]
@[simp] theorem session_startBurn (p : Port) (g : BitVec 16) (s : State) (k : Port) : (startBurn p g s).session k = s.session k := by simp [State.session]
@[simp] theorem port_startBurn (p : Port) (g : BitVec 16) (s : State) (k : Port) : (startBurn p g s).port k = s.port k := by simp [State.port]

end Sys2Proof.Machine
end

