-- ==== Sys2Proof/Laws/Lines.lean ====
section
/-! SUPPORT. The operations of the LOT on one entry: who owns the line afterwards, who still waits, who was granted, and
that a consistent entry stays consistent. -/

namespace Sys2Proof.Machine

/-! ### Owner records -/

/-- The record formed from a wait entry when it is granted (R10). -/
def grantView (now : Stamp) (w : WaitEntry) : OwnerView := ⟨w.session, w.want, w.stay, now, none⟩

@[simp] theorem ownerViews_ownersOfSharers (ss : List Sharer) : ownerViews (ownersOfSharers ss) = ss.map sharerView := by
  cases ss <;> rfl

@[simp] theorem grantView_session (now : Stamp) (w : WaitEntry) : (grantView now w).session = w.session := rfl

@[simp] theorem grantView_pulse (now : Stamp) (w : WaitEntry) : (grantView now w).pulse = none := rfl

theorem map_session_grantView (now : Stamp) (ws : List WaitEntry) :
    (ws.map (grantView now)).map OwnerView.session = ws.map WaitEntry.session := by
  rw [List.map_map]
  rfl

theorem map_sharerView_granted (now : Stamp) {ws : List WaitEntry} (h : ∀ w ∈ ws, isShareEntry w = true) :
    (ws.filterMap (sharerOfWait now)).map sharerView = ws.map (grantView now) := by
  induction ws with
  | nil => rfl
  | cons w ws ih =>
    have hw := h w (List.mem_cons_self ..)
    have rest := ih fun x hx => h x (List.mem_cons_of_mem _ hx)
    obtain ⟨p, want, stay, c, q⟩ := w
    cases want with
    | exclusive d => cases hw
    | share v => simpa [sharerOfWait, sharerView, grantView] using rest

theorem ownerOf_session {p : Port} {e : LineEntry} {r : OwnerView} (h : ownerOf p e = some r) : r.session = p := by
  simpa using List.find?_some h

theorem ownerOf_mem {p : Port} {e : LineEntry} {r : OwnerView} (h : ownerOf p e = some r) : r ∈ ownerViews e.owners :=
  List.mem_of_find?_eq_some h

theorem waiterOf_session {p : Port} {e : LineEntry} {w : WaitEntry} (h : waiterOf p e = some w) : w.session = p := by
  simpa using List.find?_some h

theorem waiterOf_mem {p : Port} {e : LineEntry} {w : WaitEntry} (h : waiterOf p e = some w) : w ∈ e.queue :=
  List.mem_of_find?_eq_some h

theorem ownerOf_none {p : Port} {e : LineEntry} : ownerOf p e = none ↔ ∀ r ∈ ownerViews e.owners, r.session ≠ p := by
  simp [ownerOf]

theorem waiterOf_none {p : Port} {e : LineEntry} : waiterOf p e = none ↔ ∀ w ∈ e.queue, w.session ≠ p := by
  simp [waiterOf]

theorem find_eq_of_nodup {α : Type} (f : α → Port) {xs : List α} (h : (xs.map f).Nodup) {x : α} (m : x ∈ xs) :
    xs.find? (fun y => f y = f x) = some x := by
  induction xs with
  | nil => cases m
  | cons y ys ih =>
    rw [List.map_cons, List.nodup_cons] at h
    rcases List.mem_cons.1 m with rfl | m
    · simp
    · have ne : f y ≠ f x := fun e => h.1 (e ▸ List.mem_map_of_mem m)
      rw [List.find?_cons_of_neg (by simpa using ne)]
      exact ih h.2 m

theorem EntryWf.owners_nodup {e : LineEntry} (h : EntryWf e) : ((ownerViews e.owners).map OwnerView.session).Nodup :=
  (List.nodup_append.1 h.oneRoleEach).1

theorem EntryWf.queue_nodup {e : LineEntry} (h : EntryWf e) : (e.queue.map WaitEntry.session).Nodup :=
  (List.nodup_append.1 h.oneRoleEach).2.1

/-- On a consistent line the record of a session is the one that carries its number. -/
theorem ownerOf_eq_some {e : LineEntry} (h : EntryWf e) {p : Port} {r : OwnerView} :
    ownerOf p e = some r ↔ r ∈ ownerViews e.owners ∧ r.session = p := by
  constructor
  · exact fun k => ⟨ownerOf_mem k, ownerOf_session k⟩
  · rintro ⟨m, rfl⟩
    exact find_eq_of_nodup OwnerView.session h.owners_nodup m

theorem ownerOf_isSome {p : Port} {e : LineEntry} :
    (ownerOf p e).isSome = true ↔ p ∈ (ownerViews e.owners).map OwnerView.session := by
  simp [ownerOf, List.find?_isSome]

theorem waiterOf_isSome {p : Port} {e : LineEntry} :
    (waiterOf p e).isSome = true ↔ p ∈ e.queue.map WaitEntry.session := by
  simp [waiterOf, List.find?_isSome]

theorem hasRole_iff {p : Port} {l : Line} {s : State} : s.hasRole p l = true ↔ p ∈ roleSessions (s.line l) := by
  simp only [State.hasRole, State.holds, State.waits, Bool.or_eq_true, ownerOf_isSome, waiterOf_isSome, roleSessions,
    List.mem_append]

theorem hasRole_false {p : Port} {l : Line} {s : State} : s.hasRole p l = false ↔ p ∉ roleSessions (s.line l) := by
  rw [← hasRole_iff, Bool.not_eq_true]

/-! ### Passing a line on -/

/-- A line passes on: these owners stay, then a first part of the waiting entries is granted in queue order (R10), the rest
waits, and the confirmed level stays. -/
structure Handed (now : Stamp) (kept : List OwnerView) (waiting : List WaitEntry) (confirmed : Bool) (step : LineStep) :
    Prop where
  split : ∃ granted, granted ++ step.entry.queue = waiting ∧ step.granted = granted.map WaitEntry.session ∧
    ownerViews step.entry.owners = kept ++ granted.map (grantView now)
  confirmed : step.entry.confirmed = confirmed

theorem handed_joinShares (now : Stamp) (ss : List Sharer) (e : LineEntry) :
    Handed now (ss.map sharerView) e.queue e.confirmed (joinShares now ss e) := by
  refine ⟨⟨e.queue.takeWhile isShareEntry, List.takeWhile_append_dropWhile, rfl, ?_⟩, rfl⟩
  simp only [joinShares, ownerViews_ownersOfSharers, List.map_append]
  rw [map_sharerView_granted now fun w hw => List.mem_takeWhile_imp hw]

theorem handed_succession (now : Stamp) (e : LineEntry) : Handed now [] e.queue e.confirmed (succession now e) := by
  unfold succession
  split
  · rename_i h
    exact ⟨⟨[], by simp [h], rfl, rfl⟩, rfl⟩
  · rename_i w rest h
    split
    · rename_i d hd
      refine ⟨⟨[w], by simp [h], rfl, ?_⟩, rfl⟩
      simp [ownerViews, holderView, grantView, hd]
    · exact handed_joinShares now [] e

theorem handed_headJoin (now : Stamp) (e : LineEntry) :
    Handed now (ownerViews e.owners) e.queue e.confirmed (headJoin now e) := by
  unfold headJoin
  split
  · rename_i ss h
    rw [h]
    exact handed_joinShares now ss e
  · exact ⟨⟨[], rfl, rfl, by simp⟩, rfl⟩
  · exact ⟨⟨[], rfl, rfl, by simp⟩, rfl⟩

theorem dropOwner_queue (p : Port) (e : LineEntry) : (dropOwner p e).queue = e.queue := by
  unfold dropOwner
  split
  · rfl
  · split <;> rfl
  · rfl

theorem dropOwner_confirmed (p : Port) (e : LineEntry) : (dropOwner p e).confirmed = e.confirmed := by
  unfold dropOwner
  split
  · rfl
  · split <;> rfl
  · rfl

theorem filter_sharerView (p : Port) (ss : List Sharer) :
    (ss.filter fun r => r.session ≠ p).map sharerView = (ss.map sharerView).filter fun r => r.session ≠ p := by
  rw [List.filter_map]
  rfl

theorem ownerViews_dropOwner (p : Port) (e : LineEntry) :
    ownerViews (dropOwner p e).owners = (ownerViews e.owners).filter fun r => r.session ≠ p := by
  unfold dropOwner
  split
  · rename_i h; simp [h, ownerViews]
  · rename_i x h
    split
    · rename_i hx; simp [h, ownerViews, holderView, hx]
    · rename_i hx; simp [h, ownerViews, holderView, hx]
  · rename_i ss h
    rw [h, ownerViews_ownersOfSharers, filter_sharerView]
    rfl

theorem ownerless_iff {e : LineEntry} (h : e.owners ≠ .shared []) : ownerless e = true ↔ ownerViews e.owners = [] := by
  unfold ownerless ownerViews
  split <;> simp_all

theorem ownersOfSharers_ne (ss : List Sharer) : ownersOfSharers ss ≠ .shared [] := by
  cases ss <;> simp [ownersOfSharers]

theorem dropOwner_ne (p : Port) {e : LineEntry} (h : e.owners ≠ .shared []) : (dropOwner p e).owners ≠ .shared [] := by
  unfold dropOwner
  split
  · exact h
  · split
    · simp
    · exact h
  · exact ownersOfSharers_ne _

/-- A release: the owner records of the others stay, and with none of them the line passes to its waiting entries (R36). -/
theorem handed_releaseEntry (p : Port) (now : Stamp) (e : LineEntry) :
    Handed now ((ownerViews e.owners).filter fun r => r.session ≠ p) e.queue e.confirmed (releaseEntry p now e) := by
  have h := handed_succession now (dropOwner p e)
  unfold releaseEntry
  rw [dropOwner_queue, dropOwner_confirmed] at h
  split
  · rename_i c
    have none : ownerViews (dropOwner p e).owners = [] := by
      unfold ownerless at c
      split at c <;> simp_all [ownerViews]
    rw [← ownerViews_dropOwner, none]
    exact h
  · exact ⟨⟨[], by simp [dropOwner_queue], rfl, by simp [ownerViews_dropOwner]⟩, dropOwner_confirmed p e⟩

/-- A withdrawal: the owners stay, the wait entries of the others move up and may join (R37, R44). -/
theorem handed_withdrawEntry (p : Port) (now : Stamp) (e : LineEntry) :
    Handed now (ownerViews e.owners) (e.queue.filter fun w => w.session ≠ p) e.confirmed (withdrawEntry p now e) :=
  handed_headJoin now (dropWaiter p e)

theorem filter_owners_of_none {p : Port} {e : LineEntry} (h : ownerOf p e = none) :
    (ownerViews e.owners).filter (fun r => r.session ≠ p) = ownerViews e.owners :=
  List.filter_eq_self.2 fun r hr => by simpa using ownerOf_none.1 h r hr

theorem filter_queue_of_none {p : Port} {e : LineEntry} (h : waiterOf p e = none) :
    e.queue.filter (fun w => w.session ≠ p) = e.queue :=
  List.filter_eq_self.2 fun w hw => by simpa using waiterOf_none.1 h w hw

/-- Teardown of a session on one line: its record and its wait entry go (R46). -/
theorem handed_tearDownEntry (p : Port) (now : Stamp) (e : LineEntry) :
    Handed now ((ownerViews e.owners).filter fun r => r.session ≠ p) (e.queue.filter fun w => w.session ≠ p) e.confirmed
      (tearDownEntry p now e) := by
  unfold tearDownEntry
  split
  · exact handed_releaseEntry p now (dropWaiter p e)
  · rename_i h
    rw [filter_owners_of_none (by simpa using h)]
    split
    · exact handed_withdrawEntry p now e
    · rename_i k
      rw [filter_queue_of_none (by simpa using k)]
      exact ⟨⟨[], rfl, rfl, by simp⟩, rfl⟩

/-- The roles on a line after it passed on. -/
theorem roleSessions_handed {now : Stamp} {kept : List OwnerView} {waiting : List WaitEntry} {c : Bool} {step : LineStep}
    (h : Handed now kept waiting c step) :
    roleSessions step.entry = kept.map OwnerView.session ++ waiting.map WaitEntry.session := by
  obtain ⟨granted, hq, _, ho⟩ := h.split
  rw [roleSessions, ho, List.map_append, map_session_grantView, List.append_assoc, ← List.map_append, hq]

theorem queue_handed {now : Stamp} {kept : List OwnerView} {waiting : List WaitEntry} {c : Bool} {step : LineStep}
    (h : Handed now kept waiting c step) : step.entry.queue.Sublist waiting := by
  obtain ⟨granted, hq, _, _⟩ := h.split
  rw [← hq]
  exact List.sublist_append_right _ _

/-- An owner after a line passed on: one of the owners who stay, or one just granted, without a pulse. -/
theorem mem_handed {now : Stamp} {kept : List OwnerView} {waiting : List WaitEntry} {c : Bool} {step : LineStep}
    (h : Handed now kept waiting c step) {r : OwnerView} (m : r ∈ ownerViews step.entry.owners) :
    r ∈ kept ∨ (r.session ∈ step.granted ∧ r.pulse = none ∧ ∃ w ∈ waiting, r = grantView now w) := by
  obtain ⟨granted, hq, hg, ho⟩ := h.split
  rw [ho] at m
  rcases List.mem_append.1 m with m | m
  · exact .inl m
  · obtain ⟨w, hw, rfl⟩ := List.mem_map.1 m
    exact .inr ⟨by rw [hg]; exact List.mem_map_of_mem hw, rfl, w, by rw [← hq]; exact List.mem_append_left _ hw, rfl⟩

theorem kept_handed {now : Stamp} {kept : List OwnerView} {waiting : List WaitEntry} {c : Bool} {step : LineStep}
    (h : Handed now kept waiting c step) {r : OwnerView} (m : r ∈ kept) : r ∈ ownerViews step.entry.owners := by
  obtain ⟨granted, _, _, ho⟩ := h.split
  rw [ho]
  exact List.mem_append_left _ m

/-- A line on which nothing was granted keeps its owners. -/
theorem owners_handed_nil {now : Stamp} {kept : List OwnerView} {waiting : List WaitEntry} {c : Bool} {step : LineStep}
    (h : Handed now kept waiting c step) (g : step.granted = []) : ownerViews step.entry.owners = kept := by
  obtain ⟨granted, _, hg, ho⟩ := h.split
  rw [hg, List.map_eq_nil_iff] at g
  rw [ho, g]
  simp

theorem roleSessions_releaseEntry (p : Port) (now : Stamp) (e : LineEntry) :
    roleSessions (releaseEntry p now e).entry =
      ((ownerViews e.owners).map OwnerView.session).filter (fun q => q ≠ p) ++ e.queue.map WaitEntry.session := by
  rw [roleSessions_handed (handed_releaseEntry p now e), List.filter_map]
  rfl

theorem roleSessions_withdrawEntry (p : Port) (now : Stamp) (e : LineEntry) :
    roleSessions (withdrawEntry p now e).entry =
      (ownerViews e.owners).map OwnerView.session ++ (e.queue.map WaitEntry.session).filter (fun q => q ≠ p) := by
  rw [roleSessions_handed (handed_withdrawEntry p now e), List.filter_map]
  rfl

theorem roleSessions_tearDownEntry (p : Port) (now : Stamp) (e : LineEntry) :
    roleSessions (tearDownEntry p now e).entry = (roleSessions e).filter fun q => q ≠ p := by
  rw [roleSessions_handed (handed_tearDownEntry p now e), roleSessions, List.filter_append, List.filter_map, List.filter_map]
  rfl

/-! ### Consistent entries stay consistent -/

/-- What is left of the consistency of an entry once its roles are known to be distinct. -/
structure EntryShape (e : LineEntry) : Prop where
  sharersPresent : e.owners ≠ .shared []
  unownedQueueEmpty : e.owners = .unowned → e.queue = []
  sharedHeadExclusive : ∀ ss w, e.owners = .shared ss → e.queue.head? = some w → isShareEntry w = false

theorem EntryWf.shape {e : LineEntry} (h : EntryWf e) : EntryShape e :=
  ⟨h.sharersPresent, h.unownedQueueEmpty, h.sharedHeadExclusive⟩

theorem EntryShape.wf {e : LineEntry} (h : EntryShape e) (n : (roleSessions e).Nodup) : EntryWf e :=
  ⟨n, h.sharersPresent, h.unownedQueueEmpty, h.sharedHeadExclusive⟩

theorem head_dropWhile {ws : List WaitEntry} {w : WaitEntry} (h : (ws.dropWhile isShareEntry).head? = some w) :
    isShareEntry w = false := by
  have := List.head?_dropWhile_not isShareEntry ws
  rw [h] at this
  simpa using this

theorem shape_joinShares (now : Stamp) (ss : List Sharer) (e : LineEntry)
    (h : ss ≠ [] ∨ ∃ w rest, e.queue = w :: rest ∧ isShareEntry w = true) : EntryShape (joinShares now ss e).entry := by
  have ne : ss ++ (e.queue.takeWhile isShareEntry).filterMap (sharerOfWait now) ≠ [] := by
    rcases h with h | ⟨w, rest, hq, hw⟩
    · simp [h]
    · obtain ⟨p, want, stay, c, q⟩ := w
      cases want with
      | exclusive d => cases hw
      | share v =>
        rw [hq, List.takeWhile_cons_of_pos hw, List.filterMap_cons]
        simp [sharerOfWait]
  refine ⟨ownersOfSharers_ne _, fun u => ?_, fun _ w _ hw => head_dropWhile hw⟩
  simp only [joinShares] at u
  cases hs : ss ++ (e.queue.takeWhile isShareEntry).filterMap (sharerOfWait now) with
  | nil => exact absurd hs ne
  | cons r rs => rw [hs] at u; cases u

theorem shape_succession (now : Stamp) (e : LineEntry) : EntryShape (succession now e).entry := by
  unfold succession
  split
  · rename_i h
    exact ⟨by simp, fun _ => h, by simp⟩
  · rename_i w rest h
    split
    · exact ⟨by simp, by simp, by simp⟩
    · rename_i v hv
      exact shape_joinShares now [] e (.inr ⟨w, rest, h, by simp [isShareEntry, hv]⟩)

theorem shape_headJoin (now : Stamp) {e : LineEntry} (h : e.owners ≠ .shared [])
    (u : e.owners = .unowned → e.queue = []) : EntryShape (headJoin now e).entry := by
  unfold headJoin
  split
  · rename_i ss hs
    exact shape_joinShares now ss e (.inl fun c => h (by rw [hs, c]))
  · rename_i hs
    exact ⟨h, u, by simp [hs]⟩
  · rename_i hs
    exact ⟨h, by simp [hs], by simp [hs]⟩

theorem shape_dropOwner (p : Port) {e : LineEntry} (h : EntryShape e) (o : ownerless (dropOwner p e) = false) :
    EntryShape (dropOwner p e) := by
  refine ⟨dropOwner_ne p h.sharersPresent, fun u => by simp [ownerless, u] at o, fun ss w hs hw => ?_⟩
  rw [dropOwner_queue] at hw
  unfold dropOwner at hs
  split at hs
  · exact h.sharedHeadExclusive ss w hs hw
  · split at hs
    · cases hs
    · exact h.sharedHeadExclusive ss w hs hw
  · exact h.sharedHeadExclusive _ w ‹_› hw

theorem shape_releaseEntry (p : Port) (now : Stamp) {e : LineEntry} (h : EntryShape e) :
    EntryShape (releaseEntry p now e).entry := by
  unfold releaseEntry
  split
  · exact shape_succession now _
  · exact shape_dropOwner p h (Bool.eq_false_iff.2 ‹_›)

theorem shape_withdrawEntry (p : Port) (now : Stamp) {e : LineEntry} (h : EntryShape e) :
    EntryShape (withdrawEntry p now e).entry :=
  shape_headJoin now (e := dropWaiter p e) h.sharersPresent fun u => by
    have := h.unownedQueueEmpty u
    simp [dropWaiter, this]

theorem wf_releaseEntry (p : Port) (now : Stamp) {e : LineEntry} (h : EntryWf e) :
    EntryWf (releaseEntry p now e).entry :=
  (shape_releaseEntry p now h.shape).wf <| by
    rw [roleSessions_releaseEntry]
    exact h.oneRoleEach.sublist (List.filter_sublist.append (List.Sublist.refl _))

theorem wf_withdrawEntry (p : Port) (now : Stamp) {e : LineEntry} (h : EntryWf e) :
    EntryWf (withdrawEntry p now e).entry :=
  (shape_withdrawEntry p now h.shape).wf <| by
    rw [roleSessions_withdrawEntry]
    exact h.oneRoleEach.sublist ((List.Sublist.refl _).append List.filter_sublist)

theorem wf_tearDownEntry (p : Port) (now : Stamp) {e : LineEntry} (h : EntryWf e) :
    EntryWf (tearDownEntry p now e).entry := by
  have nodup : (roleSessions (tearDownEntry p now e).entry).Nodup := by
    rw [roleSessions_tearDownEntry]
    exact h.oneRoleEach.sublist List.filter_sublist
  have shape : EntryShape (tearDownEntry p now e).entry := by
    unfold tearDownEntry
    split
    · rename_i ho
      have noWait : waiterOf p e = none := by
        rw [waiterOf_none]
        intro w hw hp
        have a := ownerOf_isSome.1 ho
        exact (List.nodup_append.1 h.oneRoleEach).2.2 p a w.session (List.mem_map_of_mem hw) hp.symm
      have same : dropWaiter p e = e := by
        rw [dropWaiter, filter_queue_of_none noWait]
      rw [same]
      exact shape_releaseEntry p now h.shape
    · split
      · exact shape_withdrawEntry p now h.shape
      · exact h.shape
  exact shape.wf nodup

/-! ### Updates of one record -/

theorem setResting_queue (p : Port) (v : Bool) (e : LineEntry) : (setResting p v e).queue = e.queue := by
  unfold setResting
  split
  · rfl
  · split
    · split <;> rfl
    · rfl
  · rfl

theorem setResting_confirmed (p : Port) (v : Bool) (e : LineEntry) : (setResting p v e).confirmed = e.confirmed := by
  unfold setResting
  split
  · rfl
  · split
    · split <;> rfl
    · rfl
  · rfl

/-- The records after a new resting value or vote of one session (R81). -/
theorem ownerViews_setResting (p : Port) (v : Bool) (e : LineEntry) :
    ownerViews (setResting p v e).owners =
      (ownerViews e.owners).map fun r => if r.session = p then { r with want := revalued v r.want } else r := by
  unfold setResting
  split
  · rename_i h; simp [h, ownerViews]
  · rename_i x h
    split
    · rename_i hx
      split <;> rename_i hd <;> simp [h, ownerViews, holderView, hx, hd, revalued]
    · rename_i hx; simp [h, ownerViews, holderView, hx]
  · rename_i ss h
    simp only [h, ownerViews, List.map_map]
    refine List.map_congr_left fun r _ => ?_
    by_cases hr : r.session = p <;> simp [sharerView, hr, revalued]

theorem setPulse_queue (p : Port) (t : Option TimerId) (e : LineEntry) : (setPulse p t e).queue = e.queue := by
  unfold setPulse
  split
  · rfl
  · split <;> rfl
  · rfl

theorem setPulse_confirmed (p : Port) (t : Option TimerId) (e : LineEntry) :
    (setPulse p t e).confirmed = e.confirmed := by
  unfold setPulse
  split
  · rfl
  · split <;> rfl
  · rfl

/-- The records after the pulse field of one session is set (R65, R66). -/
theorem ownerViews_setPulse (p : Port) (t : Option TimerId) (e : LineEntry) :
    ownerViews (setPulse p t e).owners =
      (ownerViews e.owners).map fun r => if r.session = p then { r with pulse := t } else r := by
  unfold setPulse
  split
  · rename_i h; simp [h, ownerViews]
  · rename_i x h
    split
    · rename_i hx; simp [h, ownerViews, holderView, hx]
    · rename_i hx; simp [h, ownerViews, holderView, hx]
  · rename_i ss h
    simp only [h, ownerViews, List.map_map]
    refine List.map_congr_left fun r _ => ?_
    by_cases hr : r.session = p <;> simp [sharerView, hr]

/-- A record found after an update of every record that keeps the sessions. -/
theorem find_map_session (f : OwnerView → OwnerView) (h : ∀ r, (f r).session = r.session) (p : Port)
    (rs : List OwnerView) :
    (rs.map f).find? (fun r => r.session = p) = (rs.find? fun r => r.session = p).map f := by
  induction rs with
  | nil => rfl
  | cons r rs ih =>
    by_cases hr : r.session = p
    · simp [hr, h]
    · rw [List.map_cons, List.find?_cons_of_neg (by simpa [h] using hr), List.find?_cons_of_neg (by simpa using hr), ih]

theorem ownerOf_setResting (p q : Port) (v : Bool) (e : LineEntry) :
    ownerOf q (setResting p v e) =
      if q = p then (ownerOf q e).map (fun r => { r with want := revalued v r.want }) else ownerOf q e := by
  unfold ownerOf
  rw [ownerViews_setResting, find_map_session _ (fun r => by split <;> rfl)]
  cases hf : (ownerViews e.owners).find? fun r => r.session = q with
  | none => simp
  | some r =>
    have : r.session = q := by simpa using List.find?_some hf
    subst this
    simp only [Option.map_some]
    split <;> rfl

theorem ownerOf_setPulse (p q : Port) (t : Option TimerId) (e : LineEntry) :
    ownerOf q (setPulse p t e) =
      if q = p then (ownerOf q e).map (fun r => { r with pulse := t }) else ownerOf q e := by
  unfold ownerOf
  rw [ownerViews_setPulse, find_map_session _ (fun r => by split <;> rfl)]
  cases hf : (ownerViews e.owners).find? fun r => r.session = q with
  | none => simp
  | some r =>
    have : r.session = q := by simpa using List.find?_some hf
    subst this
    simp only [Option.map_some]
    split <;> rfl

/-- An update of the records that keeps sessions, sharing and the queue keeps a consistent entry consistent. -/
theorem wf_setResting (p : Port) (v : Bool) {e : LineEntry} (h : EntryWf e) : EntryWf (setResting p v e) := by
  have roles : roleSessions (setResting p v e) = roleSessions e := by
    rw [roleSessions, roleSessions, ownerViews_setResting, setResting_queue, List.map_map]
    congr 1
    refine List.map_congr_left fun r _ => ?_
    simp only [Function.comp]
    split <;> rfl
  have shape : EntryShape (setResting p v e) := by
    have k := h.shape
    unfold setResting
    split
    · exact k
    · rename_i x hx
      split
      · split
        · exact k
        · exact ⟨by simp, by simp, by simp⟩
        · exact ⟨by simp, by simp, by simp⟩
      · exact k
    · rename_i ss hs
      refine ⟨?_, by simp, fun _ w _ hw => k.sharedHeadExclusive ss w hs hw⟩
      have := k.sharersPresent
      simpa [hs] using this
  exact shape.wf (roles ▸ h.oneRoleEach)

theorem wf_setPulse (p : Port) (t : Option TimerId) {e : LineEntry} (h : EntryWf e) : EntryWf (setPulse p t e) := by
  have roles : roleSessions (setPulse p t e) = roleSessions e := by
    rw [roleSessions, roleSessions, ownerViews_setPulse, setPulse_queue, List.map_map]
    congr 1
    refine List.map_congr_left fun r _ => ?_
    simp only [Function.comp]
    split <;> rfl
  have shape : EntryShape (setPulse p t e) := by
    have k := h.shape
    unfold setPulse
    split
    · exact k
    · rename_i x hx
      split
      · exact ⟨by simp, by simp, by simp⟩
      · exact k
    · rename_i ss hs
      refine ⟨?_, by simp, fun _ w _ hw => k.sharedHeadExclusive ss w hs hw⟩
      have := k.sharersPresent
      simpa [hs] using this
  exact shape.wf (roles ▸ h.oneRoleEach)

theorem roleSessions_setResting (p : Port) (v : Bool) (e : LineEntry) :
    roleSessions (setResting p v e) = roleSessions e := by
  rw [roleSessions, roleSessions, ownerViews_setResting, setResting_queue, List.map_map]
  congr 1
  refine List.map_congr_left fun r _ => ?_
  simp only [Function.comp]
  split <;> rfl

theorem roleSessions_setPulse (p : Port) (t : Option TimerId) (e : LineEntry) :
    roleSessions (setPulse p t e) = roleSessions e := by
  rw [roleSessions, roleSessions, ownerViews_setPulse, setPulse_queue, List.map_map]
  congr 1
  refine List.map_congr_left fun r _ => ?_
  simp only [Function.comp]
  split <;> rfl

/-! ### New owners -/

theorem ownerViews_formOwners (p : Port) (want : Want) (stay : Bool) (now : Stamp) :
    ownerViews (formOwners p want stay now) = [⟨p, want, stay, now, none⟩] := by
  cases want <;> rfl

theorem formOwners_shape (p : Port) (want : Want) (stay : Bool) (now : Stamp) :
    formOwners p want stay now ≠ .unowned ∧ formOwners p want stay now ≠ .shared [] := by
  cases want <;> simp [formOwners]

theorem roleSessions_preemptEntry (p : Port) (want : Want) (stay : Bool) (now : Stamp) (e : LineEntry) :
    roleSessions (preemptEntry p want stay now e) =
      p :: (((ownerViews e.owners).filter OwnerView.stay).map OwnerView.session ++ e.queue.map WaitEntry.session) := by
  simp only [roleSessions, preemptEntry, ownerViews_formOwners, List.map_append, List.map_map, List.map_cons, List.map_nil,
    List.singleton_append]
  rfl

theorem roles_preemptEntry_sublist (p : Port) (want : Want) (stay : Bool) (now : Stamp) (e : LineEntry) :
    (roleSessions (preemptEntry p want stay now e)).Sublist (p :: roleSessions e) := by
  rw [roleSessions_preemptEntry]
  exact ((List.filter_sublist.map _).append (List.Sublist.refl _)).cons_cons _

theorem wf_preemptEntry {p : Port} {e : LineEntry} (h : EntryWf e) (r : p ∉ roleSessions e) (d : Drive) (stay : Bool)
    (now : Stamp) : EntryWf (preemptEntry p (.exclusive d) stay now e) :=
  EntryShape.wf ⟨by simp [preemptEntry, formOwners], by simp [preemptEntry, formOwners], by simp [preemptEntry, formOwners]⟩
    ((List.nodup_cons.2 ⟨r, h.oneRoleEach⟩).sublist (roles_preemptEntry_sublist _ _ _ _ _))

/-! ### Claim counts -/

theorem countP_add_countP {α : Type} (f g : α → Bool) (xs : List α) (h : α → Nat)
    (e : ∀ x ∈ xs, (if f x then 1 else 0) + (if g x then 1 else 0) = h x) :
    xs.countP f + xs.countP g = (xs.map h).sum := by
  induction xs with
  | nil => rfl
  | cons x xs ih =>
    have hx := e x (List.mem_cons_self ..)
    have rest := ih fun y hy => e y (List.mem_cons_of_mem _ hy)
    rw [List.countP_cons, List.countP_cons, List.map_cons, List.sum_cons]
    omega

/-- The claim count of a session is the number of its roles over all lines (R20, R47). -/
theorem claimCount_eq {s : State} (h : LinesWf s) (p : Port) :
    s.claimCount p = (allLines.map fun l => (roleSessions (s.line l)).count p).sum := by
  refine countP_add_countP _ _ _ _ fun l _ => ?_
  have a : s.holds p l = true ↔ p ∈ (ownerViews (s.line l).owners).map OwnerView.session := ownerOf_isSome
  have b : s.waits p l = true ↔ p ∈ (s.line l).queue.map WaitEntry.session := waiterOf_isSome
  have ca := (h l).owners_nodup
  have cb := (h l).queue_nodup
  rw [roleSessions, List.count_append, ca.count, cb.count]
  simp only [a, b]

theorem sum_le_sum (xs : List Line) (f g : Line → Nat) (h : ∀ l, f l ≤ g l) : (xs.map f).sum ≤ (xs.map g).sum := by
  induction xs with
  | nil => exact Nat.le_refl _
  | cons x xs ih =>
    rw [List.map_cons, List.map_cons, List.sum_cons, List.sum_cons]
    have := h x
    omega

/-- Claim counts fall where roles fall. -/
theorem claimCount_le {s t : State} (hs : LinesWf s) (ht : LinesWf t) (p : Port)
    (h : ∀ l, (roleSessions (t.line l)).count p ≤ (roleSessions (s.line l)).count p) : t.claimCount p ≤ s.claimCount p := by
  rw [claimCount_eq hs, claimCount_eq ht]
  exact sum_le_sum _ _ _ h

theorem sum_update (xs : List Line) (nd : xs.Nodup) (l : Line) (m : l ∈ xs) (f g : Line → Nat)
    (h : ∀ k, k ≠ l → f k = g k) : (xs.map f).sum + g l = (xs.map g).sum + f l := by
  induction xs with
  | nil => cases m
  | cons x xs ih =>
    obtain ⟨nx, nd⟩ := List.nodup_cons.1 nd
    rw [List.map_cons, List.map_cons, List.sum_cons, List.sum_cons]
    by_cases e : x = l
    · subst e
      have same : xs.map f = xs.map g := List.map_congr_left fun k hk => h k fun c => nx (c ▸ hk)
      rw [same]
      omega
    · have := ih nd ((List.mem_cons.1 m).resolve_left fun c => e c.symm)
      have := h x e
      omega

/-- The claim count of a session after a change of one line. -/
theorem claimCount_one {s t : State} (hs : LinesWf s) (ht : LinesWf t) (p : Port) (l : Line)
    (h : ∀ k, k ≠ l → t.line k = s.line k) :
    t.claimCount p + (roleSessions (s.line l)).count p = s.claimCount p + (roleSessions (t.line l)).count p := by
  rw [claimCount_eq hs, claimCount_eq ht]
  exact sum_update allLines (by decide) l (mem_allLines l) (fun l => (roleSessions (t.line l)).count p)
    (fun l => (roleSessions (s.line l)).count p) fun k hk => by rw [h k hk]

end Sys2Proof.Machine
end

