-- ==== Sys2Proof/Laws/Changes.lean ====
section
/-! SUPPORT. What each operation of the blocks changes: lines, pads, timers, queues and sets after it. -/

namespace Sys2Proof.Machine

/-! ### Pads in the state that an operation ends in -/

theorem padFor_offerNotices (now : Stamp) (ns : List Notice) (s : State) (l : Line) :
    (offerNotices now ns s).padFor l = s.padFor l := padFor_congr (by simp) (by simp) (by simp)

theorem padFor_offerNotice (now : Stamp) (s : State) (n : Notice) (l : Line) :
    (offerNotice now s n).padFor l = s.padFor l := padFor_congr (by simp) (by simp) (by simp)

theorem padFor_padUpdate (f : Line → Bool) (s : State) (l : Line) : (padUpdate f s).padFor l = s.padFor l :=
  padFor_congr (by simp) (by simp) (by simp)

/-- The derived pad of a line depends on its owners and on the values of the timers their pulse fields name (Table 3-1,
R54). -/
theorem padFor_of_owners {s t : State} {l : Line} (ha : t.active = s.active) (ho : (t.line l).owners = (s.line l).owners)
    (ht : ∀ v ∈ ownerViews (s.line l).owners, ∀ x, v.pulse = some x →
      (t.timer x).map PulseTimer.value = (s.timer x).map PulseTimer.value) : t.padFor l = s.padFor l := by
  have one : ∀ v ∈ ownerViews (s.line l).owners, ∀ resting, t.effective resting v.pulse = s.effective resting v.pulse := by
    intro v hv resting
    cases hp : v.pulse with
    | none => rfl
    | some x =>
      have h := ht v hv x hp
      simp only [State.effective]
      cases a : t.timer x <;> cases b : s.timer x <;> simp_all
  unfold State.padFor
  rw [ha]
  cases s.active with
  | none => rfl
  | some img =>
    have drive : t.driveFor img l = s.driveFor img l := by
      unfold State.driveFor
      rw [ho]
      cases e : (s.line l).owners with
      | unowned => rfl
      | held h =>
        have k := one (holderView h) (by simp [e, ownerViews])
        simp only [holderView] at k
        dsimp only
        split <;> simp [k]
      | shared ss =>
        dsimp only
        congr 1
        have all : ∀ r ∈ ss, t.effective r.vote r.pulse = s.effective r.vote r.pulse := fun r hr =>
          one (sharerView r) (by rw [e]; exact List.mem_map_of_mem hr) r.vote
        clear e one ht ho
        induction ss with
        | nil => rfl
        | cons r rest ih =>
          rw [List.all_cons, List.all_cons, all r (List.mem_cons_self ..),
            ih fun q hq => all q (List.mem_cons_of_mem _ hq)]
    dsimp only
    rw [drive]

/-! ### Steps of one line -/

theorem line_applyLineStep (l : Line) (x : LineStep) (now : Stamp) (handed : Bool) (s : State) (k : Line) :
    (applyLineStep l x now handed s).line k = if k = l then x.entry else s.line k := by
  simp [applyLineStep, line_setLine]

theorem pad_applyLineStep (l : Line) (x : LineStep) (now : Stamp) (handed : Bool) (s : State) (k : Line) :
    (applyLineStep l x now handed s).pad k =
      if handed ∧ k = l then (applyLineStep l x now handed s).padFor k else s.pad k := by
  simp only [applyLineStep, pad_offerNotices, padFor_offerNotices, padFor_padUpdate, pad_padUpdate, pad_setLine,
    Bool.and_eq_true, decide_eq_true_eq]

theorem queue_applyLineStep (l : Line) (x : LineStep) (now : Stamp) (handed : Bool) (s : State) :
    Delivered now (x.granted.map fun q => ⟨q, l, .granted⟩) s (applyLineStep l x now handed s) := by
  intro q
  simp only [applyLineStep, queue_offerNotices, session_padUpdate, session_setLine, queue_padUpdate, queue_setLine,
    grantedNotices]

theorem line_installOwners (l : Line) (o : Owners) (s : State) (k : Line) :
    (installOwners l o s).line k = if k = l then { s.line l with owners := o } else s.line k := by
  simp [installOwners, line_setLine]

theorem pad_installOwners (l : Line) (o : Owners) (s : State) (k : Line) :
    (installOwners l o s).pad k = if k = l then (installOwners l o s).padFor k else s.pad k := by
  simp only [installOwners, padFor_padUpdate, pad_padUpdate, pad_setLine, decide_eq_true_eq]

theorem line_preempt (p : Port) (l : Line) (want : Want) (stay : Bool) (s : State) (k : Line) :
    (preempt p l want stay s).line k =
      if k = l then preemptEntry p want stay (s.stampAt .lineTable) (s.line l) else s.line k := by
  simp [preempt, line_setLine]

theorem timer_preempt (p : Port) (l : Line) (want : Want) (stay : Bool) (s : State) (x : TimerId) :
    (preempt p l want stay s).timer x =
      if (ownerViews (s.line l).owners).any (fun r => r.pulse = some x) then none else s.timer x := by
  simp [preempt]

theorem pad_preempt (p : Port) (l : Line) (want : Want) (stay : Bool) (s : State) (k : Line) :
    (preempt p l want stay s).pad k = if k = l then (preempt p l want stay s).padFor k else s.pad k := by
  simp only [preempt, pad_offerNotices, padFor_offerNotices, padFor_padUpdate, pad_padUpdate, pad_setLine,
    pad_freeTimers, decide_eq_true_eq]

theorem queue_preempt (p : Port) (l : Line) (want : Want) (stay : Bool) (s : State) :
    Delivered (s.stampAt .lineTable)
      ((ownerViews (s.line l).owners).map fun r => ⟨r.session, l, .revoked r.pulse.isSome⟩) s
      (preempt p l want stay s) := by
  intro q
  simp only [preempt, queue_offerNotices, session_padUpdate, session_setLine, queue_padUpdate, queue_setLine,
    session_freeTimers, queue_freeTimers, revokedNotices]

/-! ### Expiries and pulses -/

theorem line_expireWait (l : Line) (p : Port) (s : State) (k : Line) :
    (expireWait l p s).line k =
      if k = l then (withdrawEntry p (s.stampAt .lineTable) (s.line l)).entry else s.line k := by
  simp [expireWait, line_applyLineStep]

theorem pad_expireWait (l : Line) (p : Port) (s : State) (k : Line) :
    (expireWait l p s).pad k =
      if (withdrawEntry p (s.stampAt .lineTable) (s.line l)).granted ≠ [] ∧ k = l then (expireWait l p s).padFor k
      else s.pad k := by
  unfold expireWait
  dsimp only
  rw [pad_applyLineStep, pad_offerNotice]
  cases (withdrawEntry p (s.stampAt .lineTable) (s.line l)).granted <;> simp

theorem queue_expireWait (l : Line) (p : Port) (s : State) :
    Delivered (s.stampAt .lineTable)
      (⟨p, l, .claimDropped⟩ ::
        (withdrawEntry p (s.stampAt .lineTable) (s.line l)).granted.map fun q => ⟨q, l, .granted⟩) s
      (expireWait l p s) := by
  intro q
  have : expireWait l p s = offerNotices (s.stampAt .lineTable)
      (grantedNotices l (withdrawEntry p (s.stampAt .lineTable) (s.line l)).granted)
      (padUpdate (fun k => !(withdrawEntry p (s.stampAt .lineTable) (s.line l)).granted.isEmpty && k = l)
        ((offerNotice (s.stampAt .lineTable) s ⟨p, l, .claimDropped⟩).setLine l
          (withdrawEntry p (s.stampAt .lineTable) (s.line l)).entry)) := rfl
  rw [this, queue_offerNotices]
  simp only [session_padUpdate, session_setLine, queue_padUpdate, queue_setLine, session_offerNotice, queue_offerNotice,
    grantedNotices]
  by_cases ha : isAttached (s.session q).state = true
  · by_cases hq : p = q
    · simp [ha, hq]
    · simp [ha, hq]
  · simp [ha]

theorem line_expirePulse (x : TimerId) (r : PulseTimer) (s : State) (k : Line) :
    (expirePulse x r s).line k = if k = r.line then setPulse r.session none (s.line r.line) else s.line k := by
  simp [expirePulse, line_setLine]

theorem timer_expirePulse (x : TimerId) (r : PulseTimer) (s : State) (y : TimerId) :
    (expirePulse x r s).timer y = if y = x then none else s.timer y := by
  simp [expirePulse, timer_setTimer]

theorem pad_expirePulse (x : TimerId) (r : PulseTimer) (s : State) (k : Line) :
    (expirePulse x r s).pad k = if k = r.line then (expirePulse x r s).padFor k else s.pad k := by
  simp only [expirePulse, pad_offerNotice, padFor_offerNotice, padFor_padUpdate, pad_padUpdate, pad_setLine, pad_setTimer,
    decide_eq_true_eq]

theorem queue_expirePulse (x : TimerId) (r : PulseTimer) (s : State) :
    Delivered (s.stampAt .pulsePool) [⟨r.session, r.line, .pulseEnded⟩] s (expirePulse x r s) := by
  intro q
  simp only [expirePulse, queue_offerNotice, session_padUpdate, session_setLine, queue_padUpdate, queue_setLine,
    session_setTimer, queue_setTimer]
  by_cases ha : isAttached (s.session q).state = true <;> by_cases hq : r.session = q <;> simp [ha, hq]

theorem line_startPulse (p : Port) (l : Line) (v : Bool) (n : Nat) (x : TimerId) (s : State) (k : Line) :
    (startPulse p l v n x s).line k = if k = l then setPulse p (some x) (s.line l) else s.line k := by
  simp [startPulse, line_setLine]

theorem timer_startPulse (p : Port) (l : Line) (v : Bool) (n : Nat) (x : TimerId) (s : State) (y : TimerId) :
    (startPulse p l v n x s).timer y = if y = x then some ⟨l, p, v, countdownLoad n⟩ else s.timer y := by
  simp [startPulse, timer_setTimer]

theorem pad_startPulse (p : Port) (l : Line) (v : Bool) (n : Nat) (x : TimerId) (s : State) (k : Line) :
    (startPulse p l v n x s).pad k = if k = l then (startPulse p l v n x s).padFor k else s.pad k := by
  simp only [startPulse, padFor_padUpdate, pad_padUpdate, pad_setLine, pad_setTimer, decide_eq_true_eq]

/-! ### COMMIT -/

theorem line_applyStaged (p : Port) (s : State) (k : Line) :
    (applyStaged p s).line k = commitLine p (stagedValueOf k (s.stagedSet p)) (s.line k) := by
  simp [applyStaged]

theorem stagedSet_applyStaged (p : Port) (s : State) (q : Port) :
    (applyStaged p s).stagedSet q = if q = p then [] else s.stagedSet q := by
  simp [applyStaged, stagedSet_setStaged]

theorem pad_applyStaged (p : Port) (s : State) (k : Line) :
    (applyStaged p s).pad k = if stagedHas k (s.stagedSet p) then (applyStaged p s).padFor k else s.pad k := by
  simp only [applyStaged, padFor_padUpdate, pad_padUpdate, pad_setStaged, pad_setLines]

/-! ### Sampling and start-up -/

/-- One sample leaves the filter without a candidate, or with the level opposite to the confirmed one (R90). -/
theorem filterWf_filterSample (F : Nat) (f : LineFilter) (confirmed sampled : Bool) :
    FilterWf F (filterSample F f confirmed sampled).confirmed (filterSample F f confirmed sampled).filter := by
  unfold filterSample
  split
  · exact .inl rfl
  · rename_i differs
    dsimp only
    split <;> split
    · exact .inl rfl
    · exact .inr ⟨by cases sampled <;> cases confirmed <;> simp_all, by simp, by simp only; omega⟩
    · exact .inl rfl
    · exact .inr ⟨by cases sampled <;> cases confirmed <;> simp_all, by simp, by simp only; omega⟩

theorem line_samplePins (levels : LineMap) (now : Stamp) (s : State) (l : Line) :
    (samplePins levels now s).line l = { s.line l with confirmed := (sampleLine levels s l).confirmed } := by
  rw [(samplePins_frame levels now s).blocks.lines l rfl, line_filterLines]

theorem filters_samplePins (levels : LineMap) (now : Stamp) (s : State) (l : Line) :
    (samplePins levels now s).filters[l] = (sampleLine levels s l).filter := by
  have h : (samplePins levels now s).filters = (filterLines levels s).filters := (samplePins_frame levels now s).filters
  rw [h, filters_filterLines]

theorem line_startUpSample (levels : LineMap) (s : State) (l : Line) :
    (startUpSample levels s).line l = { s.line l with confirmed := levelAt levels l } := by
  simp only [startUpSample, State.line, State.setLines, Fin.getElem_fin, Vector.getElem_ofFn]

theorem filters_startUpSample (levels : LineMap) (s : State) (l : Line) :
    (startUpSample levels s).filters[l] = restingFilter := by
  simp only [startUpSample, Fin.getElem_fin, Vector.getElem_replicate]

theorem line_finishStartUp (levels : LineMap) (s : State) (l : Line) :
    (finishStartUp levels s).line l = { s.line l with confirmed := levelAt levels l } := by
  simp only [finishStartUp, State.line, startUpSample, State.setLines, Fin.getElem_fin, Vector.getElem_ofFn,
    padUpdate_lines, loadProfile]

theorem filters_finishStartUp (levels : LineMap) (s : State) (l : Line) :
    (finishStartUp levels s).filters[l] = restingFilter := by
  simp only [finishStartUp, startUpSample, Fin.getElem_fin, Vector.getElem_replicate]

theorem activeSlot_finishStartUp (levels : LineMap) (s : State) :
    (finishStartUp levels s).activeSlot = chooseSlot (slotStatusOf s.slotA) (slotStatusOf s.slotB) := by
  simp only [finishStartUp, startUpSample_activeSlot, padUpdate_activeSlot, loadProfile]

theorem active_finishStartUp (levels : LineMap) (s : State) :
    (finishStartUp levels s).active = (chooseSlot (slotStatusOf s.slotA) (slotStatusOf s.slotB)).map s.slot := by
  simp only [finishStartUp, startUpSample_active, padUpdate_active, loadProfile]

theorem device_finishStartUp (levels : LineMap) (s : State) :
    (finishStartUp levels s).device =
      startUpDevice s.maint (chooseSlot (slotStatusOf s.slotA) (slotStatusOf s.slotB)) := by
  simp only [finishStartUp, startUpSample_activeSlot, padUpdate_activeSlot, startUpSample_maint, padUpdate_maint,
    loadProfile]

theorem pad_finishStartUp (levels : LineMap) (s : State) (l : Line) :
    (finishStartUp levels s).pad l = (finishStartUp levels s).padFor l := by
  have a : (finishStartUp levels s).pad l =
      (padUpdate (fun _ => true)
        { loadProfile s with tickPeriod := startUpPeriod (loadProfile s).active }).pad l := by
    simp only [finishStartUp, State.pad, startUpSample_pads]
  have b : ((finishStartUp levels s).line l).owners = (s.line l).owners := by rw [line_finishStartUp]
  rw [a, pad_padUpdate, if_pos rfl]
  simp only [State.padFor, State.driveFor, State.effective, State.timer, finishStartUp_timers, active_finishStartUp, b]
  simp only [loadProfile, State.line]

/-! ### Time -/

theorem line_tickLines (s : State) (l : Line) :
    (tickLines s).line l = { s.line l with queue := (s.line l).queue.map tickWait } := by
  simp [tickLines]

theorem line_ownerTick (o : TickOwner) (s : State) (l : Line) :
    ((ownerTick o s).line l).owners = (s.line l).owners ∧ ((ownerTick o s).line l).confirmed = (s.line l).confirmed ∧
    (((ownerTick o s).line l).queue = (s.line l).queue ∨
      ((ownerTick o s).line l).queue = (s.line l).queue.map tickWait) := by
  unfold ownerTick
  split
  · exact ⟨rfl, rfl, .inl rfl⟩
  · cases o
    · simp only [line_tickSessions]; exact ⟨rfl, rfl, .inl rfl⟩
    · simp only [line_tickLines]; exact ⟨rfl, rfl, .inr rfl⟩
    · simp only [line_tickTimers]; exact ⟨rfl, rfl, .inl rfl⟩
    · exact ⟨rfl, rfl, .inl rfl⟩

theorem timer_tickTimers (s : State) (x : TimerId) : (tickTimers s).timer x = (s.timer x).map tickTimer := by
  simp [tickTimers]

theorem session_tickSessions (s : State) (p : Port) : (tickSessions s).session p = tickLease (s.session p) := by
  simp [tickSessions]

/-! ### Frames -/

theorem Frame.applyLineStep (l : Line) (x : LineStep) (now : Stamp) (handed : Bool) (s : State) :
    Frame { lines := only l, pads := only l, queues := fun _ => true } s (Machine.applyLineStep l x now handed s) :=
  ⟨⟨by simp +contextual [line_applyLineStep, only_false], by simp +contextual [pad_applyLineStep, only_false],
    by simp, by simp, by simp, by simp, by simp, by simp, by simp⟩,
    ⟨by simp, by simp, by simp, by simp, by simp, by simp, by simp, by simp, by simp, by simp⟩,
    ⟨by simp, by simp, by simp⟩, ⟨by simp, by simp, by simp, by simp, by simp⟩, by simp [SameFilters]⟩

theorem Frame.installOwners (l : Line) (o : Owners) (s : State) :
    Frame { lines := only l, pads := only l } s (Machine.installOwners l o s) :=
  ⟨⟨by simp +contextual [line_installOwners, only_false], by simp +contextual [pad_installOwners, only_false],
    by simp, by simp, by simp, by simp, by simp, by simp, by simp⟩,
    ⟨by simp, by simp, by simp, by simp, by simp, by simp, by simp, by simp, by simp, by simp⟩,
    ⟨by simp, by simp, by simp⟩, ⟨by simp, by simp, by simp, by simp, by simp⟩, by simp [SameFilters]⟩

theorem Frame.preempt (p : Port) (l : Line) (want : Want) (stay : Bool) (s : State) :
    Frame { lines := only l, pads := only l, timers := fun _ => true, queues := fun _ => true } s (Machine.preempt p l want stay s) :=
  ⟨⟨by simp +contextual [line_preempt, only_false], by simp +contextual [pad_preempt, only_false],
    by simp, by simp, by simp, by simp, by simp, by simp, by simp⟩,
    ⟨by simp, by simp, by simp, by simp, by simp, by simp, by simp, by simp, by simp, by simp⟩,
    ⟨by simp, by simp, by simp⟩, ⟨by simp, by simp, by simp, by simp, by simp⟩, by simp [SameFilters]⟩

theorem Frame.expireWait (l : Line) (p : Port) (s : State) :
    Frame { lines := only l, pads := only l, queues := fun _ => true } s (Machine.expireWait l p s) :=
  ⟨⟨by simp +contextual [line_expireWait, only_false], by simp +contextual [pad_expireWait, only_false],
    by simp, by simp, by simp, by simp, by simp, by simp, by simp⟩,
    ⟨by simp, by simp, by simp, by simp, by simp, by simp, by simp, by simp, by simp, by simp⟩,
    ⟨by simp, by simp, by simp⟩, ⟨by simp, by simp, by simp, by simp, by simp⟩, by simp [SameFilters]⟩

theorem Frame.expirePulse (x : TimerId) (r : PulseTimer) (s : State) :
    Frame { lines := only r.line, pads := only r.line, timers := only x, queues := fun _ => true } s (Machine.expirePulse x r s) :=
  ⟨⟨by simp +contextual [line_expirePulse, only_false], by simp +contextual [pad_expirePulse, only_false],
    by simp +contextual [timer_expirePulse, only_false], by simp, by simp, by simp, by simp, by simp, by simp⟩,
    ⟨by simp, by simp, by simp, by simp, by simp, by simp, by simp, by simp, by simp, by simp⟩,
    ⟨by simp, by simp, by simp⟩, ⟨by simp, by simp, by simp, by simp, by simp⟩, by simp [SameFilters]⟩

theorem Frame.startPulse (p : Port) (l : Line) (v : Bool) (n : Nat) (x : TimerId) (s : State) :
    Frame { lines := only l, pads := only l, timers := only x } s (Machine.startPulse p l v n x s) :=
  ⟨⟨by simp +contextual [line_startPulse, only_false], by simp +contextual [pad_startPulse, only_false],
    by simp +contextual [timer_startPulse, only_false], by simp, by simp, by simp, by simp, by simp, by simp⟩,
    ⟨by simp, by simp, by simp, by simp, by simp, by simp, by simp, by simp, by simp, by simp⟩,
    ⟨by simp, by simp, by simp⟩, ⟨by simp, by simp, by simp, by simp, by simp⟩, by simp [SameFilters]⟩

theorem stagedValueOf_none {l : Line} {set : List StagedValue} (h : stagedHas l set = false) : stagedValueOf l set = none := by
  simp only [stagedHas, List.any_eq_false, decide_eq_true_eq] at h
  simpa [stagedValueOf] using h

theorem Frame.applyStaged (p : Port) (s : State) :
    Frame { lines := fun l => stagedHas l (s.stagedSet p), pads := fun l => stagedHas l (s.stagedSet p), staged := only p }
      s (Machine.applyStaged p s) :=
  ⟨⟨fun l h => by rw [line_applyStaged, stagedValueOf_none h]; rfl, by simp +contextual [pad_applyStaged],
    by simp, by simp +contextual [stagedSet_applyStaged, only_false], by simp, by simp, by simp, by simp, by simp⟩,
    ⟨by simp, by simp, by simp, by simp, by simp, by simp, by simp, by simp, by simp, by simp⟩,
    ⟨by simp, by simp, by simp⟩, ⟨by simp, by simp, by simp, by simp, by simp⟩, by simp [SameFilters]⟩

/-! ### Teardown -/

theorem line_teardown (p : Port) (s : State) (l : Line) :
    (teardown p s).line l = (tearDownEntry p (s.stampAt .sessionTable) (s.line l)).entry := by
  simp [teardown, tearDownLines]

theorem timer_teardown (p : Port) (s : State) (x : TimerId) :
    (teardown p s).timer x = if timerOf p s x then none else s.timer x := by
  simp only [teardown, timer_offerNotices, timer_padUpdate, timer_putQueue, timer_setWatch, timer_setStaged,
    timer_freeTimers, timer_tearDownLines]

theorem pad_teardown (p : Port) (s : State) (l : Line) :
    (teardown p s).pad l =
      if tearDownTouches p (s.stampAt .sessionTable) (s.line l) then (teardown p s).padFor l else s.pad l := by
  simp only [teardown, pad_offerNotices, padFor_offerNotices, padFor_padUpdate, pad_padUpdate, pad_putQueue, pad_setWatch,
    pad_setStaged, pad_freeTimers, pad_tearDownLines]

theorem stagedSet_teardown (p : Port) (s : State) (q : Port) :
    (teardown p s).stagedSet q = if q = p then [] else s.stagedSet q := by
  simp [teardown, stagedSet_setStaged]

theorem watch_teardown (p : Port) (s : State) (q : Port) :
    (teardown p s).watch q = if q = p then noWatches else s.watch q := by
  simp [teardown, watch_setWatch]

/-- No session is granted a line by its own teardown. -/
theorem granted_tearDownEntry (p : Port) (now : Stamp) (e : LineEntry) : p ∉ (tearDownEntry p now e).granted := by
  obtain ⟨granted, hq, hg, _⟩ := (handed_tearDownEntry p now e).split
  rw [hg]
  intro m
  obtain ⟨w, hw, hp⟩ := List.mem_map.1 m
  have : w ∈ e.queue.filter fun w => w.session ≠ p := by
    rw [← hq]
    exact List.mem_append_left _ hw
  simp only [List.mem_filter, decide_eq_true_eq] at this
  exact this.2 hp

theorem tearDownNotices_session (p : Port) (now : Stamp) (s : State) (n : Notice) (h : n ∈ tearDownNotices p now s) :
    n.session ≠ p ∧ n.outcome = .granted := by
  obtain ⟨l, _, hl⟩ := List.mem_flatMap.1 h
  obtain ⟨q, hq, rfl⟩ := List.mem_map.1 hl
  exact ⟨fun e => granted_tearDownEntry p now (s.line l) (e ▸ hq), rfl⟩

theorem queue_teardown_self (p : Port) (s : State) : (teardown p s).queue p = emptyQueue := by
  have none : (tearDownNotices p (s.stampAt .sessionTable) s).filter (fun n => n.session = p) = [] :=
    List.filter_eq_nil_iff.2 fun n hn => by simpa using (tearDownNotices_session _ _ _ n hn).1
  simp [teardown, queue_offerNotices, none]

theorem queue_teardown_other (p : Port) (s : State) (q : Port) (h : q ≠ p) :
    (teardown p s).queue q =
      if isAttached (s.session q).state then
        ((tearDownNotices p (s.stampAt .sessionTable) s).filter fun n => n.session = q).foldl
          (fun u n => takeNotice n.line .granted (s.stampAt .sessionTable) u) (s.queue q)
      else s.queue q := by
  have same : ∀ (ns : List Notice) (u : EventQueue), (∀ n ∈ ns, n.outcome = .granted) →
      ns.foldl (fun u n => takeNotice n.line n.outcome (s.stampAt .sessionTable) u) u =
        ns.foldl (fun u n => takeNotice n.line .granted (s.stampAt .sessionTable) u) u := by
    intro ns
    induction ns with
    | nil => exact fun _ _ => rfl
    | cons n ns ih =>
      intro u hn
      rw [List.foldl_cons, List.foldl_cons, hn n (List.mem_cons_self ..)]
      exact ih _ fun m hm => hn m (List.mem_cons_of_mem _ hm)
  rw [← same _ _ fun n hn => (tearDownNotices_session _ _ _ n (List.mem_of_mem_filter hn)).2]
  simp [teardown, queue_offerNotices, queue_putQueue, h]

/-- The roles of the others stay as they are when a session is torn down; its own go. -/
theorem roles_teardown (p : Port) (s : State) (l : Line) :
    roleSessions ((teardown p s).line l) = (roleSessions (s.line l)).filter fun q => q ≠ p := by
  rw [line_teardown, roleSessions_tearDownEntry]

theorem hasRole_teardown (p : Port) (s : State) (l : Line) : (teardown p s).hasRole p l = false := by
  rw [hasRole_false, roles_teardown]
  simp

/-- A session has an owner record on a line exactly when it is holder or sharer there. -/
theorem ownerOf_isSome_iff (p : Port) (e : LineEntry) : (ownerOf p e).isSome = true ↔ Owns p e := by
  unfold ownerOf Owns
  rw [List.find?_isSome]
  cases h : e.owners <;> simp [ownerViews, holderView, sharerView, decide_eq_true_iff]

theorem tearDownEntry_of_noRole {p : Port} {s : State} {l : Line} (h : s.hasRole p l = false) (now : Stamp) :
    tearDownEntry p now (s.line l) = ⟨s.line l, []⟩ := by
  simp only [State.hasRole, State.holds, State.waits, Bool.or_eq_false_iff] at h
  simp [tearDownEntry, h.1, h.2]

theorem claimCount_of_noRole {p : Port} {s : State} (h : ∀ l, s.hasRole p l = false) : s.claimCount p = 0 := by
  simp only [State.hasRole, Bool.or_eq_false_iff] at h
  have a : s.holds p = fun _ => false := funext fun l => (h l).1
  have b : s.waits p = fun _ => false := funext fun l => (h l).2
  simp [State.claimCount, a, b]

/-- The teardown of a session, said once (R46, R137). -/
theorem tornDown_teardown (p : Port) (s : State) : TornDown p (s.stampAt .sessionTable) s (teardown p s) where
  noRole := hasRole_teardown p s
  noClaims := claimCount_of_noRole (hasRole_teardown p s)
  noTimer x := by
    have h := timer_teardown p s x
    simp only [timerOf] at h ⊢
    cases ht : s.timer x with
    | none => simp [ht] at h; simp [h]
    | some r =>
      by_cases hr : r.session = p
      · simp [ht, hr] at h; simp [h]
      · simp [ht, hr] at h; simp [h, hr]
  otherTimers x hx := by rw [timer_teardown, hx]; rfl
  lines := line_teardown p s
  untouched l hl := by
    have e := tearDownEntry_of_noRole hl (s.stampAt .sessionTable)
    have o : (ownerOf p (s.line l)).isSome = false := by
      simp only [State.hasRole, State.holds, Bool.or_eq_false_iff] at hl
      exact hl.1
    rw [line_teardown, pad_teardown, tearDownTouches, e, o]
    exact ⟨rfl, rfl⟩
  pads := pad_teardown p s
  noStaged := by rw [stagedSet_teardown, if_pos rfl]
  otherStaged q hq := by rw [stagedSet_teardown, if_neg hq]
  noWatch := by rw [watch_teardown, if_pos rfl]
  otherWatches q hq := by rw [watch_teardown, if_neg hq]
  noRecords := queue_teardown_self p s
  granted q hq := queue_teardown_other p s q hq
  otherSessions q _ := session_teardown p s q
  otherPorts q _ := port_teardown p s q
  store := ⟨by simp, by simp, by simp, by simp, by simp, by simp, by simp, by simp, by simp, by simp⟩
  time := ⟨by simp, by simp, by simp⟩
  device := ⟨by simp, by simp, by simp, by simp, by simp⟩
  filters := by simp [SameFilters]

end Sys2Proof.Machine
end

