-- ==== Sys2Proof/Laws/Expiry.lean ====
section
/-! SUPPORT. The expiries: what each makes, what it leaves, and that `finishTicks` leaves none outstanding (R147). -/

namespace Sys2Proof.Machine

/-! ### Nothing new falls due -/

/-- Every countdown of `t` was one of `s`. -/
structure Subsides (s t : State) : Prop where
  leases : ∀ p a, AttachedAs p a t → AttachedAs p a s
  waits : ∀ l w, w ∈ (t.line l).queue → w ∈ (s.line l).queue
  pulses : ∀ x r, t.timer x = some r → s.timer x = some r

theorem Subsides.refl (s : State) : Subsides s s := ⟨fun _ _ h => h, fun _ _ h => h, fun _ _ h => h⟩

theorem Subsides.trans {s t u : State} (h : Subsides s t) (k : Subsides t u) : Subsides s u :=
  ⟨fun p a m => h.leases p a (k.leases p a m), fun l w m => h.waits l w (k.waits l w m),
    fun x r m => h.pulses x r (k.pulses x r m)⟩

theorem Settled.of_subsides {s t : State} (h : Subsides s t) (k : Settled s) : Settled t :=
  ⟨fun p a m => k.leases p a (h.leases p a m), fun l w c m => k.waits l w c (h.waits l w m),
    fun x r m => k.pulses x r (h.pulses x r m)⟩

/-- The entries that wait after a line passed on waited before. -/
theorem Handed.queue_mem {now : Stamp} {kept : List OwnerView} {waiting : List WaitEntry} {confirmed : Bool}
    {step : LineStep} (h : Handed now kept waiting confirmed step) {w : WaitEntry} (m : w ∈ step.entry.queue) :
    w ∈ waiting := by
  obtain ⟨granted, e, _⟩ := h.split
  rw [← e]
  exact List.mem_append_right _ m

theorem subsides_lapse (p : Port) (s : State) : Subsides s (lapse p s) where
  leases q a h := by
    by_cases e : q = p
    · subst e
      simp [AttachedAs, lapse, endSession] at h
    · simpa [AttachedAs, lapse, endSession, session_setSession, e] using h
  waits l w h := by
    simp only [lapse, endSession, line_setSession, line_teardown] at h
    exact List.mem_of_mem_filter ((handed_tearDownEntry p _ (s.line l)).queue_mem h)
  pulses x r h := by
    simp only [lapse, endSession, timer_setSession, timer_teardown] at h
    split at h
    · cases h
    · exact h

theorem subsides_expireWait (l : Line) (p : Port) (s : State) : Subsides s (expireWait l p s) where
  leases q a h := by simpa [AttachedAs] using h
  waits k w h := by
    rw [line_expireWait] at h
    split at h
    · rename_i e
      subst e
      exact List.mem_of_mem_filter ((handed_withdrawEntry p _ (s.line k)).queue_mem h)
    · exact h
  pulses x r h := by simpa using h

theorem subsides_expirePulse (x : TimerId) (r : PulseTimer) (s : State) : Subsides s (expirePulse x r s) where
  leases q a h := by simpa [AttachedAs] using h
  waits l w h := by
    rw [line_expirePulse] at h
    split at h
    · rename_i e
      subst e
      rwa [setPulse_queue] at h
    · exact h
  pulses y q h := by
    rw [timer_expirePulse] at h
    split at h
    · cases h
    · exact h

/-! ### One expiry -/

theorem leaseDue_iff (p : Port) (s : State) : leaseDue p s = true ↔ ∃ a, AttachedAs p a s ∧ a.lease.due = true := by
  unfold leaseDue State.attachedPart AttachedAs
  cases (s.session p).state <;> simp [expired]

theorem waitDue_iff (l : Line) (p : Port) (s : State) :
    waitDue l p s = true ↔ ∃ w c, w ∈ (s.line l).queue ∧ w.session = p ∧ w.countdown = some c ∧ c.due = true := by
  simp only [waitDue, List.any_eq_true, Bool.and_eq_true, decide_eq_true_eq]
  constructor
  · rintro ⟨w, m, e, h⟩
    cases hc : w.countdown with
    | none => simp [hc, expired] at h
    | some c => exact ⟨w, c, m, e, hc, by simpa [hc, expired] using h⟩
  · rintro ⟨w, c, m, e, hc, h⟩
    exact ⟨w, m, e, by simpa [hc, expired] using h⟩

/-- A wait that has run out belongs to a session that waits. -/
theorem waiterOf_of_waitDue {l : Line} {p : Port} {s : State} (h : waitDue l p s = true) :
    ∃ w, waiterOf p (s.line l) = some w := by
  obtain ⟨w, _, m, e, _⟩ := (waitDue_iff l p s).1 h
  cases f : waiterOf p (s.line l) with
  | some w => exact ⟨w, rfl⟩
  | none =>
    simp only [waiterOf, List.find?_eq_none, decide_eq_true_eq] at f
    exact absurd e (f w m)

theorem leaseExpires_of_settled {s : State} (h : Settled s) (p : Port) : leaseExpires p s = s := by
  rw [leaseExpires, if_neg]
  intro d
  obtain ⟨a, m, d⟩ := (leaseDue_iff p s).1 d
  rw [h.leases p a m] at d
  cases d

theorem waitExpires_of_settled {s : State} (h : Settled s) (l : Line) (p : Port) : waitExpires l p s = s := by
  rw [waitExpires, if_neg]
  intro d
  obtain ⟨w, c, m, _, e, d⟩ := (waitDue_iff l p s).1 d
  rw [h.waits l w c m e] at d
  cases d

theorem pulseExpires_of_settled {s : State} (h : Settled s) (x : TimerId) : pulseExpires x s = s := by
  unfold pulseExpires
  split
  · rename_i r e
    simp [h.pulses x r e]
  · rfl

theorem subsides_leaseExpires (s : State) (p : Port) : Subsides s (leaseExpires p s) := by
  unfold leaseExpires
  split
  · exact subsides_lapse p s
  · exact .refl s

theorem subsides_waitExpires (l : Line) (s : State) (p : Port) : Subsides s (waitExpires l p s) := by
  unfold waitExpires
  split
  · exact subsides_expireWait l p s
  · exact .refl s

theorem subsides_pulseExpires (s : State) (x : TimerId) : Subsides s (pulseExpires x s) := by
  unfold pulseExpires
  split
  · split
    · exact subsides_expirePulse x _ s
    · exact .refl s
  · exact .refl s

theorem leaseDue_leaseExpires (s : State) (p : Port) : leaseDue p (leaseExpires p s) = false := by
  unfold leaseExpires
  split
  · simp [leaseDue, State.attachedPart, lapse, endSession, expired]
  · rename_i h
    simpa using h

theorem waitDue_waitExpires (l : Line) (s : State) (p : Port) : waitDue l p (waitExpires l p s) = false := by
  rw [Bool.eq_false_iff]
  unfold waitExpires
  split
  · intro d
    obtain ⟨w, _, m, e, _⟩ := (waitDue_iff l p _).1 d
    rw [line_expireWait, if_pos rfl] at m
    have m := (handed_withdrawEntry p _ (s.line l)).queue_mem m
    simp only [List.mem_filter, decide_eq_true_eq] at m
    exact m.2 e
  · assumption

theorem pulseDue_pulseExpires (s : State) (x : TimerId) {r : PulseTimer} (h : (pulseExpires x s).timer x = some r) :
    r.countdown.due = false := by
  unfold pulseExpires at h
  split at h
  · rename_i q e
    split at h
    · rw [timer_expirePulse, if_pos rfl] at h
      cases h
    · rename_i n
      rw [e] at h
      cases h
      simpa using n
  · rename_i e
    rw [e] at h
    cases h

/-! ### All of them -/

/-- A pass over a list whose every step settles one element and makes nothing due settles all of them. -/
theorem pass_settles {α : Type} {f : State → α → State} {due : α → State → Prop} (sub : ∀ s a, Subsides s (f s a))
    (mono : ∀ a s t, Subsides s t → due a t → due a s) (settles : ∀ s a, ¬ due a (f s a)) (xs : List α) :
    ∀ s, Subsides s (xs.foldl f s) ∧ ∀ a ∈ xs, ¬ due a (xs.foldl f s) := by
  induction xs with
  | nil => exact fun s => ⟨.refl s, fun a h => by cases h⟩
  | cons x xs ih =>
    intro s
    obtain ⟨a, b⟩ := ih (f s x)
    refine ⟨(sub s x).trans a, fun y hy => ?_⟩
    rcases List.mem_cons.1 hy with rfl | hy
    · exact fun d => settles s y (mono y _ _ a d)
    · exact b y hy

theorem finishSessions (s : State) :
    Subsides s (finishOwner .sessionTable s) ∧ ∀ p, leaseDue p (finishOwner .sessionTable s) = false := by
  have h := pass_settles (f := fun s p => leaseExpires p s) (due := fun p s => leaseDue p s = true)
    subsides_leaseExpires (fun p s t k d => by
      obtain ⟨a, m, d⟩ := (leaseDue_iff p t).1 d
      exact (leaseDue_iff p s).2 ⟨a, k.leases p a m, d⟩)
    (fun s p => by simp [leaseDue_leaseExpires]) allPorts s
  exact ⟨h.1, fun p => Bool.eq_false_iff.2 (h.2 p (mem_allPorts p))⟩

theorem waitDue_mono {l : Line} {p : Port} {s t : State} (k : Subsides s t) (d : waitDue l p t = true) :
    waitDue l p s = true := by
  obtain ⟨w, c, m, d⟩ := (waitDue_iff l p t).1 d
  exact (waitDue_iff l p s).2 ⟨w, c, k.waits l w m, d⟩

theorem finishLines (s : State) :
    Subsides s (finishOwner .lineTable s) ∧ ∀ l p, waitDue l p (finishOwner .lineTable s) = false := by
  have row := fun l => pass_settles (f := fun s p => waitExpires l p s) (due := fun p s => waitDue l p s = true)
    (fun s p => subsides_waitExpires l s p) (fun p s t k d => waitDue_mono k d)
    (fun s p => by simp [waitDue_waitExpires]) allPorts
  have h := pass_settles (f := fun s l => allPorts.foldl (fun s p => waitExpires l p s) s)
    (due := fun l s => ∃ p, waitDue l p s = true) (fun s l => (row l s).1)
    (fun l s t k d => d.imp fun p d => waitDue_mono k d)
    (fun s l d => d.elim fun p d => (row l s).2 p (mem_allPorts p) d) allLines s
  exact ⟨h.1, fun l p => Bool.eq_false_iff.2 fun d => h.2 l (mem_allLines l) ⟨p, d⟩⟩

theorem finishTimers (s : State) :
    Subsides s (finishOwner .pulsePool s) ∧
    ∀ x r, (finishOwner .pulsePool s).timer x = some r → r.countdown.due = false := by
  have h := pass_settles (f := fun s x => pulseExpires x s)
    (due := fun x s => ∃ r, s.timer x = some r ∧ r.countdown.due = true) subsides_pulseExpires
    (fun x s t k d => d.imp fun r d => ⟨k.pulses x r d.1, d.2⟩)
    (fun s x d => d.elim fun r d => by rw [pulseDue_pulseExpires s x d.1] at d; cases d.2) allTimers s
  exact ⟨h.1, fun x r e => Bool.eq_false_iff.2 fun d => h.2 x (mem_allTimers x) ⟨r, e, d⟩⟩

/-- `finishTicks` leaves no expiry outstanding (R147). -/
theorem settled_finishTicks (s : State) : Settled (finishTicks s) := by
  obtain ⟨_, a⟩ := finishSessions s
  obtain ⟨k, b⟩ := finishLines (finishOwner .sessionTable s)
  obtain ⟨m, c⟩ := finishTimers (finishOwner .lineTable (finishOwner .sessionTable s))
  refine ⟨fun p x h => ?_, fun l w y h e => ?_, c⟩
  · have d := a p
    rw [← Bool.not_eq_true, leaseDue_iff] at d
    exact Bool.eq_false_iff.2 fun e => d ⟨x, (k.trans m).leases p x h, e⟩
  · have d := b l w.session
    rw [← Bool.not_eq_true, waitDue_iff] at d
    exact Bool.eq_false_iff.2 fun f => d ⟨w, y, m.waits l w h, rfl, e, f⟩

theorem pass_fixed {α : Type} {f : State → α → State} {s : State} (h : ∀ a, f s a = s) (xs : List α) :
    xs.foldl f s = s := by
  induction xs with
  | nil => rfl
  | cons x xs ih => rw [List.foldl_cons, h, ih]

/-- Where nothing is outstanding there is nothing to finish. -/
theorem finishTicks_of_settled {s : State} (h : Settled s) : finishTicks s = s := by
  have a : finishOwner .sessionTable s = s := pass_fixed (leaseExpires_of_settled h) _
  have b : finishOwner .lineTable s = s := pass_fixed (fun l => pass_fixed (waitExpires_of_settled h l) _) _
  have c : finishOwner .pulsePool s = s := pass_fixed (pulseExpires_of_settled h) _
  rw [finishTicks, a, b, c]

/-! ### What expiries leave alone -/

/-- The blocks an expiry may reach: all but the Port Interfaces. -/
def expiryReach : Reach where
  lines := fun _ => true
  pads := fun _ => true
  timers := fun _ => true
  staged := fun _ => true
  watches := fun _ => true
  queues := fun _ => true
  sessions := fun _ => true

theorem Frame.leaseExpires (p : Port) (s : State) : Frame expiryReach s (Machine.leaseExpires p s) := by
  unfold Machine.leaseExpires
  split
  · have h := tornDown_teardown p s
    refine ⟨⟨nofun, nofun, nofun, nofun, nofun, nofun, nofun, fun q _ => ?_, fun _ => nofun⟩, ?_, ?_, ?_, ?_⟩
    · simp [lapse, endSession]
    · exact ⟨h.store.slotA, h.store.slotB, h.store.recordA, h.store.recordB, h.store.activeSlot, h.store.active,
        h.store.buffer, h.store.lock, h.store.burn, h.store.lastBurn⟩
    · exact ⟨h.time.tickCount, h.time.tickPeriod, h.time.lag⟩
    · exact ⟨h.device.pending, h.device.resetting, h.device.device, h.device.maint, h.device.freeCount⟩
    · exact h.filters
  · exact .refl _ _

theorem Frame.waitExpires (l : Line) (p : Port) (s : State) : Frame expiryReach s (Machine.waitExpires l p s) := by
  unfold Machine.waitExpires
  split
  · exact (Frame.expireWait l p s).mono ⟨nofun, nofun, nofun, nofun, nofun, nofun, nofun, fun _ _ => rfl⟩
  · exact .refl _ _

theorem Frame.pulseExpires (x : TimerId) (s : State) : Frame expiryReach s (Machine.pulseExpires x s) := by
  unfold Machine.pulseExpires
  split
  · split
    · exact (Frame.expirePulse x _ s).mono ⟨nofun, nofun, nofun, nofun, nofun, nofun, nofun, fun _ _ => rfl⟩
    · exact .refl _ _
  · exact .refl _ _

theorem pass_frame {α : Type} {r : Reach} {f : State → α → State} (h : ∀ s a, Frame r s (f s a)) (xs : List α) :
    ∀ s, Frame r s (xs.foldl f s) := by
  induction xs with
  | nil => exact .refl r
  | cons x xs ih => exact fun s => (h s x).trans (ih _)

theorem Frame.finishOwner (o : TickOwner) (s : State) : Frame expiryReach s (Machine.finishOwner o s) := by
  cases o
  · exact pass_frame (fun s p => Frame.leaseExpires p s) _ s
  · exact pass_frame (fun s l => pass_frame (fun s p => Frame.waitExpires l p s) _ s) _ s
  · exact pass_frame (fun s x => Frame.pulseExpires x s) _ s
  · exact .refl _ _

/-- Finishing the tick events leaves the Port Interfaces, the Profile Store, the Timebase and the filters alone. -/
theorem Frame.finishTicks (s : State) : Frame expiryReach s (Machine.finishTicks s) :=
  ((Frame.finishOwner .sessionTable s).trans (Frame.finishOwner .lineTable _)).trans (Frame.finishOwner .pulsePool _)

/-! ### The end of a tick -/

theorem lag_ownerTick (o : TickOwner) (s : State) :
    lagOf (ownerTick o s).lag o = (if o = .inputMonitor then lagOf s.lag o else lagOf s.lag o - 1) ∧
    ∀ q, q ≠ o → lagOf (ownerTick o s).lag q = lagOf s.lag q := by
  unfold ownerTick
  split
  · rename_i z
    refine ⟨?_, fun _ _ => rfl⟩
    split <;> omega
  · cases o <;> refine ⟨by simp [lagOf], fun q hq => ?_⟩ <;> cases q <;> first | exact absurd rfl hq | simp [lagOf]

theorem lag_takeTicks (o : TickOwner) (ho : o ≠ .inputMonitor) (s : State) :
    lagOf (takeTicks o s).lag o = 0 ∧ ∀ q, q ≠ o → lagOf (takeTicks o s).lag q = lagOf s.lag q := by
  have all : ∀ n s, lagOf ((ownerTick o)^[n] s).lag o = lagOf s.lag o - n ∧
      ∀ q, q ≠ o → lagOf ((ownerTick o)^[n] s).lag q = lagOf s.lag q := by
    intro n
    induction n with
    | zero => exact fun s => ⟨rfl, fun _ _ => rfl⟩
    | succ n ih =>
      intro s
      obtain ⟨a, b⟩ := ih (ownerTick o s)
      obtain ⟨c, d⟩ := lag_ownerTick o s
      rw [if_neg ho] at c
      exact ⟨by rw [Function.iterate_succ_apply, a, c]; omega, fun q hq => by
        rw [Function.iterate_succ_apply, b q hq, d q hq]⟩
  obtain ⟨a, b⟩ := all (lagOf s.lag o) s
  exact ⟨a.trans (Nat.sub_self _), b⟩

/-- At the end of a tick no owner of countdowns has a tick to take (R146). -/
theorem lag_endTick (s : State) : (endTick s).lag = ⟨0, 0, 0, (endTick s).lag.inputMonitor⟩ := by
  have a := lag_takeTicks .sessionTable nofun s
  have b := lag_takeTicks .lineTable nofun (takeTicks .sessionTable s)
  have c := lag_takeTicks .pulsePool nofun (takeTicks .lineTable (takeTicks .sessionTable s))
  have x := (c.2 .sessionTable nofun).trans ((b.2 .sessionTable nofun).trans a.1)
  have y := (c.2 .lineTable nofun).trans b.1
  have z := c.1
  rw [endTick, (Frame.finishTicks _).time.lag]
  generalize takeTicks .pulsePool (takeTicks .lineTable (takeTicks .sessionTable s)) = u at x y z
  cases e : u.lag
  simp only [e, lagOf] at x y z
  subst x y z
  rfl

theorem takeTicks_resetting (o : TickOwner) (s : State) : (takeTicks o s).resetting = s.resetting := by
  have all : ∀ n s, ((ownerTick o)^[n] s).resetting = s.resetting := by
    intro n
    induction n with
    | zero => exact fun s => rfl
    | succ n ih => exact fun s => by rw [Function.iterate_succ_apply, ih, ownerTick_resetting]
  exact all _ s

theorem endTick_resetting (s : State) : (endTick s).resetting = s.resetting := by
  rw [endTick, (Frame.finishTicks _).device.resetting, takeTicks_resetting, takeTicks_resetting, takeTicks_resetting]

theorem takeTicks_of_taken {o : TickOwner} {s : State} (h : lagOf s.lag o = 0) : takeTicks o s = s := by
  rw [takeTicks, h]
  rfl

/-- Where the owners have taken their ticks and nothing is outstanding, the tick is at its end. -/
theorem endTick_of_settled {s : State} (h : Settled s) (a : s.lag.sessionTable = 0) (b : s.lag.lineTable = 0)
    (c : s.lag.pulsePool = 0) : endTick s = s := by
  rw [endTick, takeTicks_of_taken (o := .sessionTable) a, takeTicks_of_taken (o := .lineTable) b,
    takeTicks_of_taken (o := .pulsePool) c, finishTicks_of_settled h]

end Sys2Proof.Machine
end

