-- ==== Sys2Proof/Laws/Link.lean ====
section
/-! SUPPORT. Transactions and the taking of requests: what a transaction command comes to once its falling edge is known,
and what a taken request leaves of its port and its session. -/

namespace Sys2Proof.Machine

/-- The port after the rest of a transaction that took nothing: closed, with these bits shifted out. -/
def arrived (p : Port) (bits : List Bool) (s : State) : State :=
  s.putPort p { s.port p with transaction := none, sdo := bits }

/-- The part at the moment the service of a taken request begins: the lease restarted (R132, R174). -/
def begun (p : Port) (bits : List Bool) (s : State) : State := restartLease p (arrived p bits s)

/-! ### The pin Pk_SDO and the flags of PORT RESET -/

/-- Pk_SDO is driven exactly while a recognised transaction is open (R170). -/
theorem sdoPin_driven_iff (x : PortInterface) : sdoPin x = .driven ↔ ∃ o, x.transaction = some o := by
  unfold sdoPin
  split <;> simp [*]

@[simp] theorem sdoPin_of_closed {x : PortInterface} (h : x.transaction = none) : sdoPin x = .highImpedance := by
  simp [sdoPin, h]

/-- After a device reset Pk_SDO is high-impedance (R172). -/
@[simp] theorem sdoPin_resetPort : sdoPin resetPort = .highImpedance := rfl

/-- The discarded flag by the port state and the earlier overtaken requests (R181). -/
theorem discards_iff (x : PortInterface) : discards x = true ↔ x.state ≠ .idle ∨ x.overtaken ≠ [] := by
  cases h : x.state <;> simp [discards, overtake, slotFull, h]

/-! ### Transactions -/

/-- A transaction with a recognised falling edge comes to its rest, with the transaction closed. -/
theorem transaction_opened {p : Port} {s : State} {span : Span} {o : OpenTransaction} (h : Opened p s span o)
    (act : OpenTransaction → State → State) :
    transaction p span act s = act o (s.putPort p { s.port p with transaction := none }) := by
  cases h with
  | whole running closed settled =>
    simp [transaction, finishTicks_of_settled settled, chipSelectFalls, running, closed, finishTransaction,
      putPort_putPort]
  | rest o opened settled => simp [transaction, finishTicks_of_settled settled, finishTransaction, opened]

/-- The falling edge alone (R171), in the part as its tick events leave it. -/
theorem transaction_fall (p : Port) (act : OpenTransaction → State → State) (s : State) :
    transaction p .fall act s = chipSelectFalls p (finishTicks s) := rfl

/-- During a device reset, and while chip select is already low, no falling edge is recognised (R170). -/
theorem chipSelectFalls_ignored {p : Port} {s : State} (h : s.resetting ≠ none ∨ (s.port p).transaction ≠ none) :
    chipSelectFalls p s = s := by
  simp only [Option.ne_none_iff_isSome] at h
  simp only [chipSelectFalls, Bool.or_eq_true, h, if_true]

/-- The rest of a transaction without a recognised falling edge is ignored (R170). -/
theorem finishTransaction_closed {p : Port} {s : State} (h : (s.port p).transaction = none)
    (act : OpenTransaction → State → State) : finishTransaction p act s = s := by
  simp [finishTransaction, h]

/-- The falling edge leaves the countdowns as they are. -/
theorem subsides_chipSelectFalls (p : Port) (s : State) : Subsides s (chipSelectFalls p s) := by
  unfold chipSelectFalls
  split
  · exact .refl s
  · exact ⟨fun q a h => by simpa [AttachedAs] using h, fun l w h => by simpa using h, fun x r h => by simpa using h⟩

/-- A whole transaction is its falling edge and its rest. -/
theorem transaction_whole (p : Port) (act : OpenTransaction → State → State) (s : State) :
    transaction p .whole act s = transaction p .rest act (transaction p .fall act s) := by
  have settled := (settled_finishTicks s).of_subsides (subsides_chipSelectFalls p _)
  rw [transaction_fall]
  simp only [transaction, finishTicks_of_settled settled]

/-- A transaction command finds every tick event at its end. -/
theorem transaction_finishTicks (p : Port) (span : Span) (act : OpenTransaction → State → State) (s : State) :
    transaction p span act (finishTicks s) = transaction p span act s := by
  simp only [transaction, finishTicks_of_settled (settled_finishTicks s)]

theorem driveSdo_closed (p : Port) (clocks : Nat) (bytes : List Byte) (s : State) :
    driveSdo p clocks bytes (s.putPort p { s.port p with transaction := none }) =
      arrived p (shiftedOut clocks bytes) s := by
  simp [driveSdo, arrived, putPort_putPort]

/-- A request frame that fits, in a transaction that is not a STARTING one, arrives. -/
theorem framePart_opened {p : Port} {s : State} {span : Span} {o : OpenTransaction} (h : Opened p s span o)
    (started : o.starting = false) (arrives : Port → RequestFrame → State → State) (frame : RequestFrame)
    (fits : frame.payload.length ≤ Config.maxPayload) :
    transaction p span (framePart arrives p frame) s =
      arrives p frame (arrived p (shiftedOut (clocksOf (encodeFrame frame)) [o.status]) s) := by
  rw [transaction_opened h]
  simp [framePart, requestFrame, started, Nat.not_lt.2 fits, driveSdo_closed]

/-- A request frame in a STARTING transaction is discarded without a flag (R185). -/
theorem framePart_starting {p : Port} {s : State} {span : Span} {o : OpenTransaction} (h : Opened p s span o)
    (starting : o.starting = true) (arrives : Port → RequestFrame → State → State) (frame : RequestFrame) :
    transaction p span (framePart arrives p frame) s =
      arrived p (shiftedOut (clocksOf (encodeFrame frame)) [o.status]) s := by
  rw [transaction_opened h]
  simp [framePart, requestFrame, starting, driveSdo_closed]

/-! ### The part as an arriving frame finds it -/

@[simp] theorem port_arrived (p : Port) (bits : List Bool) (s : State) :
    (arrived p bits s).port p = { s.port p with transaction := none, sdo := bits } := by simp [arrived]

theorem port_arrived_other (p k : Port) (bits : List Bool) (s : State) (h : k ≠ p) :
    (arrived p bits s).port k = s.port k := by simp [arrived, port_putPort, h]

theorem Frame.arrived (p : Port) (bits : List Bool) (s : State) : Frame { ports := only p } s (arrived p bits s) :=
  Frame.putPort _ _ _

theorem attn_arrived (p : Port) (bits : List Bool) (s : State) :
    (Machine.arrived p bits s).attn[p] = attnLow (s.queue p) (s.port p) := by
  rw [attn_val, Machine.arrived, attn_putPort, if_pos rfl]
  rfl

theorem attn_arrived_agrees (p : Port) (bits : List Bool) (s : State) (h : AttnAgrees s) :
    (Machine.arrived p bits s).attn[p] = s.attn[p] := (attn_arrived p bits s).trans (h p).symm

theorem Frame.begun (p : Port) (bits : List Bool) (s : State) :
    Frame { sessions := only p, ports := only p } s (begun p bits s) :=
  (Frame.arrived p bits s).widen.trans (Frame.restartLease p _).widen

@[simp] theorem begun_pending (p : Port) (bits : List Bool) (s : State) : (begun p bits s).pending = s.pending := by
  simp [begun, Machine.arrived]

@[simp] theorem begun_resetting (p : Port) (bits : List Bool) (s : State) : (begun p bits s).resetting = s.resetting := by
  simp [begun, Machine.arrived]

@[simp] theorem begun_device (p : Port) (bits : List Bool) (s : State) : (begun p bits s).device = s.device := by
  simp [begun, Machine.arrived]

@[simp] theorem begun_maint (p : Port) (bits : List Bool) (s : State) : (begun p bits s).maint = s.maint := by
  simp [begun, Machine.arrived]

@[simp] theorem begun_tickCount (p : Port) (bits : List Bool) (s : State) : (begun p bits s).tickCount = s.tickCount := by
  simp [begun, Machine.arrived]

@[simp] theorem begun_tickPeriod (p : Port) (bits : List Bool) (s : State) : (begun p bits s).tickPeriod = s.tickPeriod := by
  simp [begun, Machine.arrived]

@[simp] theorem begun_lag (p : Port) (bits : List Bool) (s : State) : (begun p bits s).lag = s.lag := by
  simp [begun, Machine.arrived]

@[simp] theorem begun_lines (p : Port) (bits : List Bool) (s : State) : (begun p bits s).lines = s.lines := by
  simp [begun, Machine.arrived]

@[simp] theorem begun_pads (p : Port) (bits : List Bool) (s : State) : (begun p bits s).pads = s.pads := by
  simp [begun, Machine.arrived]

@[simp] theorem begun_timers (p : Port) (bits : List Bool) (s : State) : (begun p bits s).timers = s.timers := by
  simp [begun, Machine.arrived]

@[simp] theorem begun_staged (p : Port) (bits : List Bool) (s : State) : (begun p bits s).staged = s.staged := by
  simp [begun, Machine.arrived]

@[simp] theorem begun_filters (p : Port) (bits : List Bool) (s : State) : (begun p bits s).filters = s.filters := by
  simp [begun, Machine.arrived]

@[simp] theorem begun_watches (p : Port) (bits : List Bool) (s : State) : (begun p bits s).watches = s.watches := by
  simp [begun, Machine.arrived]

@[simp] theorem begun_queues (p : Port) (bits : List Bool) (s : State) : (begun p bits s).queues = s.queues := by
  simp [begun, Machine.arrived]

@[simp] theorem begun_slotA (p : Port) (bits : List Bool) (s : State) : (begun p bits s).slotA = s.slotA := by
  simp [begun, Machine.arrived]

@[simp] theorem begun_slotB (p : Port) (bits : List Bool) (s : State) : (begun p bits s).slotB = s.slotB := by
  simp [begun, Machine.arrived]

@[simp] theorem begun_recordA (p : Port) (bits : List Bool) (s : State) : (begun p bits s).recordA = s.recordA := by
  simp [begun, Machine.arrived]

@[simp] theorem begun_recordB (p : Port) (bits : List Bool) (s : State) : (begun p bits s).recordB = s.recordB := by
  simp [begun, Machine.arrived]

@[simp] theorem begun_activeSlot (p : Port) (bits : List Bool) (s : State) : (begun p bits s).activeSlot = s.activeSlot := by
  simp [begun, Machine.arrived]

@[simp] theorem begun_active (p : Port) (bits : List Bool) (s : State) : (begun p bits s).active = s.active := by
  simp [begun, Machine.arrived]

@[simp] theorem begun_buffer (p : Port) (bits : List Bool) (s : State) : (begun p bits s).buffer = s.buffer := by
  simp [begun, Machine.arrived]

@[simp] theorem begun_lock (p : Port) (bits : List Bool) (s : State) : (begun p bits s).lock = s.lock := by
  simp [begun, Machine.arrived]

@[simp] theorem begun_burn (p : Port) (bits : List Bool) (s : State) : (begun p bits s).burn = s.burn := by
  simp [begun, Machine.arrived]

@[simp] theorem begun_lastBurn (p : Port) (bits : List Bool) (s : State) : (begun p bits s).lastBurn = s.lastBurn := by
  simp [begun, Machine.arrived]

@[simp] theorem begun_freeCount (p : Port) (bits : List Bool) (s : State) : (begun p bits s).freeCount = s.freeCount := by
  simp [begun, Machine.arrived]

@[simp] theorem line_begun (p : Port) (bits : List Bool) (s : State) (k : Line) : (begun p bits s).line k = s.line k := by
  simp [State.line]

@[simp] theorem pad_begun (p : Port) (bits : List Bool) (s : State) (k : Line) : (begun p bits s).pad k = s.pad k := by
  simp [State.pad]

@[simp] theorem timer_begun (p : Port) (bits : List Bool) (s : State) (k : TimerId) : (begun p bits s).timer k = s.timer k := by
  simp [State.timer]

@[simp] theorem stagedSet_begun (p : Port) (bits : List Bool) (s : State) (k : Port) : (begun p bits s).stagedSet k = s.stagedSet k := by
  simp [State.stagedSet]

@[simp] theorem watch_begun (p : Port) (bits : List Bool) (s : State) (k : Port) : (begun p bits s).watch k = s.watch k := by
  simp [State.watch]

@[simp] theorem queue_begun (p : Port) (bits : List Bool) (s : State) (k : Port) : (begun p bits s).queue k = s.queue k := by
  simp [State.queue]

@[simp] theorem port_begun (p : Port) (bits : List Bool) (s : State) :
    (begun p bits s).port p = { s.port p with transaction := none, sdo := bits } := by
  simp [begun]

theorem session_begun_other (p k : Port) (bits : List Bool) (s : State) (h : k ≠ p) :
    (begun p bits s).session k = s.session k := by
  rw [begun, session_restartLease _ _ _ h]
  simp [Machine.arrived]

/-- The session as the service of its request finds it (R132). -/
theorem session_begun (p : Port) (bits : List Bool) (s : State) :
    (begun p bits s).session p = (restartLease p s).session p := by
  rw [begun, session_restartLease_self, session_restartLease_self]
  simp [Machine.arrived]

theorem session_restartLease_attached {p : Port} {a : Attached} {s : State} (h : AttachedAs p a s) :
    (restartLease p s).session p = { s.session p with state := .attached (renewed a) } := by
  rw [session_restartLease_self, h]
  rfl

theorem session_restartLease_unattached {p : Port} {s : State} (h : isAttached (s.session p).state = false) :
    (restartLease p s).session p = s.session p := by
  rw [session_restartLease_self]
  cases hs : (s.session p).state <;> simp_all [isAttached]

theorem attachedAs_begun {p : Port} {a : Attached} {s : State} (h : AttachedAs p a s) (bits : List Bool) :
    ((begun p bits s).session p).state = .attached (renewed a) := by
  rw [session_begun, session_restartLease_attached h]

/-- The grade of every session is what it was before the request (R128). -/
@[simp] theorem gradeOf_begun (p k : Port) (bits : List Bool) (s : State) :
    (begun p bits s).gradeOf k = s.gradeOf k := by
  unfold State.gradeOf State.attachedPart
  by_cases h : k = p
  · subst h
    rw [session_begun, session_restartLease_self]
    cases hs : (s.session k).state <;> simp [hs]
  · rw [session_begun_other _ _ _ _ h]

@[simp] theorem stampAt_begun (p : Port) (bits : List Bool) (s : State) (o : TickOwner) :
    (begun p bits s).stampAt o = s.stampAt o := by
  simp [State.stampAt]

@[simp] theorem holds_begun (p k : Port) (bits : List Bool) (s : State) : (begun p bits s).holds k = s.holds k := by
  funext l; simp [State.holds]

@[simp] theorem waits_begun (p k : Port) (bits : List Bool) (s : State) : (begun p bits s).waits k = s.waits k := by
  funext l; simp [State.waits]

@[simp] theorem pulses_begun (p k : Port) (bits : List Bool) (s : State) : (begun p bits s).pulses k = s.pulses k := by
  funext l; simp [State.pulses]

@[simp] theorem hasRole_begun (p k : Port) (bits : List Bool) (s : State) : (begun p bits s).hasRole k = s.hasRole k := by
  funext l; simp [State.hasRole]

@[simp] theorem claimCount_begun (p k : Port) (bits : List Bool) (s : State) :
    (begun p bits s).claimCount k = s.claimCount k := by
  simp [State.claimCount]

@[simp] theorem permits_begun (p : Port) (bits : List Bool) (s : State) (l : Line) (k : Port) :
    (begun p bits s).permits l k = s.permits l k := by
  simp [State.permits]

@[simp] theorem forcible_begun (p : Port) (bits : List Bool) (s : State) (l : Line) :
    (begun p bits s).forcible l = s.forcible l := by
  simp [State.forcible]

@[simp] theorem lineClass_begun (p : Port) (bits : List Bool) (s : State) (l : Line) :
    (begun p bits s).lineClass l = s.lineClass l := by
  simp [State.lineClass]

@[simp] theorem effective_begun (p : Port) (bits : List Bool) (s : State) (v : Bool) (t : Option TimerId) :
    (begun p bits s).effective v t = s.effective v t := by
  simp [State.effective]

@[simp] theorem slot_begun (p : Port) (bits : List Bool) (s : State) (x : SlotId) :
    (begun p bits s).slot x = s.slot x := by
  cases x <;> simp [State.slot]

@[simp] theorem record_begun (p : Port) (bits : List Bool) (s : State) (x : SlotId) :
    (begun p bits s).record x = s.record x := by
  cases x <;> simp [State.record]

theorem isAttached_begun (p k : Port) (bits : List Bool) (s : State) :
    isAttached ((begun p bits s).session k).state = isAttached (s.session k).state := by
  by_cases h : k = p
  · subst h
    rw [session_begun, session_restartLease_self]
    cases hs : (s.session k).state <;> simp [hs, isAttached]
  · rw [session_begun_other _ _ _ _ h]

/-! ### Taken requests -/

/-- What the part shifts out during a request frame with this payload (R170). -/
def frameBits (p : Port) (payload : List Byte) (s : State) : List Bool :=
  shiftedOut (8 * (5 + payload.length)) [statusShown s p]

theorem clocksOf_encodeFrame (frame : RequestFrame) : clocksOf (encodeFrame frame) = 8 * (5 + frame.payload.length) := by
  simp [clocksOf, encodeFrame]
  omega

/-- The status byte of an opened transaction. -/
theorem status_of_opened {p : Port} {s : State} {span : Span} {o : OpenTransaction} (h : Opened p s span o) :
    o.status = statusShown s p := by
  cases h with
  | whole running closed settled => simp [statusShown, closed]
  | rest o opened settled => simp [statusShown, opened]

/-- What a served request makes of the part: its port EXECUTING with the reply. -/
def placed (p : Port) (frame : RequestFrame) (served : Served) : State :=
  served.1.putPort p (portExecuting frame served.2 (served.1.port p))

theorem takeRequest_arrived (service : Nat → Port → List Byte → State → Served) (p : Port) (frame : RequestFrame)
    (bits : List Bool) (s : State) :
    takeRequest service p frame (arrived p bits s) =
      placed p frame (service (leaseFound p s) p frame.payload (begun p bits s)) := by
  have : leaseFound p (arrived p bits s) = leaseFound p s := by
    simp [leaseFound, State.attachedPart, arrived]
  simp [takeRequest, placed, this, begun]

/-- A request command that is taken is served on the part as it stands with its lease restarted. -/
theorem requestCommand_taken {p : Port} {span : Span} {payload : List Byte} {s : State} (h : Takes p span payload s)
    (r : Request) (service : Nat → Port → List Byte → State → Served) (tag : Byte) :
    requestCommand r service p tag payload span s =
      placed p ⟨requestCode r, tag, payload⟩
        (service (leaseFound p s) p payload (begun p (frameBits p payload s) s)) := by
  obtain ⟨o, opened, started⟩ := h.recognised
  rw [requestCommand, framePart_opened opened started _ _ h.fits, clocksOf_encodeFrame, status_of_opened opened]
  simp only [frameArrives, port_arrived, h.idle]
  exact takeRequest_arrived _ _ _ _ _

/-- A request other than PORT RESET that is taken answers a next state: the service of Table 10-10 on the part with the
lease restarted, and the port EXECUTING with its reply. -/
theorem exec_taken {p : Port} {span : Span} {payload : List Byte} {s : State} (h : Takes p span payload s) (r : Request)
    (hr : r ≠ .portReset) (tag : Byte) :
    exec (requestInstr r p tag payload span) s =
      .next (placed p ⟨requestCode r, tag, payload⟩
        (serve r (leaseFound p s) p payload (begun p (frameBits p payload s) s))) := by
  rw [← requestCommand_taken h r (serve r) tag]
  cases r with
  | portReset => exact absurd rfl hr
  | _ => rfl

theorem port_placed (p : Port) (frame : RequestFrame) (served : Served) :
    (placed p frame served).port p = portExecuting frame served.2 (served.1.port p) := by simp [placed]

theorem Frame.placed (p : Port) (frame : RequestFrame) (served : Served) :
    Frame { ports := only p } served.1 (placed p frame served) := Frame.putPort _ _ _

/-- The port of a placed request whose service left the port alone. -/
theorem took_placed {p : Port} {frame : RequestFrame} {served : Served} {s : State}
    (h : served.1.port p = (begun p (frameBits p frame.payload s) s).port p) :
    Took p frame.code frame.tag frame.payload served.2 s (Machine.placed p frame served) := by
  refine ⟨?_, ?_, ?_, ?_, ?_, ?_, ?_, ?_⟩
  · rw [port_placed]; rfl
  · rw [port_placed]; rfl
  · rw [port_placed]; rfl
  · rw [port_placed, h, port_begun]; rfl
  · rw [port_placed, h, port_begun]; rfl
  · rw [port_placed, h, port_begun]; rfl
  · rw [port_placed, h, port_begun]; rfl
  · rw [attn_val, port_placed, Machine.placed, attn_putPort, if_pos rfl]
    simp

/-- A request whose service changed nothing. -/
theorem dismissed_placed {p : Port} {frame : RequestFrame} {s : State} {reply : Reply} :
    Dismissed p frame.code frame.tag frame.payload reply s
      (Machine.placed p frame (begun p (frameBits p frame.payload s) s, some reply)) :=
  ⟨took_placed (served := (begun p (frameBits p frame.payload s) s, some reply)) rfl,
    by rw [← session_begun p (frameBits p frame.payload s) s]; simp [Machine.placed],
    Frame.trans (r := { sessions := only p, ports := only p }) (Frame.begun p _ s)
      (Frame.placed p frame (begun p (frameBits p frame.payload s) s, some reply)).widen⟩

/-- A taken request whose service changed nothing but answered. -/
theorem exec_dismissed {p : Port} {span : Span} {payload : List Byte} {s : State} (h : Takes p span payload s) (r : Request)
    (hr : r ≠ .portReset) (tag : Byte) {reply : Reply}
    (e : ∀ bits, serve r (leaseFound p s) p payload (begun p bits s) = (begun p bits s, some reply)) :
    ∃ t, exec (requestInstr r p tag payload span) s = .next t ∧
      Dismissed p (requestCode r) tag payload reply s t :=
  ⟨_, exec_taken h r hr tag, by rw [e]; exact dismissed_placed (frame := ⟨requestCode r, tag, payload⟩)⟩

/-- A taken request of an ATTACHED session whose service left its port and its session alone. -/
theorem attended_placed {p : Port} {a : Attached} {r : Request} {tag : Byte} {payload : List Byte} {served : Served}
    {s : State} (h : AttachedAs p a s) (hp : served.1.port p = (begun p (frameBits p payload s) s).port p)
    (hs : served.1.session p = (begun p (frameBits p payload s) s).session p) :
    Attended p a r tag payload served.2 s (Machine.placed p ⟨requestCode r, tag, payload⟩ served) := by
  have e : (Machine.placed p ⟨requestCode r, tag, payload⟩ served).session p =
      { s.session p with state := .attached (renewed a) } := by
    rw [← session_restartLease_attached h, ← session_begun p (frameBits p payload s) s, ← hs]
    simp [Machine.placed]
  exact ⟨took_placed (frame := ⟨requestCode r, tag, payload⟩) hp, by rw [AttachedAs, e], by rw [e], by rw [e]⟩

end Sys2Proof.Machine
end

