-- ==== Sys2Proof/Laws/Effects.lean ====
section
/-! SUPPORT. What a step can do, said once: every step is a chain of effects, each one operation of the blocks with the
conditions under which it happens. An invariant that every effect keeps is kept by every step. -/

namespace Sys2Proof.Machine

/-- One operation of the blocks, with what its guards say of the state it acts on. -/
inductive Effect : State → State → Prop where
  | pending (s : State) (x : List Instr) : Effect s { s with pending := x }
  | port (s : State) (p : Port) (x : PortInterface) : Effect s (s.putPort p x)
  | numbered (s : State) : Effect s { s with freeCount := s.freeCount + 1 }
  | lease (s : State) (p : Port) : Effect s (restartLease p s)
  | reset (s : State) (kind : ResetKind) (torn : Torn) : Effect s (deviceReset kind torn s)
  | endReset (s : State) (m : Bool) (h : s.resetting ≠ none) : Effect s (endReset m s)
  | startUp (s : State) (levels : LineMap) (h : s.resetting = none) (d : s.device = .starting) :
    Effect s (finishStartUp levels s)
  | tick (s : State) (h : s.resetting = none) (settled : Settled s)
    (taken : s.lag = ⟨0, 0, 0, s.lag.inputMonitor⟩) : Effect s (generateTick s)
  | ownerTick (s : State) (o : TickOwner) : Effect s (ownerTick o s)
  | sampling (s : State) (levels : LineMap) (lag : Nat) (now : Stamp) :
    Effect s (samplePins levels now { s with lag := { s.lag with inputMonitor := lag } })
  | ended (s : State) (p : Port) (state : SessionState) (reason : EndReason) (h : isAttached (s.session p).state = true)
    (away : isAttached state = false) : Effect s (endSession p state reason (teardown p s))
  | cleared (s : State) (p : Port) (reason : EndReason) (h : (s.session p).state = .lapsed) :
    Effect s (endSession p .detached reason s)
  | waitExpiry (s : State) (l : Line) (p : Port) (w : WaitEntry) (h : waiterOf p (s.line l) = some w) :
    Effect s (expireWait l p s)
  | pulseExpiry (s : State) (x : TimerId) (r : PulseTimer) (h : s.timer x = some r) : Effect s (expirePulse x r s)
  | burnt (s : State) (b : Burning) (readBack : List Byte) (h : s.burn = some b) : Effect s (finishBurn b readBack s)
  | attach (s : State) (p : Port) (g : Grade) (img : Image) (requested : Nat) (d : s.device = .operating)
    (a : s.active = some img) (h : isAttached (s.session p).state = false) :
    Effect s (s.setSession p (attachedSession g (grantedLease (profileLeaseFloor img) (profileLeaseCeiling img) requested)
      (s.session p)))
  | lockReset (s : State) (p : Port) : Effect s (portResetLock p s)
  | install (s : State) (p : Port) (l : Line) (want : Want) (stay : Bool)
    (h : isAttached (s.session p).state = true) (r : s.hasRole p l = false) (b : s.claimCount p < Config.claimBudget)
    (u : (s.line l).owners = .unowned) :
    Effect s (installOwners l (formOwners p want stay (s.stampAt .lineTable)) s)
  | join (s : State) (p : Port) (l : Line) (ss : List Sharer) (v stay : Bool)
    (h : isAttached (s.session p).state = true) (r : s.hasRole p l = false) (b : s.claimCount p < Config.claimBudget)
    (u : (s.line l).owners = .shared ss) (q : (s.line l).queue = []) :
    Effect s (installOwners l (.shared (ss ++ [⟨p, v, stay, s.stampAt .lineTable, none⟩])) s)
  | preempt (s : State) (p : Port) (l : Line) (d : Drive) (stay : Bool)
    (h : isAttached (s.session p).state = true) (r : s.hasRole p l = false) (b : s.claimCount p < Config.claimBudget)
    (u : (s.line l).owners ≠ .unowned) : Effect s (preempt p l (.exclusive d) stay s)
  | queued (s : State) (p : Port) (l : Line) (want : Want) (a : ClaimArgs)
    (h : isAttached (s.session p).state = true) (r : s.hasRole p l = false) (b : s.claimCount p < Config.claimBudget)
    (u : (s.line l).owners ≠ .unowned)
    (head : ∀ ss, (s.line l).owners = .shared ss → (s.line l).queue = [] → ∀ v, want ≠ .share v) :
    Effect s (s.setLine l { s.line l with
      queue := (s.line l).queue ++ [queuedEntry p want a (s.stampAt .lineTable)] })
  | release (s : State) (p : Port) (l : Line) (r : OwnerView) (h : ownerOf p (s.line l) = some r) :
    Effect s (applyLineStep l (releaseEntry p (s.stampAt .lineTable) (s.line l)) (s.stampAt .lineTable) true
      (freeTimers (fun t => r.pulse = some t) s))
  | cancel (s : State) (p : Port) (l : Line) (w : WaitEntry) (h : waiterOf p (s.line l) = some w) :
    Effect s (applyLineStep l (withdrawEntry p (s.stampAt .lineTable) (s.line l)) (s.stampAt .lineTable)
      (!(withdrawEntry p (s.stampAt .lineTable) (s.line l)).granted.isEmpty) s)
  | stage (s : State) (p : Port) (l : Line) (v : Bool) (h : isAttached (s.session p).state = true)
    (room : stagedHas l (s.stagedSet p) = true ∨ (s.stagedSet p).length < Config.stageDepth) :
    Effect s (s.setStaged p (stagePut l v (s.stagedSet p)))
  | unstage (s : State) (p : Port) (l : Line) (h : isAttached (s.session p).state = true) :
    Effect s (s.setStaged p ((s.stagedSet p).filter fun x => x.line ≠ l))
  | discard (s : State) (p : Port) (h : isAttached (s.session p).state = true) : Effect s (s.setStaged p [])
  | commit (s : State) (p : Port) (h : isAttached (s.session p).state = true)
    (passes : ∀ l, commitFails p s l = false) : Effect s (applyStaged p s)
  | pulse (s : State) (p : Port) (l : Line) (v : Bool) (n : BitVec 16) (x : TimerId) (r : OwnerView)
    (h : isAttached (s.session p).state = true) (o : ownerOf p (s.line l) = some r)
    (w : (valueOfWant r.want).isSome = true) (f : r.pulse = none) (d : n ≠ 0) (free : s.timer x = none) :
    Effect s (startPulse p l v n.toNat x s)
  | watch (s : State) (p : Port) (x : Vector WatchSetting 24) (h : isAttached (s.session p).state = true) :
    Effect s (s.setWatch p x)
  | fetch (s : State) (p : Port) (n : Nat) (h : isAttached (s.session p).state = true) :
    Effect s (s.putQueue p ⟨(s.queue p).records.drop n, 0⟩)
  | openEdit (s : State) (p : Port) (d : s.device = .maintenance) (h : s.lock = .free) :
    Effect s { s with lock := .held p, buffer := (openSource s.active).1 }
  | writeImage (s : State) (offset : Nat) (data : List Byte) :
    Effect s { s with buffer := imageWriteBytes s.buffer offset data }
  | sealed (s : State) (generation : BitVec 16) : Effect s { s with buffer := sealBuffer generation s.buffer }
  | burning (s : State) (p : Port) (generation : BitVec 16) (d : s.device = .maintenance) (b : s.burn = none)
    (h : s.lock = .held p) : Effect s (startBurn p generation s)
  | closeEdit (s : State) (p : Port) (b : s.burn = none) (h : s.lock = .held p) : Effect s { s with lock := .free }

/-- A chain of effects. -/
inductive Effects : State → State → Prop where
  | refl (s : State) : Effects s s
  | step {s t u : State} (h : Effect s t) (k : Effects t u) : Effects s u

theorem Effects.one {s t : State} (h : Effect s t) : Effects s t := .step h (.refl t)

theorem Effects.trans {s t u : State} (h : Effects s t) (k : Effects t u) : Effects s u := by
  induction h with
  | refl => exact k
  | step e _ ih => exact .step e (ih k)

/-- What every effect keeps, every chain of effects keeps. -/
theorem Effects.keep {P : State → Prop} (each : ∀ s t, P s → Effect s t → P t) {s t : State} (h : Effects s t) (k : P s) :
    P t := by
  induction h with
  | refl => exact k
  | step e _ ih => exact ih (each _ _ k e)

theorem isAttached_of_sessionRefusal {s : State} {p : Port} (h : sessionRefusal s p = none) :
    isAttached (s.session p).state = true := by
  unfold sessionRefusal at h
  cases hs : (s.session p).state <;> simp_all [isAttached]

theorem editing_of_editingRefusal {s : State} {p : Port} (h : editingRefusal s p = none) : s.device = .maintenance := by
  unfold editingRefusal at h
  cases hs : (s.session p).state <;> cases hd : s.device <;> simp_all

theorem editor_of_isEditor {s : State} {p : Port} (h : isEditor s p = true) : s.lock = .held p := by
  simpa [isEditor] using h

/-! ### Expiries -/

theorem effects_leaseExpires (p : Port) (s : State) : Effects s (leaseExpires p s) := by
  unfold leaseExpires
  split
  · rename_i d
    obtain ⟨a, h, _⟩ := (leaseDue_iff p s).1 d
    exact .one (.ended s p _ _ (by rw [h]; rfl) rfl)
  · exact .refl _

theorem effects_waitExpires (l : Line) (p : Port) (s : State) : Effects s (waitExpires l p s) := by
  unfold waitExpires
  split
  · rename_i d
    obtain ⟨w, h⟩ := waiterOf_of_waitDue d
    exact .one (.waitExpiry s l p w h)
  · exact .refl _

theorem effects_pulseExpires (x : TimerId) (s : State) : Effects s (pulseExpires x s) := by
  unfold pulseExpires
  split
  · split
    · exact .one (.pulseExpiry s x _ ‹_›)
    · exact .refl _
  · exact .refl _

theorem effects_pass {α : Type} {f : State → α → State} (h : ∀ s a, Effects s (f s a)) (xs : List α) :
    ∀ s, Effects s (xs.foldl f s) := by
  induction xs with
  | nil => exact .refl
  | cons x xs ih => exact fun s => (h s x).trans (ih _)

theorem effects_finishOwner (o : TickOwner) (s : State) : Effects s (finishOwner o s) := by
  cases o
  · exact effects_pass (fun s p => effects_leaseExpires p s) _ s
  · exact effects_pass (fun s l => effects_pass (fun s p => effects_waitExpires l p s) _ s) _ s
  · exact effects_pass (fun s x => effects_pulseExpires x s) _ s
  · exact .refl _

theorem effects_finishTicks (s : State) : Effects s (finishTicks s) :=
  (effects_finishOwner .sessionTable s).trans
    ((effects_finishOwner .lineTable _).trans (effects_finishOwner .pulsePool _))

/-! ### The service of a request -/

theorem effects_serveAttach (p : Port) (payload : List Byte) (s : State) : Effects s (serveAttach p payload s).1 := by
  unfold serveAttach attachVerdict
  repeat' split
  all_goals first
    | exact .refl _
    | (rename_i e
       repeat' split at e
       all_goals first
         | cases e; done
         | (simp only [Except.ok.injEq, Prod.mk.injEq] at e
            obtain ⟨rfl, rfl⟩ := e
            refine .one (.attach s p _ _ _ ‹_› ‹_› ?_)
            cases hs : (s.session p).state <;> simp_all [isAttached]))

theorem effects_serveDetach (p : Port) (payload : List Byte) (s : State) : Effects s (serveDetach p payload s).1 := by
  unfold serveDetach
  repeat' split
  · exact .refl _
  · exact .one (.cleared s p _ ‹_›)
  · rename_i h
    exact .one (.ended s p _ _ (by rw [h]; rfl) rfl)
  · exact .refl _

theorem effects_serveClaim (p : Port) (payload : List Byte) (s : State) : Effects s (serveClaim p payload s).1 := by
  unfold serveClaim
  split
  · exact .refl _
  rename_i a _
  split
  · exact .refl _
  rename_i l want h
  have admitted : isAttached (s.session p).state = true ∧ s.hasRole p l = false ∧ s.claimCount p < Config.claimBudget ∧
      (a.force = true → ∃ d, want = .exclusive d) := by
    unfold claimVerdict at h
    split at h
    · cases h
    · cases h
    rename_i x hx
    refine ⟨by rw [hx]; rfl, ?_⟩
    split at h
    · cases h
    rename_i l' _
    repeat' split at h
    all_goals first
      | cases h; done
      | skip
    rename_i w hw
    simp only [Except.ok.injEq, Prod.mk.injEq] at h
    obtain ⟨rfl, rfl⟩ := h
    unfold claimRoleVerdict at hw
    split at hw
    · rename_i m c _ _
      split at hw; · cases hw
      split at hw; · cases hw
      split at hw; · cases hw
      split at hw; · cases hw
      split at hw; · cases hw
      rename_i n1 n2 n3 n4 n5
      refine ⟨by simpa using n2, by simpa using n3, fun hf => ?_⟩
      have hm : m ≠ .share := by intro e; simp [hf, e] at n5
      split at hw
      · simp only [Except.ok.injEq] at hw
        subst hw
        cases m <;> simp_all [wantOf]
      · split at hw
        · simp only [Except.ok.injEq] at hw
          exact ⟨_, hw.symm⟩
        · cases hw
    · cases hw
  obtain ⟨att, role, budget, excl⟩ := admitted
  have contended : (s.line l).owners ≠ .unowned →
      (∀ ss, (s.line l).owners = .shared ss → (s.line l).queue = [] → ∀ v, want ≠ .share v) →
      Effects s (contendClaim p l want a s).1 := by
    intro u hd
    unfold contendClaim
    split
    · rename_i c
      simp only [Bool.and_eq_true] at c
      obtain ⟨d, rfl⟩ := excl c.1
      exact .one (.preempt s p l d a.stay att role budget u)
    · unfold queueClaim
      split
      · exact .refl _
      · exact .one (.queued s p l want a att role budget u hd)
  unfold evaluateClaim
  split
  · exact .one (.install s p l want a.stay att role budget ‹_›)
  · rename_i e
    exact contended (by simp [e]) (by simp [e])
  · rename_i ss e
    split
    · exact .one (.join s p l ss _ a.stay att role budget e ‹_›)
    · rename_i no
      exact contended (by simp [e]) fun _ _ hq v hv => no v hv hq

theorem effects_serveRelease (p : Port) (payload : List Byte) (s : State) : Effects s (serveRelease p payload s).1 := by
  unfold serveRelease
  repeat' split
  all_goals first
    | exact .refl _
    | exact .one (.release s p _ _ ‹_›)

theorem effects_serveCancel (p : Port) (payload : List Byte) (s : State) : Effects s (serveCancel p payload s).1 := by
  unfold serveCancel
  repeat' split
  all_goals first
    | exact .refl _
    | exact .one (.cancel s p _ _ ‹_›)

theorem effects_serveStage (p : Port) (payload : List Byte) (s : State) : Effects s (serveStage p payload s).1 := by
  unfold serveStage
  repeat' split
  all_goals first
    | exact .refl _
    | skip
  rename_i hr _ _ _ _ _ _ _ no
  refine .one (.stage s p _ _ (isAttached_of_sessionRefusal hr) ?_)
  simp only [Bool.and_eq_true, Bool.not_eq_true', decide_eq_true_eq, not_and, Nat.not_le] at no
  cases h : stagedHas _ (s.stagedSet p) with
  | true => exact .inl rfl
  | false => exact .inr (no h)

theorem effects_serveUnstage (p : Port) (payload : List Byte) (s : State) : Effects s (serveUnstage p payload s).1 := by
  unfold serveUnstage
  repeat' split
  all_goals first
    | exact .refl _
    | exact .one (.unstage s p _ (isAttached_of_sessionRefusal ‹_›))

theorem effects_serveDiscard (p : Port) (payload : List Byte) (s : State) : Effects s (serveDiscard p payload s).1 := by
  unfold serveDiscard
  repeat' split
  all_goals first
    | exact .refl _
    | exact .one (.discard s p (isAttached_of_sessionRefusal ‹_›))

theorem effects_serveCommit (p : Port) (payload : List Byte) (s : State) : Effects s (serveCommit p payload s).1 := by
  unfold serveCommit
  split
  · split
    · exact .refl _
    rename_i hr
    split
    · exact .refl _
    split
    · exact .refl _
    rename_i no
    exact .one (.commit s p (isAttached_of_sessionRefusal hr) fun l =>
      Bool.eq_false_iff.2 fun c => no (List.any_eq_true.2 ⟨l, mem_allLines l, c⟩))
  · exact .refl _

theorem effects_servePulse (p : Port) (payload : List Byte) (s : State) : Effects s (servePulse p payload s).1 := by
  unfold servePulse pulseVerdict
  repeat' split
  all_goals first
    | exact .refl _
    | skip
  rename_i e
  repeat' split at e
  all_goals first
    | cases e; done
    | skip
  simp only [Except.ok.injEq, Prod.mk.injEq] at e
  obtain ⟨rfl, rfl, rfl⟩ := e
  rename_i r _ hv _ _ _ hd hp _ _ ht
  refine .one (.pulse s p _ _ _ _ r (isAttached_of_sessionRefusal ‹_›) ‹_› ?_ ?_ ‹_› ?_)
  · cases hw : valueOfWant r.want <;> simp_all
  · cases hp : r.pulse <;> simp_all
  · have := List.find?_some ht
    simpa using this

theorem effects_serveWatch (p : Port) (payload : List Byte) (s : State) : Effects s (serveWatch p payload s).1 := by
  unfold serveWatch
  repeat' split
  all_goals first
    | exact .refl _
    | exact .one (.watch s p _ (isAttached_of_sessionRefusal ‹_›))

theorem effects_serveFetchEvents (p : Port) (payload : List Byte) (s : State) :
    Effects s (serveFetchEvents p payload s).1 := by
  unfold serveFetchEvents
  repeat' split
  all_goals first
    | exact .refl _
    | exact .one (.fetch s p _ (isAttached_of_sessionRefusal ‹_›))

theorem effects_serveOpenEdit (p : Port) (payload : List Byte) (s : State) : Effects s (serveOpenEdit p payload s).1 := by
  unfold serveOpenEdit
  repeat' split
  all_goals first
    | exact .refl _
    | exact .one (.openEdit s p (editing_of_editingRefusal ‹_›) ‹_›)

theorem effects_serveWriteImage (p : Port) (payload : List Byte) (s : State) :
    Effects s (serveWriteImage p payload s).1 := by
  unfold serveWriteImage
  repeat' split
  all_goals first
    | exact .refl _
    | exact .one (.writeImage s _ _)

theorem effects_serveBurnImage (p : Port) (payload : List Byte) (s : State) : Effects s (serveBurnImage p payload s).1 := by
  unfold serveBurnImage
  repeat' split
  all_goals first
    | exact .refl _
    | skip
  rename_i hr nb ne _
  have editor : s.lock = .held p := editor_of_isEditor (by simpa using ne)
  have idle : s.burn = none := by cases hb : s.burn <;> simp_all
  unfold burnSealed
  dsimp only
  split
  · exact .one (.sealed s _)
  · exact .step (.sealed s _) (.one (.burning _ p _ (editing_of_editingRefusal hr) idle editor))

theorem effects_serveCloseEdit (p : Port) (payload : List Byte) (s : State) : Effects s (serveCloseEdit p payload s).1 := by
  unfold serveCloseEdit
  repeat' split
  all_goals first
    | exact .refl _
    | skip
  rename_i nb ne
  exact .one (.closeEdit s p (by cases hb : s.burn <;> simp_all) (editor_of_isEditor (by simpa using ne)))

/-- The service of a request that changes nothing but its answer. -/
theorem effects_reports (found : Nat) (p : Port) (payload : List Byte) (s : State) :
    (serveRenew p payload s).1 = s ∧ (serveQuerySelf found p payload s).1 = s ∧ (serveQueryDevice payload s).1 = s ∧
    (serveQueryLine p payload s).1 = s ∧ (serveSample p payload s).1 = s ∧ (serveReadImage p payload s).1 = s := by
  refine ⟨?_, ?_, ?_, ?_, ?_, ?_⟩
  · unfold serveRenew; repeat' split
    all_goals rfl
  · unfold serveQuerySelf; split <;> rfl
  · unfold serveQueryDevice; split <;> rfl
  · unfold serveQueryLine; repeat' split
    all_goals rfl
  · unfold serveSample; repeat' split
    all_goals rfl
  · unfold serveReadImage; repeat' split
    all_goals rfl

theorem effects_serve (r : Request) (found : Nat) (p : Port) (payload : List Byte) (s : State) :
    Effects s (serve r found p payload s).1 := by
  have same := effects_reports found p payload s
  cases r with
  | attach => exact effects_serveAttach p payload s
  | detach => exact effects_serveDetach p payload s
  | renew => rw [serve, same.1]; exact .refl _
  | querySelf => rw [serve, same.2.1]; exact .refl _
  | queryDevice => rw [serve, same.2.2.1]; exact .refl _
  | portReset => exact .refl _
  | claim => exact effects_serveClaim p payload s
  | release => exact effects_serveRelease p payload s
  | cancel => exact effects_serveCancel p payload s
  | queryLine => rw [serve, same.2.2.2.1]; exact .refl _
  | stage => exact effects_serveStage p payload s
  | unstage => exact effects_serveUnstage p payload s
  | discard => exact effects_serveDiscard p payload s
  | commit => exact effects_serveCommit p payload s
  | pulse => exact effects_servePulse p payload s
  | sample => rw [serve, same.2.2.2.2.1]; exact .refl _
  | watch => exact effects_serveWatch p payload s
  | fetchEvents => exact effects_serveFetchEvents p payload s
  | openEdit => exact effects_serveOpenEdit p payload s
  | writeImage => exact effects_serveWriteImage p payload s
  | readImage => rw [serve, same.2.2.2.2.2]; exact .refl _
  | burnImage => exact effects_serveBurnImage p payload s
  | closeEdit => exact effects_serveCloseEdit p payload s

theorem effects_serveCode (code : Byte) (found : Nat) (p : Port) (payload : List Byte) (s : State) :
    Effects s (serveCode code found p payload s).1 := by
  unfold serveCode
  split
  · exact effects_serve _ _ _ _ _
  · exact .refl _

/-! ### Transactions -/

theorem effects_takeRequest {service : Nat → Port → List Byte → State → Served}
    (each : ∀ n p payload s, Effects s (service n p payload s).1) (p : Port) (frame : RequestFrame) (s : State) :
    Effects s (takeRequest service p frame s) :=
  .step (.lease s p) ((each _ p frame.payload _).trans (.one (.port _ p _)))

theorem effects_frameArrives {service : Nat → Port → List Byte → State → Served}
    (each : ∀ n p payload s, Effects s (service n p payload s).1) (p : Port) (frame : RequestFrame) (s : State) :
    Effects s (frameArrives service p frame s) := by
  unfold frameArrives
  split
  · exact effects_takeRequest each p frame s
  · exact .one (.port s p _)
  · exact .one (.port s p _)

theorem effects_takePortReset (p : Port) (frame : RequestFrame) (s : State) : Effects s (takePortReset p frame s) := by
  have session : Effects s (portResetSession p s) := by
    unfold portResetSession
    split
    · rename_i h
      exact .one (.ended s p _ _ (by rw [h]; rfl) rfl)
    · exact .one (.cleared s p _ ‹_›)
    · exact .refl _
  exact (session.trans (.one (.lockReset _ p))).trans (.one (.port _ p _))

theorem effects_requestFrame {arrives : Port → RequestFrame → State → State}
    (each : ∀ p frame s, Effects s (arrives p frame s)) (p : Port) (frame : RequestFrame) (o : OpenTransaction) (s : State) :
    Effects s (requestFrame arrives p frame o s) := by
  unfold requestFrame
  split
  · exact .refl _
  split
  · exact .one (.port s p _)
  · exact each p frame s

theorem effects_anyFrameArrives (p : Port) (frame : RequestFrame) (s : State) : Effects s (anyFrameArrives p frame s) := by
  unfold anyFrameArrives
  split
  · exact effects_takePortReset p frame s
  · exact effects_frameArrives (effects_serveCode frame.code) p frame s

theorem effects_framePart {arrives : Port → RequestFrame → State → State}
    (each : ∀ p frame s, Effects s (arrives p frame s)) (p : Port) (frame : RequestFrame) (o : OpenTransaction) (s : State) :
    Effects s (framePart arrives p frame o s) :=
  .step (.port s p _) (effects_requestFrame each p frame o _)

theorem effects_pollPart (p : Port) (clocks : Nat) (o : OpenTransaction) (s : State) :
    Effects s (pollPart p clocks o s) := .one (.port s p _)

theorem effects_readPart (p : Port) (clocks : Nat) (o : OpenTransaction) (s : State) :
    Effects s (readPart p clocks o s) := by
  unfold readPart
  split
  · exact effects_pollPart p clocks o s
  dsimp only
  split
  · split
    · exact .step (.port s p _) (.one (.port _ p _))
    · exact .one (.port s p _)
  · exact .one (.port s p _)
  · exact .one (.port s p _)

theorem effects_errorPart (p : Port) (o : OpenTransaction) (s : State) : Effects s (errorPart p o s) := by
  unfold errorPart
  split
  · exact .refl _
  · exact .one (.port s p _)

theorem effects_wirePart (p : Port) (w : Wire) (o : OpenTransaction) (s : State) : Effects s (wirePart p w o s) := by
  unfold wirePart
  split
  · exact effects_pollPart p _ o s
  · exact effects_readPart p _ o s
  · exact .step (.numbered s) (.step (.port _ p _) (effects_errorPart p o _))
  · split
    · exact .step (.port s p _) (effects_requestFrame effects_anyFrameArrives p _ o _)
    · exact .step (.port s p _) (effects_errorPart p o _)

theorem effects_transaction {act : OpenTransaction → State → State} (each : ∀ o s, Effects s (act o s)) (p : Port)
    (span : Span) (s : State) : Effects s (transaction p span act s) := by
  have fall : ∀ s, Effects s (chipSelectFalls p s) := by
    intro s
    unfold chipSelectFalls
    split
    · exact .refl _
    · exact .one (.port s p _)
  have rest : ∀ s, Effects s (finishTransaction p act s) := by
    intro s
    unfold finishTransaction
    split
    · exact .refl _
    · exact .step (.port s p _) (each _ _)
  refine (effects_finishTicks s).trans ?_
  cases span with
  | whole => exact (fall _).trans (rest _)
  | fall => exact fall _
  | rest => exact rest _

theorem effects_request {service : Nat → Port → List Byte → State → Served}
    (each : ∀ n p payload s, Effects s (service n p payload s).1) (r : Request) (p : Port) (tag : Byte)
    (payload : List Byte) (span : Span) (s : State) : Effects s (requestCommand r service p tag payload span s) :=
  effects_transaction (effects_framePart (effects_frameArrives each) p _) p span s

/-! ### Every command -/

theorem effects_takeTicks (o : TickOwner) (s : State) : Effects s (takeTicks o s) := by
  have all : ∀ n s, Effects s ((ownerTick o)^[n] s) := by
    intro n
    induction n with
    | zero => exact .refl
    | succ n ih => exact fun s => .step (.ownerTick s o) (ih _)
  exact all _ s

theorem effects_endTick (s : State) : Effects s (endTick s) :=
  (effects_takeTicks .sessionTable s).trans ((effects_takeTicks .lineTable _).trans
    ((effects_takeTicks .pulsePool _).trans (effects_finishTicks _)))

theorem effects_generateTick {s : State} (h : s.resetting = none) : Effects s (generateTick (endTick s)) :=
  (effects_endTick s).trans (.one (.tick _ ((endTick_resetting s).trans h) (settled_finishTicks _) (lag_endTick s)))

theorem effects_tick (e : TickEvent) (s t : State) (h : execTick e s = .next t) : Effects s t := by
  simp only [execTick, Host.Outcome.next.injEq] at h
  subst h
  split
  · exact .refl _
  rename_i hr
  have hr : s.resetting = none := by cases hr' : s.resetting <;> simp_all
  split
  · exact (effects_generateTick hr).trans
      (.step (.ownerTick _ _) (.step (.ownerTick _ _) (.one (.ownerTick _ _))))
  · exact effects_generateTick hr
  · exact .one (.ownerTick s _)

theorem effects_completeBurn (p : Port) (reply : Reply) (s : State) : Effects s (completeBurn p reply s) := by
  unfold completeBurn
  split
  · split
    · exact .one (.port s p _)
    · exact .one (.port s p _)
  · exact .one (.port s p _)

/-- Every command is a chain of effects. -/
theorem effects_exec {c : Instr} {s t : State} (h : exec c s = .next t) : Effects s t := by
  cases c with
  | powerOnReset torn => cases h; exact .one (.reset s _ _)
  | brownOutReset torn =>
    cases h; split
    · exact .refl _
    · exact .one (.reset s _ _)
  | rstNReset torn =>
    cases h; split
    · exact .refl _
    · exact .one (.reset s _ _)
  | endOfReset m =>
    cases h; split
    · rename_i hr
      exact .one (.endReset s m (by cases hr' : s.resetting <;> simp_all))
    · exact .refl _
  | endOfStartUp levels =>
    cases h; split
    · rename_i hr
      simp only [Bool.and_eq_true, decide_eq_true_eq] at hr
      exact .one (.startUp s levels (by cases hr' : s.resetting <;> simp_all) hr.2)
    · exact .refl _
  | tick e => exact effects_tick e s t h
  | inputSampling levels =>
    cases h; split
    · exact .refl _
    · exact .one (.sampling s levels _ _)
  | leaseExpiry p => cases h; exact effects_leaseExpires p s
  | waitExpiry l p => cases h; exact effects_waitExpires l p s
  | pulseExpiry x => cases h; exact effects_pulseExpires x s
  | burnCompletion readBack =>
    cases h; split
    · exact .step (.burnt s _ readBack ‹_›) (effects_completeBurn _ _ _)
    · exact .refl _
  | requestCompletion p which =>
    cases h; split
    · unfold completeCurrent; repeat' split
      all_goals first
        | exact .refl _
        | exact .one (.port s p _)
    · unfold completeOvertaken; repeat' split
      all_goals first
        | exact .refl _
        | exact .one (.port s p _)
  | statusPoll p clocks span => cases h; exact effects_transaction (effects_pollPart p clocks) p span s
  | readResponse p clocks span => cases h; exact effects_transaction (effects_readPart p clocks) p span s
  | frameError p wire span => cases h; exact effects_transaction (effects_wirePart p wire) p span s
  | busyDrop p code tag payload span =>
    cases h; exact effects_transaction (effects_framePart effects_anyFrameArrives p _) p span s
  | startingTransaction p wire span => cases h; exact effects_transaction (effects_wirePart p wire) p span s
  | unknown p code tag payload span =>
    cases h; exact effects_transaction (effects_framePart effects_anyFrameArrives p _) p span s
  | portReset p tag payload span =>
    cases h; exact effects_transaction (effects_framePart effects_takePortReset p _) p span s
  | attach p tag payload span => cases h; exact effects_request (effects_serve .attach) _ p tag payload span s
  | detach p tag payload span => cases h; exact effects_request (effects_serve .detach) _ p tag payload span s
  | renew p tag payload span => cases h; exact effects_request (effects_serve .renew) _ p tag payload span s
  | querySelf p tag payload span => cases h; exact effects_request (effects_serve .querySelf) _ p tag payload span s
  | queryDevice p tag payload span => cases h; exact effects_request (effects_serve .queryDevice) _ p tag payload span s
  | claim p tag payload span => cases h; exact effects_request (effects_serve .claim) _ p tag payload span s
  | release p tag payload span => cases h; exact effects_request (effects_serve .release) _ p tag payload span s
  | cancel p tag payload span => cases h; exact effects_request (effects_serve .cancel) _ p tag payload span s
  | queryLine p tag payload span => cases h; exact effects_request (effects_serve .queryLine) _ p tag payload span s
  | stage p tag payload span => cases h; exact effects_request (effects_serve .stage) _ p tag payload span s
  | unstage p tag payload span => cases h; exact effects_request (effects_serve .unstage) _ p tag payload span s
  | discard p tag payload span => cases h; exact effects_request (effects_serve .discard) _ p tag payload span s
  | commit p tag payload span => cases h; exact effects_request (effects_serve .commit) _ p tag payload span s
  | pulse p tag payload span => cases h; exact effects_request (effects_serve .pulse) _ p tag payload span s
  | sample p tag payload span => cases h; exact effects_request (effects_serve .sample) _ p tag payload span s
  | watch p tag payload span => cases h; exact effects_request (effects_serve .watch) _ p tag payload span s
  | fetchEvents p tag payload span => cases h; exact effects_request (effects_serve .fetchEvents) _ p tag payload span s
  | openEdit p tag payload span => cases h; exact effects_request (effects_serve .openEdit) _ p tag payload span s
  | writeImage p tag payload span => cases h; exact effects_request (effects_serve .writeImage) _ p tag payload span s
  | readImage p tag payload span => cases h; exact effects_request (effects_serve .readImage) _ p tag payload span s
  | burnImage p tag payload span => cases h; exact effects_request (effects_serve .burnImage) _ p tag payload span s
  | closeEdit p tag payload span => cases h; exact effects_request (effects_serve .closeEdit) _ p tag payload span s

/-- Every step is a chain of effects. -/
theorem effects_step {s t : State} (h : step s = .next t) : Effects s t := by
  unfold step at h
  split at h
  · cases h; exact .refl _
  · exact .step (.pending s _) (effects_exec h)

/-- An invariant that every effect keeps is kept by every step. -/
theorem step_keeps {P : State → Prop} (each : ∀ s t, P s → Effect s t → P t) {s t : State} (k : P s)
    (h : step s = .next t) : P t :=
  (effects_step h).keep each k

end Sys2Proof.Machine
end

