-- ==== Sys2Proof/Laws/Image.lean ====
section
/-! SUPPORT. The addressed storage: what each operation on an image reads as afterwards, and that it keeps the canonical
form. -/

namespace Sys2Proof.Machine

theorem imageWfFrom_cons {lo : Nat} {c : Host.Cell} {rest : Image} :
    imageWfFrom lo (c :: rest) = true ↔
      lo ≤ c.1 ∧ c.1 < imageSize ∧ c.2 ≠ 0 ∧ imageWfFrom (c.1 + 1) rest = true := by
  simp [imageWfFrom, and_assoc]

theorem imageRead_cons (c : Host.Cell) (rest : Image) (k : Nat) :
    imageRead (c :: rest) k = if c.1 = k then c.2 else imageRead rest k := rfl

theorem imageWfFrom_mono {lo hi : Nat} {img : Image} (h : lo ≤ hi) (w : imageWfFrom hi img = true) :
    imageWfFrom lo img = true := by
  cases img with
  | nil => rfl
  | cons c rest =>
    rw [imageWfFrom_cons] at w ⊢
    exact ⟨by omega, w.2⟩

/-- An offset below every listed cell reads 00H. -/
theorem imageRead_below {lo k : Nat} {img : Image} (w : imageWfFrom lo img = true) (h : k < lo) : imageRead img k = 0 := by
  induction img generalizing lo with
  | nil => rfl
  | cons c rest ih =>
    rw [imageWfFrom_cons] at w
    rw [imageRead_cons, if_neg (by omega), ih w.2.2.2 (by omega)]

theorem cellInsert_cons (c : Host.Cell) (rest : Image) (o : Nat) (b : Byte) :
    cellInsert (c :: rest) o b =
      if o < c.1 then (if b = 0 then c :: rest else (o, b) :: c :: rest)
      else if o = c.1 then (if b = 0 then rest else (o, b) :: rest)
      else c :: cellInsert rest o b := rfl

theorem imageWfFrom_cellInsert {lo o : Nat} {img : Image} (w : imageWfFrom lo img = true) (h : lo ≤ o) (hs : o < imageSize)
    (b : Byte) : imageWfFrom lo (cellInsert img o b) = true := by
  induction img generalizing lo with
  | nil =>
    unfold cellInsert
    split
    · rfl
    · exact imageWfFrom_cons.2 ⟨h, hs, ‹_›, rfl⟩
  | cons c rest ih =>
    have wc := imageWfFrom_cons.1 w
    rw [cellInsert_cons]
    split
    · split
      · exact w
      · exact imageWfFrom_cons.2 ⟨h, hs, ‹_›, imageWfFrom_cons.2 ⟨by simp only; omega, wc.2⟩⟩
    · split
      · rename_i heq
        split
        · exact imageWfFrom_mono (by omega) wc.2.2.2
        · exact imageWfFrom_cons.2 ⟨h, hs, ‹_›, heq ▸ wc.2.2.2⟩
      · exact imageWfFrom_cons.2 ⟨wc.1, wc.2.1, wc.2.2.1, ih wc.2.2.2 (by omega)⟩

theorem imageRead_cellInsert {lo : Nat} {img : Image} (w : imageWfFrom lo img = true) (o : Nat) (b : Byte) (k : Nat) :
    imageRead (cellInsert img o b) k = if k = o then b else imageRead img k := by
  induction img generalizing lo with
  | nil =>
    unfold cellInsert
    split
    · rename_i hb
      simp [imageRead, hb]
    · rw [imageRead_cons]
      by_cases hk : k = o
      · rw [if_pos hk, if_pos hk.symm]
      · rw [if_neg hk, if_neg (Ne.symm hk)]
  | cons c rest ih =>
    have wc := (imageWfFrom_cons.1 w).2.2.2
    have below : ∀ j, j ≤ c.1 → imageRead rest j = 0 := fun j hj => imageRead_below wc (by omega)
    rw [cellInsert_cons]
    by_cases hk : k = o
    · subst hk
      rw [if_pos rfl]
      split
      · split
        · rename_i hb
          rw [imageRead_cons, if_neg (by omega), below k (by omega), hb]
        · rw [imageRead_cons, if_pos rfl]
      · split
        · split
          · rename_i hb
            rw [below k (by omega), hb]
          · rw [imageRead_cons, if_pos rfl]
        · rw [imageRead_cons, if_neg (by omega), ih wc, if_pos rfl]
    · rw [if_neg hk]
      split
      · split
        · rfl
        · rw [imageRead_cons, if_neg (Ne.symm hk)]
      · split
        · split
          · rw [imageRead_cons, if_neg (by omega)]
          · rw [imageRead_cons, imageRead_cons, if_neg (Ne.symm hk), if_neg (by omega)]
        · rw [imageRead_cons, imageRead_cons, ih wc, if_neg hk]

/-- A read after a write (R163). -/
theorem imageRead_imageWrite {img : Image} (w : imageWf img = true) {o : Nat} (h : o < imageSize) (b : Byte) (k : Nat) :
    imageRead (imageWrite img o b) k = if k = o then b else imageRead img k := by
  simp [imageWrite, h, imageRead_cellInsert (lo := 0) w]

theorem imageWf_imageWrite {img : Image} (w : imageWf img = true) (o : Nat) (b : Byte) : imageWf (imageWrite img o b) = true := by
  unfold imageWrite
  split
  · exact imageWfFrom_cellInsert w (Nat.zero_le _) ‹_› b
  · exact w

theorem imageWf_imageWriteBytes {img : Image} (w : imageWf img = true) (o : Nat) (data : List Byte) :
    imageWf (imageWriteBytes img o data) = true := by
  induction data generalizing img o with
  | nil => exact w
  | cons b rest ih => exact ih (imageWf_imageWrite w o b) (o + 1)

/-- What an image reads as after bytes were written from an offset upward (R163). -/
theorem imageRead_imageWriteBytes {img : Image} (w : imageWf img = true) (o : Nat) (data : List Byte)
    (h : o + data.length ≤ imageSize) (k : Nat) :
    imageRead (imageWriteBytes img o data) k =
      if o ≤ k ∧ k < o + data.length then data.getD (k - o) 0 else imageRead img k := by
  induction data generalizing img o with
  | nil => rw [if_neg (by simp only [List.length_nil]; omega)]; rfl
  | cons b rest ih =>
    simp only [List.length_cons] at h ⊢
    simp only [imageWriteBytes]
    rw [ih (imageWf_imageWrite w o b) (o + 1) (by omega), imageRead_imageWrite w (by omega)]
    by_cases hk : k = o
    · subst hk
      rw [if_neg (by omega), if_pos rfl, if_pos (by omega), Nat.sub_self, List.getD_cons_zero]
    · by_cases hr : o + 1 ≤ k ∧ k < o + 1 + rest.length
      · rw [if_pos hr, if_pos (by omega), show k - o = (k - (o + 1)) + 1 by omega, List.getD_cons_succ]
      · rw [if_neg hr, if_neg hk, if_neg (by omega)]

theorem imageWf_imageOf (f : Nat → Byte) : imageWf (imageOf f) = true := imageWf_imageWriteBytes rfl 0 _

@[simp] theorem imageRead_imageOf (f : Nat → Byte) {k : Nat} (h : k < imageSize) : imageRead (imageOf f) k = f k := by
  unfold imageOf
  rw [imageRead_imageWriteBytes rfl 0 _ (by simp), if_pos (by simp; omega)]
  simp [List.getD, h]

/-- An offset beyond the image reads 00H. -/
theorem imageRead_beyond {lo : Nat} {img : Image} (w : imageWfFrom lo img = true) {k : Nat} (h : imageSize ≤ k) :
    imageRead img k = 0 := by
  induction img generalizing lo with
  | nil => rfl
  | cons c rest ih =>
    rw [imageWfFrom_cons] at w
    rw [imageRead_cons, if_neg (by omega), ih w.2.2.2]

/-- Two images in canonical form that read alike are equal. -/
theorem imageRead_ext {lo : Nat} {a b : Image} (wa : imageWfFrom lo a = true) (wb : imageWfFrom lo b = true)
    (h : ∀ k, imageRead a k = imageRead b k) : a = b := by
  induction a generalizing lo b with
  | nil =>
    cases b with
    | nil => rfl
    | cons c rest =>
      have hc := h c.1
      rw [imageRead_cons, if_pos rfl] at hc
      exact absurd hc.symm (imageWfFrom_cons.1 wb).2.2.1
  | cons c rest ih =>
    have wc := imageWfFrom_cons.1 wa
    cases b with
    | nil =>
      have hc := h c.1
      rw [imageRead_cons, if_pos rfl] at hc
      exact absurd hc wc.2.2.1
    | cons d rest' =>
      have wd := imageWfFrom_cons.1 wb
      have hxy : c.1 = d.1 := by
        rcases Nat.lt_trichotomy c.1 d.1 with hlt | heq | hgt
        · have hc := h c.1
          rw [imageRead_cons, if_pos rfl, imageRead_cons, if_neg (by omega), imageRead_below wd.2.2.2 (by omega)] at hc
          exact absurd hc wc.2.2.1
        · exact heq
        · have hd := h d.1
          rw [imageRead_cons, if_neg (by omega), imageRead_below wc.2.2.2 (by omega), imageRead_cons, if_pos rfl] at hd
          exact absurd hd.symm wd.2.2.1
      have huv : c.2 = d.2 := by
        have hc := h c.1
        rwa [imageRead_cons, if_pos rfl, imageRead_cons, if_pos hxy.symm] at hc
      have hcd : c = d := Prod.ext hxy huv
      subst hcd
      refine congrArg _ (ih wc.2.2.2 wd.2.2.2 fun k => ?_)
      by_cases hk : k ≤ c.1
      · rw [imageRead_below wc.2.2.2 (by omega), imageRead_below wd.2.2.2 (by omega)]
      · have hc := h k
        rwa [imageRead_cons, imageRead_cons, if_neg (by omega), if_neg (by omega)] at hc

/-- The slots as delivered, and the images of the state after reset, are in canonical form. -/
theorem imageWf_erasedImage : imageWf erasedImage = true := by decide +kernel

theorem imageRead_erasedImage {k : Nat} (h : k < imageSize) : imageRead erasedImage k = 0xFF#8 := by
  have all : ∀ j : Fin 128, imageRead erasedImage j.val = 0xFF#8 := by decide +kernel
  exact all ⟨k, h⟩

theorem imageWf_sealBuffer {img : Image} (w : imageWf img = true) (g : BitVec 16) : imageWf (sealBuffer g img) = true :=
  imageWf_imageWriteBytes (imageWf_imageWriteBytes w _ _) _ _

theorem imageWf_burntImage (buffer : Image) (readBack : List Byte) : imageWf (burntImage buffer readBack) = true := by
  unfold burntImage
  split <;> exact imageWf_imageOf _

end Sys2Proof.Machine
end

