-- ==== Sys2Proof/Laws/Profile.lean ====
section
/-! SUPPORT. What the validity of a profile image says of its fields, and what the choice of the active slot comes to. -/

namespace Sys2Proof.Machine

/-- The conditions of Table 9-2 on a valid image. -/
structure ValidFields (img : Image) : Prop where
  tag : imageRead img 0 = Config.formatTag
  generation : 1 ≤ (profileGeneration img).toNat ∧ (profileGeneration img).toNat ≤ Config.maxGeneration
  tickCode : (profileTickCode img).toNat ≤ 3
  floor : 10 ≤ profileLeaseFloor img
  ceiling : profileLeaseFloor img ≤ profileLeaseCeiling img
  lines : ∀ l, lineRecordConsistent img l = true
  crc : imageWord img 126 = imageCrc img

theorem validFields {img : Image} (h : profileValid img = true) : ValidFields img := by
  unfold profileValid offendingOffset at h
  repeat' split at h
  all_goals first
    | (simp at h; done)
    | skip
  rename_i h0 h1 h2 h3 h4 h5 h6 _ _ _ h7 h8
  refine ⟨by simpa using h0, ?_, by omega, by omega, by omega, fun l => ?_, by simpa using h8⟩
  · have ne : profileGeneration img ≠ 0 := fun e => h1 (.inl e)
    have : (profileGeneration img).toNat ≠ 0 := fun e => ne (BitVec.eq_of_toNat_eq (by simpa using e))
    omega
  · have := List.find?_eq_none.1 h7 l (mem_allLines l)
    simpa using this

theorem ceiling_lt (img : Image) : profileLeaseCeiling img < 65536 := (imageWord img 6).isLt

/-- The active slot is recorded VALID (Table 9-3). -/
theorem chooseSlot_valid {f : SlotId → SlotStatus} {x : SlotId} (h : chooseSlot (f .a) (f .b) = some x) :
    ∃ g, f x = .valid g := by
  unfold chooseSlot at h
  split at h
  · split at h <;> (cases h; exact ⟨_, ‹_›⟩)
  · cases h; exact ⟨_, ‹_›⟩
  · cases h; exact ⟨_, ‹_›⟩
  · cases h

theorem profileValid_of_status {img : Image} {g : BitVec 16} (h : slotStatusOf img = .valid g) :
    profileValid img = true ∧ profileGeneration img = g := by
  unfold slotStatusOf at h
  split at h
  · cases h
  · split at h
    · exact ⟨‹_›, by injection h⟩
    · cases h

/-- The granted lease lies within the limits of a valid profile (R131). -/
theorem grantedLease_range {img : Image} (h : profileValid img = true) (n : Nat) :
    10 ≤ grantedLease (profileLeaseFloor img) (profileLeaseCeiling img) n ∧
    grantedLease (profileLeaseFloor img) (profileLeaseCeiling img) n ≤ 65535 := by
  have v := validFields h
  have a := v.floor
  have b := v.ceiling
  have c := ceiling_lt img
  unfold grantedLease
  repeat' split
  all_goals omega

end Sys2Proof.Machine
end

