-- ==== Sys2Proof/Laws/Serve.lean ====
section
/-! SUPPORT. What the service of every request leaves alone: the Port Interfaces, and the sessions but for ATTACH and
DETACH. -/

namespace Sys2Proof.Machine

theorem serveAttach_ports (p : Port) (payload : List Byte) (s : State) : (serveAttach p payload s).1.ports = s.ports := by
  unfold serveAttach
  repeat' split
  all_goals simp [refuse, answer]

theorem serveDetach_ports (p : Port) (payload : List Byte) (s : State) : (serveDetach p payload s).1.ports = s.ports := by
  unfold serveDetach
  repeat' split
  all_goals simp [refuse, detachReply, answer]

theorem serveClaim_fields (p : Port) (payload : List Byte) (s : State) :
    (serveClaim p payload s).1.ports = s.ports ∧ (serveClaim p payload s).1.sessions = s.sessions := by
  unfold serveClaim
  split
  · exact ⟨rfl, rfl⟩
  split
  · exact ⟨rfl, rfl⟩
  unfold evaluateClaim contendClaim queueClaim
  repeat' split
  all_goals simp [answer, claimGranted]

theorem serveRelease_fields (p : Port) (payload : List Byte) (s : State) :
    (serveRelease p payload s).1.ports = s.ports ∧ (serveRelease p payload s).1.sessions = s.sessions := by
  unfold serveRelease
  repeat' split
  all_goals simp [refuse, releaseLine, answer]

theorem serveCancel_fields (p : Port) (payload : List Byte) (s : State) :
    (serveCancel p payload s).1.ports = s.ports ∧ (serveCancel p payload s).1.sessions = s.sessions := by
  unfold serveCancel
  repeat' split
  all_goals simp [refuse, cancelLine, answer]

theorem serveStage_fields (p : Port) (payload : List Byte) (s : State) :
    (serveStage p payload s).1.ports = s.ports ∧ (serveStage p payload s).1.sessions = s.sessions := by
  unfold serveStage
  repeat' split
  all_goals simp [refuse, stageLine, answer]

theorem serveUnstage_fields (p : Port) (payload : List Byte) (s : State) :
    (serveUnstage p payload s).1.ports = s.ports ∧ (serveUnstage p payload s).1.sessions = s.sessions := by
  unfold serveUnstage
  repeat' split
  all_goals simp [refuse, unstageLine, answer]

theorem serveDiscard_fields (p : Port) (payload : List Byte) (s : State) :
    (serveDiscard p payload s).1.ports = s.ports ∧ (serveDiscard p payload s).1.sessions = s.sessions := by
  unfold serveDiscard
  repeat' split
  all_goals simp [refuse, answer]

theorem serveCommit_fields (p : Port) (payload : List Byte) (s : State) :
    (serveCommit p payload s).1.ports = s.ports ∧ (serveCommit p payload s).1.sessions = s.sessions := by
  unfold serveCommit
  repeat' split
  all_goals simp [refuse, answer]

theorem servePulse_fields (p : Port) (payload : List Byte) (s : State) :
    (servePulse p payload s).1.ports = s.ports ∧ (servePulse p payload s).1.sessions = s.sessions := by
  unfold servePulse
  repeat' split
  all_goals simp [refuse, answer]

theorem serveWatch_fields (p : Port) (payload : List Byte) (s : State) :
    (serveWatch p payload s).1.ports = s.ports ∧ (serveWatch p payload s).1.sessions = s.sessions := by
  unfold serveWatch
  repeat' split
  all_goals simp [refuse, answer]

theorem serveFetchEvents_fields (p : Port) (payload : List Byte) (s : State) :
    (serveFetchEvents p payload s).1.ports = s.ports ∧ (serveFetchEvents p payload s).1.sessions = s.sessions := by
  unfold serveFetchEvents
  repeat' split
  all_goals simp [refuse, fetchRecords, answer]

theorem serveOpenEdit_fields (p : Port) (payload : List Byte) (s : State) :
    (serveOpenEdit p payload s).1.ports = s.ports ∧ (serveOpenEdit p payload s).1.sessions = s.sessions := by
  unfold serveOpenEdit
  repeat' split
  all_goals exact ⟨rfl, rfl⟩

theorem serveWriteImage_fields (p : Port) (payload : List Byte) (s : State) :
    (serveWriteImage p payload s).1.ports = s.ports ∧ (serveWriteImage p payload s).1.sessions = s.sessions := by
  unfold serveWriteImage
  repeat' split
  all_goals exact ⟨rfl, rfl⟩

theorem serveCloseEdit_fields (p : Port) (payload : List Byte) (s : State) :
    (serveCloseEdit p payload s).1.ports = s.ports ∧ (serveCloseEdit p payload s).1.sessions = s.sessions := by
  unfold serveCloseEdit
  repeat' split
  all_goals exact ⟨rfl, rfl⟩

theorem serveBurnImage_fields (p : Port) (payload : List Byte) (s : State) :
    (serveBurnImage p payload s).1.ports = s.ports ∧ (serveBurnImage p payload s).1.sessions = s.sessions := by
  unfold serveBurnImage burnSealed
  dsimp only
  repeat' split
  all_goals simp [refuse, answer]

/-- No service touches a Port Interface; ATTACH and DETACH alone touch a session. -/
theorem serve_fields (r : Request) (found : Nat) (p : Port) (payload : List Byte) (s : State) :
    (serve r found p payload s).1.ports = s.ports ∧
    (r ≠ .attach → r ≠ .detach → (serve r found p payload s).1.sessions = s.sessions) := by
  have same := effects_reports found p payload s
  cases r with
  | attach => exact ⟨serveAttach_ports p payload s, fun h => absurd rfl h⟩
  | detach => exact ⟨serveDetach_ports p payload s, fun _ h => absurd rfl h⟩
  | renew => rw [serve, same.1]; exact ⟨rfl, fun _ _ => rfl⟩
  | querySelf => rw [serve, same.2.1]; exact ⟨rfl, fun _ _ => rfl⟩
  | queryDevice => rw [serve, same.2.2.1]; exact ⟨rfl, fun _ _ => rfl⟩
  | portReset => exact ⟨rfl, fun _ _ => rfl⟩
  | claim => exact (serveClaim_fields p payload s).imp id fun h _ _ => h
  | release => exact (serveRelease_fields p payload s).imp id fun h _ _ => h
  | cancel => exact (serveCancel_fields p payload s).imp id fun h _ _ => h
  | queryLine => rw [serve, same.2.2.2.1]; exact ⟨rfl, fun _ _ => rfl⟩
  | stage => exact (serveStage_fields p payload s).imp id fun h _ _ => h
  | unstage => exact (serveUnstage_fields p payload s).imp id fun h _ _ => h
  | discard => exact (serveDiscard_fields p payload s).imp id fun h _ _ => h
  | commit => exact (serveCommit_fields p payload s).imp id fun h _ _ => h
  | pulse => exact (servePulse_fields p payload s).imp id fun h _ _ => h
  | sample => rw [serve, same.2.2.2.2.1]; exact ⟨rfl, fun _ _ => rfl⟩
  | watch => exact (serveWatch_fields p payload s).imp id fun h _ _ => h
  | fetchEvents => exact (serveFetchEvents_fields p payload s).imp id fun h _ _ => h
  | openEdit => exact (serveOpenEdit_fields p payload s).imp id fun h _ _ => h
  | writeImage => exact (serveWriteImage_fields p payload s).imp id fun h _ _ => h
  | readImage => rw [serve, same.2.2.2.2.2]; exact ⟨rfl, fun _ _ => rfl⟩
  | burnImage => exact (serveBurnImage_fields p payload s).imp id fun h _ _ => h
  | closeEdit => exact (serveCloseEdit_fields p payload s).imp id fun h _ _ => h

/-- A taken request of an ATTACHED session other than ATTACH and DETACH: the answer of exec, and what it leaves of the port
and of the session (R132, R174). -/
theorem exec_attended {p : Port} {span : Span} {payload : List Byte} {s : State} {a : Attached} (h : Takes p span payload s)
    (ha : AttachedAs p a s) (r : Request) (h1 : r ≠ .portReset) (h2 : r ≠ .attach) (h3 : r ≠ .detach) (tag : Byte) :
    let served := serve r (leaseFound p s) p payload (begun p (frameBits p payload s) s)
    ∃ t, exec (requestInstr r p tag payload span) s = .next t ∧ t = placed p ⟨requestCode r, tag, payload⟩ served ∧
      Attended p a r tag payload served.2 s t ∧ Frame { ports := only p } served.1 t := by
  have f := serve_fields r (leaseFound p s) p payload (begun p (frameBits p payload s) s)
  refine ⟨_, exec_taken h r h1 tag, rfl, attended_placed ha ?_ ?_, Frame.placed _ _ _⟩
  · simp only [State.port, f.1]
  · simp only [State.session, f.2 h2 h3]

end Sys2Proof.Machine
end

