-- ==== Sys2Proof/Tests/Slice0.lean ====
section
/-! SUPPORT. Tests. Expected values come from the manual's worked tables, from the published check values of the two CRCs,
or from hand calculation by the rule named. `test_premises_<Statement>` shows states and operands that meet the hypotheses
of a statement, clause by clause. -/

set_option Elab.async false

namespace Sys2Proof.Tests

open Sys2Proof Sys2Proof.Machine

/-! ### CRCs, frames and well-formedness -/

/-- The check value of the CRC-8 with polynomial 07H over "123456789" (R183). -/
theorem test_crc8_check : crc8 [0x31, 0x32, 0x33, 0x34, 0x35, 0x36, 0x37, 0x38, 0x39] = 0xF4#8 := by decide +kernel

/-- The check value of the CRC-16 of R153 over "123456789". -/
theorem test_crc16_check : crc16 [0x31, 0x32, 0x33, 0x34, 0x35, 0x36, 0x37, 0x38, 0x39] = 0x29B1#16 := by decide +kernel

/-- QUERY SELF with tag 11H as Table 10-3 lays it out; E9H is the CRC-8 of 04H 11H 00H. -/
theorem test_frame_querySelf :
    parseFrame ⟨[0x5A, 0x04, 0x11, 0x00, 0xE9], 0⟩ = some ⟨0x04, 0x11, []⟩ ∧ requestOf 0x04 = some .querySelf := by
  decide +kernel

theorem test_frame_wrong_crc : parseFrame ⟨[0x5A, 0x04, 0x11, 0x00, 0xE8], 0⟩ = none := by decide +kernel

theorem test_frame_spare_clock : parseFrame ⟨[0x5A, 0x04, 0x11, 0x00, 0xE9], 1⟩ = none := by decide +kernel

theorem test_no_table_word : decodeTableWord 8 0x5A = none := by decide

theorem test_illformed_torn : wellFormed (.powerOnReset (.writing 1#128 none (List.replicate 128 0))) = false := by decide +kernel

theorem test_illformed_torn_brownOut : wellFormed (.brownOutReset (.writing 0#128 (some 0) (List.replicate 128 0))) = false := by decide +kernel

theorem test_illformed_torn_rstN : wellFormed (.rstNReset (.readingBack [0xFF])) = false := by decide

theorem test_illformed_tick : wellFormed (.tick (.reaches .inputMonitor)) = false := by decide

theorem test_illformed_readBack : wellFormed (.burnCompletion []) = false := by decide

theorem test_illformed_readResponse : wellFormed (.readResponse 0 7 .whole) = false := by decide

theorem test_illformed_frameError : wellFormed (.frameError 0 ⟨[0xA5], 0⟩ .whole) = false := by decide

theorem test_illformed_busyDrop : wellFormed (.busyDrop 0 0x7E 0 [] .whole) = false := by decide

theorem test_illformed_unknown : wellFormed (.unknown 0 0x10 0 [] .whole) = false := by decide

theorem test_illformed_payload : wellFormed (.claim 0 0 (List.replicate 33 0) .whole) = false := by decide

theorem test_illformed_payload_image : wellFormed (.writeImage 0 0 (List.replicate 33 0) .whole) = false := by decide

/-! ### The worked tables of the manual -/

/-- An exclusive and a SHARE entry of Table 2-2. -/
def entryX (p : Port) : WaitEntry := ⟨p, .exclusive .holdInput, false, none, 0⟩

def entryS (p : Port) : WaitEntry := ⟨p, .share true, false, none, 0⟩

def queued (ws : List WaitEntry) : LineEntry := ⟨.unowned, ws, false⟩

theorem test_succession_empty : (succession 9 (queued [])).entry.owners = .unowned := by decide

theorem test_succession_X1S2S3 :
    succession 9 (queued [entryX 1, entryS 2, entryS 3]) =
      ⟨⟨.held ⟨1, .holdInput, false, 9, none⟩, [entryS 2, entryS 3], false⟩, [1]⟩ := by decide

theorem test_succession_S1S2X3 :
    succession 9 (queued [entryS 1, entryS 2, entryX 3]) =
      ⟨⟨.shared [⟨1, true, false, 9, none⟩, ⟨2, true, false, 9, none⟩], [entryX 3], false⟩, [1, 2]⟩ := by decide

theorem test_succession_S1X2S3 :
    succession 9 (queued [entryS 1, entryX 2, entryS 3]) =
      ⟨⟨.shared [⟨1, true, false, 9, none⟩], [entryX 2, entryS 3], false⟩, [1]⟩ := by decide

/-- Table 5-3, stamps 103 and 104: filter length 2, the second and third differing sample. -/
theorem test_filter_table :
    filterSample 2 ⟨some false, 1⟩ true false = ⟨⟨some false, 2⟩, true, false⟩ ∧
    filterSample 2 ⟨some false, 2⟩ true false = ⟨⟨none, 0⟩, false, true⟩ := by decide

/-- Table 5-3, stamp 101: a sample that agrees breaks the run. -/
theorem test_filter_broken : filterSample 2 ⟨some false, 1⟩ true true = ⟨⟨none, 0⟩, true, false⟩ := by decide

/-- Table 7-4. -/
theorem test_granted_lease :
    [0, 1, 40, 1500, 4000, 65535].map (grantedLease 40 4000) = [4000, 40, 40, 1500, 4000, 4000] := by decide

/-! ### States -/

/-- A valid image with generation 1: tick code 2, leases 40 to 4000, grades PRIORITY, STANDARD, OBSERVER and PRIORITY, ports
P0 to P2 enabled. L0 and L1 push-pull (L1 for P0 alone, not forcible), L2 input, L20 shared open-drain with filter length
2, L23 open-drain with filter length 15. Its CRC-16, 660CH, was computed outside Lean. -/
def testImage : Image :=
  [(0, 0x3C#8), (2, 0x01#8), (3, 0x02#8), (5, 0x28#8), (6, 0x0F#8), (7, 0xA0#8), (8, 0x86#8), (9, 0x07#8), (16, 0x92#8),
    (17, 0x0F#8), (20, 0x12#8), (21, 0x01#8), (25, 0x0F#8), (96, 0xC7#8), (97, 0x2F#8), (108, 0x84#8), (109, 0xFF#8),
    (126, 0x66#8), (127, 0x0C#8)]

set_option maxRecDepth 20000 in
theorem test_image_valid : profileValid testImage = true := by decide +kernel

set_option maxRecDepth 20000 in
theorem test_image_status : slotStatusOf testImage = .valid 1 := by decide +kernel

theorem test_erased_blank : slotStatusOf erasedImage = .blank := by decide +kernel

/-- Table 9-2 step 1 comes first. -/
theorem test_image_tag : offendingOffset (imageWrite testImage 0 0x3D) = some 0 := by decide +kernel

/-- In STARTING, with one valid slot. -/
def starting : State := { State.reset with resetting := none, slotA := testImage }

/-- OPERATING with the profile active; P0 PRIORITY, P1 STANDARD, P2 DETACHED, P3 LAPSED. -/
def running : State :=
  padUpdate (fun _ => true)
    { State.reset with
      resetting := none, device := .operating, tickCount := 100, tickPeriod := .us250
      slotA := testImage, recordA := some (.valid 1), recordB := some .blank, activeSlot := some .a
      active := some testImage
      sessions := #v[⟨.attached ⟨.priority, 40, ⟨12, false⟩⟩, 1, .powerOn⟩,
        ⟨.attached ⟨.standard, 40, ⟨40, false⟩⟩, 2, .detached⟩, ⟨.detached, 0, .powerOn⟩, ⟨.lapsed, 3, .lapsed⟩] }

/-- The entries of `working`: session 0 pulses L0, where session 1 waits; both share L20; session 1 holds L23. -/
def workingLine (l : Line) : LineEntry :=
  if l = 0 then
    ⟨.held ⟨0, .drivePP true, true, 5, some 0⟩, [⟨1, .exclusive .holdInput, false, some ⟨3, false⟩, 6⟩], false⟩
  else if l = 20 then ⟨.shared [⟨0, true, false, 7, none⟩, ⟨1, true, true, 8, none⟩], [], true⟩
  else if l = 23 then ⟨.held ⟨1, .driveOD true, true, 9, none⟩, [], false⟩
  else resetEntry

/-- The part at work: roles, a pulse, a staged set, a filter run, watch settings and records; a tick waits. -/
def working : State :=
  padUpdate (fun _ => true)
    { (running.setLines workingLine).setTimer 0 (some ⟨0, 0, false, ⟨7, false⟩⟩) with
      pending := [.tick .whole]
      staged := #v[[⟨0, true⟩, ⟨20, false⟩], [], [], []]
      filters := (Vector.replicate 24 restingFilter).set 20 ⟨some false, 2⟩
      watches := #v[(Vector.replicate 24 WatchSetting.none).set 20 .fall, noWatches, noWatches, noWatches]
      queues := #v[⟨[.notice ⟨0, .granted, 0, 5⟩, .change ⟨20, true, 4⟩], 0⟩, emptyQueue, emptyQueue, emptyQueue]
      attn := #v[true, false, false, false] }

/-- `working` with session 2 ATTACHED in this grade. -/
def joined (g : Grade) : State := working.setSession 2 ⟨.attached ⟨g, 40, ⟨40, false⟩⟩, 1, .powerOn⟩

/-- MAINTENANCE with the lock of port 1, whose burn into slot B runs. -/
def burning : State :=
  { State.reset with
    pending := [.tick .whole], resetting := none, device := .maintenance, maint := true
    slotA := testImage, recordA := some (.valid 1), recordB := some .invalid, activeSlot := some .a
    active := some testImage, buffer := testImage, lock := .held 1, burn := some ⟨.b, 2, 1⟩
    ports := (Vector.replicate 4 resetPort).set 1 { resetPort with state := .executing ⟨0x43, 7, [], none⟩ } }

/-- MAINTENANCE with the lock of port 1 and no burn. -/
def editing : State := { burning with burn := none, recordB := some .blank, ports := Vector.replicate 4 resetPort }

/-- Port 0 EXECUTING with its reply formed, one request of port 1 overtaken, port 2 RESPONSE_READY. -/
def serving : State :=
  { working with
    ports := #v[{ resetPort with state := .executing ⟨0x03, 1, [], some ⟨.ok, []⟩⟩ },
      { resetPort with overtaken := [⟨0x03, 2, [], some ⟨.ok, []⟩⟩] },
      { resetPort with state := .ready ⟨5, 0x04, ⟨.ok, [1, 2]⟩⟩ }, resetPort]
    attn := #v[true, false, true, false] }

/-- Port 0 with chip select low since an earlier falling edge. -/
def selected : State :=
  { working with
    ports := (Vector.replicate 4 resetPort).set 0 { resetPort with transaction := some ⟨0x09, false⟩ } }

/-- No expiry is outstanding, as a check. -/
def calm (s : State) : Bool :=
  allPorts.all (fun p => !leaseDue p s) && allLines.all (fun l => allPorts.all fun p => !waitDue l p s) &&
    allTimers.all fun x => !expired ((s.timer x).map PulseTimer.countdown)

theorem settled_of_calm {s : State} (h : calm s = true) : Settled s := by
  simp only [calm, Bool.and_eq_true, List.all_eq_true, Bool.not_eq_true'] at h
  obtain ⟨⟨a, b⟩, c⟩ := h
  refine ⟨fun p x hx => ?_, fun l w y hw hy => ?_, fun x r hr => ?_⟩
  · exact Bool.eq_false_iff.2 fun d => by
      have := a p (mem_allPorts p)
      rw [(leaseDue_iff p s).2 ⟨x, hx, d⟩] at this
      cases this
  · exact Bool.eq_false_iff.2 fun d => by
      have := b l (mem_allLines l) w.session (mem_allPorts _)
      rw [(waitDue_iff l w.session s).2 ⟨w, y, hw, rfl, hy, d⟩] at this
      cases this
  · simpa [hr, expired] using c x (mem_allTimers x)

theorem opened {p : Port} {s : State} (running : s.resetting = none) (closed : (s.port p).transaction = none)
    (settled : calm s = true := by decide +kernel) : Opened p s .whole ⟨statusByte s p, s.device = .starting⟩ :=
  .whole running closed (settled_of_calm settled)

/-- The hypotheses of a taken request in a part that is neither in reset nor STARTING. -/
theorem takes {p : Port} {payload : List Byte} {s : State} (running : s.resetting = none)
    (closed : (s.port p).transaction = none) (started : s.device ≠ .starting) (idle : (s.port p).state = .idle)
    (fits : payload.length ≤ 32) (settled : calm s = true := by decide +kernel) : Takes p .whole payload s :=
  ⟨⟨_, opened running closed settled, by simpa using started⟩, idle, fits⟩

/-! ### Single commands -/

/-- What a command leaves satisfies a test. -/
def after (c : Instr) (s : State) (holds : State → Bool) : Bool :=
  match exec c s with
  | .next t => holds t
  | .fault _ => false
  | .refused _ => false

/-- R173: the frame-error flag alone. -/
theorem test_frameError_sets_flag :
    after (.frameError 0 ⟨[0xFF], 0⟩ .whole) working (fun t =>
      (t.port 0).frameError = true ∧ (t.port 0).busyDrop = false) = true := by decide +kernel

/-- R65, R62: timer 0 runs, so the pulse takes timer 1. -/
theorem test_pulse_takes_lowest_free :
    after (.pulse 0 1 [20, 0, 0, 10] .whole) working (fun t =>
      t.timer 1 = some ⟨20, 0, false, ⟨10, false⟩⟩ ∧ t.pad 20 = ⟨.openDrain false, .up⟩) = true := by decide +kernel

/-- R36, R42: the release of L0 hands it to session 1, which waits for HOLD_INPUT; the cut pulse frees its timer. -/
theorem test_release_hands_on :
    after (.release 0 1 [0] .whole) working (fun t =>
      (t.line 0).owners = .held ⟨1, .holdInput, false, 100, none⟩ ∧ t.timer 0 = none ∧
      t.pad 0 = ⟨.input, .none⟩ ∧ (t.queue 1).records = [.notice ⟨0, .granted, 0, 100⟩] ∧ t.attn[1] = true) = true := by decide +kernel

/-- R31: session 0 forces L23; session 1 with its stay flag is put at the head of the queue and told so. -/
theorem test_force_requeues :
    after (.claim 0 1 [23, 2, 0, 2, 0, 0] .whole) working (fun t =>
      t.line 23 = ⟨.held ⟨0, .driveOD false, false, 100, none⟩,
      [⟨1, .exclusive (.driveOD true), true, none, 100⟩], false⟩ ∧
      (t.queue 1).records = [.notice ⟨23, .revoked false, 0, 100⟩]) = true := by decide +kernel

/-- R81, R83: the staged value of L0 waits behind the pulse (bit 0 of the deferred map); L20 goes low. -/
theorem test_commit_defers_pulsing_line :
    after (.commit 0 1 [] .whole) working (fun t =>
      (t.port 0).state = .executing ⟨0x22, 1, [], some ⟨.ok, [2, 0, 100, 0, 0, 1]⟩⟩ ∧
      t.pad 0 = ⟨.pushPull false, .none⟩ ∧ t.pad 20 = ⟨.openDrain false, .up⟩ ∧ t.stagedSet 0 = []) = true := by decide +kernel

/-- R88, R98: the third low sample of L20 is confirmed; session 0 watches FALL there. -/
theorem test_sampling_offers_change :
    after (.inputSampling 0) { working with lag := ⟨0, 0, 0, 1⟩ } (fun t =>
      (t.line 20).confirmed = false ∧
      (t.queue 0).records = [.notice ⟨0, .granted, 0, 5⟩, .change ⟨20, true, 4⟩, .change ⟨20, false, 100⟩] ∧
      (t.queue 1).records = []) = true := by decide +kernel

/-- R115, Table 10-6: the NOTICE first. -/
theorem test_fetch_oldest_first :
    after (.fetchEvents 0 1 [1] .whole) working (fun t =>
      (t.port 0).state =
      .executing ⟨0x32, 1, [1], some ⟨.ok, [1, 0, 1, 0x80, 0, 0, 0, 5, 0]⟩⟩ ∧ t.attn[0] = true) = true := by decide +kernel

set_option maxRecDepth 20000 in
/-- R166 step 3: the larger recorded generation is 1, so the burn writes generation 2 into slot B. -/
theorem test_burn_numbers_image :
    after (.burnImage 1 7 [] .whole) editing (fun t =>
      t.burn = some ⟨.b, 2, 1⟩ ∧ t.recordB = some .invalid ∧ imageWord t.buffer 1 = 2) = true := by decide +kernel

set_option maxRecDepth 20000 in
/-- R155, R157: MAINT was low and slot A is valid, so the part starts up into OPERATING. -/
theorem test_start_up_operating :
    after (.endOfStartUp 0x000001) starting (fun t =>
      t.device = .operating ∧ t.pad 0 = ⟨.pushPull false, .none⟩ ∧ (t.line 0).confirmed = true) = true := by decide +kernel

set_option maxRecDepth 20000 in
/-- R181: a PORT RESET in IDLE, after an earlier one overtook a BURN IMAGE whose burn still runs, reports both flags
(Table 10-2: session state DETACHED, end reason POWER_ON). -/
theorem test_portReset_reports_earlier_overtaken :
    after (.portReset 1 9 [] .whole)
      { burning with ports := burning.ports.set 1 { resetPort with overtaken := [⟨0x43, 7, [], none⟩] } } (fun t =>
      (t.port 1).state = .executing ⟨requestCode .portReset, 9, [], some ⟨.ok, [0, 4, 3]⟩⟩) = true := by decide +kernel

/-- R170: Pk_SDO is driven from the falling edge to the rising edge, and a device reset ends that. -/
theorem test_sdoPin_follows_transaction :
    after (.statusPoll 0 8 .fall) working (fun t => sdoPin (t.port 0) = .driven ∧ sdoPin (t.port 1) = .highImpedance) = true ∧
    after (.statusPoll 0 8 .rest) selected (fun t => sdoPin (t.port 0) = .highImpedance) = true ∧
    after (.rstNReset .tagging) selected (fun t => sdoPin (t.port 0) = .highImpedance) = true := by decide +kernel

/-! ### Premises: the machine and its invariants -/

theorem test_premises_StepRunsFrontCommand :
    working.pending = .tick .whole :: [] ∧ State.reset.pending = [] := ⟨rfl, rfl⟩

theorem test_premises_FramesEncodeAndParse :
    parseFrame (encodeFrame ⟨0x41, 9, List.replicate 32 0xEE⟩) = some ⟨0x41, 9, List.replicate 32 0xEE⟩ := by decide +kernel

theorem working_entries : ∀ l, (roleSessions (working.line l)).Nodup ∧ (working.line l).owners ≠ .shared [] ∧
    ((working.line l).owners = .unowned → (working.line l).queue = []) ∧
    (match (working.line l).owners with | .shared _ => (working.line l).queue.isEmpty | _ => true) = true := by
  decide +kernel

theorem working_linesWf : LinesWf working := fun l => by
  obtain ⟨a, b, c, d⟩ := working_entries l
  refine ⟨a, b, c, fun ss w h e => ?_⟩
  simp only [h, List.isEmpty_iff] at d
  rw [d] at e
  cases e

theorem test_premises_StepKeepsRolesAndBudget :
    BudgetInv working ∧ ∃ t, step working = .next t :=
  ⟨⟨working_linesWf, by decide +kernel⟩, _, rfl⟩

theorem test_premises_StepKeepsAttention :
    AttnAgrees working ∧ ∃ t, step working = .next t :=
  ⟨fun p => by revert p; decide +kernel, _, rfl⟩

theorem test_premises_StepKeepsQueues : QueuesWf working ∧ ∃ t, step working = .next t :=
  ⟨fun p => ⟨by revert p; decide +kernel, by revert p; decide +kernel, by revert p; decide +kernel,
    by revert p; decide +kernel⟩, _, rfl⟩

theorem test_premises_StepKeepsStagedSets : StagedWf working ∧ ∃ t, step working = .next t :=
  ⟨fun p => by revert p; decide +kernel, _, rfl⟩

theorem test_premises_StepKeepsOnlyAttached : OnlyAttachedInv working ∧ ∃ t, step working = .next t :=
  have only : ∀ p, isAttached (working.session p).state = false → (∀ l, working.hasRole p l = false) ∧
      (∀ t, timerOf p working t = false) ∧ working.stagedSet p = [] ∧ working.watch p = noWatches ∧
      working.queue p = emptyQueue := by decide +kernel
  ⟨fun p h => ⟨(only p h).1, (only p h).2.1, (only p h).2.2.1, (only p h).2.2.2.1, (only p h).2.2.2.2⟩, _, rfl⟩

theorem working_timers : (∀ t : TimerId, t ≠ 0 → working.timer t = none) ∧
    (∀ l, ∀ v ∈ ownerViews (working.line l).owners, ∀ t, v.pulse = some t → t = 0 ∧ l = 0 ∧ v.session = 0) := by
  decide +kernel

theorem test_premises_StepKeepsPadsDerived : DriveInv working ∧ ∃ t, step working = .next t := by
  refine ⟨⟨working_linesWf, ⟨fun t r h => ?_, fun l v t hv ht => ?_⟩, fun l => by revert l; decide +kernel⟩, _, rfl⟩
  · by_cases h0 : t = 0
    · subst h0
      cases h
      exact ⟨⟨0, .exclusive (.drivePP true), true, 5, some 0⟩, by decide +kernel, rfl, rfl⟩
    · rw [working_timers.1 t h0] at h
      cases h
  · obtain ⟨rfl, rfl, e⟩ := working_timers.2 l v hv t ht
    exact ⟨_, rfl, rfl, e.symm⟩

/-- Session 1 holds L2 with HOLD_INPUT and shares L20, where its vote 0 stands against a vote 1. -/
def holding : State :=
  padUpdate (fun _ => true) (running.setLines fun l =>
    if l = 2 then ⟨.held ⟨1, .holdInput, false, 0, none⟩, [], false⟩
    else if l = 20 then ⟨.shared [⟨0, true, false, 0, none⟩, ⟨1, false, false, 0, none⟩], [], false⟩
    else resetEntry)

/-- Lines without pulses and without waiters, and pads as derived. -/
theorem driveInv_of_quiet {s : State} (timers : ∀ x, s.timer x = none)
    (entries : ∀ l, (roleSessions (s.line l)).Nodup ∧ (s.line l).owners ≠ .shared [] ∧ (s.line l).queue = [] ∧
      ∀ v ∈ ownerViews (s.line l).owners, v.pulse = none) (pads : ∀ l, s.pad l = s.padFor l) : DriveInv s :=
  ⟨fun l => ⟨(entries l).1, (entries l).2.1, fun _ => (entries l).2.2.1, fun _ _ _ h => by simp [(entries l).2.2.1] at h⟩,
    ⟨fun x r h => by simp [timers x] at h, fun l v x m h => by simp [(entries l).2.2.2 v m] at h⟩, pads⟩

/-- Every row of Table 3-1: L0 and L23 HELD in DRIVE_PP (with a pulse) and DRIVE_OD, L20 SHARED with all votes 1 and with a
vote 0, L2 HELD in HOLD_INPUT, L1 UNOWNED, and no profile. -/
theorem test_premises_StepKeepsPadsDerived_rows :
    (DriveInv holding ∧ holding.active = some testImage ∧ (holding.line 2).owners = .held ⟨1, .holdInput, false, 0, none⟩ ∧
      (holding.line 20).owners = .shared [⟨0, true, false, 0, none⟩, ⟨1, false, false, 0, none⟩] ∧
      EffectiveValue holding false none false ∧ profileBias testImage 2 = some .none ∧
      profileBias testImage 20 = some .up) ∧
    (DriveInv State.reset ∧ State.reset.active = none) ∧
    (working.line 0).owners = .held ⟨0, .drivePP true, true, 5, some 0⟩ ∧ EffectiveValue working true (some 0) false ∧
    (working.line 23).owners = .held ⟨1, .driveOD true, true, 9, none⟩ ∧ EffectiveValue working true none true ∧
    (working.line 20).owners = .shared [⟨0, true, false, 7, none⟩, ⟨1, true, true, 8, none⟩] ∧
    (working.line 1).owners = .unowned ∧ working.active = some testImage ∧
    profileSafeState testImage 1 = some .driveLow ∧ profileBias testImage 1 = some .none :=
  ⟨⟨driveInv_of_quiet (by decide +kernel) (by decide +kernel) (by decide +kernel), rfl, by decide +kernel,
      by decide +kernel, .resting, by decide +kernel, by decide +kernel⟩,
    ⟨driveInv_of_quiet (by decide +kernel) (by decide +kernel) (by decide +kernel), rfl⟩, by decide +kernel, .pulsing 0 ⟨0, 0, false, ⟨7, false⟩⟩ (by decide +kernel), by decide +kernel, .resting,
    by decide +kernel, by decide +kernel, rfl, by decide +kernel, by decide +kernel⟩

theorem test_premises_StepKeepsFilters : FiltersInv working ∧ ∃ t, step working = .next t :=
  ⟨fun l => by unfold FilterWf; revert l; decide +kernel, _, rfl⟩

theorem test_premises_StepKeepsImages : ImagesWf burning ∧ ∃ t, step burning = .next t :=
  ⟨⟨by decide +kernel, by decide +kernel, by decide +kernel, fun img h => by cases h; decide +kernel⟩, _, rfl⟩

theorem test_premises_StepKeepsCountdowns : CountdownsInv working ∧ ∃ t, step working = .next t := by
  have waits : ∀ l, ∀ w ∈ (working.line l).queue, w.countdown = some ⟨3, false⟩ := by decide +kernel
  refine ⟨⟨fun l w c hw hc => ?_, fun t r h => ?_, by decide, fun _ _ _ _ => rfl, fun _ _ _ _ _ _ => rfl,
    fun _ _ _ _ => rfl⟩, _, rfl⟩
  · rw [waits l w hw] at hc
    cases hc
    exact ⟨by decide, by decide⟩
  · by_cases h0 : t = 0
    · subst h0
      cases h
      exact ⟨by decide, by decide⟩
    · rw [working_timers.1 t h0] at h
      cases h

theorem test_premises_StepKeepsLeases : LeasesInv working ∧ DeviceInv working ∧ ∃ t, step working = .next t := by
  have limits : profileLeaseFloor testImage = 40 ∧ profileLeaseCeiling testImage = 4000 := by decide +kernel
  refine ⟨⟨fun img h => ?_, fun p a h => ?_, fun p a img h k => ?_⟩,
    ⟨nofun, nofun, nofun, nofun, nofun, nofun, rfl, fun _ _ => rfl, fun h => absurd rfl h, fun h => absurd rfl h, nofun, nofun⟩, _, rfl⟩
  · cases h
    exact test_image_valid
  · fin_cases p <;> cases h <;> decide
  · cases k
    rw [limits.1, limits.2]
    fin_cases p <;> cases h <;> decide

theorem test_premises_StepKeepsDevice : DeviceInv burning ∧ ∃ t, step burning = .next t :=
  ⟨⟨fun h => absurd rfl h, nofun, nofun, nofun, nofun, nofun, rfl, fun p h => absurd h (by revert p; decide +kernel), fun _ => rfl,
    fun _ => nofun, nofun, fun b h => by cases h; decide⟩, _, rfl⟩

/-! ### Premises: resets and start-up -/

theorem test_premises_DeviceResetsBringResetValues :
    BeginsReset working (.powerOnReset .tagging) .powerOn .tagging ∧
    BeginsReset working (.brownOutReset .tagging) .brownOut .tagging ∧
    BeginsReset working (.rstNReset .tagging) .rstN .tagging ∧ working.burn = none ∧
    State.reset.resetting = some .powerOn :=
  ⟨.powerOn _, .brownOut _ nofun, .rstN _ nofun, rfl, rfl⟩

theorem test_premises_AbandonedBurnLeavesTarget :
    BeginsReset burning (.powerOnReset (.erasing 1#128)) .powerOn (.erasing 1#128) ∧
    BeginsReset burning (.brownOutReset (.writing 2#128 (some 127) [0xFF, 0])) .brownOut
      (.writing 2#128 (some 127) [0xFF, 0]) ∧
    BeginsReset burning (.rstNReset (.readingBack [0xFF, 0])) .rstN (.readingBack [0xFF, 0]) ∧
    BeginsReset burning (.rstNReset .tagging) .rstN .tagging ∧ burning.burn = some ⟨.b, 2, 1⟩ ∧ SlotId.a ≠ .b ∧
    (0 < 128 ∧ 127 < 128 ∧ ∀ c : Fin 128, some (127 : Fin 128) = some c → c.val ≠ 1) :=
  ⟨.powerOn _, .brownOut _ nofun, .rstN _ nofun, .rstN _ nofun, rfl, nofun, by decide, by decide, by decide⟩

theorem test_premises_EndOfResetStartsLoad : State.reset.resetting ≠ none := nofun

/-- `testImage` with another tick period code, its CRC-16 made anew. -/
def testImageWithTick (code : Byte) : Image :=
  imageWriteBytes (imageWrite testImage 3 code) 126 (wordBytes (imageCrc (imageWrite testImage 3 code)))

set_option maxRecDepth 20000 in
theorem test_premises_EndOfStartUpInstallsProfile :
    starting.resetting = none ∧ starting.device = .starting ∧ (∀ l, (starting.line l).owners = .unowned) ∧
    (slotStatusOf starting.slotA = .valid 1 ∧ slotStatusOf starting.slotB = .blank) ∧
    (∀ code ∈ [(0 : Byte), 1, 2, 3], slotStatusOf (testImageWithTick code) = .valid 1 ∧
      profileTickCode (testImageWithTick code) = code) ∧
    profileSafeState testImage 0 = some .driveLow ∧ profileBias testImage 0 = some .none ∧
    profileSafeState testImage 23 = some .input ∧ profileBias testImage 23 = some .none :=
  ⟨rfl, rfl, by decide +kernel, by decide +kernel, by decide +kernel, by decide +kernel⟩

/-! ### Premises: time -/

theorem test_premises_TickAdvancesTime :
    working.resetting = none ∧ working.device ≠ .starting ∧ Settled working ∧
    working.lag = ⟨0, 0, 0, working.lag.inputMonitor⟩ ∧ AttachedAs 0 ⟨.priority, 40, ⟨12, false⟩⟩ working ∧
    isAttached (working.session 2).state = false ∧ (starting.resetting = none ∧ starting.device = .starting ∧
    Settled starting ∧ starting.lag = ⟨0, 0, 0, 0⟩) ∧ State.reset.resetting ≠ none :=
  ⟨rfl, nofun, settled_of_calm (by decide +kernel), rfl, rfl, rfl,
    ⟨rfl, rfl, settled_of_calm (by decide +kernel), rfl⟩, nofun⟩

theorem test_premises_CountdownExpiresAtNthTick :
    countdownTick^[2] (countdownLoad 3) = ⟨1, false⟩ ∧ (countdownTick^[3] (countdownLoad 3)).due = true ∧
    (countdownTick^[1] (countdownLoad 1)).due = true ∧ linkPort (.renew 0 1 [] .whole) = some 0 ∧
    working.resetting = none := by decide

/-- `working` with L23 one sample before its change is confirmed; a tick waits for the Input Monitor. -/
def nearRun : State := { working with filters := working.filters.set 23 ⟨some true, 14⟩, lag := ⟨0, 0, 0, 1⟩ }

/-- `running` with a tick that waits for the Input Monitor. -/
def freshRun : State := { running with lag := ⟨0, 0, 0, 1⟩ }

/-- The invariant of the device state holds in STARTING. -/
theorem starting_deviceInv : DeviceInv starting :=
  ⟨fun _ => rfl, fun h => absurd rfl h, fun _ => rfl, fun _ => rfl, nofun, nofun, rfl,
    fun p h => absurd h (by revert p; decide +kernel), fun h => absurd rfl h, fun h => absurd rfl h, nofun, nofun⟩

/-- A full queue of CHANGE records with its dropped count at the limit. -/
def lossyQueue : EventQueue := ⟨List.replicate 32 (.change ⟨0, true, 0⟩), 255⟩

/-- R108: the depth 31, the depth 32, and the dropped count at 255. -/
theorem test_premises_SamplingConfirmsChanges_queue :
    lossyQueue.dropped ≤ 255 ∧ lossyQueue.records.length = 32 ∧ (lossyQueue.records.drop 1).length < 32 ∧
    takeChange ⟨1, false, 9⟩ lossyQueue = lossyQueue ∧
    (takeChange ⟨1, false, 9⟩ { lossyQueue with dropped := 254 }).dropped = 255 := by decide

/-- Without an outstanding tick: in STARTING, and during a reset. -/
theorem test_premises_SamplingConfirmsChanges_idle :
    DeviceInv starting ∧ starting.device = .starting ∧ starting.lag.inputMonitor = 0 ∧
    State.reset.resetting ≠ none := ⟨starting_deviceInv, rfl, rfl, nofun⟩

theorem test_premises_SamplingConfirmsChanges :
    nearRun.lag.inputMonitor ≠ 0 ∧ (0 : LineMap).getLsbD 2 = (nearRun.line 2).confirmed ∧
    ((0 : LineMap).getLsbD 20 ≠ (nearRun.line 20).confirmed ∧ nearRun.filters[20].candidate = some false ∧
      nearRun.filterLength 20 + 1 ≤ nearRun.filters[20].count + 1) ∧
    ((1 : LineMap).getLsbD 0 ≠ (nearRun.line 0).confirmed ∧ nearRun.filters[0].candidate = none ∧
      nearRun.filterLength 0 = 0) ∧
    ((0x800000 : LineMap).getLsbD 23 ≠ (nearRun.line 23).confirmed ∧ nearRun.filters[23].candidate = some true ∧
      nearRun.filters[23].count + 1 < nearRun.filterLength 23 + 1) ∧
    (freshRun.lag.inputMonitor ≠ 0 ∧ (0x800000 : LineMap).getLsbD 23 ≠ (freshRun.line 23).confirmed ∧
      freshRun.filters[23].candidate = none ∧ 1 ≤ freshRun.filterLength 23) := by decide +kernel

/-- Every row of Table 5-1: the filter lengths 0 and 15, no candidate, and counts below and at F. -/
theorem test_premises_FilterConfirmsAfterRun :
    filterRun 0 true 0 = ⟨none, 0⟩ ∧ filterRun 15 true 15 = ⟨some false, 15⟩ ∧
    (restingFilter.candidate = none ∧ (⟨some false, 14⟩ : LineFilter).count + 1 < 15 + 1 ∧
      (⟨some false, 15⟩ : LineFilter).count + 1 = 15 + 1) := by decide

/-- `working` with every countdown of session 0 or 1 at its last tick. -/
def expiring : State :=
  { working with
    sessions := working.sessions.set 0 ⟨.attached ⟨.priority, 40, ⟨1, true⟩⟩, 1, .powerOn⟩
    lines := working.lines.set 0
      ⟨.held ⟨0, .drivePP true, true, 5, some 0⟩, [⟨1, .exclusive .holdInput, false, some ⟨1, true⟩, 6⟩], false⟩
    timers := working.timers.set 0 (some ⟨0, 0, false, ⟨1, true⟩⟩) }

theorem test_premises_LeaseExpiryLapsesSession :
    AttachedAs 0 ⟨.priority, 40, ⟨1, true⟩⟩ expiring ∧ (⟨1, true⟩ : Countdown).due = true :=
  ⟨rfl, rfl⟩

/-- R134, R148: the tick that ends the lease of session 0 was taken first, so RENEW finds it LAPSED; its pulse and its hold
of L0 are gone, and the wait of session 1, which the teardown grants, has not expired. -/
theorem test_request_after_expiring_tick :
    after (.renew 0 1 [] .whole) expiring (fun t =>
      (t.session 0).state = .lapsed ∧ (t.port 0).state = .executing ⟨0x03, 1, [], some ⟨.lapsed, []⟩⟩ ∧
      (t.line 0).owners = .held ⟨1, .holdInput, false, 100, none⟩ ∧ t.timer 0 = none) = true := by decide +kernel

/-- R66: the next tick finds the pulse ended with the stamp of its last tick; WAIT_EXPIRY and LEASE_EXPIRY came first. -/
theorem test_tick_after_expiring_tick :
    after (.tick .whole) { expiring with sessions := working.sessions, lines := working.lines } (fun t =>
      t.timer 0 = none ∧ t.pad 0 = ⟨.pushPull true, .none⟩ ∧ t.tickCount = 101 ∧
      (t.queue 0).records = [.notice ⟨0, .pulseEnded, 1, 100⟩, .change ⟨20, true, 4⟩]) = true := by decide +kernel

theorem test_premises_WaitExpiryDropsClaim :
    waiterOf 1 (expiring.line 0) = some ⟨1, .exclusive .holdInput, false, some ⟨1, true⟩, 6⟩ := by decide +kernel

theorem test_premises_PulseExpiryEndsPulse : expiring.timer 0 = some ⟨0, 0, false, ⟨1, true⟩⟩ := by decide +kernel

/-! ### Premises: completions -/

theorem test_premises_BurnCompletionEndsBurn :
    let same := imageBytes testImage 0 128
    burning.burn = some ⟨.b, 2, 1⟩ ∧ same.length = 128 ∧ (∀ k < 128, same.getD k 0 = imageRead burning.buffer k) ∧
    (burning.port 1).state = .executing ⟨0x43, 7, [], none⟩ ∧
    ((same.set 0 0).getD 0 0 ≠ imageRead burning.buffer 0 ∧
      ∀ j < 128, 1 ≤ j → (same.set 0 0).getD j 0 = imageRead burning.buffer j) ∧
    ((same.set 127 0).getD 127 0 ≠ imageRead burning.buffer 127 ∧
      ∀ j < 127, (same.set 127 0).getD j 0 = imageRead burning.buffer j) ∧
    (({ burning with ports := Vector.replicate 4 resetPort } : State).port 1).state = .idle := by decide +kernel

theorem test_premises_CompletionPlacesResponse :
    (serving.port 0).state = .executing ⟨0x03, 1, [], some ⟨.ok, []⟩⟩ ∧
    (serving.port 1).overtaken[0]? = some ⟨0x03, 2, [], some ⟨.ok, []⟩⟩ ∧ AttnAgrees serving :=
  ⟨by decide +kernel, by decide +kernel, fun p => by revert p; decide +kernel⟩

/-! ### Premises: the link -/

theorem test_premises_FallingEdgeLatchesStatus :
    linkPort (.statusPoll 0 8 .whole) = some 0 ∧ working.resetting = none ∧ (working.port 0).transaction = none ∧
    Settled working ∧ (∃ t, exec (spanned .fall (.statusPoll 0 8 .whole)) working = .next t) ∧
    (Settled selected ∧ (selected.port 0).transaction ≠ none) ∧
    Settled State.reset ∧ State.reset.resetting ≠ none ∧ (State.reset.port 0).transaction = none :=
  ⟨rfl, rfl, rfl, settled_of_calm (by decide +kernel), ⟨_, rfl⟩, ⟨settled_of_calm (by decide +kernel), nofun⟩,
    settled_of_calm (by decide +kernel), nofun, rfl⟩

theorem opened_working : Opened 0 working .whole ⟨statusByte working 0, working.device = .starting⟩ := opened rfl rfl

theorem test_premises_StatusPollChangesNothing :
    (∃ o, Opened 0 working .whole o) ∧ Opened 0 selected .rest ⟨0x09, false⟩ := ⟨⟨_, opened_working⟩, .rest _ rfl (settled_of_calm (by decide +kernel))⟩

/-- A read of the two-byte response of port 2 needs 64 clocks. -/
theorem test_premises_ReadResponseDeliversOnce :
    (∃ o, Opened 2 serving .whole o ∧ o.starting = false) ∧
    (serving.port 2).state = .ready ⟨5, 0x04, ⟨.ok, [1, 2]⟩⟩ ∧
    8 * (1 + (5 + [1, 2].length)) ≤ 64 ∧ 63 < 8 * (1 + (5 + [1, 2].length)) ∧
    (∃ o, Opened 0 serving .whole o ∧ o.starting = false) ∧ ∀ r, (serving.port 0).state ≠ .ready r :=
  ⟨⟨_, opened rfl rfl, rfl⟩, rfl, by decide, by decide, ⟨_, opened rfl rfl, rfl⟩, nofun⟩

theorem test_premises_LostFramesSetOneFlag :
    (∃ o, Opened 0 serving .whole o ∧ o.starting = false) ∧ wireMalformed ⟨[0x5A], 0⟩ = true ∧
    wireMalformed ⟨[0xFF], 7⟩ = true ∧ (List.replicate 32 (0 : Byte)).length ≤ Config.maxPayload ∧
    (0x10 : Byte) ≠ requestCode .portReset ∧ (serving.port 0).state ≠ .idle :=
  ⟨⟨_, opened rfl rfl, rfl⟩, by decide, by decide, by decide, by decide, nofun⟩

theorem test_premises_StartingTransactionDiscarded :
    (∃ o, Opened 0 starting .whole o ∧ o.starting = true) ∧ linkPort (.portReset 0 1 [] .whole) = some 0 :=
  ⟨⟨_, opened rfl rfl, rfl⟩, rfl⟩

theorem test_premises_UnknownCodeAnswered : requestOf 0x7F = none ∧ Takes 0 .whole (List.replicate 32 0) working :=
  ⟨by decide, takes rfl rfl nofun rfl (by decide)⟩

theorem test_premises_RefusedBeforeOwnChecks :
    (Takes 0 .whole [] working ∧ lengthFits .claim 0 = false) ∧
    (lengthFits .claim 6 = true ∧ needsSession .claim = true ∧
      Takes 2 .whole [0, 0, 0, 0, 0, 0] working ∧ (working.session 2).state = .detached ∧
      Takes 3 .whole [0, 0, 0, 0, 0, 0] working ∧ (working.session 3).state = .lapsed) ∧
    (Takes 2 .whole [] working ∧ lengthFits .openEdit 0 = true ∧ (working.session 2).state ≠ .lapsed ∧
      working.device = .operating) :=
  ⟨⟨takes rfl rfl nofun rfl (by decide), rfl⟩,
    ⟨rfl, rfl, takes rfl rfl nofun rfl (by decide), rfl, takes rfl rfl nofun rfl (by decide), rfl⟩,
    takes rfl rfl nofun rfl (by decide), rfl, nofun, rfl⟩

theorem test_premises_TakingRestartsLease :
    Takes 0 .whole [] working ∧ AttachedAs 0 ⟨.priority, 40, ⟨12, false⟩⟩ working :=
  ⟨takes rfl rfl nofun rfl (by decide), rfl⟩

/-! ### Premises: sessions -/

theorem test_premises_AttachOpensSession :
    (Takes 2 .whole [0, 0xFF, 0xFF] working ∧ working.device = .operating ∧ working.active = some testImage ∧
      profileEnabled testImage 2 = true ∧ isAttached (working.session 2).state = false ∧
      gradeOfByte 0 = some .observer ∧ (0 : Byte).toNat ≤ profileGradeCode testImage 2) ∧
    (profileLeaseFloor testImage = 40 ∧ profileLeaseCeiling testImage = 4000) ∧
    (profileEnabled testImage 3 = false ∧ isAttached (working.session 0).state = true ∧ gradeOfByte 3 = none ∧
      profileGradeCode testImage 2 < (1 : Byte).toNat) :=
  ⟨⟨takes rfl rfl nofun rfl (by decide), rfl, rfl, by decide +kernel, rfl, rfl, by decide +kernel⟩, by decide +kernel,
    by decide +kernel⟩

theorem test_premises_AttachOpensSession_refused :
    (Takes 0 .whole [0, 0, 0] { editing with device := .faulted } ∧ Takes 0 .whole [0, 0, 0] editing) ∧
    editing.device = .maintenance :=
  ⟨⟨takes rfl rfl nofun rfl (by decide), takes rfl rfl nofun rfl (by decide)⟩, rfl⟩

theorem test_premises_DetachEndsSession :
    (Takes 0 .whole [] working ∧ AttachedAs 0 ⟨.priority, 40, ⟨12, false⟩⟩ working) ∧
    (Takes 3 .whole [] working ∧ (working.session 3).state = .lapsed) ∧
    (Takes 2 .whole [] working ∧ (working.session 2).state = .detached) :=
  ⟨⟨takes rfl rfl nofun rfl (by decide), rfl⟩, ⟨takes rfl rfl nofun rfl (by decide), rfl⟩,
    takes rfl rfl nofun rfl (by decide), rfl⟩

theorem test_premises_RenewReportsLease :
    Takes 0 .whole [] working ∧ AttachedAs 0 ⟨.priority, 40, ⟨12, false⟩⟩ working :=
  ⟨takes rfl rfl nofun rfl (by decide), rfl⟩

theorem test_premises_QuerySelfReportsContext : Takes 3 .whole [] working := takes rfl rfl nofun rfl (by decide)

theorem test_premises_QueryDeviceReportsStore : Takes 2 .whole [] editing := takes rfl rfl nofun rfl (by decide)

theorem test_premises_PortResetReturnsPort :
    (∃ o, Opened 0 serving .whole o ∧ o.starting = false) ∧ (List.replicate 32 (0 : Byte)).length ≤ Config.maxPayload ∧
    (serving.port 0).state = .executing ⟨0x03, 1, [], some ⟨.ok, []⟩⟩ ∧
    AttachedAs 0 ⟨.priority, 40, ⟨12, false⟩⟩ serving ∧
    (∃ o, Opened 1 serving .whole o ∧ o.starting = false) ∧ (serving.port 1).state = .idle ∧
    (serving.port 1).overtaken ≠ [] ∧
    (∃ o, Opened 3 serving .whole o ∧ o.starting = false) ∧ (serving.session 3).state = .lapsed ∧
    (∃ o, Opened 2 serving .whole o ∧ o.starting = false) ∧ (serving.session 2).state = .detached :=
  ⟨⟨_, opened rfl rfl, rfl⟩, by decide, rfl, rfl, ⟨_, opened rfl rfl, rfl⟩, rfl, nofun, ⟨_, opened rfl rfl, rfl⟩, rfl,
    ⟨_, opened rfl rfl, rfl⟩, rfl⟩

/-! ### Premises: claims and waits -/

/-- An exclusive claim of an UNOWNED line, a SHARE claim of an UNOWNED one, and a SHARE claim that joins. -/
theorem test_premises_ClaimGrantedAtOnce :
    (Takes 0 .whole [2, 0, 0, 4, 0, 0] working ∧
      claimArgs [2, 0, 0, 4, 0, 0] = some ⟨2, 0, 0, false, false, true, 0⟩ ∧
      ClaimAdmitted 0 ⟨.priority, 40, ⟨12, false⟩⟩ ⟨2, 0, 0, false, false, true, 0⟩ 2 (.exclusive .holdInput) working ∧
      (working.line 2).owners = .unowned) ∧
    (Takes 1 .whole [20, 3, 1, 0, 0, 0] running ∧
      claimArgs [20, 3, 1, 0, 0, 0] = some ⟨20, 3, 1, false, false, false, 0⟩ ∧
      ClaimAdmitted 1 ⟨.standard, 40, ⟨40, false⟩⟩ ⟨20, 3, 1, false, false, false, 0⟩ 20 (.share true) running ∧
      (running.line 20).owners = .unowned) ∧
    (Takes 2 .whole [20, 3, 1, 0, 0, 0] (joined .standard) ∧
      ClaimAdmitted 2 ⟨.standard, 40, ⟨40, false⟩⟩ ⟨20, 3, 1, false, false, false, 0⟩ 20 (.share true) (joined .standard) ∧
      ((joined .standard).line 20).owners = .shared [⟨0, true, false, 7, none⟩, ⟨1, true, true, 8, none⟩] ∧
      ((joined .standard).line 20).queue = []) :=
  ⟨⟨takes rfl rfl nofun rfl (by decide), rfl,
      ⟨rfl, rfl, nofun, nofun, by decide +kernel, rfl, ⟨.input, by decide +kernel, rfl⟩, by decide +kernel,
        by decide +kernel, nofun, nofun, nofun⟩, rfl⟩,
    ⟨takes rfl rfl nofun rfl (by decide), rfl,
      ⟨rfl, rfl, nofun, nofun, by decide +kernel, rfl, ⟨.sharedOpenDrain, by decide +kernel, rfl⟩, by decide +kernel,
        by decide +kernel, nofun, nofun, fun v h => by cases h; rfl⟩, rfl⟩,
    takes rfl rfl nofun rfl (by decide),
    ⟨rfl, rfl, nofun, nofun, by decide +kernel, rfl, ⟨.sharedOpenDrain, by decide +kernel, rfl⟩, by decide +kernel,
      by decide +kernel, nofun, nofun, fun v h => by cases h; rfl⟩, rfl, rfl⟩

/-- Session 2 finds L0 held: with the no-wait flag, with the largest wait limit, and forcing a PRIORITY holder. -/
theorem test_premises_ClaimWaitsOrIsHeld :
    (Takes 2 .whole [0, 1, 1, 1, 0xFF, 0xFF] (joined .standard) ∧
      claimArgs [0, 1, 1, 1, 0xFF, 0xFF] = some ⟨0, 1, 1, true, false, false, 0xFFFF⟩ ∧
      ClaimAdmitted 2 ⟨.standard, 40, ⟨40, false⟩⟩ ⟨0, 1, 1, true, false, false, 0xFFFF⟩ 0 (.exclusive (.drivePP true))
        (joined .standard) ∧
      ClaimContended 0 (.exclusive (.drivePP true)) false (joined .standard)) ∧
    (claimArgs [0, 1, 1, 0, 0, 0] = some ⟨0, 1, 1, false, false, false, 0⟩ ∧
      ClaimAdmitted 2 ⟨.standard, 40, ⟨40, false⟩⟩ ⟨0, 1, 1, false, false, false, 0⟩ 0 (.exclusive (.drivePP true))
        (joined .standard)) ∧
    (claimArgs [0, 1, 1, 2, 0, 0] = some ⟨0, 1, 1, false, true, false, 0⟩ ∧
      ClaimAdmitted 2 ⟨.priority, 40, ⟨40, false⟩⟩ ⟨0, 1, 1, false, true, false, 0⟩ 0 (.exclusive (.drivePP true))
        (joined .priority) ∧
      ClaimContended 0 (.exclusive (.drivePP true)) true (joined .priority)) :=
  ⟨⟨takes rfl rfl nofun rfl (by decide), rfl,
      ⟨rfl, rfl, nofun, nofun, by decide +kernel, rfl, ⟨.pushPull, by decide +kernel, rfl⟩, by decide +kernel,
        by decide +kernel, nofun, nofun, fun v h => by cases h; rfl⟩,
      ⟨nofun, nofun, nofun⟩⟩,
    ⟨rfl, ⟨rfl, rfl, nofun, nofun, by decide +kernel, rfl, ⟨.pushPull, by decide +kernel, rfl⟩, by decide +kernel,
      by decide +kernel, nofun, nofun, fun v h => by cases h; rfl⟩⟩,
    rfl,
    ⟨rfl, rfl, nofun, fun _ => rfl, by decide +kernel, rfl, ⟨.pushPull, by decide +kernel, rfl⟩, by decide +kernel,
      by decide +kernel, fun _ => by decide +kernel, fun _ => nofun, fun v h => by cases h; rfl⟩,
    ⟨nofun, nofun, fun _ => ⟨_, .head _, rfl⟩⟩⟩

theorem test_premises_ClaimPreempts :
    Takes 0 .whole [23, 2, 0, 2, 0, 0] working ∧
    claimArgs [23, 2, 0, 2, 0, 0] = some ⟨23, 2, 0, false, true, false, 0⟩ ∧
    ClaimAdmitted 0 ⟨.priority, 40, ⟨12, false⟩⟩ ⟨23, 2, 0, false, true, false, 0⟩ 23 (.exclusive (.driveOD false))
      working ∧
    (working.line 23).owners ≠ .unowned ∧
    ∀ r, r ∈ ownerViews (working.line 23).owners → working.gradeOf r.session ≠ some .priority :=
  ⟨takes rfl rfl nofun rfl (by decide), rfl,
    ⟨rfl, rfl, nofun, fun _ => rfl, by decide +kernel, rfl, ⟨.openDrain, by decide +kernel, rfl⟩, by decide +kernel,
      by decide +kernel, fun _ => by decide +kernel, fun _ => nofun, fun v h => by cases h; rfl⟩, nofun,
    by decide +kernel⟩

/-- Session 1 holds L2 to L17: its claim budget is spent. -/
def crowded : State :=
  running.setLines fun l =>
    if 2 ≤ l.val ∧ l.val ≤ 17 then ⟨.held ⟨1, .holdInput, false, 0, none⟩, [], false⟩ else resetEntry

/-- Each clause of the refusals of CLAIM at one operand value. -/
theorem test_premises_ClaimRefusedInOrder :
    (Takes 0 .whole [24, 0, 0, 0, 0, 0] working ∧ claimArgs [24, 0, 0, 0, 0, 0] = some ⟨24, 0, 0, false, false, false, 0⟩ ∧
      AttachedAs 0 ⟨.priority, 40, ⟨12, false⟩⟩ working ∧ AttachedAs 1 ⟨.standard, 40, ⟨40, false⟩⟩ working ∧
      AttachedAs 2 ⟨.observer, 40, ⟨40, false⟩⟩ (joined .observer)) ∧
    (working.permits 3 0 = false ∧ working.permits 1 0 = true ∧ working.lineClass 1 = some .pushPull ∧
      claimModeOfByte 4 = none ∧ modeAllowed .pushPull .share = false ∧ modeAllowed .pushPull .drivePP = true) ∧
    (working.hasRole 1 0 = true ∧ working.hasRole 0 1 = false ∧ crowded.hasRole 1 23 = false ∧
      crowded.claimCount 1 = 16 ∧ working.claimCount 0 < 16 ∧ working.forcible 1 = false ∧
      working.forcible 23 = true ∧ valueOfByte 2 = none) :=
  ⟨⟨takes rfl rfl nofun rfl (by decide), rfl, rfl, rfl, rfl⟩, by decide +kernel, by decide +kernel⟩

theorem test_premises_ReleaseGivesUpRole :
    Takes 0 .whole [0] working ∧ AttachedAs 0 ⟨.priority, 40, ⟨12, false⟩⟩ working ∧
    ownerOf 0 (working.line 0) = some ⟨0, .exclusive (.drivePP true), true, 5, some 0⟩ ∧ EntryWf (working.line 0) ∧
    ownerOf 0 (working.line 23) = none ∧ 24 ≤ (24 : Byte).toNat :=
  ⟨takes rfl rfl nofun rfl (by decide), rfl, by decide +kernel, working_linesWf 0, by decide +kernel, by decide⟩

theorem test_premises_CancelWithdrawsWait :
    Takes 1 .whole [0] working ∧ AttachedAs 1 ⟨.standard, 40, ⟨40, false⟩⟩ working ∧
    waiterOf 1 (working.line 0) = some ⟨1, .exclusive .holdInput, false, some ⟨3, false⟩, 6⟩ ∧
    EntryWf (working.line 0) ∧ waiterOf 1 (working.line 23) = none :=
  ⟨takes rfl rfl nofun rfl (by decide), rfl, by decide +kernel, working_linesWf 0, by decide +kernel⟩

theorem test_premises_SuccessionAndHeadJoin :
    (queued [entryS 1, entryX 2]).queue = [entryS 1] ++ [entryX 2] ∧ isShareEntry (entryS 1) = true ∧
    isShareEntry (entryX 2) = false ∧ (queued []).queue = [] ∧
    (releaseEntry 1 9 ⟨.shared [⟨1, true, false, 0, none⟩], [], false⟩).entry.owners = .unowned ∧
    (headJoin 9 ⟨.shared [⟨0, true, false, 0, none⟩], [entryS 1, entryX 2], false⟩).granted = [1] := by decide

/-- Teardown of an owner, of a waiter at the head of a SHARED line, and on a line without a role of the session. -/
theorem test_premises_SuccessionAndHeadJoin_teardown :
    Owns 0 (workingLine 0) ∧ Owns 1 (workingLine 20) ∧ ¬ Owns 1 (workingLine 0) ∧
    (∃ w, w ∈ (workingLine 0).queue ∧ w.session = 1) ∧
    tearDownEntry 2 9 ⟨.shared [⟨0, true, false, 0, none⟩], [entryX 2, entryS 1], false⟩ =
      ⟨⟨.shared [⟨0, true, false, 0, none⟩, ⟨1, true, false, 9, none⟩], [], false⟩, [1]⟩ ∧
    ¬ Owns 2 (workingLine 0) ∧ ∀ w, w ∈ (workingLine 0).queue → w.session ≠ 2 :=
  ⟨.inl ⟨_, rfl, rfl⟩, .inr ⟨_, _, rfl, .tail _ (.head _), rfl⟩,
    (ownerOf_isSome_iff _ _).not.1 (by decide), ⟨_, .head _, rfl⟩, by decide,
    (ownerOf_isSome_iff _ _).not.1 (by decide), by decide⟩

theorem test_premises_LineReportsChangeNothing :
    Takes 0 .whole [23] working ∧ Takes 0 .whole [24] working ∧ Takes 0 .whole [] working ∧
    AttachedAs 0 ⟨.priority, 40, ⟨12, false⟩⟩ working :=
  ⟨takes rfl rfl nofun rfl (by decide), takes rfl rfl nofun rfl (by decide), takes rfl rfl nofun rfl (by decide), rfl⟩

/-! ### Premises: staged sets and pulses -/

/-- `working` with a full staged set of session 0. -/
def stagedFull : State :=
  working.setStaged 0 [⟨0, true⟩, ⟨1, true⟩, ⟨2, true⟩, ⟨3, true⟩, ⟨4, true⟩, ⟨5, true⟩, ⟨6, true⟩, ⟨7, true⟩]

theorem test_premises_StageAndUnstageEditSet :
    (Takes 0 .whole [23, 1] working ∧ AttachedAs 0 ⟨.priority, 40, ⟨12, false⟩⟩ working ∧
      (∀ e ∈ working.stagedSet 0, e.line ≠ 23) ∧ (working.stagedSet 0).length < 8) ∧
    (Takes 0 .whole [23, 1] stagedFull ∧ (∀ e ∈ stagedFull.stagedSet 0, e.line ≠ 23) ∧
      8 ≤ (stagedFull.stagedSet 0).length) ∧
    (Takes 0 .whole [20, 0] working ∧ working.stagedSet 0 = [⟨0, true⟩] ++ ⟨20, false⟩ :: []) ∧
    (Takes 2 .whole [0, 0] (joined .observer) ∧ AttachedAs 2 ⟨.observer, 40, ⟨40, false⟩⟩ (joined .observer)) ∧
    Takes 0 .whole [24, 2] working ∧ Takes 0 .whole [24] working ∧ Takes 2 .whole [0] (joined .observer) :=
  ⟨⟨takes rfl rfl nofun rfl (by decide), rfl, by decide +kernel, by decide +kernel⟩,
    ⟨takes rfl rfl nofun rfl (by decide), by decide +kernel, by decide +kernel⟩,
    ⟨takes rfl rfl nofun rfl (by decide), rfl⟩, ⟨takes rfl rfl nofun rfl (by decide), rfl⟩,
    takes rfl rfl nofun rfl (by decide), takes rfl rfl nofun rfl (by decide), takes rfl rfl nofun rfl (by decide)⟩

theorem test_premises_DiscardEmptiesStagedSet :
    (Takes 0 .whole [] working ∧ AttachedAs 0 ⟨.priority, 40, ⟨12, false⟩⟩ working) ∧
    (Takes 2 .whole [] (joined .observer) ∧ AttachedAs 2 ⟨.observer, 40, ⟨40, false⟩⟩ (joined .observer)) ∧
    (Takes 2 .whole [] working ∧ (working.session 2).state = .detached) ∧
    (Takes 3 .whole [] working ∧ (working.session 3).state = .lapsed) ∧
    Takes 0 .whole [0] working :=
  ⟨⟨takes rfl rfl nofun rfl (by decide), rfl⟩, ⟨takes rfl rfl nofun rfl (by decide), rfl⟩,
    ⟨takes rfl rfl nofun rfl (by decide), rfl⟩, ⟨takes rfl rfl nofun rfl (by decide), rfl⟩,
    takes rfl rfl nofun rfl (by decide)⟩

/-- The staged set of session 0 passes in `working`; in `stagedFull` L1 is not its line. -/
theorem test_premises_CommitAppliesAllOrNone :
    (Takes 0 .whole [] working ∧ AttachedAs 0 ⟨.priority, 40, ⟨12, false⟩⟩ working ∧
      ((working.stagedSet 0).map StagedValue.line).Nodup ∧
      ∀ e ∈ working.stagedSet 0, commitPasses 0 (working.line e.line) = true) ∧
    (Takes 0 .whole [] stagedFull ∧ AttachedAs 0 ⟨.priority, 40, ⟨12, false⟩⟩ stagedFull ∧
      ((stagedFull.stagedSet 0).map StagedValue.line).Nodup ∧
      ∃ e ∈ stagedFull.stagedSet 0, commitPasses 0 (stagedFull.line e.line) = false) ∧
    (Takes 2 .whole [] (joined .observer) ∧ AttachedAs 2 ⟨.observer, 40, ⟨40, false⟩⟩ (joined .observer)) :=
  ⟨⟨takes rfl rfl nofun rfl (by decide), rfl, by decide +kernel, by decide +kernel⟩,
    ⟨takes rfl rfl nofun rfl (by decide), rfl, by decide +kernel, by decide +kernel⟩,
    takes rfl rfl nofun rfl (by decide), rfl⟩

/-- `working` with every timer RUNNING. -/
def exhausted : State := working.setTimers fun _ => some ⟨0, 0, false, ⟨7, false⟩⟩

theorem test_premises_PulseStartsTimer :
    (Takes 0 .whole [20, 0, 0xFF, 0xFF] working ∧ AttachedAs 0 ⟨.priority, 40, ⟨12, false⟩⟩ working ∧
      ownerOf 0 (working.line 20) = some ⟨0, .share true, false, 7, none⟩ ∧ working.timer 1 = none ∧
      (∀ z, z < 1 → working.timer z ≠ none)) ∧
    (ownerOf 0 (working.line 0) = some ⟨0, .exclusive (.drivePP true), true, 5, some 0⟩ ∧
      ownerOf 0 (working.line 1) = none) ∧
    (∀ y, exhausted.timer y ≠ none) ∧ ownerOf 1 (crowded.line 2) = some ⟨1, .exclusive .holdInput, false, 0, none⟩ ∧
    Takes 1 .whole [2, 0, 0, 1] crowded ∧ Takes 0 .whole [24, 2, 0, 0] working ∧
    AttachedAs 2 ⟨.observer, 40, ⟨40, false⟩⟩ (joined .observer) :=
  ⟨⟨takes rfl rfl nofun rfl (by decide), rfl, by decide +kernel, by decide +kernel, by decide +kernel⟩,
    by decide +kernel, by decide +kernel, by decide +kernel, takes rfl rfl nofun rfl (by decide),
    takes rfl rfl nofun rfl (by decide), rfl⟩

/-! ### Premises: watching, events and profile editing -/

theorem test_premises_WatchSetsEdges :
    Takes 0 .whole [0xFF, 0, 1, 3] working ∧ AttachedAs 0 ⟨.priority, 40, ⟨12, false⟩⟩ working ∧
    watchOfByte 3 = some .both ∧ Takes 0 .whole [0, 0, 0, 4] working ∧ 4 ≤ (4 : Byte).toNat :=
  ⟨takes rfl rfl nofun rfl (by decide), rfl, rfl, takes rfl rfl nofun rfl (by decide), by decide⟩

theorem test_premises_FetchEventsDrainsQueue :
    Takes 0 .whole [7] working ∧ Takes 0 .whole [8] working ∧ AttachedAs 0 ⟨.priority, 40, ⟨12, false⟩⟩ working :=
  ⟨takes rfl rfl nofun rfl (by decide), takes rfl rfl nofun rfl (by decide), rfl⟩

/-- A full queue of session 0: one NOTICE and 31 CHANGE records. -/
def flooded : State :=
  working.putQueue 0 ⟨.notice ⟨0, .granted, 15, 5⟩ :: List.replicate 31 (.change ⟨20, true, 4⟩), 255⟩

theorem test_premises_NoticesFoldOrEvict :
    isAttached (flooded.session 0).state = true ∧ QueueWf (flooded.queue 0) ∧
    (flooded.queue 0).records = [] ++ .notice ⟨0, .granted, 15, 5⟩ :: List.replicate 31 (.change ⟨20, true, 4⟩) ∧
    (flooded.queue 0).records.length = 32 ∧ (∀ n, .notice n ∈ (flooded.queue 0).records → n.line ≠ 1) ∧
    (working.queue 0).records.length < 32 :=
  ⟨rfl, ⟨by decide +kernel, by decide +kernel, by decide +kernel, by decide +kernel⟩, rfl, by decide +kernel,
    fun n h => by
      have : ∀ r ∈ (flooded.queue 0).records, noticeLine r ≠ some 1 := by decide +kernel
      simpa [noticeLine] using this _ h,
    by decide +kernel⟩

theorem test_premises_EditLockTakenAndFreed :
    (Takes 0 .whole [] { editing with lock := .free } ∧ editing.device = .maintenance ∧
      (editing.session 0).state ≠ .lapsed) ∧
    (Takes 0 .whole [] editing ∧ editing.lock ≠ .free ∧ editing.lock ≠ .held 0 ∧ editing.burn = none) ∧
    (Takes 1 .whole [] editing ∧ editing.lock = .held 1) ∧ (Takes 0 .whole [] burning ∧ burning.burn ≠ none) :=
  ⟨⟨takes rfl rfl nofun rfl (by decide), rfl, nofun⟩, ⟨takes rfl rfl nofun rfl (by decide), nofun, nofun, rfl⟩,
    ⟨takes rfl rfl nofun rfl (by decide), rfl⟩, takes rfl rfl nofun rfl (by decide), nofun⟩

theorem test_premises_ImageBytesWrittenAndRead :
    (Takes 1 .whole [104, 1, 1, 1, 1, 1, 1, 1, 1, 1, 1, 1, 1, 1, 1, 1, 1, 1, 1, 1, 1, 1, 1, 1, 1] editing ∧
      imageWf editing.buffer = true ∧ (List.replicate 24 (1 : Byte)).length ≤ 24 ∧ (104 : Byte).toNat + 24 ≤ 128 ∧
      128 < (105 : Byte).toNat + 24) ∧
    (Takes 0 .whole [3, 96, 32] editing ∧ editing.lock ≠ .held 0 ∧ editing.lock = .held 1 ∧
      (96 : Byte).toNat + (32 : Byte).toNat ≤ 128 ∧ 128 < (97 : Byte).toNat + (32 : Byte).toNat) ∧
    (Takes 0 .whole [2, 0, 1] burning ∧ (∃ b, burning.burn = some b ∧ b.target = .b) ∧
      ∀ b, burning.burn = some b → b.target ≠ .a) ∧
    (Takes 0 .whole [0, 0, 1] { editing with active := none } ∧ editing.active = some testImage) :=
  ⟨⟨takes rfl rfl nofun rfl (by decide), by decide +kernel, by decide, by decide, by decide⟩,
    ⟨takes rfl rfl nofun rfl (by decide), nofun, rfl, by decide, by decide⟩,
    ⟨takes rfl rfl nofun rfl (by decide), ⟨_, rfl, rfl⟩, fun b h => by cases h; decide⟩,
    takes rfl rfl nofun rfl (by decide), rfl⟩

set_option maxRecDepth 20000 in
/-- Generations at both sides of the limit, a buffer that is valid once sealed, and one that is not. -/
theorem test_premises_BurnImageStartsBurn :
    (Takes 1 .whole [] editing ∧ imageWf editing.buffer = true ∧ editing.device = .maintenance ∧
      (editing.session 1).state ≠ .lapsed ∧ editing.burn = none ∧ editing.lock = .held 1) ∧
    max (recordedGeneration editing.recordA) (recordedGeneration editing.recordB) = 1 ∧
    max (recordedGeneration (some (.valid 65534))) (recordedGeneration (some .blank)) = 65534 ∧
    offendingOffset (sealBuffer 2 []) = some 0 :=
  ⟨⟨takes rfl rfl nofun rfl (by decide), by decide +kernel, rfl, nofun, rfl, rfl⟩, by decide +kernel, by decide +kernel,
    by decide +kernel⟩

end Sys2Proof.Tests
end

/-! PROOFS. The statements of chapter 5: what one sample does to a line's filter, and what a run of samples does. -/

namespace Sys2Proof.Machine

/-! ### One sample (Table 5-1) -/

theorem filterSample_same (F : Nat) (f : LineFilter) (level : Bool) :
    filterSample F f level level = ⟨restingFilter, level, false⟩ := if_pos rfl

/-- The first differing sample counts 1, which confirms the change at once when F is 0. -/
theorem filterSample_of_no_candidate (F : Nat) {f : LineFilter} {confirmed sampled : Bool}
    (differs : sampled ≠ confirmed) (absent : f.candidate = none) :
    filterSample F f confirmed sampled =
      if F = 0 then ⟨restingFilter, sampled, true⟩ else ⟨⟨some sampled, 1⟩, confirmed, false⟩ := by
  simp [filterSample, differs, absent]

/-- A further differing sample raises the count, and confirms the change when it was F already. -/
theorem filterSample_of_candidate (F : Nat) {f : LineFilter} {confirmed sampled c : Bool}
    (differs : sampled ≠ confirmed) (present : f.candidate = some c) :
    filterSample F f confirmed sampled =
      if F ≤ f.count then ⟨restingFilter, sampled, true⟩ else ⟨⟨some sampled, f.count + 1⟩, confirmed, false⟩ := by
  simp [filterSample, differs, present]

theorem FilterWf.count_le {F : Nat} {confirmed : Bool} {f : LineFilter} (wf : FilterWf F confirmed f) : f.count ≤ F := by
  obtain rfl | ⟨-, -, most⟩ := wf
  · exact Nat.zero_le F
  · exact most

theorem FilterWf.candidate_eq {F : Nat} {confirmed sampled c : Bool} {f : LineFilter} (wf : FilterWf F confirmed f)
    (present : f.candidate = some c) (differs : sampled ≠ confirmed) : c = sampled := by
  obtain rfl | ⟨opposite, -, -⟩ := wf
  · cases present
  · have toOpposite : c = !confirmed := Option.some.inj (present.symm.trans opposite)
    exact toOpposite.trans (Bool.eq_not.mpr differs).symm

/-! ### A run of differing samples (R90, R92) -/

/-- The filter that k differing samples leave while none has confirmed a change; `filterRun_eq` ties it to the model. -/
def countedFilter (level : Bool) (k : Nat) : LineFilter := if k = 0 then ⟨none, 0⟩ else ⟨some level, k⟩

/-- The next differing sample after k: it counts on below F and confirms the change at F, for the first sample of a run
as for a later one. -/
theorem filterSample_countedFilter {F k : Nat} (confirmed : Bool) :
    filterSample F (countedFilter (!confirmed) k) confirmed (!confirmed) =
      if F ≤ k then ⟨restingFilter, !confirmed, true⟩ else ⟨countedFilter (!confirmed) (k + 1), confirmed, false⟩ := by
  have differs : (!confirmed) ≠ confirmed := Bool.not_ne_self confirmed
  cases k with
  | zero => simpa [countedFilter] using filterSample_of_no_candidate F (f := ⟨none, 0⟩) differs rfl
  | succ k => exact filterSample_of_candidate F differs rfl

theorem filterRun_eq {F k : Nat} (confirmed : Bool) (short : k ≤ F) :
    filterRun F confirmed k = countedFilter (!confirmed) k := by
  induction k with
  | zero => rfl
  | succ k ih => rw [filterRun, ih (Nat.le_of_succ_le short), filterSample_countedFilter, if_neg (Nat.not_le.mpr short)]

/-- Settles O23: Table 5-1 row by row, then the run, by `filterRun_eq` (induction on its length) and one more sample. -/
theorem filterConfirmsAfterRun : Obligations.FilterConfirmsAfterRun := by
  refine ⟨fun F f confirmed sampled => ⟨?same, ?first, ?further, ?bounded⟩,
    fun F k confirmed short => ⟨?run, ?counts, ?confirms, filterSample_same F _ confirmed⟩⟩
  case same =>
    rintro rfl
    exact filterSample_same F f sampled
  case first =>
    intro differs absent
    rw [filterSample_of_no_candidate F differs absent]
    exact ⟨fun zero => if_pos zero, fun positive => if_neg (Nat.ne_of_gt positive)⟩
  case further =>
    intro differs c present
    rw [filterSample_of_candidate F differs present]
    exact ⟨fun wf => wf.candidate_eq present differs, fun below => if_neg (by omega), fun reached => if_pos (by omega)⟩
  case bounded => exact fun _ => (filterWf_filterSample F f confirmed sampled).count_le
  case run => exact filterRun_eq confirmed short
  case counts =>
    intro below
    rw [filterRun_eq confirmed short, filterSample_countedFilter, if_neg (Nat.not_le.mpr below)]
    rfl
  case confirms =>
    rw [filterRun_eq confirmed le_rfl, filterSample_countedFilter, if_pos le_rfl]
    rfl

end Sys2Proof.Machine

/-! PROOFS. The statements of chapter 6 on event queues: what a queue does with a NOTICE that is offered to it. -/

namespace Sys2Proof.Machine

/-- A count at its limit or below stays at the limit once there. -/
theorem saturating_raise {count limit : Nat} (most : count ≤ limit) :
    (if count < limit then count + 1 else count) = if count < limit then count + 1 else limit := by
  split <;> omega

/-! ### Records for a line -/

/-- No NOTICE for the line among the records, said of every record, as `isNoticeFor_iff` reads them. -/
theorem noticeLine_ne_of_fresh {l : Line} {records : List Record} (fresh : ∀ n, .notice n ∈ records → n.line ≠ l) :
    ∀ r ∈ records, noticeLine r ≠ some l := by
  intro r mem
  cases r with
  | change c => exact nofun
  | notice n => exact fun same => fresh n mem (Option.some.inj same)

/-- Beside the NOTICE of its line, a consistent queue holds no other for that line (R109). -/
theorem QueueWf.noticeLine_ne {q : EventQueue} {before after : List Record} {n : NoticeRecord} (wf : QueueWf q)
    (parts : q.records = before ++ .notice n :: after) : ∀ r ∈ before ++ after, noticeLine r ≠ some n.line := by
  have once := wf.oneNoticePerLine
  rw [parts, List.filterMap_append, List.filterMap_cons_some (f := noticeLine) (b := n.line) rfl,
    List.nodup_middle, List.nodup_cons, ← List.filterMap_append] at once
  exact fun r mem same => once.1 (List.mem_filterMap.mpr ⟨r, mem, same⟩)

/-! ### Folding (R109) -/

theorem foldNotice_of_ne {l : Line} {o : NoticeOutcome} {now : Stamp} {r : Record} (other : noticeLine r ≠ some l) :
    foldNotice l o now r = r := by
  cases r with
  | change c => rfl
  | notice n => exact if_neg fun same => other (congrArg some same)

theorem map_foldNotice_of_ne {l : Line} {o : NoticeOutcome} {now : Stamp} {records : List Record}
    (others : ∀ r ∈ records, noticeLine r ≠ some l) : records.map (foldNotice l o now) = records :=
  (List.map_congr_left fun r mem => foldNotice_of_ne (others r mem)).trans (List.map_id records)

/-- The fold count rises by one and saturates. -/
theorem foldNotice_self {o : NoticeOutcome} {now : Stamp} {n : NoticeRecord} (most : n.folds ≤ 15) :
    foldNotice n.line o now (.notice n) = .notice ⟨n.line, o, if n.folds < 15 then n.folds + 1 else 15, now⟩ := by
  rw [← saturating_raise most]
  exact if_pos rfl

/-! ### What a queue does with a NOTICE (R109, R110) -/

theorem takeNotice_of_held {l : Line} {o : NoticeOutcome} {now : Stamp} {q : EventQueue} {r : Record}
    (mem : r ∈ q.records) (same : noticeLine r = some l) :
    takeNotice l o now q = { q with records := q.records.map (foldNotice l o now) } :=
  if_pos (List.any_eq_true.mpr ⟨r, mem, isNoticeFor_iff.mpr same⟩)

theorem takeNotice_of_fresh {l : Line} {o : NoticeOutcome} {now : Stamp} {q : EventQueue}
    (fresh : ∀ r ∈ q.records, noticeLine r ≠ some l) :
    takeNotice l o now q =
      if q.records.length < 32 then { q with records := q.records ++ [.notice ⟨l, o, 0, now⟩] }
      else { records := q.records.eraseP isChange ++ [.notice ⟨l, o, 0, now⟩], dropped := raiseDropped q.dropped } :=
  if_neg fun held =>
    let ⟨r, mem, is⟩ := List.any_eq_true.mp held
    fresh r mem (isNoticeFor_iff.mp is)

/-- The NOTICE of the line is replaced in its place; `QueueWf` leaves no other record for the fold to change. -/
theorem takeNotice_folds {o : NoticeOutcome} {now : Stamp} {q : EventQueue} {before after : List Record}
    {n : NoticeRecord} (wf : QueueWf q) (parts : q.records = before ++ .notice n :: after) :
    takeNotice n.line o now q =
      { q with
        records := before ++ .notice ⟨n.line, o, if n.folds < 15 then n.folds + 1 else 15, now⟩ :: after } := by
  have mem : .notice n ∈ q.records := parts ▸ List.mem_append_cons_self
  have others := wf.noticeLine_ne parts
  have same_before : before.map (foldNotice n.line o now) = before :=
    map_foldNotice_of_ne fun r h => others r (List.mem_append_left after h)
  have same_after : after.map (foldNotice n.line o now) = after :=
    map_foldNotice_of_ne fun r h => others r (List.mem_append_right before h)
  rw [takeNotice_of_held mem rfl, parts, List.map_append, List.map_cons, same_before, same_after,
    foldNotice_self (wf.folds _ mem)]

/-- A full consistent queue has an oldest CHANGE record: its NOTICE records alone are fewer than its places. -/
theorem QueueWf.oldest_change {q : EventQueue} (wf : QueueWf q) (full : q.records.length = 32) :
    ∃ before c after, q.records = before ++ .change c :: after ∧ (∀ d, .change d ∉ before) ∧
      q.records.eraseP isChange = before ++ after := by
  obtain ⟨c, mem⟩ := change_of_full wf.oneNoticePerLine full.ge
  obtain ⟨oldest, before, after, none_before, is, parts, erased⟩ := List.exists_of_eraseP (p := isChange) mem rfl
  cases oldest with
  | notice n => cases is
  | change c => exact ⟨before, c, after, parts, fun d h => none_before _ h rfl, erased⟩

/-- Settles O57: an ATTACHED session's queue is what `takeNotice` makes of it, which folds (`takeNotice_folds`) or, with
no NOTICE of the line there (`takeNotice_of_fresh`), appends, without the oldest CHANGE record when it was full. -/
theorem noticesFoldOrEvict : Obligations.NoticesFoldOrEvict := by
  intro p l o now s attached wf
  have taken : (offerNotice now s ⟨p, l, o⟩).queue p = takeNotice l o now (s.queue p) := by
    rw [queue_offerNotice, if_pos ⟨rfl, attached⟩]
  refine ⟨_, taken, ?folds, fun fresh => ⟨?appends, ?evicts⟩, Frame.offerNotice now s ⟨p, l, o⟩⟩
  case folds =>
    rintro before n after parts rfl
    rw [takeNotice_folds wf parts]
    exact ⟨rfl, rfl⟩
  case appends =>
    intro room
    rw [takeNotice_of_fresh (noticeLine_ne_of_fresh fresh), if_pos room]
    exact ⟨rfl, rfl⟩
  case evicts =>
    intro full
    obtain ⟨before, c, after, parts, oldest, erased⟩ := wf.oldest_change full
    rw [takeNotice_of_fresh (noticeLine_ne_of_fresh fresh), if_neg full.not_lt, erased]
    exact ⟨before, c, after, parts, oldest, rfl, saturating_raise wf.dropped⟩

end Sys2Proof.Machine

/-! PROOFS. What every step keeps of the attention outputs, the event queues and the staged sets: one lemma per invariant
over the effects of a step (`Effect`), which `step_keeps` carries to every step. -/

namespace Sys2Proof.Machine

set_option Elab.async false

/-! ### Attention outputs (R120) -/

/-- An operation that leaves the queues, the ports and the outputs leaves their agreement. -/
theorem AttnAgrees.congr {s t : State} (agrees : AttnAgrees s) (attn : t.attn = s.attn) (queues : t.queues = s.queues)
    (ports : t.ports = s.ports) : AttnAgrees t := fun p => by
  have here := agrees p
  simp only [attn_val, State.queue, State.port, attn, queues, ports] at here ⊢
  exact here

theorem AttnAgrees.putPort {s : State} (agrees : AttnAgrees s) (p : Port) (x : PortInterface) :
    AttnAgrees (s.putPort p x) := fun q => by
  have here := agrees q
  rw [attn_val] at here ⊢
  by_cases same : q = p
  · subst same; simp [attn_putPort]
  · simp [attn_putPort, port_putPort, same, here]

theorem AttnAgrees.putQueue {s : State} (agrees : AttnAgrees s) (p : Port) (x : EventQueue) :
    AttnAgrees (s.putQueue p x) := fun q => by
  have here := agrees q
  rw [attn_val] at here ⊢
  by_cases same : q = p
  · subst same; simp [attn_putQueue]
  · simp [attn_putQueue, queue_putQueue, same, here]

theorem AttnAgrees.offerNotices {s : State} (agrees : AttnAgrees s) (now : Stamp) (ns : List Notice) :
    AttnAgrees (offerNotices now ns s) := fun q => by
  rw [port_offerNotices]
  exact attn_offerNotices now ns s q (agrees q)

theorem AttnAgrees.applyLineStep {s : State} (agrees : AttnAgrees s) (l : Line) (x : LineStep) (now : Stamp)
    (handed : Bool) : AttnAgrees (applyLineStep l x now handed s) :=
  (agrees.congr (t := padUpdate _ (s.setLine l x.entry)) (by simp) (by simp) (by simp)).offerNotices now _

theorem AttnAgrees.teardown {s : State} (agrees : AttnAgrees s) (p : Port) : AttnAgrees (teardown p s) := by
  have cleared := (agrees.congr (t := ((freeTimers (timerOf p s) (tearDownLines p (s.stampAt .sessionTable) s)).setStaged
    p []).setWatch p noWatches) (by simp) (by simp) (by simp)).putQueue p emptyQueue
  exact (cleared.congr (t := padUpdate _ _) (by simp) (by simp) (by simp)).offerNotices _ _

theorem attnAgrees_deviceReset (kind : ResetKind) (torn : Torn) (s : State) : AttnAgrees (deviceReset kind torn s) :=
  fun p => by fin_cases p <;> rfl

/-- The attention outputs follow a queue or a port in the operation that changes it. -/
theorem AttnAgrees.effect {s t : State} (agrees : AttnAgrees s) (effect : Effect s t) : AttnAgrees t := by
  cases effect with
  | port p x => exact agrees.putPort p x
  | reset kind torn => exact attnAgrees_deviceReset kind torn s
  | sampling levels lag now => exact attn_samplePins levels now _ (agrees.congr rfl rfl rfl)
  | ended p => exact (agrees.teardown p).congr (by simp) (by simp) (by simp)
  | waitExpiry l p => exact (agrees.offerNotices _ [⟨p, l, .claimDropped⟩]).applyLineStep l _ _ _
  | pulseExpiry x r =>
    exact (agrees.congr (t := padUpdate _ ((s.setTimer x none).setLine r.line _)) (by simp) (by simp)
      (by simp)).offerNotices _ [⟨r.session, r.line, .pulseEnded⟩]
  | preempt p l d stay =>
    exact (agrees.congr (t := padUpdate _ ((freeTimers _ s).setLine l _)) (by simp) (by simp) (by simp)).offerNotices _ _
  | release p l r => exact (agrees.congr (t := freeTimers _ s) (by simp) (by simp) (by simp)).applyLineStep l _ _ _
  | cancel p l => exact agrees.applyLineStep l _ _ _
  | fetch p n => exact agrees.putQueue p _
  | endReset => exact agrees.congr rfl rfl rfl
  | pending | numbered | lease | startUp | tick | ownerTick | cleared | burnt | attach | lockReset | install | join
  | queued | stage | unstage | discard | commit | pulse | watch | openEdit | writeImage | sealed | burning | closeEdit =>
    exact agrees.congr (by simp) (by simp) (by simp)

/-- Settles O4, by `AttnAgrees.effect`. -/
theorem stepKeepsAttention : Obligations.StepKeepsAttention :=
  fun _ _ agrees next => step_keeps (fun _ _ => AttnAgrees.effect) agrees next

/-! ### Event queues (R103, R109, R112) -/

theorem QueuesWf.congr {s t : State} (wf : QueuesWf s) (queues : t.queues = s.queues) : QueuesWf t := fun p => by
  simpa only [State.queue, queues] using wf p

theorem QueuesWf.putQueue {s : State} (wf : QueuesWf s) (p : Port) {x : EventQueue} (new : QueueWf x) :
    QueuesWf (s.putQueue p x) := fun q => by
  rw [queue_putQueue]
  split
  · exact new
  · exact wf q

theorem queueWf_takeChanges {q : EventQueue} (wf : QueueWf q) (record : Line → ChangeRecord) (lines : List Line) :
    QueueWf (lines.foldl (fun q l => takeChange (record l) q) q) := by
  induction lines generalizing q with
  | nil => exact wf
  | cons l lines ih => exact ih (queueWf_takeChange wf (record l))

theorem QueuesWf.samplePins {s : State} (wf : QueuesWf s) (levels : LineMap) (now : Stamp) :
    QueuesWf (samplePins levels now s) := fun q => by
  rw [queue_samplePins]
  split
  · exact queueWf_takeChanges (wf q) (fun l => ⟨l, (sampleLine levels s l).confirmed, now⟩) _
  · exact wf q

theorem QueuesWf.applyLineStep {s : State} (wf : QueuesWf s) (l : Line) (x : LineStep) (now : Stamp) (handed : Bool) :
    QueuesWf (applyLineStep l x now handed s) :=
  queuesWf_offerNotices (wf.congr (t := padUpdate _ (s.setLine l x.entry)) (by simp)) now _

theorem QueuesWf.teardown {s : State} (wf : QueuesWf s) (p : Port) : QueuesWf (teardown p s) := by
  have cleared := (wf.congr (t := ((freeTimers (timerOf p s) (tearDownLines p (s.stampAt .sessionTable) s)).setStaged
    p []).setWatch p noWatches) (by simp)).putQueue p queueWf_empty
  exact queuesWf_offerNotices (cleared.congr (t := padUpdate _ _) (by simp)) _ _

theorem queue_deviceReset (kind : ResetKind) (torn : Torn) (s : State) (p : Port) :
    (deviceReset kind torn s).queue p = emptyQueue := by
  simp [deviceReset, heldInReset, State.queue]

/-- A queue changes by an offer, by a fetch, by teardown and by reset alone. -/
theorem QueuesWf.effect {s t : State} (wf : QueuesWf s) (effect : Effect s t) : QueuesWf t := by
  cases effect with
  | reset kind torn => exact fun p => by rw [queue_deviceReset]; exact queueWf_empty
  | sampling levels lag now =>
    exact QueuesWf.samplePins (s := { s with lag := { s.lag with inputMonitor := lag } }) (wf.congr rfl) levels now
  | ended p => exact (wf.teardown p).congr (by simp)
  | waitExpiry l p => exact (queuesWf_offerNotices wf _ [⟨p, l, .claimDropped⟩]).applyLineStep l _ _ _
  | pulseExpiry x r =>
    exact queuesWf_offerNotices (wf.congr (t := padUpdate _ ((s.setTimer x none).setLine r.line _)) (by simp)) _
      [⟨r.session, r.line, .pulseEnded⟩]
  | preempt p l d stay =>
    exact queuesWf_offerNotices (wf.congr (t := padUpdate _ ((freeTimers _ s).setLine l _)) (by simp)) _ _
  | release p l r => exact (wf.congr (t := freeTimers _ s) (by simp)).applyLineStep l _ _ _
  | cancel p l => exact wf.applyLineStep l _ _ _
  | fetch p n => exact wf.putQueue p (queueWf_drop (wf p) n)
  | endReset => exact wf.congr rfl
  | pending | port | numbered | lease | startUp | tick | ownerTick | cleared | burnt | attach | lockReset | install | join
  | queued | stage | unstage | discard | commit | pulse | watch | openEdit | writeImage | sealed | burning | closeEdit =>
    exact wf.congr (by simp)

/-- Settles O6, by `QueuesWf.effect`. -/
theorem stepKeepsQueues : Obligations.StepKeepsQueues :=
  fun _ _ wf next => step_keeps (fun _ _ => QueuesWf.effect) wf next

/-! ### Staged sets (R73) -/

/-- A consistent staged set: at most 8 entries, on distinct lines. -/
def SetWf (set : List StagedValue) : Prop := set.length ≤ Config.stageDepth ∧ (set.map StagedValue.line).Nodup

theorem setWf_nil : SetWf [] := ⟨Nat.zero_le _, List.nodup_nil⟩

theorem SetWf.filter {set : List StagedValue} (wf : SetWf set) (keep : StagedValue → Bool) : SetWf (set.filter keep) :=
  ⟨(List.length_filter_le _ _).trans wf.1, wf.2.sublist (List.filter_sublist.map _)⟩

theorem stagedHas_iff {l : Line} {set : List StagedValue} : stagedHas l set = true ↔ l ∈ set.map StagedValue.line := by
  simp [stagedHas]

/-- A value recorded in its place leaves the lines of the set. -/
theorem lines_stagePut_of_has {l : Line} {set : List StagedValue} (v : Bool) (has : stagedHas l set = true) :
    (stagePut l v set).map StagedValue.line = set.map StagedValue.line := by
  rw [stagePut, if_pos has, List.map_map]
  refine List.map_congr_left fun x _ => ?_
  simp only [Function.comp]
  split <;> rfl

theorem stagePut_of_not_has {l : Line} {set : List StagedValue} (v : Bool) (fresh : stagedHas l set = false) :
    stagePut l v set = set ++ [⟨l, v⟩] := by
  simp [stagePut, fresh]

/-- A new line needs room in the set (R76). -/
theorem SetWf.stagePut {l : Line} {set : List StagedValue} (wf : SetWf set) (v : Bool)
    (room : stagedHas l set = true ∨ set.length < Config.stageDepth) : SetWf (stagePut l v set) := by
  cases has : stagedHas l set with
  | true =>
    have lines := lines_stagePut_of_has v has
    have length := congrArg List.length lines
    simp only [List.length_map] at length
    exact ⟨length ▸ wf.1, lines ▸ wf.2⟩
  | false =>
    have fresh : l ∉ set.map StagedValue.line := fun mem => by simp [stagedHas_iff.mpr mem] at has
    rw [stagePut_of_not_has v has]
    refine ⟨?_, ?_⟩
    · rw [List.length_append, List.length_singleton]
      exact room.resolve_left (by simp [has])
    · rw [List.map_append]
      exact wf.2.append (List.nodup_singleton l) (by simpa using fresh)

theorem StagedWf.congr {s t : State} (wf : StagedWf s) (staged : t.staged = s.staged) : StagedWf t := fun p => by
  simpa only [State.stagedSet, staged] using wf p

theorem StagedWf.setStaged {s : State} (wf : StagedWf s) (p : Port) {x : List StagedValue} (new : SetWf x) :
    StagedWf (s.setStaged p x) := fun q => by
  rw [stagedSet_setStaged]
  split
  · exact new
  · exact wf q

theorem stagedSet_deviceReset (kind : ResetKind) (torn : Torn) (s : State) (p : Port) :
    (deviceReset kind torn s).stagedSet p = [] := by
  simp [deviceReset, heldInReset, State.stagedSet]

/-- Another operation that empties the set of one session. -/
theorem StagedWf.of_emptied {s t : State} (wf : StagedWf s) (p : Port)
    (sets : ∀ q, t.stagedSet q = if q = p then [] else s.stagedSet q) : StagedWf t := fun q => by
  rw [sets]
  split
  · exact setWf_nil
  · exact wf q

/-- A staged set changes by STAGE and UNSTAGE, and is emptied by DISCARD, COMMIT, teardown and reset. -/
theorem StagedWf.effect {s t : State} (wf : StagedWf s) (effect : Effect s t) : StagedWf t := by
  cases effect with
  | reset kind torn => exact fun p => by rw [stagedSet_deviceReset]; exact setWf_nil
  | ended p => exact wf.of_emptied p fun q => by simp [endSession, stagedSet_teardown]
  | stage p l v _ room => exact wf.setStaged p (SetWf.stagePut (wf p) v room)
  | unstage p l => exact wf.setStaged p (SetWf.filter (wf p) _)
  | discard p => exact wf.setStaged p setWf_nil
  | commit p => exact wf.of_emptied p (stagedSet_applyStaged p s)
  | sampling levels lag now =>
    have same (p : Port) := (samplePins_frame levels now { s with lag := { s.lag with inputMonitor := lag } }).blocks.staged
      p rfl
    exact fun p => by rw [same p]; simpa [State.stagedSet] using wf p
  | endReset => exact wf.congr rfl
  | pending | port | numbered | lease | startUp | tick | ownerTick | cleared | waitExpiry | pulseExpiry | burnt | attach
  | lockReset | install | join | preempt | queued | release | cancel | pulse | watch | fetch | openEdit | writeImage
  | sealed | burning | closeEdit => exact wf.congr (by simp)

/-- Settles O7, by `StagedWf.effect`. -/
theorem stepKeepsStagedSets : Obligations.StepKeepsStagedSets :=
  fun _ _ wf next => step_keeps (fun _ _ => StagedWf.effect) wf next

end Sys2Proof.Machine

/-! PROOFS. What every step keeps of the line entries: one role per session and line with the claim budget, and that
only an ATTACHED session has anything; and of the filters and the stored images. -/

namespace Sys2Proof.Machine

set_option Elab.async false

/-! ### Line entries after a reset or a sample -/

theorem line_deviceReset (kind : ResetKind) (torn : Torn) (s : State) (l : Line) :
    (deviceReset kind torn s).line l = resetEntry := by
  simp [deviceReset, heldInReset, State.line]

theorem session_deviceReset (kind : ResetKind) (torn : Torn) (s : State) (p : Port) :
    (deviceReset kind torn s).session p = ⟨.detached, 0, endReasonOfReset kind⟩ := by
  simp [deviceReset, heldInReset, State.session]

theorem timer_deviceReset (kind : ResetKind) (torn : Torn) (s : State) (x : TimerId) :
    (deviceReset kind torn s).timer x = none := by
  simp [deviceReset, heldInReset, State.timer]

theorem watch_deviceReset (kind : ResetKind) (torn : Torn) (s : State) (p : Port) :
    (deviceReset kind torn s).watch p = noWatches := by
  simp [deviceReset, heldInReset, State.watch]

/-- Two entries with the same owners and the same waiting sessions and roles; confirmed levels and countdowns may differ. -/
structure SameRoles (e f : LineEntry) : Prop where
  owners : f.owners = e.owners
  queue : f.queue = e.queue ∨ f.queue = e.queue.map tickWait

theorem tickWait_session (ws : List WaitEntry) : (ws.map tickWait).map WaitEntry.session = ws.map WaitEntry.session := by
  rw [List.map_map]
  rfl

theorem SameRoles.refl (e : LineEntry) : SameRoles e e := ⟨rfl, .inl rfl⟩

theorem SameRoles.roleSessions {e f : LineEntry} (same : SameRoles e f) : roleSessions f = roleSessions e := by
  unfold Machine.roleSessions
  rw [same.owners]
  obtain kept | ticked := same.queue
  · rw [kept]
  · rw [ticked, tickWait_session]

theorem SameRoles.wf {e f : LineEntry} (same : SameRoles e f) (wf : EntryWf e) : EntryWf f := by
  refine ⟨same.roleSessions ▸ wf.oneRoleEach, same.owners ▸ wf.sharersPresent, fun unowned => ?empty,
    fun ss w shared head => ?exclusive⟩
  all_goals obtain kept | ticked := same.queue
  · exact kept.trans (wf.unownedQueueEmpty (same.owners ▸ unowned))
  · rw [ticked, wf.unownedQueueEmpty (same.owners ▸ unowned), List.map_nil]
  · exact wf.sharedHeadExclusive ss w (same.owners ▸ shared) (kept ▸ head)
  · rw [ticked, List.head?_map, Option.map_eq_some_iff] at head
    obtain ⟨v, first, rfl⟩ := head
    exact wf.sharedHeadExclusive ss v (same.owners ▸ shared) first

theorem sameRoles_ownerTick (o : TickOwner) (s : State) (l : Line) : SameRoles (s.line l) ((ownerTick o s).line l) :=
  let ⟨owners, _, queue⟩ := line_ownerTick o s l
  ⟨owners, queue⟩

/-! ### Roles and the claim budget (R2, R7, R45, R47) -/

/-- What one operation may do to the roles of the sessions: each entry stays consistent, and no session gains a role but
the one that claims a line within its budget. -/
structure RolesStep (s t : State) : Prop where
  wf : LinesWf s → LinesWf t
  counts : LinesWf s → ∀ p, t.claimCount p ≤ s.claimCount p ∨ t.claimCount p ≤ s.claimCount p + 1 ∧
    s.claimCount p < Config.claimBudget

theorem BudgetInv.rolesStep {s t : State} (inv : BudgetInv s) (roles : RolesStep s t) : BudgetInv t := by
  refine ⟨roles.wf inv.1, fun p => ?_⟩
  have before := inv.2 p
  have after := roles.counts inv.1 p
  omega

/-- No session gains a role on a line. -/
theorem RolesStep.of_fewer {s t : State} (wf : ∀ l, EntryWf (s.line l) → EntryWf (t.line l))
    (fewer : ∀ l, (roleSessions (t.line l)).Sublist (roleSessions (s.line l))) : RolesStep s t :=
  ⟨fun lines l => wf l (lines l),
    fun lines p => .inl (claimCount_le lines (fun l => wf l (lines l)) p fun l => (fewer l).count_le p)⟩

theorem RolesStep.of_same {s t : State} (same : ∀ l, SameRoles (s.line l) (t.line l)) : RolesStep s t :=
  .of_fewer (fun l => (same l).wf) fun l => by rw [(same l).roleSessions]

theorem RolesStep.of_lines {s t : State} (lines : t.lines = s.lines) : RolesStep s t :=
  .of_same fun l => by rw [State.line, State.line, lines]; exact .refl _

/-- One line changes, and no session gains a role there. -/
theorem RolesStep.of_line {s t : State} (l : Line) {e : LineEntry} (line : ∀ k, t.line k = if k = l then e else s.line k)
    (wf : EntryWf (s.line l) → EntryWf e) (fewer : (roleSessions e).Sublist (roleSessions (s.line l))) :
    RolesStep s t := by
  refine .of_fewer (fun k => ?_) fun k => ?_
  all_goals rw [line]; split
  · next same => exact same ▸ wf
  · exact id
  · next same => exact same ▸ fewer
  · exact List.Sublist.refl _

/-- One session within its budget gains a role on one line. -/
theorem RolesStep.of_claim {s t : State} (p : Port) (l : Line) {e : LineEntry}
    (budget : s.claimCount p < Config.claimBudget) (line : ∀ k, t.line k = if k = l then e else s.line k)
    (wf : EntryWf (s.line l) → EntryWf e)
    (roles : ∀ q, (roleSessions e).count q ≤ (p :: roleSessions (s.line l)).count q) : RolesStep s t := by
  have kept : LinesWf s → LinesWf t := fun lines k => by
    rw [line]
    split
    · exact wf (lines l)
    · exact lines k
  refine ⟨kept, fun lines q => ?_⟩
  have count := claimCount_one lines (kept lines) q l fun k other => by rw [line, if_neg other]
  have most := roles q
  rw [line, if_pos rfl] at count
  rw [List.count_cons] at most
  by_cases same : p = q
  · subst same
    rw [if_pos (by simp)] at most
    exact .inr ⟨by omega, budget⟩
  · rw [if_neg (by simpa using same)] at most
    exact .inl (by omega)

/-- An UNOWNED line, whose queue is empty, passes to one new owner. -/
theorem wf_installed {p : Port} {e : LineEntry} (want : Want) (stay : Bool) (now : Stamp) (empty : e.queue = []) :
    EntryWf { e with owners := formOwners p want stay now } :=
  EntryShape.wf
    ⟨(formOwners_shape p want stay now).2, fun unowned => absurd unowned (formOwners_shape p want stay now).1,
      fun _ _ _ head => by simp [empty] at head⟩
    (by simp [roleSessions, ownerViews_formOwners, empty])

theorem roleSessions_installed (p : Port) (want : Want) (stay : Bool) (now : Stamp) (e : LineEntry) :
    roleSessions { e with owners := formOwners p want stay now } = p :: e.queue.map WaitEntry.session := by
  rw [roleSessions, ownerViews_formOwners]
  rfl

theorem roleSessions_joined (p : Port) (ss : List Sharer) (v stay : Bool) (now : Stamp) {e : LineEntry}
    (shared : e.owners = .shared ss) (empty : e.queue = []) :
    roleSessions { e with owners := .shared (ss ++ [⟨p, v, stay, now, none⟩]) } = roleSessions e ++ [p] := by
  simp [roleSessions, ownerViews, shared, empty, sharerView]

theorem roleSessions_queued (w : WaitEntry) (e : LineEntry) :
    roleSessions { e with queue := e.queue ++ [w] } = roleSessions e ++ [w.session] := by
  simp [roleSessions]

/-- A session without a role on a line takes one there as the last. -/
theorem roles_snoc_nodup {p : Port} {s : State} {l : Line} (none : s.hasRole p l = false) (wf : EntryWf (s.line l)) :
    (roleSessions (s.line l) ++ [p]).Nodup :=
  wf.oneRoleEach.append (List.nodup_singleton p) (by simpa using hasRole_false.mp none)

theorem count_snoc_le (roles : List Port) (p q : Port) : (roles ++ [p]).count q ≤ (p :: roles).count q := by
  rw [List.count_append, List.count_cons, List.count_cons]
  simp [Nat.add_comm]

/-- A queue that gains an entry behind the others keeps its shape: a SHARE entry comes first on no SHARED line. -/
theorem shape_queued {e : LineEntry} (shape : EntryShape e) (w : WaitEntry) (owned : e.owners ≠ .unowned)
    (head : ∀ ss, e.owners = .shared ss → e.queue = [] → isShareEntry w = false) :
    EntryShape { e with queue := e.queue ++ [w] } := by
  refine ⟨shape.sharersPresent, fun unowned => absurd unowned owned, fun ss v shared first => ?_⟩
  cases queue : e.queue with
  | nil =>
    simp only [queue, List.nil_append, List.head?_cons, Option.some.injEq] at first
    exact first ▸ head ss shared queue
  | cons u rest =>
    simp only [queue, List.cons_append, List.head?_cons, Option.some.injEq] at first
    exact shape.sharedHeadExclusive ss v shared (by simp [queue, first])

/-- A line passed on to its own waiting entries gains no role. -/
theorem roles_releaseEntry_sublist (p : Port) (now : Stamp) (e : LineEntry) :
    (roleSessions (releaseEntry p now e).entry).Sublist (roleSessions e) := by
  rw [roleSessions_releaseEntry]
  exact List.filter_sublist.append (List.Sublist.refl _)

theorem roles_withdrawEntry_sublist (p : Port) (now : Stamp) (e : LineEntry) :
    (roleSessions (withdrawEntry p now e).entry).Sublist (roleSessions e) := by
  rw [roleSessions_withdrawEntry]
  exact (List.Sublist.refl _).append List.filter_sublist

theorem roles_tearDownEntry_sublist (p : Port) (now : Stamp) (e : LineEntry) :
    (roleSessions (tearDownEntry p now e).entry).Sublist (roleSessions e) := by
  rw [roleSessions_tearDownEntry]
  exact List.filter_sublist

theorem wf_commitLine (p : Port) (v : Option Bool) {e : LineEntry} (wf : EntryWf e) : EntryWf (commitLine p v e) := by
  cases v with
  | none => exact wf
  | some v => exact wf_setResting p v wf

theorem roleSessions_commitLine (p : Port) (v : Option Bool) (e : LineEntry) :
    roleSessions (commitLine p v e) = roleSessions e := by
  cases v with
  | none => rfl
  | some v => exact roleSessions_setResting p v e

theorem RolesStep.of_effect {s t : State} (effect : Effect s t) : RolesStep s t := by
  cases effect with
  | reset kind torn =>
    refine .of_fewer (fun l _ => ?_) fun l => ?_
    all_goals rw [line_deviceReset]
    · exact ⟨by decide, nofun, fun _ => rfl, nofun⟩
    · exact List.nil_sublist _
  | startUp levels => exact .of_same fun l => by rw [line_finishStartUp]; exact ⟨rfl, .inl rfl⟩
  | ownerTick o => exact .of_same (sameRoles_ownerTick o s)
  | sampling levels lag now => exact .of_same fun l => by rw [line_samplePins]; exact ⟨rfl, .inl rfl⟩
  | ended p state reason =>
    have line (l : Line) : (endSession p state reason (teardown p s)).line l = (tearDownEntry p _ (s.line l)).entry :=
      line_teardown p s l
    exact .of_fewer (fun l wf => line l ▸ wf_tearDownEntry p _ wf) fun l => line l ▸ roles_tearDownEntry_sublist p _ _
  | waitExpiry l p =>
    exact .of_line l (line_expireWait l p s) (wf_withdrawEntry p _) (roles_withdrawEntry_sublist p _ _)
  | pulseExpiry x r =>
    exact .of_line r.line (line_expirePulse x r s) (wf_setPulse _ _) (by rw [roleSessions_setPulse])
  | install p l want stay _ none budget unowned =>
    exact .of_claim p l budget (line_installOwners l _ s)
      (fun wf => wf_installed want stay _ (wf.unownedQueueEmpty unowned)) fun q => by
        rw [roleSessions_installed]
        exact ((List.sublist_append_right _ _).cons_cons p).count_le q
  | join p l ss v stay _ none budget shared empty =>
    have roles := roleSessions_joined p ss v stay (s.stampAt .lineTable) shared empty
    refine .of_claim p l budget (line_installOwners l _ s) (fun wf => ?_) fun q => roles ▸ count_snoc_le _ p q
    refine EntryShape.wf ⟨by simp, nofun, fun _ _ _ head => ?_⟩ (roles ▸ roles_snoc_nodup none wf)
    simp [empty] at head
  | preempt p l d stay _ none budget =>
    exact .of_claim p l budget (line_preempt p l _ stay s) (fun wf => wf_preemptEntry wf (hasRole_false.mp none) d stay _)
      fun q => (roles_preemptEntry_sublist p _ stay _ _).count_le q
  | queued p l want a _ none budget owned head =>
    have roles := roleSessions_queued (queuedEntry p want a (s.stampAt .lineTable)) (s.line l)
    refine .of_claim p l budget (line_setLine s l _) (fun wf => ?_) fun q => roles ▸ count_snoc_le _ p q
    refine (shape_queued wf.shape _ owned fun ss shared empty => ?_).wf (roles ▸ roles_snoc_nodup none wf)
    cases want with
    | exclusive d => rfl
    | share v => exact absurd rfl (head ss shared empty v)
  | release p l r =>
    exact .of_line l (fun k => by rw [line_applyLineStep, line_freeTimers]) (wf_releaseEntry p _)
      (roles_releaseEntry_sublist p _ _)
  | cancel p l =>
    exact .of_line l (line_applyLineStep l _ _ _ s) (wf_withdrawEntry p _) (roles_withdrawEntry_sublist p _ _)
  | commit p =>
    exact .of_fewer (fun l wf => by rw [line_applyStaged]; exact wf_commitLine p _ wf) fun l => by
      rw [line_applyStaged, roleSessions_commitLine]
  | pulse p l v n x =>
    exact .of_line l (line_startPulse p l v n.toNat x s) (wf_setPulse p _) (by rw [roleSessions_setPulse])
  | endReset => exact .of_lines rfl
  | pending | port | numbered | lease | tick | cleared | burnt | attach | lockReset | stage | unstage | discard | watch
  | fetch | openEdit | writeImage | sealed | burning | closeEdit => exact .of_lines (by simp)

/-- Settles O5: an operation gives a role to the claiming session alone, and within its budget (`RolesStep.of_effect`). -/
theorem stepKeepsRolesAndBudget : Obligations.StepKeepsRolesAndBudget :=
  fun _ _ inv next => step_keeps (fun _ _ inv effect => inv.rolesStep (.of_effect effect)) inv next

end Sys2Proof.Machine

/-! PROOFS. What every step keeps of the sessions' belongings: only an ATTACHED session has roles, pulses, staged entries,
watch settings or records. -/

namespace Sys2Proof.Machine

set_option Elab.async false

/-! ### What a session gains -/

/-- The session of a port has nothing in `t` that it did not have in `s`. -/
structure NothingNew (q : Port) (s t : State) : Prop where
  roles : ∀ l, q ∈ roleSessions (t.line l) → q ∈ roleSessions (s.line l)
  timers : ∀ x, timerOf q t x = true → timerOf q s x = true
  staged : t.stagedSet q = s.stagedSet q
  watch : t.watch q = s.watch q
  records : t.queue q = s.queue q

theorem Bare.nothingNew {q : Port} {s t : State} (bare : Bare q s) (new : NothingNew q s t) : Bare q t where
  noRole l := hasRole_false.mpr fun mem => hasRole_false.mp (bare.noRole l) (new.roles l mem)
  noTimer x := Bool.eq_false_iff.mpr fun runs => Bool.eq_false_iff.mp (bare.noTimer x) (new.timers x runs)
  noStaged := new.staged.trans bare.noStaged
  noWatch := new.watch.trans bare.noWatch
  noRecords := new.records.trans bare.noRecords

theorem OnlyAttachedInv.of_nothingNew {s t : State} (inv : OnlyAttachedInv s)
    (each : ∀ q, isAttached (t.session q).state = false → isAttached (s.session q).state = false ∧ NothingNew q s t) :
    OnlyAttachedInv t := fun q away => (inv q (each q away).1).nothingNew (each q away).2

theorem timerOf_of_timer {q : Port} {s t : State} {x : TimerId} (same : t.timer x = s.timer x) :
    timerOf q t x = true → timerOf q s x = true := by
  unfold timerOf
  rw [same]
  exact id

/-- A timer that is free afterwards runs for nobody. -/
theorem timerOf_of_freed {q : Port} {s t : State} {x : TimerId} {freed : Bool}
    (timer : t.timer x = if freed then none else s.timer x) : timerOf q t x = true → timerOf q s x = true := by
  cases freed with
  | false => exact timerOf_of_timer timer
  | true =>
    unfold timerOf
    rw [timer]
    exact nofun

/-- An operation that leaves all that belongs to sessions, and which sessions are ATTACHED. -/
theorem OnlyAttachedInv.congr {s t : State} (inv : OnlyAttachedInv s) (lines : t.lines = s.lines)
    (timers : t.timers = s.timers) (staged : t.staged = s.staged) (watches : t.watches = s.watches)
    (queues : t.queues = s.queues)
    (attached : ∀ q, isAttached (t.session q).state = false → isAttached (s.session q).state = false) :
    OnlyAttachedInv t :=
  inv.of_nothingNew fun q away => ⟨attached q away, fun l => by rw [State.line, State.line, lines]; exact id,
    fun x => timerOf_of_timer (by rw [State.timer, State.timer, timers]), by rw [State.stagedSet, State.stagedSet, staged],
    by rw [State.watch, State.watch, watches], by rw [State.queue, State.queue, queues]⟩

/-- One that leaves the sessions as well. -/
theorem OnlyAttachedInv.congr_sessions {s t : State} (inv : OnlyAttachedInv s) (lines : t.lines = s.lines)
    (timers : t.timers = s.timers) (staged : t.staged = s.staged) (watches : t.watches = s.watches)
    (queues : t.queues = s.queues) (sessions : t.sessions = s.sessions) : OnlyAttachedInv t :=
  inv.congr lines timers staged watches queues fun q => by rw [State.session, State.session, sessions]; exact id

/-! ### Which sessions are ATTACHED -/

theorem isAttached_restartLease (p q : Port) (s : State) :
    isAttached ((restartLease p s).session q).state = isAttached (s.session q).state := by
  by_cases same : q = p
  · subst same
    rw [session_restartLease_self]
    cases state : (s.session q).state <;> simp [state, isAttached]
  · rw [session_restartLease p q s same]

theorem isAttached_tickLease (x : Session) : isAttached (tickLease x).state = isAttached x.state := by
  cases state : x.state <;> simp [tickLease, state, isAttached]

/-- An owner takes a tick when one is outstanding for it (R146). -/
def takesTick (o owner : TickOwner) (s : State) : Prop := o = owner ∧ lagOf s.lag owner ≠ 0

theorem session_ownerTick (o : TickOwner) (s : State) (p : Port) :
    (ownerTick o s).session p = s.session p ∨
      takesTick o .sessionTable s ∧ (ownerTick o s).session p = tickLease (s.session p) := by
  unfold ownerTick
  split
  · exact .inl rfl
  · next outstanding =>
    cases o with
    | sessionTable => exact .inr ⟨⟨rfl, outstanding⟩, session_tickSessions _ p⟩
    | lineTable => exact .inl (session_tickLines _ p)
    | pulsePool => exact .inl (session_tickTimers _ p)
    | inputMonitor => exact .inl rfl

theorem timer_ownerTick (o : TickOwner) (s : State) (x : TimerId) :
    (ownerTick o s).timer x = s.timer x ∨
      takesTick o .pulsePool s ∧ (ownerTick o s).timer x = (s.timer x).map tickTimer := by
  unfold ownerTick
  split
  · exact .inl rfl
  · next outstanding =>
    cases o with
    | sessionTable => exact .inl (timer_tickSessions _ x)
    | lineTable => exact .inl (timer_tickLines _ x)
    | pulsePool => exact .inr ⟨⟨rfl, outstanding⟩, timer_tickTimers _ x⟩
    | inputMonitor => exact .inl rfl

theorem queue_line_ownerTick (o : TickOwner) (s : State) (l : Line) :
    ((ownerTick o s).line l).queue = (s.line l).queue ∨
      takesTick o .lineTable s ∧ ((ownerTick o s).line l).queue = (s.line l).queue.map tickWait := by
  unfold ownerTick
  split
  · exact .inl rfl
  · next outstanding =>
    cases o with
    | sessionTable => exact .inl (congrArg LineEntry.queue (line_tickSessions _ l))
    | lineTable => exact .inr ⟨⟨rfl, outstanding⟩, congrArg LineEntry.queue (line_tickLines _ l)⟩
    | pulsePool => exact .inl (congrArg LineEntry.queue (line_tickTimers _ l))
    | inputMonitor => exact .inl rfl

theorem isAttached_ownerTick (o : TickOwner) (s : State) (q : Port) :
    isAttached ((ownerTick o s).session q).state = isAttached (s.session q).state := by
  obtain same | ⟨_, ticked⟩ := session_ownerTick o s q
  · rw [same]
  · rw [ticked, isAttached_tickLease]

theorem timerOf_ownerTick (o : TickOwner) (s : State) (q : Port) (x : TimerId) :
    timerOf q (ownerTick o s) x = timerOf q s x := by
  unfold timerOf
  obtain same | ⟨_, ticked⟩ := timer_ownerTick o s x
  · rw [same]
  · rw [ticked]
    cases s.timer x <;> rfl

theorem ne_of_attached {s : State} {p q : Port} (attached : isAttached (s.session p).state = true)
    (away : isAttached (s.session q).state = false) : q ≠ p := by
  rintro rfl
  simp [attached] at away

/-- An offer of notices leaves the queue of a session that is not ATTACHED. -/
theorem Delivered.queue_of_away {now : Stamp} {ns : List Notice} {s t : State} (delivered : Delivered now ns s t) {q : Port}
    (away : isAttached (s.session q).state = false) : t.queue q = s.queue q := by
  rw [delivered q, away]
  rfl

/-! ### Every effect -/

theorem bare_deviceReset (kind : ResetKind) (torn : Torn) (s : State) (q : Port) : Bare q (deviceReset kind torn s) where
  noRole l := by rw [hasRole_false, line_deviceReset]; exact List.not_mem_nil
  noTimer x := by rw [timerOf, timer_deviceReset]
  noStaged := stagedSet_deviceReset kind torn s q
  noWatch := watch_deviceReset kind torn s q
  noRecords := queue_deviceReset kind torn s q

/-- Teardown leaves its session bare, and gives another nothing but GRANTED notices while that one is ATTACHED. -/
theorem OnlyAttachedInv.ended {s : State} (inv : OnlyAttachedInv s) (p : Port) (state : SessionState)
    (reason : EndReason) : OnlyAttachedInv (endSession p state reason (teardown p s)) := by
  have torn := tornDown_teardown p s
  intro q away
  by_cases same : q = p
  · subst same
    exact ⟨torn.noRole, torn.noTimer, torn.noStaged, torn.noWatch, torn.noRecords⟩
  · have session : (endSession p state reason (teardown p s)).session q = s.session q := by
      rw [endSession, session_setSession, if_neg same, session_teardown]
    rw [session] at away
    refine (inv q away).nothingNew ⟨fun l mem => ?roles, fun x => timerOf_of_freed (timer_teardown p s x),
      torn.otherStaged q same, torn.otherWatches q same, (torn.granted q same).trans (if_neg (by simp [away]))⟩
    exact List.mem_of_mem_filter (roles_teardown p s l ▸ mem)

/-- A line step of the LOT: its session gives up a role, and nobody gains one. -/
theorem OnlyAttachedInv.applyLineStep {s : State} (inv : OnlyAttachedInv s) (l : Line) (x : LineStep) (now : Stamp)
    (handed : Bool) (fewer : (roleSessions x.entry).Sublist (roleSessions (s.line l))) :
    OnlyAttachedInv (applyLineStep l x now handed s) :=
  inv.of_nothingNew fun q away => by
    rw [session_applyLineStep] at away
    refine ⟨away, fun k mem => ?_, fun y => timerOf_of_timer (by simp), by simp, by simp,
      (queue_applyLineStep l x now handed s).queue_of_away away⟩
    rw [line_applyLineStep] at mem
    split at mem
    · next same => exact same ▸ fewer.subset mem
    · exact mem

/-- An operation of an ATTACHED session: another session, if it is not ATTACHED, gains nothing. -/
theorem OnlyAttachedInv.of_acting {s t : State} (inv : OnlyAttachedInv s) {p : Port}
    (attached : isAttached (s.session p).state = true) (sessions : t.sessions = s.sessions)
    (others : ∀ q, q ≠ p → isAttached (s.session q).state = false → NothingNew q s t) : OnlyAttachedInv t :=
  inv.of_nothingNew fun q away => by
    rw [State.session, sessions] at away
    exact ⟨away, others q (ne_of_attached attached away) away⟩

/-- A change of one line that gives a role to one session alone. -/
theorem roles_of_line {s t : State} {p q : Port} {l : Line} {e : LineEntry}
    (line : ∀ k, t.line k = if k = l then e else s.line k) (other : q ≠ p)
    (roles : ∀ r ∈ roleSessions e, r = p ∨ r ∈ roleSessions (s.line l)) (k : Line) (mem : q ∈ roleSessions (t.line k)) :
    q ∈ roleSessions (s.line k) := by
  rw [line] at mem
  split at mem
  · next same => exact same ▸ (roles q mem).resolve_left other
  · exact mem

theorem OnlyAttachedInv.effect {s t : State} (inv : OnlyAttachedInv s) (effect : Effect s t) : OnlyAttachedInv t := by
  cases effect with
  | reset kind torn => exact fun q _ => bare_deviceReset kind torn s q
  | lease p =>
    exact inv.congr (by simp) (by simp) (by simp) (by simp) (by simp) fun q => by
      rw [isAttached_restartLease]
      exact id
  | startUp levels =>
    refine inv.of_nothingNew fun q away => ⟨by simpa using away, fun l mem => ?_,
      fun x => timerOf_of_timer (by simp), by simp, by simp, by simp⟩
    rwa [line_finishStartUp] at mem
  | ownerTick o =>
    refine inv.of_nothingNew fun q away => ⟨isAttached_ownerTick o s q ▸ away, fun l mem => ?_,
      fun x => by rw [timerOf_ownerTick]; exact id, by simp, by simp, by simp⟩
    rwa [(sameRoles_ownerTick o s l).roleSessions] at mem
  | sampling levels lag now =>
    have frame := (samplePins_frame levels now { s with lag := { s.lag with inputMonitor := lag } }).blocks
    refine inv.of_nothingNew fun q away => ?_
    rw [frame.sessions q rfl] at away
    have away : isAttached (s.session q).state = false := by simpa [State.session] using away
    refine ⟨away, fun l mem => by rwa [line_samplePins] at mem,
      fun x => timerOf_of_timer ((frame.timers x rfl).trans (by simp [State.timer])),
      (frame.staged q rfl).trans (by simp [State.stagedSet]), (frame.watches q rfl).trans (by simp [State.watch]), ?_⟩
    rw [queue_samplePins, if_neg (by simpa [State.session] using away)]
    rfl
  | ended p state reason => exact inv.ended p state reason
  | cleared p reason lapsed =>
    refine inv.congr (by simp) (by simp) (by simp) (by simp) (by simp) fun q away => ?_
    by_cases same : q = p
    · rw [same, lapsed]; rfl
    · rwa [endSession, session_setSession, if_neg same] at away
  | attach p g img requested _ _ away =>
    refine inv.congr (by simp) (by simp) (by simp) (by simp) (by simp) fun q detached => ?_
    by_cases same : q = p
    · rw [same, away]
    · rwa [session_setSession, if_neg same] at detached
  | waitExpiry l p w =>
    refine inv.of_nothingNew fun q away => ?_
    rw [session_expireWait] at away
    refine ⟨away, fun k mem => ?_, fun x => timerOf_of_timer (by simp), by simp, by simp,
      (queue_expireWait l p s).queue_of_away away⟩
    rw [line_expireWait] at mem
    split at mem
    · next same => exact same ▸ (roles_withdrawEntry_sublist p _ _).subset mem
    · exact mem
  | pulseExpiry x r =>
    refine inv.of_nothingNew fun q away => ?_
    rw [session_expirePulse] at away
    refine ⟨away, fun k mem => ?_, fun y => timerOf_of_freed (freed := y = x) (by simp [timer_expirePulse]), by simp,
      by simp, (queue_expirePulse x r s).queue_of_away away⟩
    rw [line_expirePulse] at mem
    split at mem
    · next same => rw [roleSessions_setPulse] at mem; exact same ▸ mem
    · exact mem
  | install p l want stay attached =>
    refine inv.of_acting attached (by simp) fun q other _ => ⟨roles_of_line (line_installOwners l _ s) other fun r mem => ?_,
      fun x => timerOf_of_timer (by simp), by simp, by simp, by simp⟩
    rw [roleSessions_installed, List.mem_cons] at mem
    exact mem.imp_right fun waits => List.mem_append_right _ waits
  | join p l ss v stay attached _ _ shared empty =>
    refine inv.of_acting attached (by simp) fun q other _ => ⟨roles_of_line (line_installOwners l _ s) other fun r mem => ?_,
      fun x => timerOf_of_timer (by simp), by simp, by simp, by simp⟩
    rw [roleSessions_joined p ss v stay _ shared empty, List.mem_append, List.mem_singleton] at mem
    exact mem.symm
  | preempt p l d stay attached =>
    refine inv.of_acting attached (by simp) fun q other away =>
      ⟨roles_of_line (line_preempt p l _ stay s) other fun r mem =>
          List.mem_cons.mp ((roles_preemptEntry_sublist p _ stay _ _).subset mem),
        fun x => timerOf_of_freed (timer_preempt p l _ stay s x), by simp, by simp,
        (queue_preempt p l _ stay s).queue_of_away away⟩
  | queued p l want a attached =>
    refine inv.of_acting attached (by simp) fun q other _ => ⟨roles_of_line (line_setLine s l _) other fun r mem => ?_,
      fun x => timerOf_of_timer (by simp), by simp, by simp, by simp⟩
    rw [roleSessions_queued, List.mem_append, List.mem_singleton] at mem
    exact mem.symm
  | release p l r =>
    have freed : OnlyAttachedInv (freeTimers (fun t => r.pulse = some t) s) :=
      inv.of_nothingNew fun q away => ⟨by simpa using away, fun k => by rw [line_freeTimers]; exact id,
        fun x => timerOf_of_freed (timer_freeTimers _ s x), by simp, by simp, by simp⟩
    exact freed.applyLineStep l _ _ _ (by rw [line_freeTimers]; exact roles_releaseEntry_sublist p _ _)
  | cancel p l w => exact inv.applyLineStep l _ _ _ (roles_withdrawEntry_sublist p _ _)
  | stage p l v attached | unstage p l attached | discard p attached =>
    exact inv.of_acting attached (by simp) fun q other _ => ⟨fun k => by rw [line_setStaged]; exact id,
      fun x => timerOf_of_timer (by simp), by simp [stagedSet_setStaged, other], by simp, by simp⟩
  | commit p attached =>
    exact inv.of_acting attached (by simp) fun q other _ =>
      ⟨fun k => by rw [line_applyStaged, roleSessions_commitLine]; exact id, fun x => timerOf_of_timer (by simp),
        by simp [stagedSet_applyStaged, other], by simp, by simp⟩
  | pulse p l v n x r attached =>
    refine inv.of_acting attached (by simp) fun q other _ =>
      ⟨roles_of_line (line_startPulse p l v n.toNat x s) other fun r mem => ?_, fun y runs => ?_, by simp, by simp, by simp⟩
    · exact .inr (roleSessions_setPulse p _ (s.line l) ▸ mem)
    · rw [timerOf, timer_startPulse] at runs
      split at runs
      · next started =>
        split at started
        · cases started
          exact absurd (by simpa using runs) (Ne.symm other)
        · simpa [timerOf, started] using runs
      · cases runs
  | watch p w attached =>
    exact inv.of_acting attached (by simp) fun q other _ => ⟨fun k => by rw [line_setWatch]; exact id,
      fun x => timerOf_of_timer (by simp), by simp, by simp [watch_setWatch, other], by simp⟩
  | fetch p n attached =>
    exact inv.of_acting attached (by simp) fun q other _ => ⟨fun k => by rw [line_putQueue]; exact id,
      fun x => timerOf_of_timer (by simp), by simp, by simp, by simp [queue_putQueue, other]⟩
  | endReset => exact inv.congr_sessions rfl rfl rfl rfl rfl rfl
  | pending | port | numbered | tick | burnt | lockReset | openEdit | writeImage | sealed | burning | closeEdit =>
    exact inv.congr_sessions (by simp) (by simp) (by simp) (by simp) (by simp) (by simp)

/-- Settles O8: what an operation gives, it gives to an ATTACHED session (`OnlyAttachedInv.effect`). -/
theorem stepKeepsOnlyAttached : Obligations.StepKeepsOnlyAttached :=
  fun _ _ inv next => step_keeps (fun _ _ => OnlyAttachedInv.effect) inv next

end Sys2Proof.Machine

/-! PROOFS. What every step keeps of the input filters and of the stored images. -/

namespace Sys2Proof.Machine

set_option Elab.async false

/-! ### Input filters (R87, R90) -/

theorem active_deviceReset (kind : ResetKind) (torn : Torn) (s : State) : (deviceReset kind torn s).active = none := rfl

theorem filters_deviceReset (kind : ResetKind) (torn : Torn) (s : State) (l : Line) :
    (deviceReset kind torn s).filters[l] = restingFilter := by
  simp [deviceReset, heldInReset]

/-- An operation that leaves the filters, the confirmed levels and the active profile. -/
theorem FiltersInv.congr {s t : State} (inv : FiltersInv s) (active : t.active = s.active) (filters : t.filters = s.filters)
    (confirmed : ∀ l, (t.line l).confirmed = (s.line l).confirmed) : FiltersInv t := fun l => by
  have here := inv l
  rwa [← confirmed l, ← filters, show s.filterLength l = t.filterLength l by simp only [State.filterLength, active]] at here

theorem FiltersInv.congr_lines {s t : State} (inv : FiltersInv s) (active : t.active = s.active)
    (filters : t.filters = s.filters) (lines : t.lines = s.lines) : FiltersInv t :=
  inv.congr active filters fun l => by rw [State.line, State.line, lines]

/-- One line is written anew with its confirmed level as it was. -/
theorem confirmed_of_line {s t : State} {l : Line} {e : LineEntry} (line : ∀ k, t.line k = if k = l then e else s.line k)
    (confirmed : e.confirmed = (s.line l).confirmed) (k : Line) : (t.line k).confirmed = (s.line k).confirmed := by
  rw [line]
  split
  · next same => rw [same, confirmed]
  · rfl

theorem commitLine_confirmed (p : Port) (v : Option Bool) (e : LineEntry) :
    (commitLine p v e).confirmed = e.confirmed := by
  cases v with
  | none => rfl
  | some v => exact setResting_confirmed p v e

theorem commitLine_queue (p : Port) (v : Option Bool) (e : LineEntry) : (commitLine p v e).queue = e.queue := by
  cases v with
  | none => rfl
  | some v => exact setResting_queue p v e

theorem FiltersInv.samplePins (s : State) (levels : LineMap) (now : Stamp) : FiltersInv (samplePins levels now s) :=
  fun l => by
    have active : (Machine.samplePins levels now s).active = s.active := by
      rw [(samplePins_frame levels now s).store.active, filterLines_active]
    have length : (Machine.samplePins levels now s).filterLength l = s.filterLength l := by
      simp only [State.filterLength, active]
    rw [length, filters_samplePins, line_samplePins]
    exact filterWf_filterSample _ _ _ _

/-- Only the sampling operation, the start-up sample and a reset write a filter or a confirmed level. -/
theorem FiltersInv.effect {s t : State} (inv : FiltersInv s) (effect : Effect s t) : FiltersInv t := by
  cases effect with
  | reset kind torn => exact fun l => .inl (filters_deviceReset kind torn s l)
  | startUp levels => exact fun l => .inl (filters_finishStartUp levels s l)
  | sampling levels lag now => exact FiltersInv.samplePins _ levels now
  | ownerTick o => exact inv.congr (by simp) (by simp) fun l => (line_ownerTick o s l).2.1
  | ended p =>
    exact inv.congr (by simp) (by simp) fun l => by
      rw [endSession, line_setSession, line_teardown]
      exact (handed_tearDownEntry p _ _).confirmed
  | waitExpiry l p =>
    exact inv.congr (by simp) (by simp) (confirmed_of_line (line_expireWait l p s) (handed_withdrawEntry p _ _).confirmed)
  | pulseExpiry x r =>
    exact inv.congr (by simp) (by simp) (confirmed_of_line (line_expirePulse x r s) (setPulse_confirmed _ _ _))
  | install p l want stay => exact inv.congr (by simp) (by simp) (confirmed_of_line (line_installOwners l _ s) rfl)
  | join p l ss v stay => exact inv.congr (by simp) (by simp) (confirmed_of_line (line_installOwners l _ s) rfl)
  | preempt p l d stay => exact inv.congr (by simp) (by simp) (confirmed_of_line (line_preempt p l _ stay s) rfl)
  | queued p l want a => exact inv.congr (by simp) (by simp) (confirmed_of_line (line_setLine s l _) rfl)
  | release p l r =>
    exact inv.congr (by simp) (by simp) (confirmed_of_line (fun k => by rw [line_applyLineStep, line_freeTimers])
      (handed_releaseEntry p _ _).confirmed)
  | cancel p l =>
    exact inv.congr (by simp) (by simp) (confirmed_of_line (line_applyLineStep l _ _ _ s)
      (handed_withdrawEntry p _ _).confirmed)
  | commit p => exact inv.congr (by simp) (by simp) fun l => by rw [line_applyStaged, commitLine_confirmed]
  | pulse p l v n x =>
    exact inv.congr (by simp) (by simp) (confirmed_of_line (line_startPulse p l v n.toNat x s) (setPulse_confirmed _ _ _))
  | endReset => exact inv.congr_lines rfl rfl rfl
  | pending | port | numbered | lease | tick | cleared | burnt | attach | lockReset | stage | unstage | discard | watch
  | fetch | openEdit | writeImage | sealed | burning | closeEdit =>
    exact inv.congr_lines (by simp) (by simp) (by simp)

/-- Settles O10, by `FiltersInv.effect`. -/
theorem stepKeepsFilters : Obligations.StepKeepsFilters :=
  fun _ _ inv next => step_keeps (fun _ _ => FiltersInv.effect) inv next

/-! ### Stored images -/

/-- The slots after the completion of a burn: the target as read back, the other as it was (R167). -/
theorem slot_finishBurn (b : Burning) (readBack : List Byte) (s : State) (x : SlotId) :
    (finishBurn b readBack s).slot x = if x = b.target then burntImage s.buffer readBack else s.slot x := by
  rw [← slot_setSlot]
  unfold finishBurn
  dsimp only
  split
  · cases b.target <;> cases x <;> rfl
  · cases x <;> rfl

theorem imageWf_slotAfterReset {s : State} (torn : Torn) (x : SlotId) (wf : imageWf (s.slot x) = true) :
    imageWf (slotAfterReset torn s x) = true := by
  unfold slotAfterReset
  split
  · split
    · exact imageWf_imageOf _
    · exact wf
  · exact wf

theorem imageWf_openSource {active : Option Image} (wf : ∀ img, active = some img → imageWf img = true) :
    imageWf (openSource active).1 = true := by
  cases active with
  | none => rfl
  | some img => exact wf img rfl

theorem ImagesWf.slot {s : State} (wf : ImagesWf s) (x : SlotId) : imageWf (s.slot x) = true := by
  cases x with
  | a => exact wf.slotA
  | b => exact wf.slotB

theorem ImagesWf.of_slots {s : State} (slots : ∀ x, imageWf (s.slot x) = true) (buffer : imageWf s.buffer = true)
    (active : ∀ img, s.active = some img → imageWf img = true) : ImagesWf s :=
  ⟨slots .a, slots .b, buffer, active⟩

theorem ImagesWf.congr {s t : State} (wf : ImagesWf s) (slotA : t.slotA = s.slotA) (slotB : t.slotB = s.slotB)
    (buffer : t.buffer = s.buffer) (active : t.active = s.active) : ImagesWf t :=
  ⟨slotA ▸ wf.slotA, slotB ▸ wf.slotB, buffer ▸ wf.buffer, active ▸ wf.active⟩

/-- Every write of bytes keeps the canonical form, and every other image is a copy. -/
theorem ImagesWf.effect {s t : State} (wf : ImagesWf s) (effect : Effect s t) : ImagesWf t := by
  cases effect with
  | reset kind torn =>
    exact ⟨imageWf_slotAfterReset torn .a wf.slotA, imageWf_slotAfterReset torn .b wf.slotB, rfl, nofun⟩
  | startUp levels =>
    refine ⟨by simpa using wf.slotA, by simpa using wf.slotB, by simpa using wf.buffer, fun img active => ?_⟩
    rw [active_finishStartUp, Option.map_eq_some_iff] at active
    obtain ⟨x, _, rfl⟩ := active
    exact wf.slot x
  | sampling levels lag now =>
    have store := (samplePins_frame levels now { s with lag := { s.lag with inputMonitor := lag } }).store
    exact wf.congr (store.slotA.trans (by simp)) (store.slotB.trans (by simp)) (store.buffer.trans (by simp))
      (store.active.trans (by simp))
  | burnt b readBack =>
    refine .of_slots (fun x => ?_) (by simpa using wf.buffer) (by simpa using wf.active)
    rw [slot_finishBurn]
    split
    · exact imageWf_burntImage _ _
    · exact wf.slot x
  | openEdit p => exact ⟨wf.slotA, wf.slotB, imageWf_openSource wf.active, wf.active⟩
  | writeImage offset data => exact ⟨wf.slotA, wf.slotB, imageWf_imageWriteBytes wf.buffer offset data, wf.active⟩
  | sealed generation => exact ⟨wf.slotA, wf.slotB, imageWf_sealBuffer wf.buffer generation, wf.active⟩
  | endReset => exact wf.congr rfl rfl rfl rfl
  | pending | port | numbered | lease | tick | ownerTick | ended | cleared | waitExpiry | pulseExpiry | attach | lockReset
  | install | join | preempt | queued | release | cancel | stage | unstage | discard | commit | pulse | watch | fetch
  | burning | closeEdit => exact wf.congr (by simp) (by simp) (by simp) (by simp)

/-- Settles O11, by `ImagesWf.effect`. -/
theorem stepKeepsImages : Obligations.StepKeepsImages :=
  fun _ _ wf next => step_keeps (fun _ _ => ImagesWf.effect) wf next

end Sys2Proof.Machine

/-! PROOFS. What every step keeps of the countdowns: what they report, and that no tick passes over an outstanding
expiry. -/

namespace Sys2Proof.Machine

set_option Elab.async false

/-! ### Where the countdowns after an operation come from -/

/-- A countdown just loaded: it reports 1 to 65535, and its expiry is not outstanding. -/
def FreshCountdown (c : Countdown) : Prop := CountdownWf c ∧ c.due = false

theorem freshCountdown_load {n : BitVec 16} (positive : n ≠ 0) : FreshCountdown (countdownLoad n.toNat) := by
  have ne : n.toNat ≠ 0 := fun zero => positive (BitVec.eq_of_toNat_eq (by simpa using zero))
  have lt := n.isLt
  exact ⟨⟨by simp only [countdownLoad]; omega, by simp only [countdownLoad]; omega⟩, rfl⟩

/-- Every countdown of `t` was one of `s` or is loaded anew, and no owner of countdowns took or was given a tick. -/
structure Carries (s t : State) : Prop where
  lag : t.lag.sessionTable = s.lag.sessionTable ∧ t.lag.lineTable = s.lag.lineTable ∧ t.lag.pulsePool = s.lag.pulsePool
  leases : ∀ p a, AttachedAs p a t → AttachedAs p a s ∨ a.lease.due = false
  waits : ∀ l w, w ∈ (t.line l).queue → w ∈ (s.line l).queue ∨ ∀ c, w.countdown = some c → FreshCountdown c
  pulses : ∀ x r, t.timer x = some r → s.timer x = some r ∨ FreshCountdown r.countdown

theorem CountdownsInv.carries {s t : State} (inv : CountdownsInv s) (carries : Carries s t) : CountdownsInv t := by
  obtain ⟨sessions, lines, timers⟩ := carries.lag
  refine ⟨fun l w c mem limit => ?_, fun x r runs => ?_, ?_, fun p a attached due => ?_, fun l w c mem limit due => ?_,
    fun x r runs due => ?_⟩
  · exact (carries.waits l w mem).elim (fun old => inv.waits l w c old limit) fun fresh => (fresh c limit).1
  · exact (carries.pulses x r runs).elim (fun old => inv.pulses x r old) fun fresh => fresh.1
  · rw [sessions, lines, timers]; exact inv.lag
  · rw [sessions]
    obtain old | fresh := carries.leases p a attached
    · exact inv.leaseTicks p a old due
    · cases due.symm.trans fresh
  · rw [lines]
    obtain old | fresh := carries.waits l w mem
    · exact inv.waitTicks l w c old limit due
    · cases due.symm.trans (fresh c limit).2
  · rw [timers]
    obtain old | fresh := carries.pulses x r runs
    · exact inv.pulseTicks x r old due
    · cases due.symm.trans fresh.2

theorem Carries.of_subsides {s t : State} (subsides : Subsides s t) (lag : t.lag = s.lag) : Carries s t :=
  ⟨by simp [lag], fun p a h => .inl (subsides.leases p a h), fun l w h => .inl (subsides.waits l w h),
    fun x r h => .inl (subsides.pulses x r h)⟩

/-- An operation that leaves the timers and the leases, and the queues but for entries with a fresh countdown. -/
theorem Carries.of_waits {s t : State} (lag : t.lag = s.lag) (sessions : t.sessions = s.sessions)
    (timers : ∀ x r, t.timer x = some r → s.timer x = some r)
    (waits : ∀ l w, w ∈ (t.line l).queue → w ∈ (s.line l).queue ∨ ∀ c, w.countdown = some c → FreshCountdown c) :
    Carries s t :=
  ⟨by simp [lag], fun p a h => .inl (by simpa [AttachedAs, State.session, sessions] using h), waits,
    fun x r h => .inl (timers x r h)⟩

/-- An operation that leaves the timers and the queues, and starts leases anew at most. -/
theorem Carries.of_leases {s t : State} (lag : t.lag = s.lag) (lines : t.lines = s.lines) (timers : t.timers = s.timers)
    (leases : ∀ p a, AttachedAs p a t → AttachedAs p a s ∨ a.lease.due = false) : Carries s t :=
  ⟨by simp [lag], leases, fun l w h => .inl (by simpa [State.line, lines] using h),
    fun x r h => .inl (by simpa [State.timer, timers] using h)⟩

theorem Carries.of_same {s t : State} (lag : t.lag = s.lag) (lines : t.lines = s.lines) (timers : t.timers = s.timers)
    (sessions : t.sessions = s.sessions) : Carries s t :=
  .of_leases lag lines timers fun p a h => .inl (by simpa [AttachedAs, State.session, sessions] using h)

/-- A change of one line whose new entries come with fresh countdowns. -/
theorem waits_of_line {s t : State} {l : Line} {e : LineEntry} (line : ∀ k, t.line k = if k = l then e else s.line k)
    (new : ∀ w ∈ e.queue, w ∈ (s.line l).queue ∨ ∀ c, w.countdown = some c → FreshCountdown c) (k : Line) (w : WaitEntry)
    (mem : w ∈ (t.line k).queue) : w ∈ (s.line k).queue ∨ ∀ c, w.countdown = some c → FreshCountdown c := by
  rw [line] at mem
  split at mem
  · next same => exact same ▸ new w mem
  · exact .inl mem

theorem timer_of_freed {s t : State} {x : TimerId} {freed : Bool} (timer : t.timer x = if freed then none else s.timer x)
    {r : PulseTimer} (runs : t.timer x = some r) : s.timer x = some r := by
  rw [timer] at runs
  split at runs
  · cases runs
  · exact runs

theorem attachedAs_setSession {s : State} {p q : Port} {x : Session} {a : Attached} :
    AttachedAs q a (s.setSession p x) ↔ if q = p then x.state = .attached a else AttachedAs q a s := by
  unfold AttachedAs
  rw [session_setSession]
  split <;> rfl

/-- A restarted lease is not due (R132). -/
theorem leases_restartLease {s : State} (p q : Port) (a : Attached) (attached : AttachedAs q a (restartLease p s)) :
    AttachedAs q a s ∨ a.lease.due = false := by
  unfold restartLease at attached
  split at attached
  · rw [attachedAs_setSession] at attached
    split at attached
    · cases attached
      exact .inr rfl
    · exact .inl attached
  · exact .inl attached
  · exact .inl attached

theorem subsides_ended (s : State) (p : Port) {state : SessionState} (reason : EndReason)
    (away : isAttached state = false) : Subsides s (endSession p state reason (teardown p s)) where
  leases q a attached := by
    rw [endSession, attachedAs_setSession] at attached
    split at attached
    · rw [show state = .attached a from attached] at away
      cases away
    · simpa [AttachedAs] using attached
  waits l w mem := by
    rw [endSession, line_setSession, line_teardown] at mem
    exact List.mem_of_mem_filter ((handed_tearDownEntry p _ (s.line l)).queue_mem mem)
  pulses x r runs := by
    rw [endSession, timer_setSession] at runs
    exact timer_of_freed (timer_teardown p s x) runs

/-- The entry of a queued claim counts from its wait limit, which is not 0 (R29). -/
theorem freshCountdown_queuedEntry (p : Port) (want : Want) (a : ClaimArgs) (now : Stamp) (c : Countdown)
    (limit : (queuedEntry p want a now).countdown = some c) : FreshCountdown c := by
  simp only [queuedEntry] at limit
  split at limit
  · cases limit
  · next positive =>
    cases limit
    exact freshCountdown_load positive

/-! ### Ticks -/

/-- A tick lowers a countdown or makes its expiry due; it never reports 0 (R147). -/
theorem countdownWf_tick {c : Countdown} (wf : CountdownWf c) : CountdownWf (countdownTick c) := by
  obtain ⟨least, most⟩ := wf
  unfold countdownTick
  split
  · exact ⟨least, most⟩
  · exact ⟨by simp only; omega, by simp only; omega⟩

theorem countdownWf_of_ticked {w : WaitEntry} {c : Countdown} (limit : (tickWait w).countdown = some c)
    (wf : ∀ d, w.countdown = some d → CountdownWf d) : CountdownWf c := by
  obtain ⟨d, old, rfl⟩ := Option.map_eq_some_iff.mp limit
  exact countdownWf_tick (wf d old)

/-- The owner that takes a tick has then taken the latest one, as at most one was outstanding (R146). -/
theorem CountdownsInv.ownerTick {s : State} (inv : CountdownsInv s) (o : TickOwner) : CountdownsInv (ownerTick o s) := by
  obtain ⟨sessions, lines, timers⟩ := inv.lag
  have own := (lag_ownerTick o s).1
  have other := (lag_ownerTick o s).2
  have lag : ∀ owner, owner ≠ .inputMonitor → lagOf s.lag owner ≤ 1 →
      lagOf (Machine.ownerTick o s).lag owner ≤ lagOf s.lag owner ∧
      (takesTick o owner s → lagOf (Machine.ownerTick o s).lag owner = 0) := by
    intro owner notMonitor most
    by_cases same : owner = o
    · subst same
      rw [if_neg notMonitor] at own
      exact ⟨by omega, fun _ => by omega⟩
    · exact ⟨(other owner same).le, fun takes => absurd takes.1.symm same⟩
  obtain ⟨sessionsLe, sessionsTaken⟩ := lag .sessionTable nofun sessions
  obtain ⟨linesLe, linesTaken⟩ := lag .lineTable nofun lines
  obtain ⟨timersLe, timersTaken⟩ := lag .pulsePool nofun timers
  refine ⟨fun l w c mem limit => ?_, fun x r runs => ?_, ⟨sessionsLe.trans sessions, linesLe.trans lines,
    timersLe.trans timers⟩, fun p a attached due => ?_, fun l w c mem limit due => ?_, fun x r runs due => ?_⟩
  · obtain kept | ⟨_, ticked⟩ := queue_line_ownerTick o s l
    · exact inv.waits l w c (kept ▸ mem) limit
    · rw [ticked] at mem
      obtain ⟨v, old, rfl⟩ := List.mem_map.mp mem
      exact countdownWf_of_ticked limit fun d => inv.waits l v d old
  · obtain kept | ⟨_, ticked⟩ := timer_ownerTick o s x
    · exact inv.pulses x r (kept ▸ runs)
    · rw [ticked, Option.map_eq_some_iff] at runs
      obtain ⟨q, old, rfl⟩ := runs
      exact countdownWf_tick (inv.pulses x q old)
  · obtain kept | ⟨taken, _⟩ := session_ownerTick o s p
    · exact Nat.le_zero.mp (sessionsLe.trans_eq (inv.leaseTicks p a (by rwa [AttachedAs, ← kept]) due))
    · exact sessionsTaken taken
  · obtain kept | ⟨taken, _⟩ := queue_line_ownerTick o s l
    · exact Nat.le_zero.mp (linesLe.trans_eq (inv.waitTicks l w c (kept ▸ mem) limit due))
    · exact linesTaken taken
  · obtain kept | ⟨taken, _⟩ := timer_ownerTick o s x
    · exact Nat.le_zero.mp (timersLe.trans_eq (inv.pulseTicks x r (kept ▸ runs) due))
    · exact timersTaken taken

/-- Of a state without outstanding expiries nothing is asked but the limits. -/
theorem CountdownsInv.of_settled {s : State} (settled : Settled s)
    (waits : ∀ l w c, w ∈ (s.line l).queue → w.countdown = some c → CountdownWf c)
    (pulses : ∀ x r, s.timer x = some r → CountdownWf r.countdown)
    (lag : s.lag.sessionTable ≤ 1 ∧ s.lag.lineTable ≤ 1 ∧ s.lag.pulsePool ≤ 1) : CountdownsInv s :=
  ⟨waits, pulses, lag, fun p a attached due => absurd due (by simp [settled.leases p a attached]),
    fun l w c mem limit due => absurd due (by simp [settled.waits l w c mem limit]),
    fun x r runs due => absurd due (by simp [settled.pulses x r runs])⟩

/-- A tick is produced when the owners have taken the one before it and its expiries are made (R63, R147). -/
theorem CountdownsInv.generateTick {s : State} (inv : CountdownsInv s) (settled : Settled s)
    (taken : s.lag = ⟨0, 0, 0, s.lag.inputMonitor⟩) : CountdownsInv (generateTick s) := by
  have subsides : Subsides s (Machine.generateTick s) :=
    ⟨fun p a h => by simpa [AttachedAs] using h, fun l w h => by simpa using h, fun x r h => by simpa using h⟩
  refine .of_settled (settled.of_subsides subsides) (fun l w c mem => inv.waits l w c (subsides.waits l w mem))
    (fun x r runs => inv.pulses x r (subsides.pulses x r runs)) ?_
  have zero : s.lag.sessionTable = 0 ∧ s.lag.lineTable = 0 ∧ s.lag.pulsePool = 0 := by rw [taken]; exact ⟨rfl, rfl, rfl⟩
  unfold Machine.generateTick
  dsimp only
  split <;> simp [zero]

theorem countdownsInv_deviceReset (kind : ResetKind) (torn : Torn) (s : State) :
    CountdownsInv (deviceReset kind torn s) := by
  have settled : Settled (deviceReset kind torn s) :=
    ⟨fun p a attached => by simp [AttachedAs, session_deviceReset] at attached,
      fun l w c mem => by simp [line_deviceReset, resetEntry] at mem,
      fun x r runs => by simp [timer_deviceReset] at runs⟩
  exact .of_settled settled (fun l w c mem => by simp [line_deviceReset, resetEntry] at mem)
    (fun x r runs => by simp [timer_deviceReset] at runs) ⟨Nat.zero_le 1, Nat.zero_le 1, Nat.zero_le 1⟩

theorem CountdownsInv.effect {s t : State} (inv : CountdownsInv s) (effect : Effect s t) : CountdownsInv t := by
  cases effect with
  | reset kind torn => exact countdownsInv_deviceReset kind torn s
  | tick _ settled taken => exact inv.generateTick settled taken
  | ownerTick o => exact inv.ownerTick o
  | lease p => exact inv.carries (.of_leases (by simp) (by simp) (by simp) (leases_restartLease p))
  | startUp levels =>
    exact inv.carries (.of_waits (by simp) (by simp) (by simp) fun l w mem => .inl (by rwa [line_finishStartUp] at mem))
  | sampling levels lag now =>
    have frame := samplePins_frame levels now { s with lag := { s.lag with inputMonitor := lag } }
    refine inv.carries ⟨by simp, fun p a attached => .inl ?_, fun l w mem => .inl (by rwa [line_samplePins] at mem),
      fun x r runs => .inl ?_⟩
    · rw [AttachedAs, frame.blocks.sessions p rfl] at attached
      simpa [AttachedAs, State.session] using attached
    · rw [frame.blocks.timers x rfl] at runs
      simpa [State.timer] using runs
  | ended p state reason _ away => exact inv.carries (.of_subsides (subsides_ended s p reason away) (by simp))
  | cleared p reason lapsed =>
    refine inv.carries (.of_leases (by simp) (by simp) (by simp) fun q a attached => ?_)
    rw [endSession, attachedAs_setSession] at attached
    split at attached
    · cases attached
    · exact .inl attached
  | attach p g img requested =>
    refine inv.carries (.of_leases (by simp) (by simp) (by simp) fun q a attached => ?_)
    rw [attachedAs_setSession] at attached
    split at attached
    · cases attached
      exact .inr rfl
    · exact .inl attached
  | waitExpiry l p => exact inv.carries (.of_subsides (subsides_expireWait l p s) (by simp))
  | pulseExpiry x r => exact inv.carries (.of_subsides (subsides_expirePulse x r s) (by simp))
  | install p l want stay =>
    exact inv.carries (.of_waits (by simp) (by simp) (by simp) (waits_of_line (line_installOwners l _ s) fun w => .inl))
  | join p l ss v stay =>
    exact inv.carries (.of_waits (by simp) (by simp) (by simp) (waits_of_line (line_installOwners l _ s) fun w => .inl))
  | preempt p l d stay =>
    refine inv.carries (.of_waits (by simp) (by simp) (fun x r => timer_of_freed (timer_preempt p l _ stay s x))
      (waits_of_line (line_preempt p l _ stay s) fun w mem => ?_))
    obtain displaced | waited := List.mem_append.mp mem
    · obtain ⟨r, _, rfl⟩ := List.mem_map.mp displaced
      exact .inr nofun
    · exact .inl waited
  | queued p l want a =>
    refine inv.carries (.of_waits (by simp) (by simp) (by simp) (waits_of_line (line_setLine s l _) fun w mem => ?_))
    obtain waited | new := List.mem_append.mp mem
    · exact .inl waited
    · rw [List.mem_singleton.mp new]
      exact .inr (freshCountdown_queuedEntry p want a _)
  | release p l r =>
    exact inv.carries (.of_waits (by simp) (by simp)
      (fun x q => timer_of_freed ((timer_applyLineStep _ _ _ _ _ x).trans (timer_freeTimers _ s x)))
      (waits_of_line (fun k => by rw [line_applyLineStep, line_freeTimers]) fun w mem =>
        .inl ((handed_releaseEntry p _ _).queue_mem mem)))
  | cancel p l =>
    exact inv.carries (.of_waits (by simp) (by simp) (by simp) (waits_of_line (line_applyLineStep l _ _ _ s) fun w mem =>
      .inl (List.mem_of_mem_filter ((handed_withdrawEntry p _ _).queue_mem mem))))
  | commit p =>
    exact inv.carries (.of_waits (by simp) (by simp) (by simp) fun l w mem =>
      .inl (by rwa [line_applyStaged, commitLine_queue] at mem))
  | pulse p l v n x r _ _ _ _ positive =>
    refine inv.carries ⟨by simp, fun q a attached => .inl (by simpa [AttachedAs] using attached),
      waits_of_line (line_startPulse p l v n.toNat x s) fun w mem => .inl (setPulse_queue p _ (s.line l) ▸ mem),
      fun y q runs => ?_⟩
    rw [timer_startPulse] at runs
    split at runs
    · cases runs
      exact .inr (freshCountdown_load positive)
    · exact .inl runs
  | endReset => exact inv.carries (.of_same rfl rfl rfl rfl)
  | pending | port | numbered | burnt | lockReset | stage | unstage | discard | watch | fetch | openEdit | writeImage
  | sealed | burning | closeEdit => exact inv.carries (.of_same (by simp) (by simp) (by simp) (by simp))

/-- Settles O12: a countdown becomes due in the tick event of its owner alone (`CountdownsInv.ownerTick`), and the next
tick finds none due (`CountdownsInv.generateTick`). -/
theorem stepKeepsCountdowns : Obligations.StepKeepsCountdowns :=
  fun _ _ inv next => step_keeps (fun _ _ => CountdownsInv.effect) inv next

end Sys2Proof.Machine

/-! PROOFS. What every step keeps of the device: state, active profile, sessions, edit lock and burn go together, and
leases lie within the limits of the active profile. What a transaction command leaves alone is said once for all of
them (`exec_linked`). -/

namespace Sys2Proof.Machine

set_option Elab.async false

/-! ### What no transaction changes -/

/-- The waiting commands, the device and the Timebase: what no transaction command changes. -/
def State.standing (s : State) :
    List Instr × Option ResetKind × DeviceState × Bool × TickCount × TickPeriod × OwnerLag :=
  (s.pending, s.resetting, s.device, s.maint, s.tickCount, s.tickPeriod, s.lag)

theorem standing_eq {s t : State} (h : t.standing = s.standing) :
    t.pending = s.pending ∧ t.resetting = s.resetting ∧ t.device = s.device ∧ t.maint = s.maint ∧
      t.tickCount = s.tickCount ∧ t.tickPeriod = s.tickPeriod ∧ t.lag = s.lag := by
  simpa [State.standing] using h

theorem Frame.standing {r : Reach} {s t : State} (frame : Frame r s t) : t.standing = s.standing := by
  simp [State.standing, frame.device.pending, frame.device.resetting, frame.device.device, frame.device.maint,
    frame.time.tickCount, frame.time.tickPeriod, frame.time.lag]

@[simp] theorem standing_putPort (s : State) (p : Port) (x : PortInterface) : (s.putPort p x).standing = s.standing :=
  (Frame.putPort s p x).standing

@[simp] theorem standing_restartLease (p : Port) (s : State) : (restartLease p s).standing = s.standing :=
  (Frame.restartLease p s).standing

theorem standing_serveAttach (p : Port) (payload : List Byte) (s : State) :
    (serveAttach p payload s).1.standing = s.standing := by
  unfold serveAttach
  repeat' split
  all_goals simp [refuse, answer, State.standing]

theorem standing_serveDetach (p : Port) (payload : List Byte) (s : State) :
    (serveDetach p payload s).1.standing = s.standing := by
  unfold serveDetach
  repeat' split
  all_goals simp [refuse, detachReply, answer, State.standing]

theorem standing_serveClaim (p : Port) (payload : List Byte) (s : State) :
    (serveClaim p payload s).1.standing = s.standing := by
  unfold serveClaim evaluateClaim contendClaim queueClaim
  repeat' split
  all_goals simp [refuse, answer, claimGranted, State.standing]

theorem standing_serveRelease (p : Port) (payload : List Byte) (s : State) :
    (serveRelease p payload s).1.standing = s.standing := by
  unfold serveRelease
  repeat' split
  all_goals simp [refuse, releaseLine, answer, State.standing]

theorem standing_serveCancel (p : Port) (payload : List Byte) (s : State) :
    (serveCancel p payload s).1.standing = s.standing := by
  unfold serveCancel
  repeat' split
  all_goals simp [refuse, cancelLine, answer, State.standing]

theorem standing_serveStage (p : Port) (payload : List Byte) (s : State) :
    (serveStage p payload s).1.standing = s.standing := by
  unfold serveStage
  repeat' split
  all_goals simp [refuse, stageLine, answer, State.standing]

theorem standing_serveUnstage (p : Port) (payload : List Byte) (s : State) :
    (serveUnstage p payload s).1.standing = s.standing := by
  unfold serveUnstage
  repeat' split
  all_goals simp [refuse, unstageLine, answer, State.standing]

theorem standing_serveDiscard (p : Port) (payload : List Byte) (s : State) :
    (serveDiscard p payload s).1.standing = s.standing := by
  unfold serveDiscard
  repeat' split
  all_goals simp [refuse, answer, State.standing]

theorem standing_serveCommit (p : Port) (payload : List Byte) (s : State) :
    (serveCommit p payload s).1.standing = s.standing := by
  unfold serveCommit
  repeat' split
  all_goals simp [refuse, answer, State.standing]

theorem standing_servePulse (p : Port) (payload : List Byte) (s : State) :
    (servePulse p payload s).1.standing = s.standing := by
  unfold servePulse
  repeat' split
  all_goals simp [refuse, answer, State.standing]

theorem standing_serveWatch (p : Port) (payload : List Byte) (s : State) :
    (serveWatch p payload s).1.standing = s.standing := by
  unfold serveWatch
  repeat' split
  all_goals simp [refuse, answer, State.standing]

theorem standing_serveFetchEvents (p : Port) (payload : List Byte) (s : State) :
    (serveFetchEvents p payload s).1.standing = s.standing := by
  unfold serveFetchEvents
  repeat' split
  all_goals simp [refuse, fetchRecords, answer, State.standing]

theorem standing_serveOpenEdit (p : Port) (payload : List Byte) (s : State) :
    (serveOpenEdit p payload s).1.standing = s.standing := by
  unfold serveOpenEdit
  repeat' split
  all_goals rfl

theorem standing_serveWriteImage (p : Port) (payload : List Byte) (s : State) :
    (serveWriteImage p payload s).1.standing = s.standing := by
  unfold serveWriteImage
  repeat' split
  all_goals rfl

theorem standing_serveBurnImage (p : Port) (payload : List Byte) (s : State) :
    (serveBurnImage p payload s).1.standing = s.standing := by
  unfold serveBurnImage burnSealed
  dsimp only
  repeat' split
  all_goals simp [refuse, answer, State.standing]

theorem standing_serveCloseEdit (p : Port) (payload : List Byte) (s : State) :
    (serveCloseEdit p payload s).1.standing = s.standing := by
  unfold serveCloseEdit
  repeat' split
  all_goals rfl

theorem standing_serve (r : Request) (found : Nat) (p : Port) (payload : List Byte) (s : State) :
    (serve r found p payload s).1.standing = s.standing := by
  obtain ⟨renew, querySelf, queryDevice, queryLine, sample, readImage⟩ := effects_reports found p payload s
  cases r with
  | attach => exact standing_serveAttach p payload s
  | detach => exact standing_serveDetach p payload s
  | renew => exact congrArg State.standing renew
  | querySelf => exact congrArg State.standing querySelf
  | queryDevice => exact congrArg State.standing queryDevice
  | portReset => rfl
  | claim => exact standing_serveClaim p payload s
  | release => exact standing_serveRelease p payload s
  | cancel => exact standing_serveCancel p payload s
  | queryLine => exact congrArg State.standing queryLine
  | stage => exact standing_serveStage p payload s
  | unstage => exact standing_serveUnstage p payload s
  | discard => exact standing_serveDiscard p payload s
  | commit => exact standing_serveCommit p payload s
  | pulse => exact standing_servePulse p payload s
  | sample => exact congrArg State.standing sample
  | watch => exact standing_serveWatch p payload s
  | fetchEvents => exact standing_serveFetchEvents p payload s
  | openEdit => exact standing_serveOpenEdit p payload s
  | writeImage => exact standing_serveWriteImage p payload s
  | readImage => exact congrArg State.standing readImage
  | burnImage => exact standing_serveBurnImage p payload s
  | closeEdit => exact standing_serveCloseEdit p payload s

theorem standing_serveCode (code : Byte) (found : Nat) (p : Port) (payload : List Byte) (s : State) :
    (serveCode code found p payload s).1.standing = s.standing := by
  unfold serveCode
  split
  · exact standing_serve _ found p payload s
  · rfl

/-! ### The rest of a transaction -/

/-- What the rest of a transaction may do, whatever it carries: it leaves what stands, and in a STARTING transaction it
only records what was shifted out (R185; the free values of log entry 23 may be numbered on). -/
structure RestOf (p : Port) (act : OpenTransaction → State → State) : Prop where
  standing : ∀ o s, (act o s).standing = s.standing
  starting : ∀ o s, o.starting = true → ∃ clocks bytes n, act o s = driveSdo p clocks bytes { s with freeCount := n }

theorem restOf_pollPart (p : Port) (clocks : Nat) : RestOf p (pollPart p clocks) :=
  ⟨fun _ s => standing_putPort s p _, fun o s _ => ⟨clocks, [o.status], s.freeCount, rfl⟩⟩

theorem restOf_readPart (p : Port) (clocks : Nat) : RestOf p (readPart p clocks) := by
  refine ⟨fun o s => ?_, fun o s starting => ?_⟩
  all_goals unfold readPart; split
  · exact (restOf_pollPart p clocks).standing o s
  · dsimp only
    split
    · split <;> simp [driveSdo]
    · simp [driveSdo]
    · simp [driveSdo]
  · exact (restOf_pollPart p clocks).starting o s starting
  · refine ⟨clocks, o.status :: readBytes p o s, s.freeCount, ?_⟩
    dsimp only
    split
    · simp [starting]
    · rfl
    · rfl

theorem standing_takeRequest {service : Nat → Port → List Byte → State → Served}
    (served : ∀ n p payload s, (service n p payload s).1.standing = s.standing) (p : Port) (frame : RequestFrame)
    (s : State) : (takeRequest service p frame s).standing = s.standing := by
  rw [takeRequest, standing_putPort, served, standing_restartLease]

theorem standing_frameArrives {service : Nat → Port → List Byte → State → Served}
    (served : ∀ n p payload s, (service n p payload s).1.standing = s.standing) (p : Port) (frame : RequestFrame)
    (s : State) : (frameArrives service p frame s).standing = s.standing := by
  unfold frameArrives
  split
  · exact standing_takeRequest served p frame s
  · exact standing_putPort s p _
  · exact standing_putPort s p _

theorem standing_takePortReset (p : Port) (frame : RequestFrame) (s : State) :
    (takePortReset p frame s).standing = s.standing := by
  have lock (u : State) : (portResetLock p u).standing = u.standing := by simp [State.standing]
  have session : (portResetSession p s).standing = s.standing := by
    unfold portResetSession
    split
    · simp [State.standing]
    · simp [State.standing]
    · rfl
  rw [takePortReset, standing_putPort, lock, session]

theorem standing_anyFrameArrives (p : Port) (frame : RequestFrame) (s : State) :
    (anyFrameArrives p frame s).standing = s.standing := by
  unfold anyFrameArrives
  split
  · exact standing_takePortReset p frame s
  · exact standing_frameArrives (standing_serveCode frame.code) p frame s

theorem standing_requestFrame {arrives : Port → RequestFrame → State → State}
    (arrived : ∀ p frame s, (arrives p frame s).standing = s.standing) (p : Port) (frame : RequestFrame)
    (o : OpenTransaction) (s : State) : (requestFrame arrives p frame o s).standing = s.standing := by
  unfold requestFrame
  split
  · rfl
  · split
    · exact standing_putPort s p _
    · exact arrived p frame s

theorem restOf_framePart {arrives : Port → RequestFrame → State → State}
    (arrived : ∀ p frame s, (arrives p frame s).standing = s.standing) (p : Port) (frame : RequestFrame) :
    RestOf p (framePart arrives p frame) := by
  refine ⟨fun o s => ?_, fun o s starting => ⟨clocksOf (encodeFrame frame), [o.status], s.freeCount, ?_⟩⟩
  · rw [framePart, standing_requestFrame arrived, driveSdo, standing_putPort]
  · rw [framePart, requestFrame, if_pos starting]

theorem standing_errorPart (p : Port) (o : OpenTransaction) (s : State) : (errorPart p o s).standing = s.standing := by
  unfold errorPart
  split
  · rfl
  · exact standing_putPort s p _

theorem restOf_wirePart (p : Port) (w : Wire) : RestOf p (wirePart p w) := by
  refine ⟨fun o s => ?_, fun o s starting => ?_⟩
  all_goals unfold wirePart; split
  · exact (restOf_pollPart p _).standing o s
  · exact (restOf_readPart p _).standing o s
  · rw [unnamedPart, standing_errorPart, driveSdo, standing_putPort]
    rfl
  · split
    · rw [standing_requestFrame standing_anyFrameArrives, driveSdo, standing_putPort]
    · rw [standing_errorPart, driveSdo, standing_putPort]
  · exact (restOf_pollPart p _).starting o s starting
  · exact (restOf_readPart p _).starting o s starting
  · exact ⟨_, _, s.freeCount + 1, by rw [unnamedPart, errorPart, if_pos starting]⟩
  · refine ⟨clocksOf w, [o.status], s.freeCount, ?_⟩
    split
    · rw [requestFrame, if_pos starting]
    · rw [errorPart, if_pos starting]

/-- Every transaction command is a transaction of its port, in each of its parts (log entry 10). -/
theorem exec_linked {c : Instr} {p : Port} (linked : linkPort c = some p) :
    ∃ act, RestOf p act ∧ ∀ span s, exec (spanned span c) s = .next (transaction p span act s) := by
  have request (service : Nat → Port → List Byte → State → Served) (frame : RequestFrame)
      (served : ∀ n p payload s, (service n p payload s).1.standing = s.standing) :
      RestOf p (framePart (frameArrives service) p frame) := restOf_framePart (standing_frameArrives served) p frame
  cases c with
  | powerOnReset | brownOutReset | rstNReset | endOfReset | endOfStartUp | tick | inputSampling | leaseExpiry | waitExpiry
  | pulseExpiry | burnCompletion | requestCompletion => cases linked
  | statusPoll q clocks => cases linked; exact ⟨_, restOf_pollPart p clocks, fun _ _ => rfl⟩
  | readResponse q clocks => cases linked; exact ⟨_, restOf_readPart p clocks, fun _ _ => rfl⟩
  | frameError q wire => cases linked; exact ⟨_, restOf_wirePart p wire, fun _ _ => rfl⟩
  | startingTransaction q wire => cases linked; exact ⟨_, restOf_wirePart p wire, fun _ _ => rfl⟩
  | busyDrop q code tag payload =>
    cases linked; exact ⟨_, restOf_framePart standing_anyFrameArrives p ⟨code, tag, payload⟩, fun _ _ => rfl⟩
  | unknown q code tag payload =>
    cases linked; exact ⟨_, restOf_framePart standing_anyFrameArrives p ⟨code, tag, payload⟩, fun _ _ => rfl⟩
  | portReset q tag payload =>
    cases linked
    exact ⟨_, restOf_framePart standing_takePortReset p ⟨requestCode .portReset, tag, payload⟩, fun _ _ => rfl⟩
  | attach q tag payload => cases linked; exact ⟨_, request _ ⟨_, tag, payload⟩ (standing_serve .attach), fun _ _ => rfl⟩
  | detach q tag payload => cases linked; exact ⟨_, request _ ⟨_, tag, payload⟩ (standing_serve .detach), fun _ _ => rfl⟩
  | renew q tag payload => cases linked; exact ⟨_, request _ ⟨_, tag, payload⟩ (standing_serve .renew), fun _ _ => rfl⟩
  | querySelf q tag payload =>
    cases linked; exact ⟨_, request _ ⟨_, tag, payload⟩ (standing_serve .querySelf), fun _ _ => rfl⟩
  | queryDevice q tag payload =>
    cases linked; exact ⟨_, request _ ⟨_, tag, payload⟩ (standing_serve .queryDevice), fun _ _ => rfl⟩
  | claim q tag payload => cases linked; exact ⟨_, request _ ⟨_, tag, payload⟩ (standing_serve .claim), fun _ _ => rfl⟩
  | release q tag payload => cases linked; exact ⟨_, request _ ⟨_, tag, payload⟩ (standing_serve .release), fun _ _ => rfl⟩
  | cancel q tag payload => cases linked; exact ⟨_, request _ ⟨_, tag, payload⟩ (standing_serve .cancel), fun _ _ => rfl⟩
  | queryLine q tag payload =>
    cases linked; exact ⟨_, request _ ⟨_, tag, payload⟩ (standing_serve .queryLine), fun _ _ => rfl⟩
  | stage q tag payload => cases linked; exact ⟨_, request _ ⟨_, tag, payload⟩ (standing_serve .stage), fun _ _ => rfl⟩
  | unstage q tag payload => cases linked; exact ⟨_, request _ ⟨_, tag, payload⟩ (standing_serve .unstage), fun _ _ => rfl⟩
  | discard q tag payload => cases linked; exact ⟨_, request _ ⟨_, tag, payload⟩ (standing_serve .discard), fun _ _ => rfl⟩
  | commit q tag payload => cases linked; exact ⟨_, request _ ⟨_, tag, payload⟩ (standing_serve .commit), fun _ _ => rfl⟩
  | pulse q tag payload => cases linked; exact ⟨_, request _ ⟨_, tag, payload⟩ (standing_serve .pulse), fun _ _ => rfl⟩
  | sample q tag payload => cases linked; exact ⟨_, request _ ⟨_, tag, payload⟩ (standing_serve .sample), fun _ _ => rfl⟩
  | watch q tag payload => cases linked; exact ⟨_, request _ ⟨_, tag, payload⟩ (standing_serve .watch), fun _ _ => rfl⟩
  | fetchEvents q tag payload =>
    cases linked; exact ⟨_, request _ ⟨_, tag, payload⟩ (standing_serve .fetchEvents), fun _ _ => rfl⟩
  | openEdit q tag payload =>
    cases linked; exact ⟨_, request _ ⟨_, tag, payload⟩ (standing_serve .openEdit), fun _ _ => rfl⟩
  | writeImage q tag payload =>
    cases linked; exact ⟨_, request _ ⟨_, tag, payload⟩ (standing_serve .writeImage), fun _ _ => rfl⟩
  | readImage q tag payload =>
    cases linked; exact ⟨_, request _ ⟨_, tag, payload⟩ (standing_serve .readImage), fun _ _ => rfl⟩
  | burnImage q tag payload =>
    cases linked; exact ⟨_, request _ ⟨_, tag, payload⟩ (standing_serve .burnImage), fun _ _ => rfl⟩
  | closeEdit q tag payload =>
    cases linked; exact ⟨_, request _ ⟨_, tag, payload⟩ (standing_serve .closeEdit), fun _ _ => rfl⟩

theorem exists_span {c : Instr} {p : Port} (linked : linkPort c = some p) : ∃ span, spanned span c = c := by
  cases c with
  | powerOnReset | brownOutReset | rstNReset | endOfReset | endOfStartUp | tick | inputSampling | leaseExpiry | waitExpiry
  | pulseExpiry | burnCompletion | requestCompletion => cases linked
  | statusPoll _ _ span | readResponse _ _ span | frameError _ _ span | startingTransaction _ _ span
  | busyDrop _ _ _ _ span | unknown _ _ _ _ span | attach _ _ _ span | detach _ _ _ span | renew _ _ _ span
  | querySelf _ _ _ span | queryDevice _ _ _ span | portReset _ _ _ span | claim _ _ _ span | release _ _ _ span
  | cancel _ _ _ span | queryLine _ _ _ span | stage _ _ _ span | unstage _ _ _ span | discard _ _ _ span
  | commit _ _ _ span | pulse _ _ _ span | sample _ _ _ span | watch _ _ _ span | fetchEvents _ _ _ span
  | openEdit _ _ _ span | writeImage _ _ _ span | readImage _ _ _ span | burnImage _ _ _ span | closeEdit _ _ _ span =>
    exact ⟨span, rfl⟩

theorem standing_chipSelectFalls (p : Port) (s : State) : (chipSelectFalls p s).standing = s.standing := by
  unfold chipSelectFalls
  split
  · rfl
  · exact standing_putPort s p _

theorem standing_finishTransaction {p : Port} {act : OpenTransaction → State → State} (rest : RestOf p act) (s : State) :
    (finishTransaction p act s).standing = s.standing := by
  unfold finishTransaction
  split
  · rfl
  · rw [rest.standing, standing_putPort]

theorem standing_transaction {p : Port} {act : OpenTransaction → State → State} (rest : RestOf p act) (span : Span)
    (s : State) : (transaction p span act s).standing = s.standing := by
  have ready := (Frame.finishTicks s).standing
  cases span with
  | whole => simp only [transaction, standing_finishTransaction rest, standing_chipSelectFalls, ready]
  | fall => simp only [transaction, standing_chipSelectFalls, ready]
  | rest => simp only [transaction, standing_finishTransaction rest, ready]

/-- During a device reset, with no transaction open at the port, a transaction command only brings the tick events to
their end (R170). -/
theorem transaction_ignored {p : Port} {s : State} (resetting : s.resetting ≠ none)
    (closed : (s.port p).transaction = none) (span : Span) (act : OpenTransaction → State → State) :
    transaction p span act s = finishTicks s := by
  have frame := Frame.finishTicks s
  have falls : chipSelectFalls p (finishTicks s) = finishTicks s :=
    chipSelectFalls_ignored (.inl (by rwa [frame.device.resetting]))
  have closed : ((finishTicks s).port p).transaction = none :=
    (congrArg PortInterface.transaction (frame.blocks.ports p rfl)).trans closed
  cases span with
  | whole => simp only [transaction, falls, finishTransaction_closed closed act]
  | fall => exact (transaction_fall p act s).trans falls
  | rest => simp only [transaction, finishTransaction_closed closed act]

end Sys2Proof.Machine

/-! PROOFS. The machine as a whole (a step, its answer, the state after reset), and what every step keeps of the device
and of the leases. -/

namespace Sys2Proof.Machine

set_option Elab.async false

/-! ### The waiting commands -/

theorem standing_exec_linked {c : Instr} {p : Port} {s t : State} (linked : linkPort c = some p)
    (next : exec c s = .next t) :
    t.standing = s.standing := by
  obtain ⟨act, rest, all⟩ := exec_linked linked
  obtain ⟨span, same⟩ := exists_span linked
  rw [← same, all, Host.Outcome.next.injEq] at next
  rw [← next, standing_transaction rest]

theorem pending_takeTicks (o : TickOwner) (s : State) : (takeTicks o s).pending = s.pending := by
  have all : ∀ n s, ((ownerTick o)^[n] s).pending = s.pending := by
    intro n
    induction n with
    | zero => exact fun s => rfl
    | succ n ih => exact fun s => by rw [Function.iterate_succ_apply, ih, ownerTick_pending]
  exact all _ s

theorem pending_endTick (s : State) : (endTick s).pending = s.pending := by
  rw [endTick, (Frame.finishTicks _).device.pending, pending_takeTicks, pending_takeTicks, pending_takeTicks]

theorem pending_completeBurn (p : Port) (reply : Reply) (s : State) : (completeBurn p reply s).pending = s.pending := by
  unfold completeBurn
  split
  · split <;> simp
  · simp

/-- Every command answers a next state and leaves the waiting commands. -/
theorem exec_next (c : Instr) (s : State) : ∃ t, exec c s = .next t ∧ t.pending = s.pending := by
  cases linked : linkPort c with
  | some p =>
    obtain ⟨act, _, all⟩ := exec_linked linked
    obtain ⟨span, same⟩ := exists_span linked
    have next := same ▸ all span s
    exact ⟨_, next, congrArg Prod.fst (standing_exec_linked linked next)⟩
  | none =>
    cases c with
    | powerOnReset torn => exact ⟨_, rfl, rfl⟩
    | brownOutReset torn => exact ⟨_, rfl, by split <;> rfl⟩
    | rstNReset torn => exact ⟨_, rfl, by split <;> rfl⟩
    | endOfReset maint => exact ⟨_, rfl, by split <;> rfl⟩
    | endOfStartUp levels => exact ⟨_, rfl, by split <;> simp⟩
    | tick event =>
      refine ⟨_, rfl, ?_⟩
      split
      · rfl
      · cases event <;> simp [pending_endTick]
    | inputSampling levels =>
      refine ⟨_, rfl, ?_⟩
      split
      · rfl
      · rw [(samplePins_frame levels _ _).device.pending, filterLines_pending]
    | leaseExpiry p => exact ⟨_, rfl, (Frame.leaseExpires p s).device.pending⟩
    | waitExpiry l p => exact ⟨_, rfl, (Frame.waitExpires l p s).device.pending⟩
    | pulseExpiry x => exact ⟨_, rfl, (Frame.pulseExpires x s).device.pending⟩
    | burnCompletion readBack =>
      refine ⟨_, rfl, ?_⟩
      split
      · rw [pending_completeBurn, finishBurn_pending]
      · rfl
    | requestCompletion p which =>
      refine ⟨_, rfl, ?_⟩
      split
      · unfold completeCurrent; split
        · split <;> simp
        all_goals rfl
      · unfold completeOvertaken; split
        · split <;> simp
        · rfl
    | _ => cases linked

/-- Settles O1: the definition of a step, by the queue it finds. -/
theorem stepRunsFrontCommand : Obligations.StepRunsFrontCommand :=
  ⟨fun c rest s queue => by rw [step, queue], fun s empty => by rw [step, empty]⟩

/-- Settles O2, by `exec_next`. -/
theorem everyCommandAnswersNext : Obligations.EveryCommandAnswersNext := exec_next

/-- Settles O18: a reset lasts, so that its end is taken. -/
theorem endOfResetStartsLoad : Obligations.EndOfResetStartsLoad := by
  intro maint s resetting
  have lasts : s.resetting.isSome = true := Option.isSome_iff_ne_none.mpr resetting
  simp only [exec, execEndOfReset, lasts, if_true, endReset]

/-! ### The gates of a reset and of start-up -/

/-- During a reset the device state is STARTING and no transaction is open; until the end of start-up no tick is
outstanding (R89, R150, R170). -/
structure Gates (s : State) : Prop where
  starting : s.resetting ≠ none → s.device = .starting
  closed : s.resetting ≠ none → ∀ p, (s.port p).transaction = none
  noTicks : s.device = .starting → s.lag = ⟨0, 0, 0, 0⟩

theorem Gates.congr {s t : State} (gates : Gates s) (standing : t.standing = s.standing)
    (closed : s.resetting ≠ none → ∀ p, (t.port p).transaction = (s.port p).transaction) : Gates t := by
  obtain ⟨_, resetting, device, _, _, _, lag⟩ := standing_eq standing
  rw [← resetting] at closed
  refine ⟨resetting ▸ device ▸ gates.starting, fun lasts p => (closed lasts p).trans ?_, device ▸ lag ▸ gates.noTicks⟩
  exact gates.closed (resetting ▸ lasts) p

theorem Gates.frame {r : Reach} {s t : State} (gates : Gates s) (frame : Frame r s t) (ports : ∀ p, r.ports p = false) :
    Gates t :=
  gates.congr frame.standing fun _ p => by rw [frame.blocks.ports p (ports p)]

/-- A port that changes but for its transaction. -/
theorem Gates.putPort {s : State} (gates : Gates s) (p : Port) {x : PortInterface}
    (same : x.transaction = (s.port p).transaction) : Gates (s.putPort p x) :=
  gates.congr (standing_putPort s p x) fun _ q => by
    rw [port_putPort]
    split
    · next here => rw [same, here]
    · rfl

theorem Gates.deviceReset (kind : ResetKind) (torn : Torn) (s : State) : Gates (deviceReset kind torn s) :=
  ⟨fun _ => rfl, fun _ p => by fin_cases p <;> rfl, fun _ => rfl⟩

theorem lag_eq_zero {lag : OwnerLag} : lag = ⟨0, 0, 0, 0⟩ ↔ ∀ o, lagOf lag o = 0 := by
  constructor
  · rintro rfl o
    cases o <;> rfl
  · intro zero
    obtain ⟨a, b, c, d⟩ := lag
    rw [show a = 0 from zero .sessionTable, show b = 0 from zero .lineTable, show c = 0 from zero .pulsePool,
      show d = 0 from zero .inputMonitor]

theorem Gates.ownerTick {s : State} (gates : Gates s) (o : TickOwner) : Gates (ownerTick o s) := by
  have device : (Machine.ownerTick o s).device = s.device := by simp
  have resetting : (Machine.ownerTick o s).resetting = s.resetting := by simp
  refine ⟨resetting ▸ device ▸ gates.starting, fun lasts p => ?_, fun starting => ?_⟩
  · rw [show (Machine.ownerTick o s).port p = s.port p by simp]
    exact gates.closed (resetting ▸ lasts) p
  · have none := lag_eq_zero.mp (gates.noTicks (device ▸ starting))
    unfold Machine.ownerTick
    rw [if_pos (none o)]
    exact lag_eq_zero.mpr none

theorem Gates.endTick {s : State} (gates : Gates s) : Gates (endTick s) := by
  have take (o : TickOwner) (s : State) (gates : Gates s) : Gates (takeTicks o s) := by
    have all : ∀ n s, Gates s → Gates ((Machine.ownerTick o)^[n] s) := by
      intro n
      induction n with
      | zero => exact fun _ gates => gates
      | succ n ih => exact fun s gates => ih _ (gates.ownerTick o)
    exact all _ s gates
  exact (take _ _ (take _ _ (take _ _ gates))).frame (Frame.finishTicks _) fun _ => rfl

theorem Gates.generateTick {s : State} (gates : Gates s) : Gates (generateTick s) := by
  refine ⟨by simpa using gates.starting, by simpa using gates.closed, fun starting => ?_⟩
  have starting : s.device = .starting := by simpa using starting
  rw [Machine.generateTick, if_pos starting]
  exact gates.noTicks starting

theorem startUpDevice_ne (maint : Bool) (x : Option SlotId) : startUpDevice maint x ≠ .starting := by
  cases x <;> cases maint <;> simp [startUpDevice]

theorem Gates.exec {c : Instr} {s t : State} (gates : Gates s) (next : exec c s = .next t) : Gates t := by
  cases linked : linkPort c with
  | some p =>
    refine gates.congr (standing_exec_linked linked next) fun lasts q => ?_
    obtain ⟨act, _, all⟩ := exec_linked linked
    obtain ⟨span, same⟩ := exists_span linked
    rw [← same, all, Host.Outcome.next.injEq, transaction_ignored lasts (gates.closed lasts p)] at next
    rw [← next, (Frame.finishTicks s).blocks.ports q rfl]
  | none =>
    cases c with
    | powerOnReset torn => cases next; exact .deviceReset _ torn s
    | brownOutReset torn =>
      cases next; split
      · exact gates
      · exact .deviceReset _ torn s
    | rstNReset torn =>
      cases next; split
      · exact gates
      · exact .deviceReset _ torn s
    | endOfReset maint =>
      cases next; split
      · next lasts =>
        exact ⟨fun ended => absurd rfl ended, fun ended => absurd rfl ended, fun _ =>
          gates.noTicks (gates.starting (Option.isSome_iff_ne_none.mp lasts))⟩
      · exact gates
    | endOfStartUp levels =>
      cases next; split
      · next began =>
        have ended : s.resetting = none := by simp_all
        refine ⟨fun lasts => absurd ended (by simpa using lasts), fun lasts => absurd ended (by simpa using lasts),
          fun starting => ?_⟩
        rw [device_finishStartUp] at starting
        exact absurd starting (startUpDevice_ne _ _)
      · exact gates
    | tick event =>
      cases next; split
      · exact gates
      · cases event with
        | whole => exact ((gates.endTick.generateTick.ownerTick _).ownerTick _).ownerTick _
        | generated => exact gates.endTick.generateTick
        | reaches o => exact gates.ownerTick o
    | inputSampling levels =>
      cases next; split
      · exact gates
      · next outstanding =>
        have running : s.device ≠ .starting := fun starting => outstanding (by rw [gates.noTicks starting])
        have sampled (u : State) (now : Stamp) := (samplePins_frame levels now u).device
        refine ⟨fun lasts => ?_, fun lasts => ?_, fun starting => ?_⟩
        · rw [(sampled _ _).resetting, filterLines_resetting] at lasts
          exact absurd (gates.starting lasts) running
        · rw [(sampled _ _).resetting, filterLines_resetting] at lasts
          exact absurd (gates.starting lasts) running
        · rw [(sampled _ _).device, filterLines_device] at starting
          exact absurd starting running
    | leaseExpiry p => cases next; exact gates.frame (Frame.leaseExpires p s) fun _ => rfl
    | waitExpiry l p => cases next; exact gates.frame (Frame.waitExpires l p s) fun _ => rfl
    | pulseExpiry x => cases next; exact gates.frame (Frame.pulseExpires x s) fun _ => rfl
    | burnCompletion readBack =>
      cases next; split
      · next b _ =>
        have burnt : Gates (finishBurn b readBack s) := gates.congr (by simp [State.standing]) (by simp)
        unfold completeBurn
        split
        · split <;> exact burnt.putPort _ rfl
        · exact burnt.putPort _ rfl
      · exact gates
    | requestCompletion p which =>
      cases next; split
      · unfold completeCurrent; split
        · split
          · exact gates.putPort p rfl
          · exact gates
        all_goals exact gates
      · unfold completeOvertaken; split
        · split
          · exact gates.putPort p rfl
          · exact gates
        · exact gates
    | _ => cases linked

theorem Gates.step {s t : State} (gates : Gates s) (next : step s = .next t) : Gates t := by
  unfold Machine.step at next
  split at next
  · cases next; exact gates
  · next c rest _ =>
    have popped : Gates { s with pending := rest } := ⟨gates.starting, gates.closed, gates.noTicks⟩
    exact popped.exec next

end Sys2Proof.Machine

/-! PROOFS. What every step keeps of the Profile Store beside the sessions, and of the leases. -/

namespace Sys2Proof.Machine

set_option Elab.async false

/-! ### The Profile Store and the device state -/

/-- What `StoreInv` reads, but for the sessions. -/
def State.profileState (s : State) :
    Option ResetKind × DeviceState × Image × Image × Option SlotId × Option Image × EditLock × Option Burning :=
  (s.resetting, s.device, s.slotA, s.slotB, s.activeSlot, s.active, s.lock, s.burn)

theorem slot_of_profileState {s t : State} (same : t.profileState = s.profileState) : t.slot = s.slot := by
  simp only [State.profileState, Prod.mk.injEq] at same
  obtain ⟨_, _, slotA, slotB, _⟩ := same
  funext x
  cases x with
  | a => exact slotA
  | b => exact slotB

/-- What every operation keeps of the Profile Store, the device state and the sessions (R157, R158, R160, R164, R166). -/
structure StoreInv (s : State) : Prop where
  resettingStarting : s.resetting ≠ none → s.device = .starting
  startingNoProfile : s.device = .starting → s.activeSlot = none
  operatingProfile : s.device = .operating → s.activeSlot ≠ none
  faultedNoProfile : s.device = .faulted → s.activeSlot = none
  activeIsSlot : s.active = s.activeSlot.map s.slot
  attachedOperating : ∀ p, isAttached (s.session p).state = true → s.device = .operating
  lockMaintenance : s.lock ≠ .free → s.device = .maintenance
  burnLocked : s.burn ≠ none → s.lock ≠ .free
  releasingBurns : s.lock = .releasing → s.burn ≠ none
  burnSparesActive : ∀ b, s.burn = some b → s.activeSlot ≠ some b.target

theorem StoreInv.congr_operating {s t : State} (inv : StoreInv s) (same : t.profileState = s.profileState)
    (attached : ∀ p, isAttached (t.session p).state = true → s.device = .operating) : StoreInv t := by
  have slot := slot_of_profileState same
  simp only [State.profileState, Prod.mk.injEq] at same
  obtain ⟨resetting, device, _, _, activeSlot, active, lock, burn⟩ := same
  constructor
  all_goals simp only [resetting, device, slot, activeSlot, active, lock, burn]
  · exact inv.resettingStarting
  · exact inv.startingNoProfile
  · exact inv.operatingProfile
  · exact inv.faultedNoProfile
  · exact inv.activeIsSlot
  · exact attached
  · exact inv.lockMaintenance
  · exact inv.burnLocked
  · exact inv.releasingBurns
  · exact inv.burnSparesActive

theorem StoreInv.congr {s t : State} (inv : StoreInv s) (same : t.profileState = s.profileState)
    (attached : ∀ p, isAttached (t.session p).state = true → isAttached (s.session p).state = true) : StoreInv t :=
  inv.congr_operating same fun p here => inv.attachedOperating p (attached p here)

/-- Writing one session to a state that is not ATTACHED attaches none. -/
theorem isAttached_of_endSession {s : State} {p q : Port} {state : SessionState} {reason : EndReason}
    (away : isAttached state = false) (here : isAttached ((endSession p state reason s).session q).state = true) :
    isAttached (s.session q).state = true := by
  rw [endSession, session_setSession] at here
  split at here
  · exact absurd here (by simp [away])
  · exact here

/-- In STARTING no profile is active, no session is ATTACHED, the edit lock is FREE and no burn is in flight. -/
theorem StoreInv.quiet {s : State} (inv : StoreInv s) (starting : s.device = .starting) :
    (∀ p, isAttached (s.session p).state = false) ∧ s.lock = .free ∧ s.burn = none := by
  have free : s.lock = .free := by
    by_contra held
    cases (inv.lockMaintenance held).symm.trans starting
  refine ⟨fun p => Bool.eq_false_iff.mpr fun here => ?_, free, ?_⟩
  · cases (inv.attachedOperating p here).symm.trans starting
  · by_contra burns
    exact inv.burnLocked burns free

theorem burnTarget_spares (x : Option SlotId) : x ≠ some (burnTarget x) := by
  rcases x with _ | x
  · nofun
  · cases x <;> simp [burnTarget]

theorem lock_finishBurn (b : Burning) (readBack : List Byte) (s : State) :
    (finishBurn b readBack s).lock = lockAfterBurn s.lock := by
  unfold finishBurn
  dsimp only
  split <;> simp

theorem burn_finishBurn (b : Burning) (readBack : List Byte) (s : State) : (finishBurn b readBack s).burn = none := by
  unfold finishBurn
  dsimp only
  split <;> simp

theorem storeInv_deviceReset (kind : ResetKind) (torn : Torn) (s : State) : StoreInv (deviceReset kind torn s) where
  resettingStarting _ := rfl
  startingNoProfile _ := rfl
  operatingProfile := nofun
  faultedNoProfile _ := rfl
  activeIsSlot := rfl
  attachedOperating p here := by rw [session_deviceReset] at here; cases here
  lockMaintenance held := absurd rfl held
  burnLocked burns := absurd rfl burns
  releasingBurns := nofun
  burnSparesActive := nofun

theorem startUpDevice_operating {maint : Bool} {x : Option SlotId} (operating : startUpDevice maint x = .operating) :
    x ≠ none := by
  rintro rfl
  cases maint <;> cases operating

theorem startUpDevice_faulted {maint : Bool} {x : Option SlotId} (faulted : startUpDevice maint x = .faulted) :
    x = none := by
  cases x with
  | none => rfl
  | some x => cases maint <;> cases faulted

/-- Start-up finds no session ATTACHED, the edit lock FREE and no burn in flight. -/
theorem StoreInv.finishStartUp {s : State} (inv : StoreInv s) (ended : s.resetting = none) (starting : s.device = .starting)
    (levels : LineMap) : StoreInv (finishStartUp levels s) := by
  obtain ⟨away, free, idle⟩ := inv.quiet starting
  have slot : (Machine.finishStartUp levels s).slot = s.slot := by
    funext x
    cases x <;> simp [State.slot]
  constructor
  case attachedOperating => exact fun p here => by simp [away] at here
  case activeIsSlot => rw [active_finishStartUp, activeSlot_finishStartUp, slot]
  all_goals simp only [device_finishStartUp, activeSlot_finishStartUp, finishStartUp_resetting, finishStartUp_lock,
    finishStartUp_burn, ended, free, idle]
  · exact fun lasts => absurd rfl lasts
  · exact fun starting => absurd starting (startUpDevice_ne _ _)
  · exact startUpDevice_operating
  · exact startUpDevice_faulted
  · exact fun held => absurd rfl held
  · exact fun burns => absurd rfl burns
  · nofun
  · nofun

theorem StoreInv.finishBurn {s : State} (inv : StoreInv s) {b : Burning} (burns : s.burn = some b) (readBack : List Byte) :
    StoreInv (finishBurn b readBack s) := by
  have spared : s.active = s.activeSlot.map (Machine.finishBurn b readBack s).slot := by
    rw [inv.activeIsSlot]
    refine Option.map_congr fun x active => ?_
    rw [slot_finishBurn, if_neg]
    rintro rfl
    exact inv.burnSparesActive b burns active
  have lock (h : lockAfterBurn s.lock ≠ .free) : s.lock ≠ .free := by
    intro free
    rw [free] at h
    exact h rfl
  constructor
  case activeIsSlot => rw [finishBurn_active, finishBurn_activeSlot]; exact spared
  all_goals simp only [finishBurn_resetting, finishBurn_device, finishBurn_activeSlot, session_finishBurn, lock_finishBurn,
    burn_finishBurn]
  · exact inv.resettingStarting
  · exact inv.startingNoProfile
  · exact inv.operatingProfile
  · exact inv.faultedNoProfile
  · exact inv.attachedOperating
  · exact fun held => inv.lockMaintenance (lock held)
  · exact fun burns => absurd rfl burns
  · cases held : s.lock <;> simp [lockAfterBurn]
  · nofun

/-- A change of the edit lock and the burn in flight alone. -/
theorem StoreInv.relock {s : State} (inv : StoreInv s) {t : State}
    (same : { t with lock := s.lock, burn := s.burn }.profileState = s.profileState) (sessions : t.sessions = s.sessions)
    (maintenance : t.lock ≠ .free → t.device = .maintenance) (locked : t.burn ≠ none → t.lock ≠ .free)
    (releasing : t.lock = .releasing → t.burn ≠ none) (spares : ∀ b, t.burn = some b → t.activeSlot ≠ some b.target) :
    StoreInv t := by
  have kept : StoreInv { t with lock := s.lock, burn := s.burn } :=
    inv.congr same fun p => by simp [State.session, sessions]
  exact ⟨kept.resettingStarting, kept.startingNoProfile, kept.operatingProfile, kept.faultedNoProfile, kept.activeIsSlot,
    kept.attachedOperating, maintenance, locked, releasing, spares⟩

theorem StoreInv.startBurn {s : State} (inv : StoreInv s) (p : Port) (generation : BitVec 16)
    (maintenance : s.device = .maintenance) (held : s.lock = .held p) : StoreInv (startBurn p generation s) := by
  have lock : (Machine.startBurn p generation s).lock = .held p := by simp [held]
  refine inv.relock ?_ (by simp) (fun _ => by simpa using maintenance) (fun _ => by rw [lock]; nofun) (fun free => ?_)
    fun b burns => ?_
  · cases target : burnTarget s.activeSlot <;> simp [Machine.startBurn, State.profileState, State.setRecord, target]
  · cases lock.symm.trans free
  · cases burns
    simpa using burnTarget_spares s.activeSlot

theorem StoreInv.portResetLock {s : State} (inv : StoreInv s) (p : Port) : StoreInv (portResetLock p s) := by
  unfold Machine.portResetLock
  split
  · next editor =>
    have held := editor_of_isEditor editor
    have maintenance := inv.lockMaintenance (by simp [held])
    refine inv.relock rfl rfl (fun _ => maintenance) (fun burns => ?_) (fun releasing => ?_) inv.burnSparesActive
    · simp [Option.isSome_iff_ne_none.mpr burns]
    · simpa using releasing
  · exact inv

theorem StoreInv.effect {s t : State} (inv : StoreInv s) (effect : Effect s t) : StoreInv t := by
  cases effect with
  | reset kind torn => exact storeInv_deviceReset kind torn s
  | endReset m lasts =>
    have starting := inv.resettingStarting lasts
    have kept : StoreInv { s with resetting := none } :=
      { inv with resettingStarting := fun h => absurd rfl h }
    exact kept.congr (by rw [endReset, State.profileState, State.profileState, starting]) fun p => id
  | startUp levels ended starting => exact inv.finishStartUp ended starting levels
  | burnt b readBack burns => exact inv.finishBurn burns readBack
  | burning p generation maintenance _ held => exact inv.startBurn p generation maintenance held
  | lockReset p => exact inv.portResetLock p
  | closeEdit p idle held =>
    exact inv.relock rfl rfl (fun h => absurd rfl h) (fun h => absurd idle h) nofun inv.burnSparesActive
  | openEdit p maintenance free =>
    exact inv.relock rfl rfl (fun _ => maintenance) nofun nofun inv.burnSparesActive
  | sampling levels lag now =>
    have frame := samplePins_frame levels now { s with lag := { s.lag with inputMonitor := lag } }
    refine inv.congr ?_ fun p here => ?_
    · simp only [State.profileState, frame.store.slotA, frame.store.slotB, frame.store.activeSlot, frame.store.active,
        frame.store.lock, frame.store.burn, frame.device.device, frame.device.resetting]
      simp
    · rw [frame.blocks.sessions p rfl] at here
      simpa [State.session] using here
  | attach p g img requested operating =>
    exact inv.congr_operating (by simp [State.profileState]) fun _ _ => operating
  | lease p => exact inv.congr (by simp [State.profileState]) fun q => by rw [isAttached_restartLease]; exact id
  | ownerTick o => exact inv.congr (by simp [State.profileState]) fun q => by rw [isAttached_ownerTick]; exact id
  | ended p state reason _ away =>
    exact inv.congr (by simp [State.profileState]) fun q here => by simpa using isAttached_of_endSession away here
  | cleared p =>
    exact inv.congr (by simp [State.profileState]) fun q here => isAttached_of_endSession rfl here
  | pending | numbered | writeImage | sealed => exact inv.congr (by simp [State.profileState]) fun q => id
  | port | tick | waitExpiry | pulseExpiry | install | join | preempt | queued | release | cancel | stage | unstage
  | discard | commit | pulse | watch | fetch => exact inv.congr (by simp [State.profileState]) fun q => by simp

theorem gates_of_deviceInv {s : State} (inv : DeviceInv s) : Gates s :=
  ⟨inv.resettingStarting, inv.resettingClosed, inv.startingNoTicks⟩

theorem storeInv_of_deviceInv {s : State} (inv : DeviceInv s) : StoreInv s :=
  ⟨inv.resettingStarting, inv.startingNoProfile, inv.operatingProfile, inv.faultedNoProfile, inv.activeIsSlot,
    inv.attachedOperating, inv.lockMaintenance, inv.burnLocked, inv.releasingBurns, inv.burnSparesActive⟩

theorem deviceInv_of_gates_of_storeInv {s : State} (gates : Gates s) (inv : StoreInv s) : DeviceInv s :=
  ⟨gates.starting, gates.closed, gates.noTicks, inv.startingNoProfile, inv.operatingProfile, inv.faultedNoProfile,
    inv.activeIsSlot, inv.attachedOperating, inv.lockMaintenance, inv.burnLocked, inv.releasingBurns, inv.burnSparesActive⟩

/-- Settles O14: the gates of a reset are kept by every command (`Gates.step`), the rest by every operation
(`StoreInv.effect`). -/
theorem stepKeepsDevice : Obligations.StepKeepsDevice := fun _ _ inv next =>
  deviceInv_of_gates_of_storeInv ((gates_of_deviceInv inv).step next)
    (step_keeps (fun _ _ => StoreInv.effect) (storeInv_of_deviceInv inv) next)

/-! ### Leases (R129, R131, R147) -/

/-- The lease of an ATTACHED session within the limits of the active profile and of every valid one. -/
def LeaseWf (active : Option Image) (a : Attached) : Prop :=
  (10 ≤ a.leaseLength ∧ a.leaseLength ≤ 65535 ∧ 1 ≤ a.lease.remaining ∧ a.lease.remaining ≤ a.leaseLength) ∧
  ∀ img, active = some img → profileLeaseFloor img ≤ a.leaseLength ∧ a.leaseLength ≤ profileLeaseCeiling img

theorem leasesInv_iff {s : State} :
    LeasesInv s ↔ (∀ img, s.active = some img → profileValid img = true) ∧ ∀ p a, AttachedAs p a s → LeaseWf s.active a :=
  ⟨fun inv => ⟨inv.profile, fun p a h => ⟨inv.leases p a h, fun img => inv.granted p a img h⟩⟩,
    fun ⟨profile, leases⟩ => ⟨profile, fun p a h => (leases p a h).1, fun p a img h => (leases p a h).2 img⟩⟩

theorem LeasesInv.of_leases {s t : State} (inv : LeasesInv s) (active : t.active = s.active)
    (leases : ∀ p a, AttachedAs p a t → AttachedAs p a s ∨ LeaseWf s.active a) : LeasesInv t := by
  rw [leasesInv_iff] at inv ⊢
  rw [active]
  exact ⟨inv.1, fun p a h => (leases p a h).elim (inv.2 p a) id⟩

theorem LeasesInv.congr {s t : State} (inv : LeasesInv s) (active : t.active = s.active)
    (sessions : t.sessions = s.sessions) :
    LeasesInv t :=
  inv.of_leases active fun p a h => .inl (by simpa [AttachedAs, State.session, sessions] using h)

/-- A lease countdown is reloaded with the lease length (R132). -/
theorem LeaseWf.renewed {active : Option Image} {a : Attached} (wf : LeaseWf active a) : LeaseWf active (renewed a) := by
  obtain ⟨⟨least, most, _, _⟩, granted⟩ := wf
  exact ⟨⟨least, most, by simp only [Machine.renewed]; omega, le_refl _⟩, granted⟩

/-- A tick lowers a lease countdown to 1 at the least (R147). -/
theorem LeaseWf.ticked {active : Option Image} {a : Attached} (wf : LeaseWf active a) :
    LeaseWf active { a with lease := countdownTick a.lease } := by
  obtain ⟨⟨least, most, positive, below⟩, granted⟩ := wf
  refine ⟨⟨least, most, ?_⟩, granted⟩
  unfold countdownTick
  split
  · exact ⟨positive, below⟩
  · dsimp only
    omega

/-- The granted lease lies within the floor and the ceiling (R131). -/
theorem grantedLease_between {img : Image} (valid : profileValid img = true) (n : Nat) :
    profileLeaseFloor img ≤ grantedLease (profileLeaseFloor img) (profileLeaseCeiling img) n ∧
      grantedLease (profileLeaseFloor img) (profileLeaseCeiling img) n ≤ profileLeaseCeiling img := by
  have ordered := (validFields valid).ceiling
  unfold grantedLease
  split_ifs <;> omega

theorem leaseWf_attached {img : Image} (valid : profileValid img = true) (g : Grade) (n : Nat) {x : Session} {a : Attached}
    (here : (attachedSession g (grantedLease (profileLeaseFloor img) (profileLeaseCeiling img) n) x).state = .attached a) :
    LeaseWf (some img) a := by
  obtain ⟨least, most⟩ := grantedLease_range valid n
  cases here
  refine ⟨⟨least, most, ?_, le_refl _⟩, fun other same => ?_⟩
  · simp only [countdownLoad]; omega
  · cases same
    exact grantedLease_between valid n

theorem LeasesInv.effect {s t : State} (inv : LeasesInv s) (store : StoreInv s) (effect : Effect s t) : LeasesInv t := by
  have wf (p : Port) (a : Attached) (h : AttachedAs p a s) : LeaseWf s.active a := (leasesInv_iff.mp inv).2 p a h
  cases effect with
  | reset kind torn =>
    exact leasesInv_iff.mpr ⟨nofun, fun p a h => by simp [AttachedAs, session_deviceReset] at h⟩
  | endReset => exact inv.congr rfl rfl
  | startUp levels _ starting =>
    refine leasesInv_iff.mpr ⟨fun img active => ?_, fun p a h => ?_⟩
    · rw [active_finishStartUp, Option.map_eq_some_iff] at active
      obtain ⟨x, chosen, rfl⟩ := active
      obtain ⟨g, valid⟩ := chooseSlot_valid (f := fun x => slotStatusOf (s.slot x)) chosen
      exact (profileValid_of_status valid).1
    · have away := (store.quiet starting).1 p
      rw [AttachedAs, session_finishStartUp] at h
      simp [h, isAttached] at away
  | lease p =>
    refine inv.of_leases (by simp) fun q a h => ?_
    unfold restartLease at h
    split at h
    · next b before =>
      rw [attachedAs_setSession] at h
      split at h
      · cases h
        exact .inr (wf p b before).renewed
      · exact .inl h
    · exact .inl h
    · exact .inl h
  | ownerTick o =>
    refine inv.of_leases (by simp) fun q a h => ?_
    obtain kept | ⟨_, ticked⟩ := session_ownerTick o s q
    · exact .inl (by rwa [AttachedAs, ← kept])
    · rw [AttachedAs, ticked] at h
      unfold tickLease at h
      split at h
      · next b before =>
        cases h
        exact .inr (wf q b before).ticked
      · exact .inl h
      · exact .inl h
  | sampling levels lag now =>
    have frame := samplePins_frame levels now { s with lag := { s.lag with inputMonitor := lag } }
    refine inv.of_leases (frame.store.active.trans (by simp)) fun p a h => .inl ?_
    rw [AttachedAs, frame.blocks.sessions p rfl] at h
    simpa [AttachedAs, State.session] using h
  | ended p state reason _ away =>
    exact inv.of_leases (by simp) fun q a h => .inl ((subsides_ended s p reason away).leases q a h)
  | cleared p reason lapsed =>
    refine inv.of_leases (by simp) fun q a h => ?_
    rw [endSession, attachedAs_setSession] at h
    split at h
    · cases h
    · exact .inl h
  | attach p g img requested _ active =>
    refine inv.of_leases (by simp) fun q a h => ?_
    rw [attachedAs_setSession] at h
    split at h
    · exact .inr (active ▸ leaseWf_attached (inv.profile img active) g requested h)
    · exact .inl h
  | pending | numbered | writeImage | sealed => exact inv.congr rfl rfl
  | port | tick | waitExpiry | pulseExpiry | burnt | lockReset | install | join | preempt | queued | release | cancel
  | stage | unstage | discard | commit | pulse | watch | fetch | openEdit | burning | closeEdit =>
    exact inv.congr (by simp) (by simp)

/-- Settles O13: start-up installs a profile classified VALID while no session is ATTACHED, and ATTACH grants within the
floor and the ceiling. -/
theorem stepKeepsLeases : Obligations.StepKeepsLeases := fun _ _ leases device next =>
  (step_keeps (P := fun s => StoreInv s ∧ LeasesInv s)
    (fun _ _ ⟨store, leases⟩ effect => ⟨store.effect effect, leases.effect store effect⟩)
    ⟨storeInv_of_deviceInv device, leases⟩ next).2

end Sys2Proof.Machine

/-! PROOFS. What every step keeps of the drive: timers and pulse fields name each other, and every pad shows the derived
setting, which Table 3-1 gives row by row. -/

namespace Sys2Proof.Machine

set_option Elab.async false

/-! ### Owners of a line -/

theorem holderView_ne_sharerView (h : Holder) (r : Sharer) : holderView h ≠ sharerView r := fun same => by
  cases congrArg OwnerView.want same

theorem holderView_injective {h k : Holder} (same : holderView h = holderView k) : h = k := by
  cases h; cases k; cases same; rfl

theorem sharerView_injective : Function.Injective sharerView := fun r q same => by
  cases r; cases q; cases same; rfl

/-- The owners of a consistent line are known from their records. -/
theorem owners_ext {a b : Owners} (left : a ≠ .shared []) (right : b ≠ .shared []) (same : ownerViews a = ownerViews b) :
    a = b := by
  cases a with
  | unowned => cases b with
    | unowned => rfl
    | held h => cases same
    | shared ss => exact absurd (List.map_eq_nil_iff.mp same.symm) fun empty => right (by rw [empty])
  | held h => cases b with
    | unowned => cases same
    | held k => rw [holderView_injective (List.singleton_inj.mp same)]
    | shared ss => cases ss with
      | nil => cases same
      | cons r rest => exact absurd (List.cons.inj same).1 (holderView_ne_sharerView h r)
  | shared ss => cases b with
    | unowned => exact absurd (List.map_eq_nil_iff.mp same) fun empty => left (by rw [empty])
    | held k => cases ss with
      | nil => cases same
      | cons r rest => exact absurd (List.cons.inj same).1.symm (holderView_ne_sharerView k r)
    | shared qs => rw [List.map_injective_iff.mpr sharerView_injective same]

/-- The record has a resting value or a vote. -/
def OwnerView.valued (r : OwnerView) : Bool := (valueOfWant r.want).isSome

/-- Owners before and after an operation: those who are not gone keep their pulses, and every pulse is one of theirs. -/
structure OwnersPass (gone : Port → Bool) (old new : List OwnerView) : Prop where
  kept : ∀ u ∈ old, gone u.session = false →
    ∃ v ∈ new, v.session = u.session ∧ v.pulse = u.pulse ∧ v.valued = u.valued
  pulses : ∀ v ∈ new, ∀ x, v.pulse = some x → ∃ u ∈ old, u.session = v.session ∧ u.pulse = some x ∧ gone u.session = false

theorem OwnersPass.refl {gone : Port → Bool} {old : List OwnerView} (stay : ∀ u ∈ old, gone u.session = false) :
    OwnersPass gone old old :=
  ⟨fun u mem _ => ⟨u, mem, rfl, rfl, rfl⟩, fun v mem _ pulse => ⟨v, mem, rfl, pulse, stay v mem⟩⟩

/-- The owners who stay, and new ones without a pulse (R10). -/
theorem OwnersPass.of_handed {gone : Port → Bool} {old : List OwnerView} {now : Stamp} {waiting : List WaitEntry} {c : Bool}
    {step : LineStep} (h : Handed now (old.filter fun r => !gone r.session) waiting c step) :
    OwnersPass gone old (ownerViews step.entry.owners) where
  kept u mem stays := ⟨u, kept_handed h (List.mem_filter.mpr ⟨mem, by simp [stays]⟩), rfl, rfl, rfl⟩
  pulses v mem x pulse := by
    obtain stays | ⟨_, none, _⟩ := mem_handed h mem
    · obtain ⟨mem, stays⟩ := List.mem_filter.mp stays
      exact ⟨v, mem, rfl, pulse, by simpa using stays⟩
    · cases none.symm.trans pulse

/-- Every record is rewritten in its place, with its pulse if it is not gone, without one otherwise. -/
theorem OwnersPass.of_map {gone : Port → Bool} {old : List OwnerView} (f : OwnerView → OwnerView)
    (session : ∀ r, (f r).session = r.session) (valued : ∀ r, (f r).valued = r.valued)
    (pulse : ∀ r, (f r).pulse = if gone r.session then none else r.pulse) : OwnersPass gone old (old.map f) where
  kept u mem stays := ⟨f u, List.mem_map_of_mem mem, session u, by simp [pulse, stays], valued u⟩
  pulses v mem x names := by
    obtain ⟨u, old, rfl⟩ := List.mem_map.mp mem
    rw [pulse] at names
    split at names
    · cases names
    · next stays => exact ⟨u, old, (session u).symm, names, by simpa using stays⟩

/-- New owners without a pulse in the place of all who were there. -/
theorem OwnersPass.of_fresh {gone : Port → Bool} {old new : List OwnerView} (away : ∀ u ∈ old, gone u.session = true)
    (fresh : ∀ v ∈ new, v.pulse = none) : OwnersPass gone old new :=
  ⟨fun u mem stays => Bool.noConfusion (stays.symm.trans (away u mem)),
    fun v mem x pulse => absurd ((fresh v mem).symm.trans pulse) (Option.some_ne_none x).symm⟩

/-- A new owner without a pulse behind the others. -/
theorem OwnersPass.of_join {gone : Port → Bool} {old : List OwnerView} {r : OwnerView}
    (stay : ∀ u ∈ old, gone u.session = false) (fresh : r.pulse = none) : OwnersPass gone old (old ++ [r]) where
  kept u mem _ := ⟨u, List.mem_append_left _ mem, rfl, rfl, rfl⟩
  pulses v mem x pulse := by
    obtain mem | mem := List.mem_append.mp mem
    · exact ⟨v, mem, rfl, pulse, stay v mem⟩
    · rw [List.mem_singleton.mp mem, fresh] at pulse
      cases pulse

theorem valued_revalued (v : Bool) (w : Want) : (valueOfWant (revalued v w)).isSome = (valueOfWant w).isSome := by
  cases w with
  | exclusive d => cases d <;> rfl
  | share x => rfl

theorem ownersPass_commitLine (p : Port) (v : Option Bool) (e : LineEntry) :
    OwnersPass (fun _ => false) (ownerViews e.owners) (ownerViews (commitLine p v e).owners) := by
  cases v with
  | none => exact .refl fun _ _ => rfl
  | some v =>
    rw [show commitLine p (some v) e = setResting p v e from rfl, ownerViews_setResting]
    refine .of_map _ (fun r => ?_) (fun r => ?_) fun r => ?_
    all_goals split
    · rfl
    · rfl
    · exact valued_revalued v r.want
    · rfl
    · rfl
    · rfl

theorem ownersPass_endedPulse (p : Port) (e : LineEntry) :
    OwnersPass (fun q => q = p) (ownerViews e.owners) (ownerViews (setPulse p none e).owners) := by
  rw [ownerViews_setPulse]
  refine .of_map _ (fun r => ?_) (fun r => ?_) fun r => ?_
  · split <;> rfl
  · split <;> rfl
  · simp only [decide_eq_true_eq]
    split <;> rfl

/-! ### An operation on the drive -/

/-- What a running timer drives: its line, its session and its value. -/
def PulseTimer.place (r : PulseTimer) : Line × Port × Bool := (r.line, r.session, r.value)

/-- What an operation does to the pulses and the pads: the timers of those who are gone become FREE, the others run on, and
a line keeps its pad only when it keeps its owners. -/
structure Drives (gone : Line → Port → Bool) (s t : State) : Prop where
  idle : ∀ x, s.timer x = none → t.timer x = none
  timer : ∀ x r, s.timer x = some r →
    (t.timer x).map PulseTimer.place = if gone r.line r.session then none else some r.place
  owners : ∀ l, OwnersPass (gone l) (ownerViews (s.line l).owners) (ownerViews (t.line l).owners)
  pads : ∀ l, t.pad l = t.padFor l ∨ (t.pad l = s.pad l ∧ t.active = s.active ∧ (t.line l).owners = (s.line l).owners)

/-- A pulse after the operation is one of before, with its timer. -/
theorem Drives.pulse {gone : Line → Port → Bool} {s t : State} (drives : Drives gone s t) (inv : DriveInv s) {l : Line}
    {v : OwnerView} {x : TimerId} (mem : v ∈ ownerViews (t.line l).owners) (names : v.pulse = some x) :
    ∃ r, s.timer x = some r ∧ r.line = l ∧ r.session = v.session ∧ (t.timer x).map PulseTimer.place = some r.place := by
  obtain ⟨u, old, session, pulse, stays⟩ := (drives.owners l).pulses v mem x names
  obtain ⟨r, runs, line, owner⟩ := inv.timers.roleHasTimer l u x old pulse
  have timer := drives.timer x r runs
  rw [line, owner, stays] at timer
  exact ⟨r, runs, line, owner.trans session, timer⟩

theorem DriveInv.drives {gone : Line → Port → Bool} {s t : State} (inv : DriveInv s) (wf : LinesWf t)
    (drives : Drives gone s t) : DriveInv t where
  lines := wf
  timers := by
    refine ⟨fun x r runs => ?_, fun l v x mem names => ?_⟩
    · have ran : ∃ q, s.timer x = some q := Option.ne_none_iff_exists'.mp fun none => by
        cases (drives.idle x none).symm.trans runs
      obtain ⟨q, ran⟩ := ran
      have timer := drives.timer x q ran
      rw [runs, Option.map_some] at timer
      split at timer
      · cases timer
      · next stays =>
        obtain ⟨line, session, _⟩ : r.line = q.line ∧ r.session = q.session ∧ r.value = q.value := by
          simpa [PulseTimer.place] using timer
        obtain ⟨u, owner, pulse, valued⟩ := inv.timers.timerHasRole x q ran
        obtain ⟨old, its⟩ := (ownerOf_eq_some (inv.lines q.line)).mp owner
        obtain ⟨v, mem, same, kept, alike⟩ := (drives.owners q.line).kept u old (by simpa [its] using stays)
        exact ⟨v, (ownerOf_eq_some (wf r.line)).mpr ⟨line ▸ mem, same.trans (its.trans session.symm)⟩, kept.trans pulse,
          alike.trans valued⟩
    · obtain ⟨r, _, line, session, place⟩ := drives.pulse inv mem names
      obtain ⟨q, runs, same⟩ := Option.map_eq_some_iff.mp place
      simp only [PulseTimer.place, Prod.mk.injEq] at same
      exact ⟨q, runs, same.1.trans line, same.2.1.trans session⟩
  pads l := by
    obtain derived | ⟨pad, active, owners⟩ := drives.pads l
    · exact derived
    · rw [pad, inv.pads l]
      refine (padFor_of_owners active owners fun v mem x names => ?_).symm
      obtain ⟨r, runs, _, _, place⟩ := drives.pulse inv (owners ▸ mem) names
      have value := congrArg (Option.map fun place => place.2.2) place
      rw [runs]
      simpa [Option.map_map, Function.comp_def, PulseTimer.place] using value

/-! ### Lemmas for the single operations -/

/-- The timer a record names, on a consistent line. -/
theorem DriveInv.names_iff {s : State} (inv : DriveInv s) {l : Line} {v : OwnerView} (mem : v ∈ ownerViews (s.line l).owners)
    {x : TimerId} {r : PulseTimer} (runs : s.timer x = some r) :
    v.pulse = some x ↔ r.line = l ∧ r.session = v.session := by
  constructor
  · intro names
    obtain ⟨q, ran, line, session⟩ := inv.timers.roleHasTimer l v x mem names
    cases runs.symm.trans ran
    exact ⟨line, session⟩
  · rintro ⟨rfl, session⟩
    obtain ⟨u, owner, pulse, _⟩ := inv.timers.timerHasRole x r runs
    have same := (ownerOf_eq_some (inv.lines r.line)).mpr ⟨mem, session.symm⟩
    cases owner.symm.trans same
    exact pulse

/-- The timers a preemption cuts are those that run on its line (R31, R69). -/
theorem DriveInv.cut_iff {s : State} (inv : DriveInv s) {l : Line} {x : TimerId} {r : PulseTimer}
    (runs : s.timer x = some r) :
    (ownerViews (s.line l).owners).any (fun v => v.pulse = some x) = decide (r.line = l) := by
  rw [Bool.eq_iff_iff, List.any_eq_true, decide_eq_true_eq]
  constructor
  · rintro ⟨v, mem, names⟩
    exact ((inv.names_iff mem runs).mp (by simpa using names)).1
  · rintro rfl
    obtain ⟨v, owner, pulse, _⟩ := inv.timers.timerHasRole x r runs
    exact ⟨v, ownerOf_mem owner, by simpa using pulse⟩

/-- An operation that leaves every record, every running timer and every pad. -/
theorem Drives.of_same {s t : State} (owners : ∀ l, (t.line l).owners = (s.line l).owners)
    (timers : ∀ x, (t.timer x).map PulseTimer.place = (s.timer x).map PulseTimer.place) (active : t.active = s.active)
    (pads : ∀ l, t.pad l = s.pad l) : Drives (fun _ _ => false) s t where
  idle x none := by simpa [none] using timers x
  timer x r runs := by simp [timers, runs]
  owners l := owners l ▸ .refl fun _ _ => rfl
  pads l := .inr ⟨pads l, active, owners l⟩

theorem Drives.of_congr {s t : State} (lines : t.lines = s.lines) (timers : t.timers = s.timers)
    (active : t.active = s.active) (pads : t.pads = s.pads) : Drives (fun _ _ => false) s t :=
  .of_same (fun l => by rw [State.line, State.line, lines]) (fun x => by rw [State.timer, State.timer, timers]) active
    fun l => by rw [State.pad, State.pad, pads]

/-- One line changes, and its pad follows. -/
theorem Drives.of_line {gone : Line → Port → Bool} {s t : State} (l : Line) {e : LineEntry}
    (idle : ∀ x, s.timer x = none → t.timer x = none)
    (timer : ∀ x r, s.timer x = some r → t.timer x = if gone r.line r.session then none else some r)
    (line : ∀ k, t.line k = if k = l then e else s.line k) (away : ∀ k q, k ≠ l → gone k q = false)
    (pass : OwnersPass (gone l) (ownerViews (s.line l).owners) (ownerViews e.owners)) (active : t.active = s.active)
    (pad : ∀ k, t.pad k = if k = l then t.padFor k else s.pad k) : Drives gone s t where
  idle := idle
  timer x r runs := by
    rw [timer x r runs]
    split <;> rfl
  owners k := by
    rw [line]
    split
    · next here => exact here ▸ pass
    · next other => exact .refl fun u _ => away k u.session other
  pads k := by
    rw [pad, line]
    split
    · exact .inl rfl
    · exact .inr ⟨rfl, active, rfl⟩

theorem padFor_fallback {s : State} (none : s.active = none) (l : Line) : s.padFor l = fallbackPad := by
  rw [State.padFor, none]

theorem driveInv_deviceReset (kind : ResetKind) (torn : Torn) (s : State) : DriveInv (deviceReset kind torn s) where
  lines l := by
    rw [line_deviceReset]
    exact ⟨by decide, nofun, fun _ => rfl, nofun⟩
  timers := ⟨fun x r runs => by simp [timer_deviceReset] at runs,
    fun l v x mem => by simp [line_deviceReset, resetEntry, ownerViews] at mem⟩
  pads l := by
    rw [padFor_fallback (active_deviceReset kind torn s)]
    simp [deviceReset, heldInReset, State.pad]

/-- A withdrawal hands the line over when it granted it, and leaves its owners otherwise (R44, R58). -/
theorem Drives.of_withdrawn {s t : State} (p : Port) (l : Line) (now : Stamp) (before : EntryWf (s.line l))
    (line : ∀ k, t.line k = if k = l then (withdrawEntry p now (s.line l)).entry else s.line k)
    (timers : t.timers = s.timers) (active : t.active = s.active)
    (pad : ∀ k, t.pad k = if (withdrawEntry p now (s.line l)).granted ≠ [] ∧ k = l then t.padFor k else s.pad k) :
    Drives (fun _ _ => false) s t := by
  have timer (x : TimerId) : t.timer x = s.timer x := by rw [State.timer, State.timer, timers]
  refine ⟨fun x none => (timer x).trans none, fun x r runs => by simp [timer, runs], fun k => ?_, fun k => ?_⟩
  · rw [line]
    split
    · next here =>
      subst here
      have handed := handed_withdrawEntry p now (s.line k)
      exact .of_handed (by simpa using handed)
    · exact .refl fun _ _ => rfl
  · rw [pad, line]
    by_cases granted : (withdrawEntry p now (s.line l)).granted = []
    · refine .inr ⟨if_neg fun h => h.1 granted, active, ?_⟩
      split
      · next here =>
        subst here
        exact owners_ext (wf_withdrawEntry p now before).sharersPresent before.sharersPresent
          (owners_handed_nil (handed_withdrawEntry p now (s.line k)) granted)
      · rfl
    · by_cases here : k = l
      · exact .inl (if_pos ⟨granted, here⟩)
      · exact .inr ⟨if_neg fun h => here h.2, active, by rw [if_neg here]⟩

/-- Teardown of a session: it is gone from every line, and the lines handed over follow (R46, R137). -/
theorem Drives.teardown {s : State} (p : Port) (lines : LinesWf s) :
    Drives (fun _ q => q = p) s (teardown p s) where
  idle x none := by rw [timer_teardown, none, ite_self]
  timer x r runs := by
    rw [timer_teardown, timerOf, runs]
    dsimp only
    split <;> rfl
  owners l := by
    rw [line_teardown]
    have handed := handed_tearDownEntry p (s.stampAt .sessionTable) (s.line l)
    exact .of_handed (by simpa using handed)
  pads l := by
    rw [pad_teardown]
    split
    · exact .inl rfl
    · next untouched =>
      obtain ⟨unowned, ungranted⟩ : ownerOf p (s.line l) = none ∧
          (tearDownEntry p (s.stampAt .sessionTable) (s.line l)).granted = [] := by
        simpa [tearDownTouches] using untouched
      have owners := owners_handed_nil (handed_tearDownEntry p (s.stampAt .sessionTable) (s.line l)) ungranted
      rw [filter_owners_of_none unowned] at owners
      refine .inr ⟨rfl, by simp, ?_⟩
      rw [line_teardown]
      exact owners_ext (wf_tearDownEntry p _ (lines l)).sharersPresent (lines l).sharersPresent owners

/-- The start of a pulse (R65): the timer was FREE, so that no record named it. -/
theorem DriveInv.startPulse {s : State} (inv : DriveInv s) {p : Port} {l : Line} (v : Bool) (n : Nat)
    {x : TimerId} {r : OwnerView}
    (owner : ownerOf p (s.line l) = some r) (valued : (valueOfWant r.want).isSome = true) (idle : r.pulse = none)
    (free : s.timer x = none) : DriveInv (startPulse p l v n x s) := by
  have line := line_startPulse p l v n x s
  have timer := timer_startPulse p l v n x s
  have wf : LinesWf (Machine.startPulse p l v n x s) := fun k => by
    rw [line]
    split
    · exact wf_setPulse p _ (inv.lines l)
    · exact inv.lines k
  have named (k : Line) (w : OwnerView) (y : TimerId) (mem : w ∈ ownerViews (s.line k).owners) (names : w.pulse = some y) :
      y ≠ x := by
    rintro rfl
    obtain ⟨q, runs, _⟩ := inv.timers.roleHasTimer k w y mem names
    cases free.symm.trans runs
  have its := (ownerOf_eq_some (inv.lines l)).mp owner
  refine ⟨wf, ⟨fun y q runs => ?_, fun k w y mem names => ?_⟩, fun k => ?_⟩
  · rw [timer] at runs
    split at runs
    · next new =>
      cases runs
      subst new
      exact ⟨{ r with pulse := some y }, by rw [line, if_pos rfl, ownerOf_setPulse, if_pos rfl, owner]; rfl, rfl, valued⟩
    · obtain ⟨u, holds, pulse, alike⟩ := inv.timers.timerHasRole y q runs
      refine ⟨u, ?_, pulse, alike⟩
      rw [line]
      split
      · next here =>
        rw [ownerOf_setPulse, if_neg, ← here, holds]
        intro same
        rw [here, same, owner, Option.some.injEq] at holds
        rw [← holds, idle] at pulse
        cases pulse
      · exact holds
  · rw [line] at mem
    rw [timer]
    split at mem
    · next here =>
      rw [ownerViews_setPulse] at mem
      obtain ⟨u, old, rfl⟩ := List.mem_map.mp mem
      split at names
      · next same =>
        cases names
        exact ⟨_, if_pos rfl, here.symm, by simp [same]⟩
      · next other =>
        rw [if_neg (named l u y old names), if_neg other, here]
        exact inv.timers.roleHasTimer l u y old names
    · rw [if_neg (named k w y mem names)]
      exact inv.timers.roleHasTimer k w y mem names
  · rw [pad_startPulse]
    split
    · rfl
    · next other =>
      rw [inv.pads k]
      refine (padFor_of_owners (by simp) (by rw [line, if_neg other]) fun w mem y names => ?_).symm
      rw [timer, if_neg (named k w y mem names)]

theorem DriveInv.effect {s t : State} (inv : DriveInv s) (effect : Effect s t) : DriveInv t := by
  have wf := (RolesStep.of_effect effect).wf inv.lines
  cases effect with
  | reset kind torn => exact driveInv_deviceReset kind torn s
  | startUp levels =>
    refine inv.drives (gone := fun _ _ => false) wf ⟨by simp, by simp +contextual, fun l => ?_, fun l => ?_⟩
    · rw [line_finishStartUp]
      exact .refl fun _ _ => rfl
    · exact .inl (pad_finishStartUp levels s l)
  | ownerTick o =>
    refine inv.drives wf (.of_same (fun l => (sameRoles_ownerTick o s l).owners) (fun x => ?_) (by simp) (by simp))
    obtain same | ⟨_, ticked⟩ := timer_ownerTick o s x
    · rw [same]
    · rw [ticked, Option.map_map]
      rfl
  | sampling levels lag now =>
    have frame := samplePins_frame levels now { s with lag := { s.lag with inputMonitor := lag } }
    refine inv.drives wf (.of_same (fun l => by rw [line_samplePins]; rfl) (fun x => ?_)
      (frame.store.active.trans (by simp)) fun l => ?_)
    · rw [frame.blocks.timers x rfl]
      simp [State.timer]
    · rw [frame.blocks.pads l rfl]
      simp [State.pad]
  | ended p state reason =>
    have torn : DriveInv (teardown p s) :=
      inv.drives (fun l => line_teardown p s l ▸ wf_tearDownEntry p _ (inv.lines l)) (.teardown p inv.lines)
    exact torn.drives wf (.of_congr rfl rfl rfl rfl)
  | waitExpiry l p =>
    exact inv.drives wf (.of_withdrawn p l _ (inv.lines l) (line_expireWait l p s) (by simp) (by simp)
      (pad_expireWait l p s))
  | cancel p l =>
    refine inv.drives wf (.of_withdrawn p l _ (inv.lines l) (line_applyLineStep l _ _ _ s) (by simp) (by simp) fun k => ?_)
    rw [pad_applyLineStep]
    simp
  | pulseExpiry x r runs =>
    obtain ⟨u, owner, pulse, _⟩ := inv.timers.timerHasRole x r runs
    refine inv.drives (gone := fun k q => k = r.line && q = r.session) wf
      (.of_line r.line (fun y none => by rw [timer_expirePulse, none, ite_self]) (fun y q ran => ?_)
        (line_expirePulse x r s) (by simp +contextual) ?_ (by simp) (pad_expirePulse x r s))
    · have names := inv.names_iff (ownerOf_mem owner) ran
      rw [pulse, Option.some.injEq, ownerOf_session owner, eq_comm] at names
      simp [timer_expirePulse, names, ran]
    · simpa using ownersPass_endedPulse r.session (s.line r.line)
  | install p l want stay _ _ _ unowned =>
    refine inv.drives (gone := fun _ _ => false) wf
      (.of_line l (by simp) (by simp) (line_installOwners l _ s) (by simp) (.of_fresh ?_ fun v mem => ?_) (by simp)
        (pad_installOwners l _ s))
    · simp [unowned, ownerViews]
    · rw [ownerViews_formOwners, List.mem_singleton] at mem
      rw [mem]
  | join p l ss v stay _ _ _ shared =>
    refine inv.drives (gone := fun _ _ => false) wf
      (.of_line l (by simp) (by simp) (line_installOwners l _ s) (by simp) ?_ (by simp) (pad_installOwners l _ s))
    rw [shared, show ownerViews (.shared (ss ++ [_])) = ownerViews (.shared ss) ++ [sharerView _] from List.map_append]
    exact .of_join (fun _ _ => rfl) rfl
  | preempt p l d stay =>
    refine inv.drives (gone := fun k _ => k = l) wf
      (.of_line l (fun y none => by rw [timer_preempt, none, ite_self]) (fun y q ran => ?_)
        (line_preempt p l _ stay s) (by simp +contextual) (.of_fresh (by simp) fun v mem => ?_) (by simp)
        (pad_preempt p l _ stay s))
    · rw [timer_preempt, ran]
      simp only [inv.cut_iff ran]
    · rw [preemptEntry, ownerViews_formOwners, List.mem_singleton] at mem
      rw [mem]
  | queued p l want a =>
    refine inv.drives wf (.of_same (fun k => ?_) (by simp) (by simp) (by simp))
    rw [line_setLine]
    split
    · next here => rw [here]
    · rfl
  | release p l r owner =>
    refine inv.drives (gone := fun k q => k = l && q = p) wf
      (.of_line l (fun y none => ?_) (fun y q ran => ?_) (fun k => by rw [line_applyLineStep, line_freeTimers])
        (by simp +contextual) ?_ (by simp) fun k => ?_)
    · rw [timer_applyLineStep, timer_freeTimers, none, ite_self]
    · have names := inv.names_iff (ownerOf_mem owner) ran
      rw [ownerOf_session owner] at names
      simp [names, ran]
    · have handed := handed_releaseEntry p (s.stampAt .lineTable) (s.line l)
      exact .of_handed (by simpa using handed)
    · rw [pad_applyLineStep, pad_freeTimers]
      simp
  | commit p =>
    refine inv.drives (gone := fun _ _ => false) wf ⟨by simp, by simp +contextual, fun l => ?_, fun l => ?_⟩
    · rw [line_applyStaged]
      exact ownersPass_commitLine p _ (s.line l)
    · rw [pad_applyStaged]
      split
      · exact .inl rfl
      · next unstaged =>
        refine .inr ⟨rfl, by simp, ?_⟩
        rw [line_applyStaged, stagedValueOf_none (by simpa using unstaged)]
        rfl
  | pulse p l v n x r _ owner valued idle _ free => exact inv.startPulse v n.toNat owner valued idle free
  | endReset => exact inv.drives wf (.of_congr rfl rfl rfl rfl)
  | pending | port | numbered | lease | tick | cleared | burnt | attach | lockReset | stage | unstage | discard | watch
  | fetch | openEdit | writeImage | sealed | burning | closeEdit =>
    exact inv.drives wf (.of_congr (by simp) (by simp) (by simp) (by simp))

/-! ### Table 3-1 -/

theorem effective_eq {s : State} {resting value : Bool} {pulse : Option TimerId}
    (effective : EffectiveValue s resting pulse value) : s.effective resting pulse = value := by
  cases effective with
  | resting => rfl
  | pulsing x r runs => rw [State.effective, runs]

theorem padFor_active {s : State} {l : Line} {img : Image} {bias : Bias} (active : s.active = some img)
    (its : profileBias img l = some bias) : s.padFor l = ⟨s.driveFor img l, bias⟩ := by
  rw [State.padFor, active]
  dsimp only
  rw [its]
  rfl

theorem driveFor_unowned {s : State} {l : Line} {img : Image} {safe : SafeState} (unowned : (s.line l).owners = .unowned)
    (its : profileSafeState img l = some safe) : s.driveFor img l = padOfSafeState safe := by
  rw [State.driveFor, unowned]
  dsimp only
  rw [its]

theorem driveFor_holdInput {s : State} {l : Line} (img : Image) {h : Holder} (held : (s.line l).owners = .held h)
    (drive : h.drive = .holdInput) : s.driveFor img l = .input := by
  rw [State.driveFor, held]
  dsimp only
  rw [drive]

theorem driveFor_drivePP {s : State} {l : Line} (img : Image) {h : Holder} {v : Bool} (held : (s.line l).owners = .held h)
    (drive : h.drive = .drivePP v) : s.driveFor img l = .pushPull (s.effective v h.pulse) := by
  rw [State.driveFor, held]
  dsimp only
  rw [drive]

theorem driveFor_driveOD {s : State} {l : Line} (img : Image) {h : Holder} {v : Bool} (held : (s.line l).owners = .held h)
    (drive : h.drive = .driveOD v) : s.driveFor img l = .openDrain (s.effective v h.pulse) := by
  rw [State.driveFor, held]
  dsimp only
  rw [drive]

theorem driveFor_shared {s : State} {l : Line} (img : Image) {ss : List Sharer} (shared : (s.line l).owners = .shared ss) :
    s.driveFor img l = .openDrain (ss.all fun r => s.effective r.vote r.pulse) := by
  rw [State.driveFor, shared]

/-- Settles O9: pads and pulses follow every operation (`DriveInv.effect`), and the derived setting is that of Table 3-1
by its four kinds of owners. -/
theorem stepKeepsPadsDerived : Obligations.StepKeepsPadsDerived := by
  refine ⟨fun s t inv next => step_keeps (fun _ _ => DriveInv.effect) inv next, fun s l =>
    ⟨fun inv => inv.pads l, fun none => padFor_fallback none l, fun img bias active its => ?_⟩⟩
  rw [padFor_active active its]
  refine ⟨fun unowned safe code => ?_, fun h held input => ?_, fun h resting value held effective => ⟨?_, ?_⟩,
    fun ss shared => ⟨?_, ?_⟩⟩
  · rw [driveFor_unowned unowned code]
    cases safe <;> rfl
  · rw [driveFor_holdInput img held input]
  · exact fun drive => by rw [driveFor_drivePP img held drive, effective_eq effective]
  · exact fun drive => by rw [driveFor_driveOD img held drive, effective_eq effective]
  · rintro ⟨r, mem, low⟩
    rw [driveFor_shared img shared, List.all_eq_false.mpr ⟨r, mem, by simp [effective_eq low]⟩]
  · intro released
    rw [driveFor_shared img shared, List.all_eq_true.mpr fun r mem => effective_eq (released r mem)]

/-! ### The state after reset -/

/-- A device reset of the state after reset: the state after reset itself but for the numbering of the free values. -/
def freshReset : State := deviceReset .powerOn .tagging State.reset

theorem budgetInv_reset : BudgetInv State.reset := by
  have line (l : Line) : State.reset.line l = resetEntry := by simp [State.reset, heldInReset, State.line]
  have lines : LinesWf State.reset := fun l => by
    rw [line]
    exact ⟨by decide, nofun, fun _ => rfl, nofun⟩
  refine ⟨lines, fun p => ?_⟩
  rw [claimCount_eq lines]
  simp [line, roleSessions, resetEntry, ownerViews]

/-- Settles O15: by the invariants of every device reset. -/
theorem resetSatisfiesInvariants : Obligations.ResetSatisfiesInvariants := by
  have drive : DriveInv freshReset := driveInv_deviceReset _ _ _
  have filters : FiltersInv freshReset := fun l => .inl (filters_deviceReset _ _ _ l)
  have store : StoreInv freshReset := storeInv_deviceReset _ _ _
  have countdowns : CountdownsInv freshReset := countdownsInv_deviceReset _ _ _
  have leases : LeasesInv freshReset :=
    leasesInv_iff.mpr ⟨nofun, fun p a h => by simp [freshReset, AttachedAs, session_deviceReset] at h⟩
  have attached : OnlyAttachedInv freshReset := fun p _ => bare_deviceReset _ _ _ p
  have gates : Gates freshReset := .deviceReset _ _ _
  exact ⟨attnAgrees_deviceReset .powerOn .tagging State.reset, budgetInv_reset,
    fun p => (queue_deviceReset .powerOn .tagging State.reset p).symm ▸ queueWf_empty,
    fun p => (stagedSet_deviceReset .powerOn .tagging State.reset p).symm ▸ setWf_nil,
    attached.congr_sessions rfl rfl rfl rfl rfl rfl, drive.drives budgetInv_reset.1 (.of_congr rfl rfl rfl rfl),
    filters.congr_lines rfl rfl rfl, ⟨imageWf_erasedImage, imageWf_erasedImage, rfl, nofun⟩,
    countdowns.carries (.of_same rfl rfl rfl rfl), leases.congr rfl rfl,
    deviceInv_of_gates_of_storeInv (gates.congr rfl fun _ _ => rfl) (store.congr rfl fun _ => id)⟩

end Sys2Proof.Machine

/-! PROOFS. Request frames on the wire. -/

namespace Sys2Proof.Machine

set_option Elab.async false

theorem requestOf_requestCode (r : Request) : requestOf (requestCode r) = some r := by
  cases r <;> rfl

theorem requestCode_of_requestOf {r : Request} {code : Byte} (named : requestOf code = some r) : requestCode r = code := by
  simpa using List.find?_some named

theorem payloadLength_toNat {payload : List Byte} (fits : payload.length ≤ Config.maxPayload) :
    (BitVec.ofNat 8 payload.length).toNat = payload.length := by
  have : Config.maxPayload = 32 := rfl
  rw [BitVec.toNat_ofNat]
  omega

/-- A well-formed frame is read as what was encoded (R173). -/
theorem parseFrame_encodeFrame {f : RequestFrame} (fits : f.payload.length ≤ Config.maxPayload) :
    parseFrame (encodeFrame f) = some f := by
  have length := payloadLength_toNat fits
  simp [parseFrame, encodeFrame, length, fits]

/-- The bytes behind the length byte of a well-formed frame: the payload and its CRC byte. -/
theorem dropLast_append_crc {rest : List Byte} {crc : Byte} (last : rest.getLast? = some crc) :
    rest.dropLast ++ [crc] = rest := by
  obtain ⟨front, rfl⟩ := List.getLast?_eq_some_iff.mp last
  simp

theorem encodeFrame_of_parseFrame {w : Wire} {f : RequestFrame} (read : parseFrame w = some f) :
    f.payload.length ≤ Config.maxPayload ∧ w = encodeFrame f := by
  obtain ⟨bytes, spare⟩ := w
  unfold parseFrame at read
  split at read
  · next kind code tag len rest bytes =>
    split at read
    · next wellFormed =>
      obtain ⟨rfl, fits, length, rfl, last⟩ := wellFormed
      cases read
      have payload : rest.dropLast.length = len.toNat := by rw [List.length_dropLast, length, Nat.add_sub_cancel]
      have lengthByte : BitVec.ofNat 8 rest.dropLast.length = len := by rw [payload, BitVec.ofNat_toNat, BitVec.setWidth_eq]
      refine ⟨payload ▸ fits, ?_⟩
      simp only at bytes
      simp only [encodeFrame, lengthByte, List.cons_append, dropLast_append_crc last, bytes]
    · cases read
  · cases read

/-- Settles O3, by the two directions of reading and encoding. -/
theorem framesEncodeAndParse : Obligations.FramesEncodeAndParse := by
  refine ⟨fun w f => ⟨encodeFrame_of_parseFrame, ?_⟩, fun r code => ⟨fun named => (requestCode_of_requestOf named).symm, ?_⟩⟩
  · rintro ⟨fits, rfl⟩
    exact parseFrame_encodeFrame fits
  · rintro rfl
    exact requestOf_requestCode r

end Sys2Proof.Machine

/-! PROOFS. Device resets and start-up. -/

namespace Sys2Proof.Machine

set_option Elab.async false

/-! ### Device resets -/

theorem exec_beginsReset {s : State} {c : Instr} {kind : ResetKind} {torn : Torn} (begins : BeginsReset s c kind torn) :
    exec c s = .next (deviceReset kind torn s) := by
  cases begins with
  | powerOn => rfl
  | brownOut _ unmasked => rw [exec, execBrownOutReset, if_neg (by simpa [powerOnLasts] using unmasked)]
  | rstN _ unmasked => rw [exec, execRstNReset, if_neg (by simpa [powerOnLasts] using unmasked)]

theorem heldInReset_deviceReset (kind : ResetKind) (torn : Torn) (s : State) :
    HeldInReset kind s (deviceReset kind torn s) where
  resetting := rfl
  pending := rfl
  device := rfl
  maint := rfl
  tickCount := rfl
  tickPeriod := rfl
  lag := rfl
  lines := line_deviceReset kind torn s
  pads l := by simp [deviceReset, heldInReset, State.pad, fallbackPad]
  timers := timer_deviceReset kind torn s
  staged := stagedSet_deviceReset kind torn s
  watches p l := by rw [watch_deviceReset]; simp [noWatches]
  filters := filters_deviceReset kind torn s
  queues := queue_deviceReset kind torn s
  attn p := by simp [deviceReset, heldInReset]
  sessions := session_deviceReset kind torn s
  ports p := by simp [deviceReset, heldInReset, State.port, resetPort]
  sdoPins p := by simp [deviceReset, heldInReset, State.port, resetPort, sdoPin]
  recordA := rfl
  recordB := rfl
  activeSlot := rfl
  active := rfl
  buffer _ := rfl
  lock := rfl
  burn := rfl
  lastBurn := rfl

theorem slot_deviceReset (kind : ResetKind) (torn : Torn) (s : State) (x : SlotId) :
    (deviceReset kind torn s).slot x = slotAfterReset torn s x := by
  cases x <;> rfl

/-- A slot that no burn writes keeps its bytes (R155). -/
theorem slotAfterReset_of_spared (torn : Torn) {s : State} {x : SlotId} (spared : ∀ b, s.burn = some b → b.target ≠ x) :
    slotAfterReset torn s x = s.slot x := by
  unfold slotAfterReset
  split
  · next b burns => rw [if_neg (spared b burns)]
  · rfl

/-- Settles O16, by the reset values (`heldInReset_deviceReset`) and the masking of a power-on reset. -/
theorem deviceResetsBringResetValues : Obligations.DeviceResetsBringResetValues := by
  refine ⟨fun s c kind torn begins => ⟨_, exec_beginsReset begins, heldInReset_deviceReset kind torn s, fun idle => ?_⟩,
    fun s torn lasts => ?_⟩
  · have spared (b : Burning) (burns : s.burn = some b) (x : SlotId) : b.target ≠ x := by cases idle.symm.trans burns
    exact ⟨slotAfterReset_of_spared torn fun b burns => spared b burns .a,
      slotAfterReset_of_spared torn fun b burns => spared b burns .b⟩
  · have masked : powerOnLasts s = true := by simp [powerOnLasts, lasts]
    exact ⟨by rw [exec, execBrownOutReset, if_pos masked], by rw [exec, execRstNReset, if_pos masked]⟩

/-! ### An abandoned burn (R169) -/

theorem imageRead_abandoned {s : State} {b : Burning} (burns : s.burn = some b) (torn : Torn) {k : Nat} (within : k < 128) :
    imageRead (slotAfterReset torn s b.target) k = tornByteAt s.freeCount (s.slot b.target) s.buffer torn k := by
  rw [slotAfterReset, burns]
  simp only [if_true]
  exact imageRead_imageOf _ within

/-- A tag whose write was interrupted is not the format tag. -/
theorem tornTagByte_ne (n : Nat) : tornTagByte n ≠ 0x3C#8 := by
  unfold tornTagByte
  split
  · decide
  · next free => exact free

/-- Settles O17, by the byte each phase leaves (`tornByteAt`). -/
theorem abandonedBurnLeavesTarget : Obligations.AbandonedBurnLeavesTarget := by
  intro s c kind torn b begins burns
  refine ⟨_, exec_beginsReset begins, fun x other => ?_, fun k within => ?_⟩
  · rw [slot_deviceReset, slotAfterReset_of_spared torn fun d same => ?_]
    cases burns.symm.trans same
    exact other.symm
  · rw [slot_deviceReset, imageRead_abandoned burns torn within]
    refine ⟨?_, ?_, ?_, ?_⟩
    · rintro erased rfl
      rfl
    · rintro written cut body rfl
      refine ⟨fun tag => if_pos tag, fun rest spared => ?_⟩
      have whole : ¬ cut.map Fin.val = some k := by
        rw [Option.map_eq_some_iff]
        rintro ⟨d, at_, here⟩
        exact spared d at_ here
      rw [tornByteAt, if_neg rest, if_neg whole]
      rfl
    · rintro body rfl
      rfl
    · rintro rfl
      exact ⟨fun tag => by rw [tornByteAt, if_pos tag]; exact tornTagByte_ne _, fun rest => if_neg rest⟩

/-! ### Start-up -/

theorem recordA_finishStartUp (levels : LineMap) (s : State) :
    (finishStartUp levels s).recordA = some (slotStatusOf s.slotA) := by
  simp [finishStartUp, loadProfile]

theorem recordB_finishStartUp (levels : LineMap) (s : State) :
    (finishStartUp levels s).recordB = some (slotStatusOf s.slotB) := by
  simp [finishStartUp, loadProfile]

theorem tickPeriod_finishStartUp (levels : LineMap) (s : State) :
    (finishStartUp levels s).tickPeriod = startUpPeriod (finishStartUp levels s).active := by
  simp [finishStartUp]

/-- Start-up writes the confirmed levels and the pads; timers and what is kept per session and per port stay. -/
theorem sameBlocks_finishStartUp (levels : LineMap) (s : State) :
    SameBlocks { lines := fun _ => true, pads := fun _ => true } s (finishStartUp levels s) :=
  ⟨nofun, nofun, by simp, by simp, by simp, by simp, by simp, by simp, by simp⟩

/-- The four cases of Table 9-3. -/
theorem chooseSlot_cases (a b : SlotStatus) :
    (∀ g h, a = .valid g → b = .valid h → chooseSlot a b = some (if h.toNat ≤ g.toNat then .a else .b)) ∧
    (∀ g, a = .valid g → (∀ h, b ≠ .valid h) → chooseSlot a b = some .a) ∧
    (∀ h, b = .valid h → (∀ g, a ≠ .valid g) → chooseSlot a b = some .b) ∧
    ((∀ g, a ≠ .valid g) → (∀ h, b ≠ .valid h) → chooseSlot a b = none) := by
  refine ⟨?_, ?_, ?_, fun notA notB => ?_⟩
  · rintro g h rfl rfl
    exact (apply_ite some (h.toNat ≤ g.toNat) SlotId.a SlotId.b).symm
  · rintro g rfl notB
    cases b with
    | valid h => exact absurd rfl (notB h)
    | blank => rfl
    | invalid => rfl
  · rintro h rfl notA
    cases a with
    | valid g => exact absurd rfl (notA g)
    | blank => rfl
    | invalid => rfl
  · cases a with
    | valid g => exact absurd rfl (notA g)
    | blank | invalid =>
      cases b with
      | valid h => exact absurd rfl (notB h)
      | blank => rfl
      | invalid => rfl

theorem startUpDevice_eq (maint : Bool) (x : Option SlotId) :
    startUpDevice maint x = if maint then .maintenance else if x = none then .faulted else .operating := by
  cases x with
  | none => rfl
  | some x => cases maint <;> rfl

/-- Settles O19, by what start-up makes of each block and the cases of Table 9-3 (`chooseSlot_cases`). -/
theorem endOfStartUpInstallsProfile : Obligations.EndOfStartUpInstallsProfile := by
  intro levels s ended starting unowned
  have exec : exec (.endOfStartUp levels) s = .next (finishStartUp levels s) := by
    rw [Machine.exec, execEndOfStartUp, if_pos (by simp [ended, starting])]
  have slot := activeSlot_finishStartUp levels s
  have line := line_finishStartUp levels s
  have period := tickPeriod_finishStartUp levels s
  obtain ⟨both, onlyA, onlyB, neither⟩ := chooseSlot_cases (slotStatusOf s.slotA) (slotStatusOf s.slotB)
  refine ⟨_, exec, recordA_finishStartUp levels s, recordB_finishStartUp levels s, fun a b validA validB => ?_,
    fun a validA notB => ?_, fun b validB notA => ?_, fun notA notB => ?_, ?_, fun none => ⟨?_, fun l => ?_⟩,
    fun img active => ⟨fun code => ?_, fun code => ?_, fun code => ?_, fun code => ?_,
      fun l safe bias its biased => ?_⟩, line,
    filters_finishStartUp levels s, ?_, sameBlocks_finishStartUp levels s, by simp, by simp, by simp, by simp, by simp,
    by simp, by simp, by simp, by simp, by simpa using ended, by simp, by simp⟩
  · rw [slot, both a b validA validB]
  · rw [slot, onlyA a validA notB]
  · rw [slot, onlyB b validB notA]
  · rw [slot, neither notA notB]
  · rw [active_finishStartUp, slot]
  · rw [period, none]
    rfl
  · rw [pad_finishStartUp, padFor_fallback none]
    rfl
  · rw [period, active, startUpPeriod, code]
    rfl
  · rw [period, active, startUpPeriod, code]
    rfl
  · rw [period, active, startUpPeriod, code]
    rfl
  · rw [period, active, startUpPeriod, code]
    rfl
  · rw [pad_finishStartUp, padFor_active active biased, driveFor_unowned (by rw [line]; exact unowned l) its]
  · rw [device_finishStartUp, slot, startUpDevice_eq]

end Sys2Proof.Machine

/-! PROOFS. Ticks, countdowns and their expiries. -/

namespace Sys2Proof.Machine

set_option Elab.async false

/-! ### One tick -/

theorem exec_tick_resetting (e : TickEvent) {s : State} (lasts : s.resetting ≠ none) : exec (.tick e) s = .next s :=
  congrArg Host.Outcome.next (if_pos (Option.isSome_iff_ne_none.mpr lasts))

theorem exec_tick_whole {s : State} (ended : s.resetting = none) : exec (.tick .whole) s =
    .next (ownerTick .pulsePool (ownerTick .lineTable (ownerTick .sessionTable (generateTick (endTick s))))) :=
  congrArg Host.Outcome.next (if_neg (by simp [ended]))

theorem exec_tick_generated {s : State} (ended : s.resetting = none) :
    exec (.tick .generated) s = .next (generateTick (endTick s)) :=
  congrArg Host.Outcome.next (if_neg (by simp [ended]))

theorem exec_tick_reaches (o : TickOwner) {s : State} (ended : s.resetting = none) :
    exec (.tick (.reaches o)) s = .next (ownerTick o s) :=
  congrArg Host.Outcome.next (if_neg (by simp [ended]))

/-- The part when every owner of countdowns has taken a tick just produced. -/
def tickTaken (s : State) : State :=
  tickTimers (tickLines (tickSessions { s with tickCount := s.tickCount + 1, lag := ⟨0, 0, 0, s.lag.inputMonitor + 1⟩ }))

theorem wholeTick_eq {s : State} (running : s.device ≠ .starting) (taken : s.lag = ⟨0, 0, 0, s.lag.inputMonitor⟩) :
    ownerTick .pulsePool (ownerTick .lineTable (ownerTick .sessionTable (generateTick s))) = tickTaken s := by
  have generated : generateTick s =
      { s with tickCount := s.tickCount + 1, lag := ⟨1, 1, 1, s.lag.inputMonitor + 1⟩ } := by
    rw [generateTick, if_neg running, taken]
  rw [generated]
  rfl

theorem exec_tick_of_settled {s : State} (ended : s.resetting = none) (settled : Settled s)
    (taken : s.lag = ⟨0, 0, 0, s.lag.inputMonitor⟩) : exec (.tick .whole) s =
      .next (ownerTick .pulsePool (ownerTick .lineTable (ownerTick .sessionTable (generateTick s)))) := by
  have zero : s.lag.sessionTable = 0 ∧ s.lag.lineTable = 0 ∧ s.lag.pulsePool = 0 := by rw [taken]; exact ⟨rfl, rfl, rfl⟩
  rw [exec_tick_whole ended, endTick_of_settled settled zero.1 zero.2.1 zero.2.2]

theorem session_tickTaken (s : State) (p : Port) : (tickTaken s).session p = tickLease (s.session p) := by
  rw [tickTaken, session_tickTimers, session_tickLines, session_tickSessions]
  rfl

theorem line_tickTaken (s : State) (l : Line) :
    (tickTaken s).line l = { s.line l with queue := (s.line l).queue.map tickWait } := by
  rw [tickTaken, line_tickTimers, line_tickLines, line_tickSessions]
  rfl

theorem timer_tickTaken (s : State) (x : TimerId) : (tickTaken s).timer x = (s.timer x).map tickTimer := by
  rw [tickTaken, timer_tickTimers, timer_tickLines, timer_tickSessions]
  rfl

theorem ownerTick_of_taken {o : TickOwner} {s : State} (taken : lagOf s.lag o = 0) : ownerTick o s = s := by
  unfold ownerTick
  exact if_pos taken

theorem tickLease_attached {x : Session} {a : Attached} (attached : x.state = .attached a) :
    tickLease x = { x with state := .attached { a with lease := countdownTick a.lease } } := by
  rw [tickLease, attached]

theorem tickLease_away {x : Session} (away : isAttached x.state = false) : tickLease x = x := by
  unfold tickLease
  split
  · next attached => rw [attached] at away; cases away
  · rfl
  · rfl

/-- Settles O20: the tick as each owner takes it (`tickTaken`), and its parts one after another. -/
theorem tickAdvancesTime : Obligations.TickAdvancesTime := by
  refine ⟨fun s ended running settled taken => ?_, fun s ended starting settled none => ?_, fun e s lasts => ?_, fun s => ?_⟩
  · refine ⟨tickTaken s, ?_, rfl, rfl, rfl, fun p a attached => ?_, fun p away => ?_, line_tickTaken s, timer_tickTaken s,
      ⟨nofun, fun l _ => rfl, nofun, fun p _ => rfl, fun p _ => rfl, fun p _ => rfl, nofun, fun p _ => rfl,
        fun p _ _ => rfl⟩, ⟨rfl, rfl, rfl, rfl, rfl, rfl, rfl, rfl, rfl, rfl⟩, ⟨rfl, rfl, rfl, rfl, rfl⟩, rfl⟩
    · rw [exec_tick_of_settled ended settled taken, wholeTick_eq running taken]
    · rw [session_tickTaken, tickLease_attached attached]
    · rw [session_tickTaken, tickLease_away away]
  · have counted : generateTick s = { s with tickCount := s.tickCount + 1 } := by rw [generateTick, if_pos starting]
    have idle (o : TickOwner) : lagOf (generateTick s).lag o = 0 := by
      rw [counted]
      exact lag_eq_zero.mp none o
    rw [exec_tick_of_settled ended settled (by rw [none]), ownerTick_of_taken (idle .sessionTable),
      ownerTick_of_taken (idle .lineTable), ownerTick_of_taken (idle .pulsePool), counted]
  · exact exec_tick_resetting e lasts
  · cases lasts : s.resetting with
    | some kind =>
      have idle (e : TickEvent) := exec_tick_resetting e (s := s) (by simp [lasts])
      exact ⟨s, s, s, s, idle _, idle _, idle _, idle _, idle _⟩
    | none =>
      have generated : (generateTick (endTick s)).resetting = none := by simpa [endTick_resetting] using lasts
      exact ⟨_, _, _, _, exec_tick_generated lasts, exec_tick_reaches _ generated,
        exec_tick_reaches _ (by simpa using generated),
        exec_tick_reaches _ (by simpa using generated), exec_tick_whole lasts⟩

/-! ### Countdowns -/

theorem countdownTick_iterate {N k : Nat} (before : k < N) : countdownTick^[k] (countdownLoad N) = ⟨N - k, false⟩ := by
  induction k with
  | zero => rfl
  | succ k ih =>
    rw [Function.iterate_succ_apply', ih (by omega), countdownTick, if_neg (by dsimp only; omega)]
    simp only [Countdown.mk.injEq, and_true]
    omega

theorem countdownTick_last {N : Nat} (positive : 1 ≤ N) : (countdownTick^[N] (countdownLoad N)).due = true := by
  obtain ⟨n, rfl⟩ : ∃ n, N = n + 1 := ⟨N - 1, by omega⟩
  rw [Function.iterate_succ_apply', countdownTick_iterate (Nat.lt_succ_self n), countdownTick, if_pos (by dsimp only; omega)]

/-! ### Commands one after another -/

theorem runAll_append (xs ys : List Instr) (s : State) : runAll (xs ++ ys) s = (runAll xs s).bind (runAll ys) := by
  induction xs generalizing s with
  | nil => rfl
  | cons c cs ih =>
    rw [List.cons_append, runAll, runAll]
    cases exec c s with
    | next t => exact ih t
    | fault => rfl
    | refused => rfl

theorem runAll_cons_of_next {c : Instr} {cs : List Instr} {s t : State} (next : exec c s = .next t) :
    runAll (c :: cs) s = runAll cs t := by
  rw [runAll, next]

/-- A pass of commands is the pass of their operations. -/
theorem runAll_map {α : Type} {f : α → Instr} {g : State → α → State} (next : ∀ a s, exec (f a) s = .next (g s a))
    (xs : List α) (s : State) : runAll (xs.map f) s = some (xs.foldl g s) := by
  induction xs generalizing s with
  | nil => rfl
  | cons x xs ih => rw [List.map_cons, runAll_cons_of_next (next x s), ih, List.foldl_cons]

theorem runAll_flatMap {α : Type} {f : α → List Instr} {g : State → α → State}
    (run : ∀ a s, runAll (f a) s = some (g s a)) (xs : List α) (s : State) :
    runAll (xs.flatMap f) s = some (xs.foldl g s) := by
  induction xs generalizing s with
  | nil => rfl
  | cons x xs ih => rw [List.flatMap_cons, runAll_append, run, Option.bind_some, ih, List.foldl_cons]

/-- The expiry commands together bring the tick events to their end. -/
theorem runAll_expiries (s : State) : runAll expiries s = some (finishTicks s) := by
  rw [expiries, runAll_append, runAll_append, runAll_map (g := fun s p => leaseExpires p s) fun p s => rfl]
  rw [Option.bind_some, runAll_flatMap (g := fun s l => allPorts.foldl (fun s p => waitExpires l p s) s) fun l s =>
    runAll_map (f := .waitExpiry l) (fun p s => rfl) allPorts s]
  exact runAll_map (f := .pulseExpiry) (fun x s => rfl) allTimers _

/-- The outstanding ticks of one owner, one after another. -/
theorem runAll_ownerTicks (o : TickOwner) (n : Nat) {s : State} (ended : s.resetting = none) :
    runAll (List.replicate n (.tick (.reaches o))) s = some ((ownerTick o)^[n] s) := by
  induction n generalizing s with
  | zero => rfl
  | succ n ih =>
    rw [List.replicate_succ, runAll_cons_of_next (exec_tick_reaches o ended), ih (by simpa using ended),
      Function.iterate_succ_apply]

/-- The outstanding ticks and the expiries together bring the tick to its end. -/
theorem runAll_endTick {s : State} (ended : s.resetting = none) :
    runAll (outstandingTicks s.lag ++ expiries) s = some (endTick s) := by
  have sessions := (lag_takeTicks .sessionTable nofun s).2
  have lines := (lag_takeTicks .lineTable nofun (takeTicks .sessionTable s)).2
  have second : s.lag.lineTable = lagOf (takeTicks .sessionTable s).lag .lineTable := (sessions .lineTable nofun).symm
  have third : s.lag.pulsePool = lagOf (takeTicks .lineTable (takeTicks .sessionTable s)).lag .pulsePool :=
    ((lines .pulsePool nofun).trans (sessions .pulsePool nofun)).symm
  have after (o : TickOwner) {u : State} (same : u.resetting = none) : (takeTicks o u).resetting = none :=
    (takeTicks_resetting o u).trans same
  have run (o : TickOwner) (u : State) (same : u.resetting = none) :
      runAll (List.replicate (lagOf u.lag o) (.tick (.reaches o))) u = some (takeTicks o u) := runAll_ownerTicks o _ same
  rw [outstandingTicks, runAll_append, runAll_append, runAll_append, second, third]
  rw [show s.lag.sessionTable = lagOf s.lag .sessionTable from rfl, run .sessionTable s ended, Option.bind_some,
    run .lineTable _ (after _ ended), Option.bind_some, run .pulsePool _ (after _ (after _ ended)), Option.bind_some,
    runAll_expiries]
  rfl

theorem exec_finishTicks {c : Instr} {p : Port} (linked : linkPort c = some p) (s : State) :
    exec c s = exec c (finishTicks s) := by
  obtain ⟨act, _, all⟩ := exec_linked linked
  obtain ⟨span, same⟩ := exists_span linked
  rw [← same, all, all, transaction_finishTicks]

theorem settled_endTick (s : State) : Settled (endTick s) := settled_finishTicks _

theorem endTick_endTick (s : State) : endTick (endTick s) = endTick s := by
  have lag := lag_endTick s
  have zero : (endTick s).lag.sessionTable = 0 ∧ (endTick s).lag.lineTable = 0 ∧ (endTick s).lag.pulsePool = 0 := by
    rw [lag]; exact ⟨rfl, rfl, rfl⟩
  exact endTick_of_settled (settled_endTick s) zero.1 zero.2.1 zero.2.2

theorem inputMonitor_endTick (s : State) : (endTick s).lag.inputMonitor = s.lag.inputMonitor := by
  have keep (o : TickOwner) (other : o ≠ .inputMonitor) (u : State) :
      lagOf (takeTicks o u).lag .inputMonitor = lagOf u.lag .inputMonitor := (lag_takeTicks o other u).2 _ other.symm
  rw [endTick, (Frame.finishTicks _).time.lag]
  exact (keep .pulsePool nofun _).trans ((keep .lineTable nofun _).trans (keep .sessionTable nofun s))

/-- Settles O21: the expiry commands come to `finishTicks`, which every transaction command begins with, and with the
outstanding ticks to `endTick`, which every tick begins with. -/
theorem countdownExpiresAtNthTick : Obligations.CountdownExpiresAtNthTick := by
  refine ⟨fun N k positive => ⟨countdownTick_iterate, countdownTick_last positive⟩, fun s => ?_, fun s ended => ?_⟩
  · exact ⟨_, runAll_expiries s, settled_finishTicks s, finishTicks_of_settled, fun c p linked => exec_finishTicks linked s⟩
  · have after : (endTick s).resetting = none := (endTick_resetting s).trans ended
    exact ⟨_, runAll_endTick ended, settled_endTick s, inputMonitor_endTick s ▸ lag_endTick s,
      by rw [exec_tick_whole ended, exec_tick_whole after, endTick_endTick],
      by rw [exec_tick_generated ended, exec_tick_generated after, endTick_endTick]⟩

/-! ### Sampling -/

theorem takeChange_of_room (c : ChangeRecord) {q : EventQueue} (room : q.records.length < 32) :
    takeChange c q = ⟨q.records ++ [.change c], q.dropped⟩ := if_pos room

theorem takeChange_of_full (c : ChangeRecord) {q : EventQueue} (full : q.records.length = 32) (dropped : q.dropped ≤ 255) :
    takeChange c q = ⟨q.records, if q.dropped < 255 then q.dropped + 1 else 255⟩ := by
  rw [takeChange, if_neg (by rw [full]; decide)]
  simp only [EventQueue.mk.injEq, true_and]
  unfold raiseDropped
  split
  · next below => exact (if_pos (show q.dropped < 255 from below)).symm
  · next above =>
    have above : ¬ q.dropped < 255 := above
    rw [if_neg above]
    omega

/-- A sample confirms a change exactly when the confirmed level differs after it. -/
theorem filterSample_changed (F : Nat) (f : LineFilter) (confirmed sampled : Bool) :
    (filterSample F f confirmed sampled).changed = decide ((filterSample F f confirmed sampled).confirmed ≠ confirmed) := by
  by_cases same : sampled = confirmed
  · subst same
    rw [filterSample_same]
    simp
  · cases candidate : f.candidate with
    | none =>
      rw [filterSample_of_no_candidate F same candidate]
      split <;> simp [same]
    | some c =>
      rw [filterSample_of_candidate F same candidate]
      split <;> simp [same]

/-- The part with one tick of the Input Monitor taken. -/
def monitorTaken (s : State) : State := { s with lag := { s.lag with inputMonitor := s.lag.inputMonitor - 1 } }

/-- The part after a sampling operation: the records carry the stamp of the tick taken (R91, R145). -/
def sampled (levels : LineMap) (s : State) : State :=
  samplePins levels ((monitorTaken s).stampAt .inputMonitor) (monitorTaken s)

theorem exec_inputSampling_idle (levels : LineMap) {s : State} (none : s.lag.inputMonitor = 0) :
    exec (.inputSampling levels) s = .next s :=
  congrArg Host.Outcome.next (if_pos none)

theorem exec_inputSampling (levels : LineMap) {s : State} (outstanding : s.lag.inputMonitor ≠ 0) :
    exec (.inputSampling levels) s = .next (sampled levels s) :=
  congrArg Host.Outcome.next (if_neg outstanding)

theorem line_sampled (levels : LineMap) (s : State) (l : Line) :
    (sampled levels s).line l = { s.line l with confirmed := (sampleLine levels s l).confirmed } :=
  line_samplePins levels _ (monitorTaken s) l

theorem filters_sampled (levels : LineMap) (s : State) (l : Line) :
    (sampled levels s).filters[l] = (sampleLine levels s l).filter :=
  filters_samplePins levels _ (monitorTaken s) l

theorem queue_sampled (levels : LineMap) (s : State) (p : Port) :
    (sampled levels s).queue p =
      if isAttached (s.session p).state then
        (allLines.filter fun l => ((sampled levels s).line l).confirmed ≠ (s.line l).confirmed &&
            watchMatches (s.watch p)[l] ((sampled levels s).line l).confirmed).foldl
          (fun q l => takeChange
            ⟨l, ((sampled levels s).line l).confirmed,
              (s.tickCount - BitVec.ofNat 32 (s.lag.inputMonitor - 1)).setWidth 16⟩ q)
          (s.queue p)
      else s.queue p := by
  have level (l : Line) : ((sampled levels s).line l).confirmed = (sampleLine levels s l).confirmed := by rw [line_sampled]
  simp only [level]
  rw [sampled, queue_samplePins]
  have changed (l : Line) : (sampleLine levels (monitorTaken s) l).changed =
      decide ((sampleLine levels s l).confirmed ≠ (s.line l).confirmed) := filterSample_changed _ _ _ _
  simp only [changed]
  rfl

/-- Sampling takes a tick of the Input Monitor, writes the confirmed levels and offers records. -/
theorem sameBlocks_sampled (levels : LineMap) (s : State) :
    SameBlocks { lines := fun _ => true, queues := fun _ => true } s (sampled levels s) := by
  have blocks := (samplePins_frame levels ((monitorTaken s).stampAt .inputMonitor) (monitorTaken s)).blocks
  exact ⟨nofun, fun l _ => blocks.pads l rfl, fun x _ => blocks.timers x rfl, fun p _ => blocks.staged p rfl,
    fun p _ => blocks.watches p rfl, nofun, fun p _ => blocks.sessions p rfl, fun p _ => blocks.ports p rfl, nofun⟩

theorem sameStore_sampled (levels : LineMap) (s : State) : SameStore s (sampled levels s) := by
  have store := (samplePins_frame levels ((monitorTaken s).stampAt .inputMonitor) (monitorTaken s)).store
  exact ⟨store.slotA, store.slotB, store.recordA, store.recordB, store.activeSlot, store.active, store.buffer, store.lock,
    store.burn, store.lastBurn⟩

theorem sameDevice_sampled (levels : LineMap) (s : State) : SameDevice s (sampled levels s) := by
  have device := (samplePins_frame levels ((monitorTaken s).stampAt .inputMonitor) (monitorTaken s)).device
  exact ⟨device.pending, device.resetting, device.device, device.maint, device.freeCount⟩

/-- Settles O22: each line by Table 5-1 (`filterSample_of_no_candidate`, `filterSample_of_candidate`), and the queues by
`queue_sampled`. -/
theorem samplingConfirmsChanges : Obligations.SamplingConfirmsChanges := by
  refine ⟨fun c q dropped => ⟨takeChange_of_room c, fun full => takeChange_of_full c full dropped⟩,
    fun levels s => ⟨exec_inputSampling_idle levels, fun inv away => exec_inputSampling_idle levels ?_⟩,
    fun levels s outstanding => ⟨_, exec_inputSampling levels outstanding, fun l => ?_, queue_sampled levels s, ?_⟩⟩
  · have starting : s.device = .starting := away.elim inv.resettingStarting id
    rw [inv.startingNoTicks starting]
  · rw [line_sampled, filters_sampled]
    refine ⟨rfl, rfl, fun same => ?_, fun differs absent => ?_, fun differs c present => ?_⟩
    · rw [sampleLine, show levelAt levels l = (s.line l).confirmed from same, filterSample_same]
      exact ⟨rfl, rfl⟩
    · rw [sampleLine, filterSample_of_no_candidate _ (sampled := levelAt levels l) differs absent]
      refine ⟨fun zero => ?_, fun positive => ?_⟩
      · rw [if_pos zero]
        exact ⟨rfl, rfl⟩
      · rw [if_neg (Nat.ne_of_gt positive)]
        exact ⟨rfl, rfl⟩
    · rw [sampleLine, filterSample_of_candidate _ (sampled := levelAt levels l) differs present]
      refine ⟨fun below => ?_, fun reached => ?_⟩
      · rw [if_neg (by omega)]
        exact ⟨rfl, rfl⟩
      · rw [if_pos (by omega)]
        exact ⟨rfl, rfl⟩
  · have frame := samplePins_frame levels ((monitorTaken s).stampAt .inputMonitor) (monitorTaken s)
    exact ⟨frame.time.lag, frame.time.tickCount, frame.time.tickPeriod, sameBlocks_sampled levels s,
      sameStore_sampled levels s,
      sameDevice_sampled levels s⟩

end Sys2Proof.Machine

/-! PROOFS. The expiries of leases, waits and pulses, and the completions of burns and requests. -/

namespace Sys2Proof.Machine

set_option Elab.async false

/-! ### What a teardown leaves, seen past changes of the session and the port themselves -/

theorem hasRole_congr {s t : State} {l : Line} (p : Port) (line : t.line l = s.line l) : t.hasRole p l = s.hasRole p l := by
  simp only [State.hasRole, State.holds, State.waits, line]

theorem timers_of_blocks {r : Reach} {s t : State} (blocks : SameBlocks r s t) (none : ∀ x, r.timers x = false) :
    t.timers = s.timers := by
  refine Vector.ext fun i within => ?_
  exact blocks.timers ⟨i, within⟩ (none _)

theorem SameStore.trans {s t u : State} (first : SameStore s t) (second : SameStore t u) : SameStore s u :=
  ⟨second.slotA.trans first.slotA, second.slotB.trans first.slotB, second.recordA.trans first.recordA,
    second.recordB.trans first.recordB, second.activeSlot.trans first.activeSlot, second.active.trans first.active,
    second.buffer.trans first.buffer, second.lock.trans first.lock, second.burn.trans first.burn,
    second.lastBurn.trans first.lastBurn⟩

theorem SameTime.trans {s t u : State} (first : SameTime s t) (second : SameTime t u) : SameTime s u :=
  ⟨second.tickCount.trans first.tickCount, second.tickPeriod.trans first.tickPeriod, second.lag.trans first.lag⟩

theorem SameDevice.trans {s t u : State} (first : SameDevice s t) (second : SameDevice t u) : SameDevice s u :=
  ⟨second.pending.trans first.pending, second.resetting.trans first.resetting, second.device.trans first.device,
    second.maint.trans first.maint, second.freeCount.trans first.freeCount⟩

theorem TornDown.after {p : Port} {now : Stamp} {s u t : State} (torn : TornDown p now s u)
    (frame : Frame { sessions := only p, ports := only p } u t) : TornDown p now s t := by
  have line (l : Line) : t.line l = u.line l := frame.blocks.lines l rfl
  have pad (l : Line) : t.pad l = u.pad l := frame.blocks.pads l rfl
  have padFor (l : Line) : t.padFor l = u.padFor l :=
    padFor_congr frame.store.active (line l) (timers_of_blocks frame.blocks fun _ => rfl)
  have noRole (l : Line) : t.hasRole p l = false := by rw [hasRole_congr p (line l), torn.noRole]
  constructor
  case noClaims => exact claimCount_of_noRole noRole
  case noRole => exact noRole
  case noTimer => exact fun x => by rw [timerOf, frame.blocks.timers x rfl]; exact torn.noTimer x
  case otherTimers => exact fun x other => by rw [frame.blocks.timers x rfl, torn.otherTimers x other]
  case lines => exact fun l => by rw [line, torn.lines]
  case untouched => exact fun l none => by rw [line, pad]; exact torn.untouched l none
  case pads => exact fun l => by rw [pad, padFor, torn.pads]
  case noStaged => rw [frame.blocks.staged p rfl, torn.noStaged]
  case otherStaged => exact fun q other => by rw [frame.blocks.staged q rfl, torn.otherStaged q other]
  case noWatch => rw [frame.blocks.watches p rfl, torn.noWatch]
  case otherWatches => exact fun q other => by rw [frame.blocks.watches q rfl, torn.otherWatches q other]
  case noRecords => rw [frame.blocks.queues p rfl, torn.noRecords]
  case granted => exact fun q other => by rw [frame.blocks.queues q rfl, torn.granted q other]
  case otherSessions =>
    intro q other
    rw [frame.blocks.sessions q (only_false.mpr other), torn.otherSessions q other]
  case otherPorts => exact fun q other => by rw [frame.blocks.ports q (only_false.mpr other), torn.otherPorts q other]
  case store => exact torn.store.trans frame.store
  case time => exact torn.time.trans frame.time
  case device => exact torn.device.trans frame.device
  case filters => exact frame.filters.trans torn.filters

theorem TornDown.before {p : Port} {now : Stamp} {s u t : State} (frame : Frame { sessions := only p, ports := only p } s u)
    (torn : TornDown p now u t) : TornDown p now s t := by
  have line (l : Line) : u.line l = s.line l := frame.blocks.lines l rfl
  have notices : tearDownNotices p now u = tearDownNotices p now s := by simp only [tearDownNotices, line]
  constructor
  case noClaims => exact torn.noClaims
  case noRole => exact torn.noRole
  case noTimer => exact torn.noTimer
  case otherTimers =>
    intro x other
    rw [← frame.blocks.timers x rfl, torn.otherTimers x (by rwa [timerOf, frame.blocks.timers x rfl])]
  case lines => exact fun l => by rw [torn.lines, line]
  case untouched =>
    intro l none
    rw [← line, ← frame.blocks.pads l rfl]
    exact torn.untouched l (by rw [hasRole_congr p (line l), none])
  case pads => exact fun l => by rw [torn.pads, line, frame.blocks.pads l rfl]
  case noStaged => exact torn.noStaged
  case otherStaged => exact fun q other => by rw [torn.otherStaged q other, frame.blocks.staged q rfl]
  case noWatch => exact torn.noWatch
  case otherWatches => exact fun q other => by rw [torn.otherWatches q other, frame.blocks.watches q rfl]
  case noRecords => exact torn.noRecords
  case granted =>
    intro q other
    rw [torn.granted q other, notices, frame.blocks.sessions q (only_false.mpr other), frame.blocks.queues q rfl]
  case otherSessions =>
    intro q other
    rw [torn.otherSessions q other, frame.blocks.sessions q (only_false.mpr other)]
  case otherPorts => exact fun q other => by rw [torn.otherPorts q other, frame.blocks.ports q (only_false.mpr other)]
  case store => exact frame.store.trans torn.store
  case time => exact frame.time.trans torn.time
  case device => exact frame.device.trans torn.device
  case filters => exact torn.filters.trans frame.filters

/-! ### Expiries -/

theorem Frame.endSession (p : Port) (state : SessionState) (reason : EndReason) (s : State) :
    Frame { sessions := only p } s (endSession p state reason s) := Frame.setSession s p _

theorem session_endSession (p : Port) (state : SessionState) (reason : EndReason) (s : State) :
    (endSession p state reason s).session p = ⟨state, (s.session p).epoch, reason⟩ := by
  rw [endSession, session_setSession, if_pos rfl]

/-- Settles O24, by the teardown of a session (`tornDown_teardown`). -/
theorem leaseExpiryLapsesSession : Obligations.LeaseExpiryLapsesSession := by
  intro p a s attached due
  have next : exec (.leaseExpiry p) s = .next (lapse p s) :=
    congrArg Host.Outcome.next (if_pos ((leaseDue_iff p s).mpr ⟨a, attached, due⟩))
  refine ⟨_, next, (tornDown_teardown p s).after (Frame.endSession p _ _ _).widen, ?_, ?_⟩
  · rw [lapse, session_endSession, session_teardown]
  · simp [lapse, endSession]

theorem waiterOf_withdrawEntry (p : Port) (now : Stamp) (e : LineEntry) :
    waiterOf p (withdrawEntry p now e).entry = none := by
  rw [waiterOf_none]
  intro w mem
  simpa using (List.mem_filter.mp ((queue_handed (handed_withdrawEntry p now e)).subset mem)).2

/-- Settles O25: the expiry is a withdrawal (`withdrawEntry`) behind the notice. -/
theorem waitExpiryDropsClaim : Obligations.WaitExpiryDropsClaim := by
  intro l p w c s waiting limit due
  have isDue : waitDue l p s = true :=
    (waitDue_iff l p s).mpr ⟨w, c, waiterOf_mem waiting, waiterOf_session waiting, limit, due⟩
  have next : exec (.waitExpiry l p) s = .next (expireWait l p s) := congrArg Host.Outcome.next (if_pos isDue)
  have line : (expireWait l p s).line l = (withdrawEntry p (s.stampAt .lineTable) (s.line l)).entry := by
    rw [line_expireWait, if_pos rfl]
  refine ⟨_, next, ⟨line, ?_, queue_expireWait l p s⟩, by rw [line, waiterOf_withdrawEntry], Frame.expireWait l p s⟩
  rw [pad_expireWait]
  simp only [and_true, ne_eq, ite_not]
  rfl

/-- Settles O26, by what the end of a pulse makes of the record it belongs to (`ownerOf_setPulse`). -/
theorem pulseExpiryEndsPulse : Obligations.PulseExpiryEndsPulse := by
  intro x r s runs due
  have next : exec (.pulseExpiry x) s = .next (expirePulse x r s) := by
    refine congrArg Host.Outcome.next ?_
    rw [pulseExpires, runs]
    exact if_pos due
  have line : (expirePulse x r s).line r.line = setPulse r.session none (s.line r.line) := by
    rw [line_expirePulse, if_pos rfl]
  rw [next]
  refine ⟨_, rfl, by rw [timer_expirePulse, if_pos rfl], ?_, fun q other => ?_, ?_, ?_, by rw [pad_expirePulse, if_pos rfl],
    queue_expirePulse x r s, Frame.expirePulse x r s⟩
  · rw [line, ownerOf_setPulse, if_pos rfl]
  · rw [line, ownerOf_setPulse, if_neg other]
  · rw [line, setPulse_queue]
  · rw [line, setPulse_confirmed]

end Sys2Proof.Machine

/-! PROOFS. The completions of burns and of requests. -/

namespace Sys2Proof.Machine

set_option Elab.async false

/-! ### What the read-back says (R167) -/

theorem readBackByte_eq {readBack : List Byte} (length : readBack.length = 128) {k : Nat} (within : k < 128) :
    readBackByte readBack k = readBack.getD k 0 := by
  rw [readBackByte, List.getD_eq_getElem _ _ (by omega), List.getD_eq_getElem _ _ (by omega)]

theorem lowestDifference_eq_none {buffer : Image} {readBack : List Byte} :
    lowestDifference buffer readBack = none ↔ ∀ j, 1 ≤ j → j < 128 → readBackByte readBack j = imageRead buffer j := by
  rw [lowestDifference, bodyOffsets, List.find?_map, Option.map_eq_none_iff, List.find?_range_eq_none]
  constructor
  · intro same j least most
    obtain ⟨i, rfl⟩ : ∃ i, j = i + 1 := ⟨j - 1, by omega⟩
    simpa using same i (by omega)
  · intro same i within
    simpa using same (i + 1) (by omega) (by omega)

theorem lowestDifference_eq_some {buffer : Image} {readBack : List Byte} {k : Nat} :
    lowestDifference buffer readBack = some k ↔ (1 ≤ k ∧ k < 128 ∧ readBackByte readBack k ≠ imageRead buffer k) ∧
      ∀ j, 1 ≤ j → j < k → readBackByte readBack j = imageRead buffer j := by
  rw [lowestDifference, bodyOffsets, List.find?_map, Option.map_eq_some_iff]
  simp only [List.find?_range_eq_some]
  constructor
  · rintro ⟨i, ⟨differs, mem, before⟩, rfl⟩
    refine ⟨⟨by omega, by have := List.mem_range.mp mem; omega, by simpa using differs⟩, fun j least most => ?_⟩
    obtain ⟨j, rfl⟩ : ∃ i, j = i + 1 := ⟨j - 1, by omega⟩
    simpa using before j (by omega)
  · rintro ⟨⟨least, most, differs⟩, before⟩
    obtain ⟨i, rfl⟩ : ∃ i, k = i + 1 := ⟨k - 1, by omega⟩
    refine ⟨i, ⟨by simpa using differs, List.mem_range.mpr (by omega), fun j below => ?_⟩, rfl⟩
    simpa using before (j + 1) (by omega) (by omega)

/-- Read back as written: the burn succeeded. -/
theorem burnFailure_none {buffer : Image} {readBack : List Byte}
    (same : ∀ k, k < 128 → readBackByte readBack k = imageRead buffer k) :
    lowestDifference buffer readBack = none ∧ burnFailure buffer readBack = none := by
  have none := lowestDifference_eq_none.mpr fun j _ => same j
  exact ⟨none, by rw [burnFailure, none]; exact if_pos (same 0 (by omega))⟩

/-- A byte that differs, the lowest of bytes 1 to 127 or the tag alone, is the offset reported. -/
theorem burnFailure_some {buffer : Image} {readBack : List Byte} {k : Nat} (within : k < 128)
    (differs : readBackByte readBack k ≠ imageRead buffer k)
    (lowest : ∀ j, 1 ≤ j → j < 128 → readBackByte readBack j ≠ imageRead buffer j → k ≤ j ∧ k ≠ 0) :
    lowestDifference buffer readBack = (if k = 0 then none else some k) ∧ burnFailure buffer readBack = some k := by
  by_cases tag : k = 0
  · subst tag
    have none : lowestDifference buffer readBack = none := lowestDifference_eq_none.mpr fun j least most => by
      by_contra other
      exact (lowest j least most other).2 rfl
    exact ⟨none, by rw [burnFailure, none]; exact if_neg differs⟩
  · have some : lowestDifference buffer readBack = some k :=
      lowestDifference_eq_some.mpr ⟨⟨by omega, within, differs⟩, fun j least below => by
        by_contra other
        exact absurd (lowest j least (by omega) other).1 (by omega)⟩
    exact ⟨by rw [if_neg tag, some], by rw [burnFailure, some]⟩

theorem imageRead_burntImage {buffer : Image} {readBack : List Byte} {k : Nat} (within : k < 128) :
    imageRead (burntImage buffer readBack) k =
      if k = 0 ∧ lowestDifference buffer readBack ≠ none then 0xFF#8 else readBackByte readBack k := by
  unfold burntImage
  split
  · next found =>
    rw [imageRead_imageOf _ within, found]
    simp
  · next none =>
    rw [imageRead_imageOf _ within, none]
    simp

/-! ### The end of a burn -/

theorem record_finishBurn (b : Burning) (readBack : List Byte) (s : State) (x : SlotId) :
    (finishBurn b readBack s).record x =
      if x = b.target ∧ burnFailure s.buffer readBack = none then some (.valid b.generation) else s.record x := by
  have stored : (s.setSlot b.target (burntImage s.buffer readBack)).record x = s.record x := by
    cases b.target <;> cases x <;> rfl
  unfold finishBurn
  dsimp only
  split
  · next ok =>
    rw [ok]
    simp only [and_true]
    rw [← stored]
    exact record_setRecord _ b.target x (.valid b.generation)
  · next failed =>
    rw [failed]
    simp only [reduceCtorEq, and_false, if_false]
    exact stored

theorem lastBurn_finishBurn (b : Burning) (readBack : List Byte) (s : State) :
    (finishBurn b readBack s).lastBurn =
      if burnFailure s.buffer readBack = none then .ok b.target b.generation else .failed b.target b.generation := by
  unfold finishBurn
  dsimp only
  split
  · next ok => rw [ok]; rfl
  · next failed => rw [failed]; rfl

theorem lockAfterBurn_eq (lock : EditLock) : lockAfterBurn lock = if lock = .releasing then .free else lock := by
  cases lock <;> rfl

/-- The port of a burn after its completion. -/
def portAfterBurn (reply : Reply) (x : PortInterface) : PortInterface :=
  match x.state with
  | .executing e =>
    if e.reply.isNone then { x with state := .ready ⟨e.tag, e.code, reply⟩ }
    else { x with overtaken := x.overtaken.filter fun y => y.reply.isSome }
  | _ => { x with overtaken := x.overtaken.filter fun y => y.reply.isSome }

theorem portAfterBurn_waiting {x : PortInterface} {e : Executing} (reply : Reply) (executing : x.state = .executing e)
    (waiting : e.reply = none) : portAfterBurn reply x = { x with state := .ready ⟨e.tag, e.code, reply⟩ } := by
  rw [portAfterBurn, executing]
  exact if_pos (by simp [waiting])

theorem portAfterBurn_overtaken {x : PortInterface} (reply : Reply)
    (overtaken : ∀ e, x.state = .executing e → e.reply ≠ none) :
    portAfterBurn reply x = { x with overtaken := x.overtaken.filter fun y => y.reply.isSome } := by
  unfold portAfterBurn
  split
  · next e executing => exact if_neg (by simpa using overtaken e executing)
  · rfl

theorem completeBurn_eq (p : Port) (reply : Reply) (s : State) :
    completeBurn p reply s = s.putPort p (portAfterBurn reply (s.port p)) := by
  unfold completeBurn
  split
  · next e executing =>
    split
    · next waiting => rw [portAfterBurn_waiting reply executing (Option.isNone_iff_eq_none.mp waiting)]
    · next replied =>
      rw [portAfterBurn_overtaken reply]
      intro d its
      cases executing.symm.trans its
      simpa using replied
  · next elsewhere => rw [portAfterBurn_overtaken reply fun e its => absurd its (elsewhere e)]

/-- The part after the completion of a burn. -/
def burnCompleted (b : Burning) (readBack : List Byte) (s : State) : State :=
  (finishBurn b readBack s).putPort b.port (portAfterBurn (burnReply b readBack s) (s.port b.port))

theorem exec_burnCompletion {b : Burning} (readBack : List Byte) {s : State} (burns : s.burn = some b) :
    exec (.burnCompletion readBack) s = .next (burnCompleted b readBack s) := by
  refine congrArg Host.Outcome.next ?_
  rw [burns]
  dsimp only
  rw [completeBurn_eq, port_finishBurn]
  rfl

/-- Settles O27: the slot, its record and the last burn result by what the read-back says (`burnFailure_none`,
`burnFailure_some`), and the port by `portAfterBurn`. -/
theorem burnCompletionEndsBurn : Obligations.BurnCompletionEndsBurn := by
  intro b readBack s burns length
  have read (k : Nat) (within : k < 128) : readBack.getD k 0 = readBackByte readBack k :=
    (readBackByte_eq length within).symm
  have slot (x : SlotId) : (burnCompleted b readBack s).slot x = (finishBurn b readBack s).slot x := by
    cases x <;> simp [burnCompleted, State.slot]
  have record (x : SlotId) : (burnCompleted b readBack s).record x = (finishBurn b readBack s).record x := by
    cases x <;> simp [burnCompleted, State.record]
  have lastBurn : (burnCompleted b readBack s).lastBurn = (finishBurn b readBack s).lastBurn := by simp [burnCompleted]
  have byte (k : Nat) (within : k < 128) : imageRead ((burnCompleted b readBack s).slot b.target) k =
      if k = 0 ∧ lowestDifference s.buffer readBack ≠ none then 0xFF#8 else readBackByte readBack k := by
    rw [slot, slot_finishBurn, if_pos rfl, imageRead_burntImage within]
  have port : (burnCompleted b readBack s).port b.port = portAfterBurn (burnReply b readBack s) (s.port b.port) := by
    rw [burnCompleted, port_putPort, if_pos rfl]
  have written (same : ∀ k, k < 128 → readBack.getD k 0 = imageRead s.buffer k) (k : Nat) (within : k < 128) :
      readBackByte readBack k = imageRead s.buffer k := (read k within).symm.trans (same k within)
  have failed {k : Nat} (within : k < 128) (differs : readBack.getD k 0 ≠ imageRead s.buffer k)
      (lowest : ∀ j, 1 ≤ j → j < 128 → readBack.getD j 0 ≠ imageRead s.buffer j → k ≤ j ∧ k ≠ 0) :=
    burnFailure_some within (read k within ▸ differs) fun j least most other =>
      lowest j least most ((read j most).symm ▸ other)
  refine ⟨_, exec_burnCompletion readBack burns, ?_, ?_, fun x other => ⟨?_, ?_⟩, fun k least most => ?_,
    fun reply same its => ⟨?_, ?_, ?_, fun e executing waiting => ?_⟩,
    fun k reply within differs lowest its => ⟨?_, ?_, ?_, fun e executing waiting => ?_⟩, fun overtaken => ?_, ?_⟩
  · simp [burnCompleted, burn_finishBurn]
  · simp [burnCompleted, lock_finishBurn, lockAfterBurn_eq]
  · rw [slot, slot_finishBurn, if_neg other]
  · rw [record, record_finishBurn, if_neg fun h => other h.1]
  · rw [byte k most, if_neg fun h => by omega, read k most]
  · rw [byte 0 (by omega), if_neg fun h => h.2 (burnFailure_none (written same)).1,
      ← read 0 (by omega), same 0 (by omega)]
  · rw [record, record_finishBurn, if_pos ⟨rfl, (burnFailure_none (written same)).2⟩]
  · rw [lastBurn, lastBurn_finishBurn, if_pos (burnFailure_none (written same)).2]
  · rw [port, portAfterBurn_waiting _ executing waiting, burnReply, (burnFailure_none (written same)).2, its]
  · have lowestIs := (failed within differs lowest).1
    rw [byte 0 (by omega), lowestIs]
    by_cases tag : k = 0
    · rw [if_neg (by simp [tag]), if_pos tag, read 0 (by omega)]
    · rw [if_pos ⟨rfl, by simp [tag]⟩, if_neg tag]
  · rw [record, record_finishBurn, if_neg fun h => by simp [(failed within differs lowest).2] at h]
  · rw [lastBurn, lastBurn_finishBurn, if_neg (by simp [(failed within differs lowest).2])]
  · rw [port, portAfterBurn_waiting _ executing waiting, burnReply, (failed within differs lowest).2, its]
  · rw [port, portAfterBurn_overtaken _ overtaken]
  · have frame : Frame { ports := only b.port } (finishBurn b readBack s) (burnCompleted b readBack s) := Frame.putPort _ _ _
    refine ⟨by simp [burnCompleted], by simp [burnCompleted], by simp [burnCompleted], ?_, ?_, ?_, ?_⟩
    · exact ⟨fun l _ => by simp [burnCompleted], fun l _ => by simp [burnCompleted], fun x _ => by simp [burnCompleted],
        fun p _ => by simp [burnCompleted], fun p _ => by simp [burnCompleted], fun p _ => by simp [burnCompleted],
        fun p _ => by simp [burnCompleted], fun p other => by rw [frame.blocks.ports p other, port_finishBurn],
        fun p _ other => by rw [frame.blocks.attn p rfl other, finishBurn_attn]⟩
    · exact ⟨by simp [burnCompleted], by simp [burnCompleted], by simp [burnCompleted]⟩
    · exact ⟨by simp [burnCompleted], by simp [burnCompleted], by simp [burnCompleted], by simp [burnCompleted],
        by simp [burnCompleted]⟩
    · simp [burnCompleted, SameFilters]

/-! ### The completion of a request (R176, R180) -/

/-- Settles O28: the completion writes the port alone, and its attention output with it. -/
theorem completionPlacesResponse : Obligations.CompletionPlacesResponse := by
  refine ⟨fun p e reply s executing replied => ?_, fun p place e reply s overtaken replied => ?_⟩
  · have next : exec (.requestCompletion p .current) s =
        .next (s.putPort p { s.port p with state := .ready ⟨e.tag, e.code, reply⟩ }) := by
      refine congrArg Host.Outcome.next ?_
      dsimp only
      rw [completeCurrent, executing]
      dsimp only
      rw [replied]
    refine ⟨_, next, by rw [port_putPort, if_pos rfl], ?_, Frame.putPort _ _ _⟩
    rw [attn_val, attn_putPort, if_pos rfl]
    simp [attnLow, slotFull]
  · have next : exec (.requestCompletion p (.overtaken place)) s =
        .next (s.putPort p { s.port p with overtaken := (s.port p).overtaken.eraseIdx place }) := by
      refine congrArg Host.Outcome.next ?_
      dsimp only
      rw [completeOvertaken, overtaken]
      dsimp only
      rw [replied]
    refine ⟨_, next, by rw [port_putPort, if_pos rfl], fun agrees => ?_, Frame.putPort _ _ _⟩
    rw [attn_val, attn_putPort, if_pos rfl, agrees p]
    rfl

end Sys2Proof.Machine

/-! PROOFS. The link: the falling edge, status polls, read responses and the frames that are not taken. -/

namespace Sys2Proof.Machine

set_option Elab.async false

/-! ### The falling edge (R170, R171) -/

/-- Six flags and a two-bit code in a byte, from bit 7 down. -/
def packedFlags (a b c d e : Bool) (code : BitVec 2) (f : Bool) : Byte :=
  BitVec.ofBool a ++ BitVec.ofBool b ++ BitVec.ofBool c ++ BitVec.ofBool d ++ BitVec.ofBool e ++ code ++ BitVec.ofBool f

theorem packedFlags_bits : ∀ (a b c d e : Bool) (code : BitVec 2) (f : Bool),
    (packedFlags a b c d e code f).getLsbD 7 = a ∧ (packedFlags a b c d e code f).getLsbD 6 = b ∧
    (packedFlags a b c d e code f).getLsbD 5 = c ∧ (packedFlags a b c d e code f).getLsbD 4 = d ∧
    (packedFlags a b c d e code f).getLsbD 3 = e ∧ (packedFlags a b c d e code f).extractLsb' 1 2 = code ∧
    (packedFlags a b c d e code f).getLsbD 0 = f := by decide

/-- The bits of the status byte (Table 10-5). -/
theorem statusByte_bits (s : State) (p : Port) :
    (statusByte s p).getLsbD 7 = slotFull (s.port p).state ∧ (statusByte s p).getLsbD 6 = isExecuting (s.port p).state ∧
    (statusByte s p).getLsbD 5 = (s.port p).busyDrop ∧ (statusByte s p).getLsbD 4 = (s.port p).frameError ∧
    (statusByte s p).getLsbD 3 = (!(s.queue p).records.isEmpty) ∧
    (statusByte s p).extractLsb' 1 2 = deviceStateCode s.device ∧
    (statusByte s p).getLsbD 0 = isAttached (s.session p).state :=
  packedFlags_bits _ _ _ _ _ _ _

theorem slotFull_iff (x : PortState) : slotFull x = true ↔ ∃ r, x = .ready r := by
  cases x <;> simp [slotFull]

theorem isExecuting_iff (x : PortState) : isExecuting x = true ↔ ∃ e, x = .executing e := by
  cases x <;> simp [isExecuting]

theorem isAttached_iff (x : SessionState) : isAttached x = true ↔ ∃ a, x = .attached a := by
  cases x <;> simp [isAttached]

theorem chipSelectFalls_recognised {p : Port} {s : State} (ended : s.resetting = none)
    (closed : (s.port p).transaction = none) :
    chipSelectFalls p s = s.putPort p { s.port p with transaction := some ⟨statusByte s p, s.device = .starting⟩ } := by
  rw [chipSelectFalls, if_neg (by simp [ended, closed])]

/-- A port that changes but for its state keeps its attention output. -/
theorem attn_putPort_agrees {s : State} {p : Port} {x : PortInterface} (same : x.state = (s.port p).state)
    (agrees : AttnAgrees s) : (s.putPort p x).attn[p] = s.attn[p] := by
  rw [attn_val, attn_putPort, if_pos rfl, agrees p, attnLow, attnLow, same]

/-- Settles O29: every transaction command is a transaction of its port (`exec_linked`), and the status byte is formed at
the falling edge. -/
theorem fallingEdgeLatchesStatus : Obligations.FallingEdgeLatchesStatus := by
  refine ⟨fun c p s linked ended closed settled => ?_, fun c p s t linked fall => ?_, fun c p s linked settled => ?_⟩
  all_goals obtain ⟨act, _, all⟩ := exec_linked linked
  · have falls : exec (spanned .fall c) s = .next (s.putPort p
        { s.port p with transaction := some ⟨statusByte s p, s.device = .starting⟩ }) := by
      rw [all, transaction_fall, finishTicks_of_settled settled, chipSelectFalls_recognised ended closed]
    obtain ⟨ready, executing, busyDrop, frameError, events, device, attached⟩ := statusByte_bits s p
    refine ⟨_, statusByte s p, falls, by rw [port_putPort, if_pos rfl], sdoPin_of_closed closed, ?_, ?_, ?_, busyDrop,
      frameError, ?_, device, ?_, attn_putPort_agrees rfl, Frame.putPort _ _ _⟩
    · rw [port_putPort, if_pos rfl]
      rfl
    · rw [ready, slotFull_iff]
    · rw [executing, isExecuting_iff]
    · rw [events]
      simp
    · rw [attached, isAttached_iff]
      rfl
  · rw [all, Host.Outcome.next.injEq] at fall
    rw [all, all, transaction_whole, fall]
  · refine ⟨fun opened => ?_, fun closed => ?_, fun resetting closed span => ?_⟩
    · rw [all, transaction_fall, finishTicks_of_settled settled, chipSelectFalls_ignored (.inr opened)]
    · rw [all, transaction, finishTicks_of_settled settled, finishTransaction_closed closed]
    · rw [all, transaction_ignored resetting closed, finishTicks_of_settled settled]

/-! ### What is shifted out -/

@[simp] theorem length_shiftedOut (clocks : Nat) (bytes : List Byte) : (shiftedOut clocks bytes).length = clocks := by
  simp [shiftedOut]

@[simp] theorem length_bitsOfByte (b : Byte) : (bitsOfByte b).length = 8 := rfl

/-- The status byte comes first, MSB first (R170). -/
theorem take_shiftedOut (clocks : Nat) (status : Byte) (bytes : List Byte) :
    (shiftedOut clocks (status :: bytes)).take 8 = (bitsOfByte status).take clocks := by
  rw [shiftedOut, List.take_take, Nat.min_comm, ← List.take_take, List.flatMap_cons, List.append_assoc]
  rw [show List.take 8 _ = bitsOfByte status from List.take_left' rfl]

/-- Behind the bytes come ones (R170). -/
theorem getElem?_shiftedOut_status {clocks k : Nat} (within : k < clocks) (status : Byte) :
    (shiftedOut clocks [status])[k]? = some (if k < 8 then status.getLsbD (7 - k) else true) := by
  have bits : [status].flatMap bitsOfByte = bitsOfByte status := by simp
  rw [shiftedOut, bits, List.getElem?_take_of_lt within]
  split
  · next first =>
    rw [List.getElem?_append_left (by simpa using first)]
    obtain rfl | rfl | rfl | rfl | rfl | rfl | rfl | rfl :
      k = 0 ∨ k = 1 ∨ k = 2 ∨ k = 3 ∨ k = 4 ∨ k = 5 ∨ k = 6 ∨ k = 7 := by omega
    all_goals rfl
  · next later =>
    rw [List.getElem?_append_right (by simpa using later), List.getElem?_replicate, if_pos (by simp; omega)]

theorem pollPart_opened {p : Port} {s : State} {span : Span} {o : OpenTransaction} (opened : Opened p s span o)
    (clocks : Nat) : transaction p span (pollPart p clocks) s = arrived p (shiftedOut clocks [o.status]) s := by
  rw [transaction_opened opened, pollPart, driveSdo_closed]

/-- Settles O30, by `pollPart_opened`. -/
theorem statusPollChangesNothing : Obligations.StatusPollChangesNothing := by
  intro p clocks span o s opened
  have next : exec (.statusPoll p clocks span) s = .next (arrived p (shiftedOut clocks [o.status]) s) :=
    congrArg Host.Outcome.next (pollPart_opened opened clocks)
  have port := port_arrived p (shiftedOut clocks [o.status]) s
  refine ⟨_, next, by rw [port], by rw [port]; exact sdoPin_of_closed rfl, by rw [port]; exact length_shiftedOut _ _,
    fun k within => ?_, attn_arrived_agrees p _ s, Frame.arrived p _ s⟩
  rw [port]
  exact getElem?_shiftedOut_status within o.status

/-! ### Read responses (R177, R178) -/

theorem length_responseBytes (r : Response) : (responseBytes r).length = 5 + r.reply.payload.length := by
  simp [responseBytes]
  omega

theorem readPart_ready {p : Port} {s : State} {span : Span} {o : OpenTransaction} {clocks : Nat} {r : Response}
    (opened : Opened p s span o) (started : o.starting = false) (kind : 8 ≤ clocks) (ready : (s.port p).state = .ready r) :
    transaction p span (readPart p clocks) s =
      if 8 * (1 + (5 + r.reply.payload.length)) ≤ clocks then
        s.putPort p { s.port p with
          state := .idle, transaction := none, sdo := shiftedOut clocks (o.status :: responseBytes r) }
      else arrived p (shiftedOut clocks (o.status :: responseBytes r)) s := by
  have state : ((s.putPort p { s.port p with transaction := none }).port p).state = .ready r := by
    rw [port_putPort, if_pos rfl]
    exact ready
  rw [transaction_opened opened, readPart, if_neg (by omega), readBytes, state]
  simp only [started, Bool.not_false, Bool.true_and, Bool.false_eq_true, if_false, decide_eq_true_eq, driveSdo_closed,
    length_responseBytes, port_arrived]
  rw [arrived, putPort_putPort]

theorem readPart_other {p : Port} {s : State} {span : Span} {o : OpenTransaction} {clocks : Nat}
    (opened : Opened p s span o) (kind : 8 ≤ clocks) (other : ∀ r, (s.port p).state ≠ .ready r) :
    transaction p span (readPart p clocks) s = arrived p (shiftedOut clocks (o.status :: emptyFrame)) s := by
  have state : ((s.putPort p { s.port p with transaction := none }).port p).state = (s.port p).state := by
    rw [port_putPort, if_pos rfl]
  rw [transaction_opened opened, readPart, if_neg (by omega), readBytes, state]
  cases its : (s.port p).state with
  | ready r => exact absurd its (other r)
  | idle => exact driveSdo_closed p clocks _ s
  | executing e => exact driveSdo_closed p clocks _ s

/-- Settles O31, by `readPart_ready` and `readPart_other`. -/
theorem readResponseDeliversOnce : Obligations.ReadResponseDeliversOnce := by
  intro p clocks span o s opened started kind
  refine ⟨fun r ready => ?_, fun other => ?_⟩
  · have next : exec (.readResponse p clocks span) s = .next (transaction p span (readPart p clocks) s) := rfl
    rw [readPart_ready opened started kind ready] at next
    by_cases complete : 8 * (1 + (5 + r.reply.payload.length)) ≤ clocks
    · rw [if_pos complete] at next
      have port := port_putPort_self s p { s.port p with
        state := .idle, transaction := none, sdo := shiftedOut clocks (o.status :: responseBytes r) }
      refine ⟨_, next, by rw [port]; rfl, fun _ => ⟨by rw [port], ?_⟩, fun short => absurd complete (by omega),
        by rw [port]; exact sdoPin_of_closed rfl, Frame.putPort _ _ _⟩
      rw [attn_val, attn_putPort, if_pos rfl]
      simp [attnLow, slotFull]
    · rw [if_neg complete] at next
      have port := port_arrived p (shiftedOut clocks (o.status :: responseBytes r)) s
      exact ⟨_, next, by rw [port]; rfl, fun whole => absurd whole complete, fun _ => by rw [port],
        by rw [port]; exact sdoPin_of_closed rfl, Frame.arrived p _ s⟩
  · have next : exec (.readResponse p clocks span) s = .next (arrived p (shiftedOut clocks (o.status :: emptyFrame)) s) :=
      congrArg Host.Outcome.next (readPart_other opened kind other)
    have port := port_arrived p (shiftedOut clocks (o.status :: emptyFrame)) s
    exact ⟨_, next, by rw [port]; rfl, by rw [port]; exact sdoPin_of_closed rfl, attn_arrived_agrees p _ s,
      Frame.arrived p _ s⟩

/-! ### Frames that are not taken -/

/-- The part with the free values numbered on. -/
def State.numbered (s : State) (n : Nat) : State := { s with freeCount := n }

theorem driveSdo_numbered (p : Port) (clocks : Nat) (bytes : List Byte) (s : State) (n : Nat) :
    driveSdo p clocks bytes { s.putPort p { s.port p with transaction := none } with freeCount := n } =
      arrived p (shiftedOut clocks bytes) (s.numbered n) :=
  driveSdo_closed p clocks bytes (s.numbered n)

/-- A frame in error, in a transaction that is not a STARTING one, sets the flag (R173). -/
theorem errorPart_arrived {o : OpenTransaction} (started : o.starting = false) (p : Port) (bits : List Bool) (s : State) :
    errorPart p o (arrived p bits s) =
      s.putPort p { s.port p with frameError := true, transaction := none, sdo := bits } := by
  rw [errorPart, started]
  simp only [Bool.false_eq_true, if_false, flagFrameError, port_arrived]
  rw [arrived, putPort_putPort]

theorem wirePart_malformed {p : Port} {w : Wire} {o : OpenTransaction} {span : Span} {s : State} (opened : Opened p s span o)
    (started : o.starting = false) (malformed : wireMalformed w = true) :
    ∃ bytes n, transaction p span (wirePart p w) s = (s.numbered n).putPort p
        { s.port p with frameError := true, transaction := none, sdo := shiftedOut (clocksOf w) (o.status :: bytes) } ∧
      (kindOf w.bytes = .request → bytes = []) := by
  rw [transaction_opened opened, wirePart]
  unfold wireMalformed at malformed
  split at malformed
  · next kind =>
    rw [kind]
    refine ⟨(List.range w.bytes.length).map (Config.unnamedByte s.freeCount), s.freeCount + 1, ?_, nofun⟩
    dsimp only
    rw [unnamedPart, driveSdo_numbered, errorPart_arrived started]
    rfl
  · next kind =>
    rw [kind]
    refine ⟨[], s.freeCount, ?_, fun _ => rfl⟩
    dsimp only
    rw [Option.isNone_iff_eq_none.mp malformed]
    dsimp only
    rw [driveSdo_closed, errorPart_arrived started]
    rfl
  · cases malformed
  · cases malformed

/-- A request frame other than PORT RESET meets a port that is not IDLE (R174). -/
theorem frameArrives_busy {service : Nat → Port → List Byte → State → Served} {p : Port} {frame : RequestFrame} {s : State}
    (busy : (s.port p).state ≠ .idle) (bits : List Bool) :
    frameArrives service p frame (arrived p bits s) =
      s.putPort p { s.port p with busyDrop := true, transaction := none, sdo := bits } := by
  have state : ((arrived p bits s).port p).state = (s.port p).state := by rw [port_arrived]
  have flagged : flagBusyDrop p (arrived p bits s) =
      s.putPort p { s.port p with busyDrop := true, transaction := none, sdo := bits } := by
    rw [flagBusyDrop, port_arrived, arrived, putPort_putPort]
  rw [frameArrives, state]
  cases its : (s.port p).state with
  | idle => exact absurd its busy
  | executing e => exact flagged
  | ready r => exact flagged

/-- Settles O32, by `wirePart_malformed` and `frameArrives_busy`. -/
theorem lostFramesSetOneFlag : Obligations.LostFramesSetOneFlag := by
  refine ⟨fun p wire span o s opened started malformed => ?_,
    fun p code tag payload span o s opened started fits other busy => ?_⟩
  · obtain ⟨bytes, n, flagged, request⟩ := wirePart_malformed opened started malformed
    have next : exec (.frameError p wire span) s = .next _ := congrArg Host.Outcome.next flagged
    have port := port_putPort_self (s.numbered n) p { s.port p with
      frameError := true, transaction := none, sdo := shiftedOut (clocksOf wire) (o.status :: bytes) }
    refine ⟨_, next, by rw [port], fun kind => ?_, by rw [port]; exact sdoPin_of_closed rfl,
      attn_putPort_agrees (s := s.numbered n) rfl, Frame.putPort _ _ _⟩
    rw [port, request kind]
    rfl
  · have next : exec (.busyDrop p code tag payload span) s = .next _ := congrArg Host.Outcome.next
      (framePart_opened opened started anyFrameArrives ⟨code, tag, payload⟩ fits)
    rw [anyFrameArrives, if_neg other, frameArrives_busy busy, clocksOf_encodeFrame] at next
    have port := port_putPort_self s p { s.port p with
      busyDrop := true, transaction := none, sdo := shiftedOut (8 * (5 + payload.length)) [o.status] }
    exact ⟨_, next, port, by rw [port]; exact sdoPin_of_closed rfl, attn_putPort_agrees rfl, Frame.putPort _ _ _⟩

/-! ### STARTING transactions (R185) -/

/-- What a STARTING transaction leaves, whatever it carries. -/
theorem starting_arrived {p : Port} {act : OpenTransaction → State → State} {o : OpenTransaction} {span : Span} {s : State}
    (rest : RestOf p act) (opened : Opened p s span o) (starting : o.starting = true) :
    ∃ bits n, transaction p span act s = arrived p bits (s.numbered n) := by
  obtain ⟨clocks, bytes, n, acts⟩ := rest.starting o (s.putPort p { s.port p with transaction := none }) starting
  exact ⟨_, n, by rw [transaction_opened opened, acts, driveSdo_numbered]⟩

theorem kindOf_read_iff (bytes : List Byte) : kindOf bytes = .read ↔ bytes.head? = some 0xA5#8 := by
  cases bytes with
  | nil => simp [kindOf]
  | cons k rest =>
    rw [List.head?_cons, Option.some.injEq, kindOf]
    constructor
    · intro kind
      split at kind
      · cases kind
      · split at kind
        · next its => exact its
        · split at kind <;> cases kind
    · rintro rfl
      rfl

/-- The bytes behind the status byte in a STARTING transaction: the empty frame of a read response, none otherwise. -/
theorem wirePart_starting {p : Port} {w : Wire} {o : OpenTransaction} {span : Span} {s : State} (opened : Opened p s span o)
    (starting : o.starting = true) :
    ∃ bytes n, transaction p span (wirePart p w) s =
        arrived p (shiftedOut (clocksOf w) (o.status :: bytes)) (s.numbered n) ∧
      (kindOf w.bytes ≠ .unnamed → bytes = if w.bytes.head? = some 0xA5#8 then emptyFrame else []) := by
  rw [transaction_opened opened, wirePart]
  cases kind : kindOf w.bytes with
  | poll =>
    exact ⟨[], s.freeCount, driveSdo_closed p _ _ s, fun _ => (if_neg fun head => by
      cases kind.symm.trans ((kindOf_read_iff _).mpr head)).symm⟩
  | read =>
    have head := (kindOf_read_iff _).mp kind
    have clocks : ¬ clocksOf w < 8 := by
      cases bytes : w.bytes with
      | nil => simp [bytes] at head
      | cons k rest =>
        rw [clocksOf, bytes, List.length_cons]
        omega
    refine ⟨emptyFrame, s.freeCount, ?_, fun _ => (if_pos head).symm⟩
    rw [readPart, if_neg clocks, readBytes]
    cases state : ((s.putPort p { s.port p with transaction := none }).port p).state with
    | idle => exact driveSdo_closed p _ _ s
    | executing e => exact driveSdo_closed p _ _ s
    | ready r =>
      simp only [starting, if_true, Bool.not_true, Bool.false_and, Bool.false_eq_true, if_false]
      exact driveSdo_closed p _ _ s
  | unnamed =>
    refine ⟨(List.range w.bytes.length).map (Config.unnamedByte s.freeCount), s.freeCount + 1, ?_,
      fun named => absurd rfl named⟩
    dsimp only
    rw [unnamedPart, driveSdo_numbered, errorPart, if_pos starting]
    rfl
  | request =>
    refine ⟨[], s.freeCount, ?_, fun _ => ?_⟩
    · dsimp only
      split
      · rw [requestFrame, if_pos starting]
        exact driveSdo_closed p _ _ s
      · rw [errorPart, if_pos starting]
        exact driveSdo_closed p _ _ s
    · exact (if_neg fun head => by cases kind.symm.trans ((kindOf_read_iff _).mpr head)).symm

/-- Settles O33, by `wirePart_starting` and `starting_arrived`. -/
theorem startingTransactionDiscarded : Obligations.StartingTransactionDiscarded := by
  refine ⟨fun p wire span o s opened starting => ?_, fun c p span o s linked opened starting => ?_⟩
  · obtain ⟨bytes, n, discarded, named⟩ := wirePart_starting (w := wire) opened starting
    have next : exec (.startingTransaction p wire span) s = .next _ := congrArg Host.Outcome.next discarded
    have port := port_arrived p (shiftedOut (clocksOf wire) (o.status :: bytes)) (s.numbered n)
    refine ⟨_, next, by rw [port]; exact length_shiftedOut _ _, ?_, fun kind => ?_, by rw [port]; rfl,
      by rw [port]; exact sdoPin_of_closed rfl, attn_arrived_agrees p _ (s.numbered n), Frame.arrived p _ _⟩
    · rw [port]
      dsimp only
      rw [length_shiftedOut, take_shiftedOut]
    · rw [port, named kind]
      dsimp only
      split <;> rfl
  · obtain ⟨act, rest, all⟩ := exec_linked linked
    obtain ⟨bits, n, discarded⟩ := starting_arrived rest opened starting
    have port := port_arrived p bits (s.numbered n)
    exact ⟨_, by rw [all, discarded], by rw [port]; rfl, by rw [port]; exact sdoPin_of_closed rfl,
      attn_arrived_agrees p _ (s.numbered n), Frame.arrived p _ _⟩

/-! ### UNKNOWN (R175) -/

/-- Settles O34: the frame is taken, and its service refuses it. -/
theorem unknownCodeAnswered : Obligations.UnknownCodeAnswered := by
  intro p code tag payload span s unnamed takes
  obtain ⟨o, opened, started⟩ := takes.recognised
  have other : code ≠ requestCode .portReset := by
    rintro rfl
    rw [requestOf_requestCode] at unnamed
    cases unnamed
  have served : serveCode code = fun _ _ _ s => refuse s .unknown := by
    funext found q bytes u
    rw [serveCode, unnamed]
  have next : exec (.unknown p code tag payload span) s = .next _ := congrArg Host.Outcome.next
    (framePart_opened opened started anyFrameArrives ⟨code, tag, payload⟩ takes.fits)
  rw [anyFrameArrives, if_neg other, clocksOf_encodeFrame, status_of_opened opened] at next
  refine ⟨_, next, ?_⟩
  have arrives : frameArrives (serveCode code) p ⟨code, tag, payload⟩ (arrived p (frameBits p payload s) s) =
      takeRequest (serveCode code) p ⟨code, tag, payload⟩ (arrived p (frameBits p payload s) s) := by
    simp only [frameArrives, port_arrived, takes.idle]
  have state : frameArrives (serveCode code) p ⟨code, tag, payload⟩ (arrived p (frameBits p payload s) s) =
      placed p ⟨code, tag, payload⟩ (begun p (frameBits p payload s) s, some ⟨.unknown, []⟩) := by
    rw [arrives, takeRequest_arrived, served]
    rfl
  exact state ▸ dismissed_placed (frame := ⟨code, tag, payload⟩)

end Sys2Proof.Machine

/-! PROOFS. What holds of every request: the length, the session state and the device state come first, and its taking
restarts the lease. -/

namespace Sys2Proof.Machine

set_option Elab.async false

/-! ### The checks before a request's own -/

/-- A payload of a length the request does not have is refused, with nothing changed (R175). -/
theorem serve_wrongLength {r : Request} (other : r ≠ .portReset) {payload : List Byte}
    (wrong : lengthFits r payload.length = false) (found : Nat) (p : Port) (s : State) :
    serve r found p payload s = (s, some ⟨.badArg, []⟩) := by
  cases r with
  | portReset => exact absurd rfl other
  | detach | renew | querySelf | queryDevice | discard | commit | sample | openEdit | burnImage | closeEdit =>
    cases payload with
    | nil => cases wrong
    | cons => rfl
  | writeImage =>
    cases payload with
    | nil => rfl
    | cons => simp [lengthFits] at wrong
  | release | cancel | queryLine | unstage | fetchEvents =>
    obtain _ | ⟨a, _ | ⟨b, rest⟩⟩ := payload
    case cons.nil => cases wrong
    all_goals rfl
  | stage =>
    obtain _ | ⟨a, _ | ⟨b, _ | ⟨c, rest⟩⟩⟩ := payload
    case cons.cons.nil => cases wrong
    all_goals rfl
  | attach | readImage =>
    obtain _ | ⟨a, _ | ⟨b, _ | ⟨c, _ | ⟨d, rest⟩⟩⟩⟩ := payload
    case cons.cons.cons.nil => cases wrong
    all_goals rfl
  | pulse | watch =>
    obtain _ | ⟨a, _ | ⟨b, _ | ⟨c, _ | ⟨d, _ | ⟨e, rest⟩⟩⟩⟩⟩ := payload
    case cons.cons.cons.cons.nil => cases wrong
    all_goals rfl
  | claim =>
    obtain _ | ⟨a, _ | ⟨b, _ | ⟨c, _ | ⟨d, _ | ⟨e, _ | ⟨f, _ | ⟨g, rest⟩⟩⟩⟩⟩⟩⟩ := payload
    case cons.cons.cons.cons.cons.cons.nil => cases wrong
    all_goals rfl

theorem sessionRefusal_eq_some {s : State} {p : Port} {x : Result} :
    sessionRefusal s p = some x ↔
      (s.session p).state = .detached ∧ x = .noSession ∨ (s.session p).state = .lapsed ∧ x = .lapsed := by
  unfold sessionRefusal
  cases (s.session p).state <;> simp [eq_comm]

/-- A request that needs an ATTACHED session is refused without one (R125); CLAIM reports the line as requested (R33). -/
theorem serve_unattached {r : Request} (needs : needsSession r = true) {payload : List Byte}
    (fits : lengthFits r payload.length = true) (found : Nat) {p : Port} {s : State} {x : Result}
    (refusal : sessionRefusal s p = some x) :
    serve r found p payload s = (s, some ⟨x, if r = .claim then payload.take 1 else []⟩) := by
  cases r with
  | attach | detach | querySelf | queryDevice | portReset | openEdit | writeImage | readImage | burnImage | closeEdit =>
    cases needs
  | renew =>
    obtain rfl : payload = [] := List.length_eq_zero_iff.mp (by simpa [lengthFits] using fits)
    obtain ⟨state, rfl⟩ | ⟨state, rfl⟩ := sessionRefusal_eq_some.mp refusal
    · rw [serve, serveRenew, state]
      rfl
    · rw [serve, serveRenew, state]
      rfl
  | claim =>
    obtain ⟨l, m, v, f, hi, lo, rfl⟩ : ∃ l m v f hi lo, [l, m, v, f, hi, lo] = payload := by
      simpa [lengthFits, List.length_eq_succ_iff] using fits
    obtain ⟨state, rfl⟩ | ⟨state, rfl⟩ := sessionRefusal_eq_some.mp refusal
    · simp only [serve, serveClaim, claimArgs, claimVerdict, state]
      rfl
    · simp only [serve, serveClaim, claimArgs, claimVerdict, state]
      rfl
  | discard | commit | sample =>
    obtain rfl : payload = [] := List.length_eq_zero_iff.mp (by simpa [lengthFits] using fits)
    simp only [serve, serveDiscard, serveCommit, serveSample, refusal]
    rfl
  | release | cancel | queryLine | unstage | fetchEvents =>
    obtain ⟨b, rfl⟩ := List.length_eq_one_iff.mp (show payload.length = 1 by simpa [lengthFits] using fits)
    simp only [serve, serveRelease, serveCancel, serveQueryLine, serveUnstage, serveFetchEvents, refusal]
    rfl
  | stage =>
    obtain ⟨b, v, rfl⟩ := List.length_eq_two.mp (show payload.length = 2 by simpa [lengthFits] using fits)
    simp only [serve, serveStage, refusal]
    rfl
  | pulse | watch =>
    obtain ⟨b, v, hi, lo, rfl⟩ := List.length_eq_four.mp (show payload.length = 4 by simpa [lengthFits] using fits)
    simp only [serve, servePulse, pulseArgs, pulseVerdict, serveWatch, watchArgs, refusal]
    rfl

/-- The editing requests are refused to a LAPSED session and outside MAINTENANCE (R161). -/
theorem serve_editingRefusal {r : Request} (edits : r ∈ [Request.openEdit, .writeImage, .burnImage, .closeEdit])
    {payload : List Byte} (fits : lengthFits r payload.length = true) (found : Nat) {p : Port} {s : State} {x : Result}
    (refusal : editingRefusal s p = some x) : serve r found p payload s = (s, some ⟨x, []⟩) := by
  simp only [List.mem_cons, List.not_mem_nil, or_false] at edits
  obtain rfl | rfl | rfl | rfl := edits
  case inr.inl =>
    cases payload with
    | nil => cases fits
    | cons =>
      simp only [serve, serveWriteImage, refusal]
      rfl
  all_goals
    obtain rfl : payload = [] := List.length_eq_zero_iff.mp (by simpa [lengthFits] using fits)
    simp only [serve, serveOpenEdit, serveBurnImage, serveCloseEdit, refusal]
    rfl

theorem serve_readingRefusal {payload : List Byte} (fits : lengthFits .readImage payload.length = true) (found : Nat)
    {p : Port} {s : State} {x : Result} (refusal : readingRefusal s p = some x) :
    serve .readImage found p payload s = (s, some ⟨x, []⟩) := by
  obtain ⟨a, b, c, rfl⟩ := List.length_eq_three.mp (show payload.length = 3 by simpa [lengthFits] using fits)
  simp only [serve, serveReadImage, readArgs, refusal]
  rfl

theorem editingRefusal_of_lapsed {s : State} {p : Port} (lapsed : (s.session p).state = .lapsed) :
    editingRefusal s p = some .lapsed ∧ readingRefusal s p = some .lapsed := by
  simp [editingRefusal, readingRefusal, lapsed]

theorem editingRefusal_of_device {s : State} {p : Port} (session : (s.session p).state ≠ .lapsed)
    (device : s.device = .operating ∨ s.device = .faulted) : editingRefusal s p = some .notMaintenance := by
  unfold editingRefusal
  obtain device | device := device
  all_goals
    rw [device]
    cases state : (s.session p).state with
    | lapsed => exact absurd state session
    | attached => rfl
    | detached => rfl

/-- The state of a session that is not ATTACHED, as the service of its request finds it. -/
theorem state_begun {p : Port} {s : State} (bits : List Bool) (away : isAttached (s.session p).state = false) :
    ((begun p bits s).session p).state = (s.session p).state := by
  rw [session_begun, session_restartLease_unattached away]

theorem lapsed_begun (p : Port) (bits : List Bool) (s : State) :
    ((begun p bits s).session p).state = .lapsed ↔ (s.session p).state = .lapsed := by
  rw [session_begun, session_restartLease_self]
  cases state : (s.session p).state <;> simp [state]

/-- Settles O35, by the lemmas on each of these refusals. -/
theorem refusedBeforeOwnChecks : Obligations.RefusedBeforeOwnChecks := by
  intro r p tag payload span s other takes
  refine ⟨fun wrong => exec_dismissed takes r other tag fun bits => serve_wrongLength other wrong _ p _,
    fun fits needs => ⟨fun detached => ?_, fun lapsed => ?_⟩,
    fun fits profile => ⟨fun lapsed => ?_, fun session reads device => ?_⟩⟩
  · refine exec_dismissed takes r other tag fun bits =>
      serve_unattached needs fits _ (sessionRefusal_eq_some.mpr (.inl ⟨?_, rfl⟩))
    rw [state_begun bits (by rw [detached]; rfl), detached]
  · refine exec_dismissed takes r other tag fun bits =>
      serve_unattached needs fits _ (sessionRefusal_eq_some.mpr (.inr ⟨?_, rfl⟩))
    rw [state_begun bits (by rw [lapsed]; rfl), lapsed]
  · refine exec_dismissed takes r other tag fun bits => ?_
    have found : ((begun p bits s).session p).state = .lapsed := by
      rw [state_begun bits (by rw [lapsed]; rfl), lapsed]
    obtain ⟨editing, reading⟩ := editingRefusal_of_lapsed found
    by_cases reads : r = .readImage
    · subst reads
      exact serve_readingRefusal fits _ reading
    · exact serve_editingRefusal (by simp_all) fits _ editing
  · refine exec_dismissed takes r other tag fun bits => serve_editingRefusal (by simp_all) fits _ ?_
    exact editingRefusal_of_device (fun lapsed => session ((lapsed_begun p bits s).mp lapsed)) (by rwa [begun_device])

/-! ### The lease (R132) -/

/-- An ATTACHED session is opened anew by no request, and ended by DETACH and PORT RESET alone. -/
theorem session_serve {r : Request} (detach : r ≠ .detach) (found : Nat) {p : Port} (payload : List Byte) {s : State}
    {a : Attached} (attached : AttachedAs p a s) : (serve r found p payload s).1.session p = s.session p := by
  obtain ⟨renew, querySelf, queryDevice, queryLine, sample, readImage⟩ := effects_reports found p payload s
  cases r with
  | detach => exact absurd rfl detach
  | portReset => rfl
  | renew => exact congrArg (State.session · p) renew
  | querySelf => exact congrArg (State.session · p) querySelf
  | queryDevice => exact congrArg (State.session · p) queryDevice
  | queryLine => exact congrArg (State.session · p) queryLine
  | sample => exact congrArg (State.session · p) sample
  | readImage => exact congrArg (State.session · p) readImage
  | attach =>
    have refused (b : AttachArgs) : ∃ x, attachVerdict p b s = .error x := by
      unfold attachVerdict
      rw [show (s.session p).state = .attached a from attached]
      split
      · split <;> exact ⟨_, rfl⟩
      · exact ⟨_, rfl⟩
      · exact ⟨_, rfl⟩
    rw [serve, serveAttach]
    cases attachArgs payload with
    | none => rfl
    | some b =>
      obtain ⟨x, error⟩ := refused b
      dsimp only
      rw [error]
      rfl
  | claim =>
    rw [serve, serveClaim]
    split
    · rfl
    · split
      · rfl
      · unfold evaluateClaim contendClaim queueClaim
        repeat' split
        all_goals simp [claimGranted, answer]
  | openEdit | writeImage | closeEdit =>
    simp only [serve, serveOpenEdit, serveWriteImage, serveCloseEdit]
    repeat' split
    all_goals rfl
  | burnImage =>
    simp only [serve, serveBurnImage, burnSealed]
    repeat' split
    all_goals simp [refuse, answer, State.session]
  | release | cancel | stage | unstage | discard | commit | pulse | watch | fetchEvents =>
    simp only [serve, serveRelease, releaseLine, serveCancel, cancelLine, serveStage, stageLine, serveUnstage, unstageLine,
      serveDiscard, serveCommit, servePulse, serveWatch, serveFetchEvents, fetchRecords]
    repeat' split
    all_goals simp [refuse, answer]

/-- Settles O36: no service but DETACH touches the session its taking renewed. -/
theorem takingRestartsLease : Obligations.TakingRestartsLease := by
  intro r p tag payload span a s detach other takes attached
  refine ⟨_, exec_taken takes r other tag, ?_⟩
  have renewed := attachedAs_begun attached (frameBits p payload s)
  rw [placed, session_putPort, session_serve detach _ payload renewed, session_begun,
    session_restartLease_attached attached]
  rfl

end Sys2Proof.Machine

/-! PROOFS. Sessions: ATTACH, DETACH, RENEW, QUERY SELF, QUERY DEVICE and PORT RESET. -/

namespace Sys2Proof.Machine

set_option Elab.async false

/-! ### A taken request by its service -/

/-- A taken request whose service comes to this, with its port left alone. -/
theorem exec_served {p : Port} {span : Span} {payload : List Byte} {s : State} (takes : Takes p span payload s) {r : Request}
    (other : r ≠ .portReset) (tag : Byte) {served : Served}
    (serves : serve r (leaseFound p s) p payload (begun p (frameBits p payload s) s) = served)
    (port : served.1.port p = (begun p (frameBits p payload s) s).port p) :
    exec (requestInstr r p tag payload span) s = .next (placed p ⟨requestCode r, tag, payload⟩ served) ∧
      Took p (requestCode r) tag payload served.2 s (placed p ⟨requestCode r, tag, payload⟩ served) :=
  ⟨serves ▸ exec_taken takes r other tag, took_placed (frame := ⟨requestCode r, tag, payload⟩) port⟩

/-- What a taken request changes: its session, its port and what its service reaches. -/
theorem Frame.served {reach : Reach} {p : Port} {bits : List Bool} {s : State} {frame : RequestFrame} {served : Served}
    (own : Frame reach (Machine.begun p bits s) served.1)
    (within : Reach.Within { sessions := only p, ports := only p } reach := by constructor <;> simp) :
    Frame reach s (Machine.placed p frame served) :=
  ((Frame.begun p bits s).mono within).trans (own.trans (((Frame.placed p frame served).widen
    (r' := { sessions := only p, ports := only p })).mono within))

theorem session_placed (p : Port) (frame : RequestFrame) (served : Served) (q : Port) :
    (placed p frame served).session q = served.1.session q := by
  rw [placed, session_putPort]

/-- The session of a request that is not ATTACHED, as its service finds it. -/
theorem session_begun_away {p : Port} {s : State} (bits : List Bool) (away : isAttached (s.session p).state = false) :
    (begun p bits s).session p = s.session p := by
  rw [session_begun, session_restartLease_unattached away]

/-- A taken request of an ATTACHED session whose service comes to this: its port and its session, what changes from the
state before, and that beside the port nothing follows the service. -/
theorem exec_serviced {p : Port} {span : Span} {payload : List Byte} {a : Attached} {s : State}
    (takes : Takes p span payload s) (attached : AttachedAs p a s) {r : Request}
    (named : r ≠ .portReset ∧ r ≠ .attach ∧ r ≠ .detach) (tag : Byte) {served : Served}
    (serves : serve r (leaseFound p s) p payload (begun p (frameBits p payload s) s) = served) {reach : Reach}
    (own : Frame reach (begun p (frameBits p payload s) s) served.1)
    (within : Reach.Within { sessions := only p, ports := only p } reach := by constructor <;> simp) :
    ∃ t, exec (requestInstr r p tag payload span) s = .next t ∧ Attended p a r tag payload served.2 s t ∧
      Frame reach s t ∧ Frame { ports := only p } served.1 t := by
  subst serves
  obtain ⟨other, notAttach, notDetach⟩ := named
  obtain ⟨t, next, rfl, attended, frame⟩ := exec_attended takes attached r other notAttach notDetach tag
  exact ⟨_, next, attended, Frame.served own within, frame⟩

/-! ### ATTACH -/

theorem gradeByte_of_gradeOfByte {b : Byte} {g : Grade} (named : gradeOfByte b = some g) : gradeByte g = b := by
  unfold gradeOfByte at named
  split at named
  · next zero => cases named; exact zero.symm
  · split at named
    · next one => cases named; exact one.symm
    · split at named
      · next two => cases named; exact two.symm
      · cases named

/-- The checks of ATTACH in an OPERATING part (R129). -/
theorem attachVerdict_operating {p : Port} {s : State} {img : Image} (device : s.device = .operating)
    (active : s.active = some img) (a : AttachArgs) :
    attachVerdict p a s =
      if profileEnabled img p = false then .error .disabled
      else if isAttached (s.session p).state = true then .error .already
      else match gradeOfByte a.grade with
        | none => .error .badArg
        | some g =>
          if profileGradeCode img p < a.grade.toNat then .error .grade
          else .ok (g, grantedLease (profileLeaseFloor img) (profileLeaseCeiling img) a.lease.toNat) := by
  unfold attachVerdict
  rw [device, active]
  dsimp only
  cases profileEnabled img p with
  | false => rfl
  | true => cases (s.session p).state <;> rfl

theorem serveAttach_refused {p : Port} {g hi lo : Byte} {s : State} {x : Result}
    (error : attachVerdict p ⟨g, hi ++ lo⟩ s = .error x) : serveAttach p [g, hi, lo] s = (s, some ⟨x, []⟩) := by
  simp only [serveAttach, attachArgs, error]
  rfl

theorem serveAttach_opened {p : Port} {g hi lo : Byte} {s : State} {grade : Grade} {lease : Nat}
    (ok : attachVerdict p ⟨g, hi ++ lo⟩ s = .ok (grade, lease)) :
    serveAttach p [g, hi, lo] s = (s.setSession p (attachedSession grade lease (s.session p)),
      some ⟨.ok, [gradeByte grade] ++ wordBytes (BitVec.ofNat 16 lease) ++
        [(s.session p).epoch + 1, endReasonByte (s.session p).endReason] ++ wordBytes (s.stampAt .sessionTable)⟩) := by
  simp only [serveAttach, attachArgs, ok]
  rfl

/-- The granted lease by its four cases (R131). -/
theorem grantedLease_cases {floor ceiling : Nat} (ordered : floor ≤ ceiling) (positive : 1 ≤ floor) (n : Nat) :
    (n = 0 → grantedLease floor ceiling n = ceiling) ∧ (1 ≤ n → n < floor → grantedLease floor ceiling n = floor) ∧
    (floor ≤ n → n ≤ ceiling → grantedLease floor ceiling n = n) ∧
    (ceiling < n → grantedLease floor ceiling n = ceiling) := by
  unfold grantedLease
  refine ⟨fun zero => if_pos zero, fun some below => ?_, fun above within => ?_, fun beyond => ?_⟩
  · rw [if_neg (by omega), if_pos below]
  · rw [if_neg (by omega), if_neg (by omega), if_neg (by omega)]
  · rw [if_neg (by omega), if_neg (by omega), if_pos beyond]

/-- Settles O37, by the checks of ATTACH in their order (`attachVerdict_operating`). -/
theorem attachOpensSession : Obligations.AttachOpensSession := by
  refine ⟨fun p tag g hi lo span img grade s takes device active valid enabled away named permitted => ?_,
    fun p tag g hi lo span s takes => ?_⟩
  · have floor := (validFields valid).floor
    obtain ⟨zero, below, between, beyond⟩ := grantedLease_cases (validFields valid).ceiling (by omega) (hi ++ lo).toNat
    have session := session_begun_away (frameBits p [g, hi, lo] s) away
    have verdict := attachVerdict_operating (p := p) (s := begun p (frameBits p [g, hi, lo] s) s) (img := img)
      (by rwa [begun_device]) (by rwa [begun_active]) ⟨g, hi ++ lo⟩
    rw [if_neg (by simp [enabled]), if_neg (by simp [session, away])] at verdict
    dsimp only at verdict
    rw [named] at verdict
    dsimp only at verdict
    rw [if_neg (by omega)] at verdict
    have served := serveAttach_opened verdict
    rw [session, stampAt_begun, gradeByte_of_gradeOfByte named] at served
    obtain ⟨next, took⟩ := exec_served takes (r := .attach) nofun tag served (port_setSession _ _ _ _)
    refine ⟨_, _, next, ?_, zero, below, between, beyond, took, Frame.served (Frame.setSession _ p _).widen⟩
    rw [session_placed, session_setSession, if_pos rfl]
    rfl
  · intro refused
    have dismiss : ∀ {r}, (∀ bits, attachVerdict p ⟨g, hi ++ lo⟩ (begun p bits s) = .error r) → refused r :=
      fun error => exec_dismissed takes .attach nofun tag fun bits => serveAttach_refused (error bits)
    refine ⟨fun faulted => dismiss fun bits => ?_, fun maintenance => dismiss fun bits => ?_, fun device img active => ?_⟩
    · rw [attachVerdict, begun_device, faulted]
    · rw [attachVerdict, begun_device, maintenance]
    · have verdict := fun bits => attachVerdict_operating (p := p) (s := begun p bits s) (img := img)
        (by rwa [begun_device]) (by rwa [begun_active]) ⟨g, hi ++ lo⟩
      simp only [isAttached_begun] at verdict
      refine ⟨fun disabled => dismiss fun bits => ?_, fun enabled already => dismiss fun bits => ?_,
        fun enabled away => ⟨fun unnamed => dismiss fun bits => ?_, fun named above => dismiss fun bits => ?_⟩⟩
      · rw [verdict, if_pos disabled]
      · rw [verdict, if_neg (by simp [enabled]), if_pos already]
      · rw [verdict, if_neg (by simp [enabled]), if_neg (by simp [away]), unnamed]
      · obtain ⟨grade, named⟩ := Option.ne_none_iff_exists'.mp named
        rw [verdict, if_neg (by simp [enabled]), if_neg (by simp [away]), named]
        exact if_pos above

/-! ### DETACH -/

theorem serveDetach_attached {p : Port} {a : Attached} {s : State} (attached : (s.session p).state = .attached a) :
    serveDetach p [] s = (endSession p .detached .detached (teardown p s),
      some ⟨.ok, [(s.session p).epoch, 1, countByte (allLines.countP (s.holds p)),
        countByte (allLines.countP (s.waits p))]⟩) := by
  simp only [serveDetach, attached, detachReply, answer, session_endSession, session_teardown]
  rfl

theorem serveDetach_lapsed {p : Port} {s : State} (lapsed : (s.session p).state = .lapsed) :
    serveDetach p [] s = (endSession p .detached (s.session p).endReason s,
      some ⟨.ok, [(s.session p).epoch, endReasonByte (s.session p).endReason, 0, 0]⟩) := by
  simp only [serveDetach, lapsed, detachReply, answer, session_endSession]
  rfl

/-- A teardown by the service of a request, seen from the state before the request. -/
theorem TornDown.served {p : Port} {now : Stamp} {bits : List Bool} {s u : State} {frame : RequestFrame} {served : Served}
    (torn : TornDown p now (Machine.begun p bits s) u) (same : Frame { sessions := only p, ports := only p } u served.1) :
    TornDown p now s (Machine.placed p frame served) :=
  ((torn.before (Frame.begun p bits s)).after same).after (Frame.placed p frame served).widen

/-- Settles O38, by the teardown of a session (`tornDown_teardown`). -/
theorem detachEndsSession : Obligations.DetachEndsSession := by
  refine fun p tag span s takes => ⟨fun a attached => ?_, fun lapsed => ?_, fun detached => ?_⟩
  · have session := session_restartLease_attached attached
    rw [← session_begun p (frameBits p [] s)] at session
    have served := serveDetach_attached (attachedAs_begun attached (frameBits p [] s))
    rw [session, holds_begun, waits_begun] at served
    obtain ⟨next, took⟩ := exec_served takes (r := .detach) nofun tag served (by simp [endSession, State.port])
    refine ⟨_, next, ?_, ?_, took⟩
    · have torn := tornDown_teardown p (begun p (frameBits p [] s) s)
      rw [stampAt_begun] at torn
      exact torn.served (Frame.endSession p _ _ _).widen
    · rw [session_placed, session_endSession, session_teardown, session]
  · have session := session_begun_away (frameBits p [] s) (p := p) (s := s) (by simp [lapsed, isAttached])
    have served := serveDetach_lapsed (p := p) (s := begun p (frameBits p [] s) s) (by rw [session, lapsed])
    rw [session] at served
    obtain ⟨next, took⟩ := exec_served takes (r := .detach) nofun tag served (by simp [endSession, State.port])
    refine ⟨_, next, ?_, took, Frame.served (Frame.endSession p _ _ _).widen⟩
    rw [session_placed, session_endSession, session]
  · refine exec_dismissed takes .detach nofun tag fun bits => ?_
    have session := session_begun_away bits (p := p) (s := s) (by simp [detached, isAttached])
    simp only [serve, serveDetach, session, detached]
    rfl

/-! ### RENEW, QUERY SELF, QUERY DEVICE -/

/-- Settles O39: the service reads the length of the lease and the stamp. -/
theorem renewReportsLease : Obligations.RenewReportsLease := by
  intro p tag span a s takes attached
  have served : serveRenew p [] (begun p (frameBits p [] s) s) = (begun p (frameBits p [] s) s,
      some ⟨.ok, wordBytes (BitVec.ofNat 16 a.leaseLength) ++ wordBytes (s.stampAt .sessionTable)⟩) := by
    simp only [serveRenew, attachedAs_begun attached, stampAt_begun]
    rfl
  obtain ⟨_, next, attended, frame, -⟩ := exec_serviced takes attached (r := .renew) (by simp) tag served
    (Frame.refl { sessions := only p, ports := only p } _)
  exact ⟨_, next, attended, frame⟩

/-- The restart of the lease leaves what QUERY SELF reports beside the countdown. -/
theorem leaseReport_begun (p : Port) (bits : List Bool) (s : State) (found : Nat) :
    leaseReport found ((begun p bits s).session p).state = leaseReport found (s.session p).state := by
  rw [session_begun, session_restartLease_self]
  cases state : (s.session p).state <;> simp [state, leaseReport]

theorem sessionStateByte_begun (p : Port) (bits : List Bool) (s : State) :
    sessionStateByte ((begun p bits s).session p).state = sessionStateByte (s.session p).state := by
  rw [session_begun, session_restartLease_self]
  cases state : (s.session p).state <;> simp [state, sessionStateByte]

theorem leaseFound_attached {p : Port} {a : Attached} {s : State} (attached : AttachedAs p a s) :
    leaseFound p s = a.lease.remaining := by
  have part : s.attachedPart p = some a := by
    rw [State.attachedPart, attached]
  rw [leaseFound, part]

/-- Settles O40: the service reads the session context, with the countdown found before the restart of the lease. -/
theorem querySelfReportsContext : Obligations.QuerySelfReportsContext := by
  intro p tag span s takes
  refine exec_dismissed takes .querySelf nofun tag fun bits => ?_
  have epoch : ((begun p bits s).session p).epoch = (s.session p).epoch := by
    rw [session_begun, session_restartLease_self]; split <;> rfl
  have endReason : ((begun p bits s).session p).endReason = (s.session p).endReason := by
    rw [session_begun, session_restartLease_self]; split <;> rfl
  simp only [serve, serveQuerySelf, sessionStateByte_begun, leaseReport_begun, epoch, endReason, claimCount_begun,
    queue_begun, stagedSet_begun, holds_begun, waits_begun, pulses_begun, stampAt_begun, answer]
  cases state : (s.session p).state with
  | detached => rfl
  | lapsed => rfl
  | attached a => rw [leaseFound_attached state]; rfl

theorem wordBytes_append (hi lo : Byte) : wordBytes (hi ++ lo) = [hi, lo] := by
  simp only [wordBytes, List.cons.injEq, and_true]
  constructor
  · exact BitVec.eq_of_getLsbD_eq fun i within => by
      rw [BitVec.getLsbD_extractLsb', decide_eq_true within, Bool.true_and]
      exact BitVec.getLsbD_append.trans (by simp)
  · exact BitVec.eq_of_getLsbD_eq fun i within => by
      rw [BitVec.getLsbD_extractLsb', decide_eq_true within, Bool.true_and]
      exact BitVec.getLsbD_append.trans (by simp [within])

/-- Settles O41: the layout of Table 10-8, field by field. -/
theorem queryDeviceReportsStore : Obligations.QueryDeviceReportsStore := by
  intro p tag span s takes
  refine exec_dismissed takes .queryDevice nofun tag fun bits => ?_
  have code : ∀ active, tickCodeReport active = match active with | none => 0xFF#8 | some img => imageRead img 3 := by
    rintro (_ | img) <;> rfl
  have limits : ∀ active, limitsReport active = match active with
      | none => [0xFF#8, 0xFF#8, 0, 0, 0, 0]
      | some img =>
        [imageRead img 8, imageRead img 9, imageRead img 4, imageRead img 5, imageRead img 6, imageRead img 7] := by
    rintro (_ | img)
    · rfl
    · rw [limitsReport, imageWord, imageWord, wordBytes_append, wordBytes_append]
      rfl
  have slot : ∀ x, optionalSlotByte x = match x with | none => 0xFF#8 | some .a => 0 | some .b => 1 := by
    rintro (_ | _ | _) <;> rfl
  have lock : ∀ x, lockByte x = match x with
      | .free => 0x80#8 | .held q => BitVec.ofNat 8 q.val | .releasing => 0x81#8 := by
    rintro (_ | _ | _) <;> rfl
  have burn : ∀ x, burnByte x = match x with | none => 0 | some b => if b.target = .a then 1 else 2 := by
    rintro (_ | ⟨_ | _, _, _⟩) <;> rfl
  have last : ∀ x, lastBurnReport x = match x with
      | .none => [0, 0xFF#8, 0, 0]
      | .ok x g => [1, slotByte x] ++ wordBytes g
      | .failed x g => [2, slotByte x] ++ wordBytes g := by
    rintro (_ | _ | _) <;> rfl
  have timers : (begun p bits s).freeTimerCount = allTimers.countP fun x => (s.timer x).isNone := by
    simp only [State.freeTimerCount, timer_begun]
  simp only [serve, serveQueryDevice, slotReport, code, limits, slot, lock, burn, last, timers, begun_device,
    begun_active, begun_recordA, begun_recordB, begun_activeSlot, begun_lock, begun_burn, begun_lastBurn,
    State.stamp, begun_tickCount, answer, List.append_assoc]
  rfl

/-! ### PORT RESET -/

/-- The edit lock after a PORT RESET of a port (R160). -/
def lockAfterPortReset (p : Port) (s : State) : EditLock :=
  if s.lock = .held p then (if s.burn = none then .free else .releasing) else s.lock

/-- PORT RESET at the Profile Store acts on the edit lock alone (R160). -/
theorem portResetLock_eq (p : Port) (s : State) :
    portResetLock p s = { s with lock := lockAfterPortReset p s } := by
  unfold portResetLock isEditor lockAfterPortReset
  by_cases held : s.lock = .held p
  · rw [if_pos (decide_eq_true held), if_pos held]
    cases s.burn <;> rfl
  · rw [if_neg (by simpa using held), if_neg held]

theorem portResetSession_lock (p : Port) (s : State) : (portResetSession p s).lock = s.lock := by
  unfold portResetSession
  split <;> simp

theorem portResetSession_burn (p : Port) (s : State) : (portResetSession p s).burn = s.burn := by
  unfold portResetSession
  split <;> simp

theorem port_portResetSession (p q : Port) (s : State) : (portResetSession p s).port q = s.port q := by
  unfold portResetSession
  split <;> simp [State.port]

/-- PORT RESET at the Session Table (R141). -/
theorem session_portResetSession (p : Port) (s : State) :
    (portResetSession p s).session p = ⟨.detached, (s.session p).epoch,
      if (s.session p).state = .detached then (s.session p).endReason else .portReset⟩ := by
  unfold portResetSession
  split
  · next a attached => rw [session_endSession, session_teardown, attached, if_neg nofun]
  · next lapsed => rw [session_endSession, lapsed, if_neg nofun]
  · next detached => rw [if_pos detached, ← detached]

/-- The frame of PORT RESET where no session is torn down. -/
theorem Frame.portResetSession {p : Port} {s : State} (away : isAttached (s.session p).state = false) :
    Frame { sessions := only p } s (portResetSession p s) := by
  unfold Machine.portResetSession
  split
  · next a attached => rw [attached] at away; cases away
  · exact Frame.endSession p _ _ s
  · exact Frame.refl _ s

theorem portResetSession_attached {p : Port} {a : Attached} {s : State} (attached : AttachedAs p a s) :
    portResetSession p s = endSession p .detached .portReset (teardown p s) := by
  simp only [portResetSession]
  rw [attached]

/-- The edit lock has no part in a teardown. -/
theorem TornDown.withLock {p : Port} {now : Stamp} {s u : State} (torn : TornDown p now s u) (lock : EditLock) :
    TornDown p now { s with lock := lock } { u with lock := lock } where
  noRole := torn.noRole
  noClaims := torn.noClaims
  noTimer := torn.noTimer
  otherTimers := torn.otherTimers
  lines := torn.lines
  untouched := torn.untouched
  pads := torn.pads
  noStaged := torn.noStaged
  otherStaged := torn.otherStaged
  noWatch := torn.noWatch
  otherWatches := torn.otherWatches
  noRecords := torn.noRecords
  granted := torn.granted
  otherSessions := torn.otherSessions
  otherPorts := torn.otherPorts
  store := { torn.store with lock := rfl }
  time := { torn.time with }
  device := { torn.device with }
  filters := torn.filters

theorem Frame.withLock {r : Reach} {s u : State} (frame : Frame r s u) (lock : EditLock) :
    Frame r { s with lock := lock } { u with lock := lock } where
  blocks := { frame.blocks with }
  store := { frame.store with lock := rfl }
  time := { frame.time with }
  device := { frame.device with }
  filters := frame.filters

/-- The port after it took PORT RESET (R180, R181). -/
def portAfterReset (p : Port) (frame : RequestFrame) (s : State) : PortInterface :=
  { portExecuting frame (some ⟨.ok, [sessionStateByte (s.session p).state,
      endReasonByte ((portResetSession p s).session p).endReason,
      flagsByte (discards (s.port p)) (burnsFor p s)]⟩) (s.port p) with overtaken := overtake (s.port p) }

/-- PORT RESET at the Session Table, then at the edit lock, then at its port. -/
theorem takePortReset_eq (p : Port) (frame : RequestFrame) (s : State) :
    takePortReset p frame s =
      State.putPort { portResetSession p s with lock := lockAfterPortReset p s } p (portAfterReset p frame s) := by
  have lock : lockAfterPortReset p (portResetSession p s) = lockAfterPortReset p s := by
    rw [lockAfterPortReset, portResetSession_lock, portResetSession_burn, lockAfterPortReset]
  have port : (portResetLock p (portResetSession p s)).port p = s.port p := by
    rw [port_portResetLock, port_portResetSession]
  simp only [takePortReset, session_portResetLock, port]
  rw [portResetLock_eq, lock, portAfterReset]

theorem overtake_executing {x : PortInterface} {e : Executing} (executing : x.state = .executing e) :
    overtake x = x.overtaken ++ [e] := by
  rw [overtake, executing]

theorem overtake_other {x : PortInterface} (other : ∀ e, x.state ≠ .executing e) : overtake x = x.overtaken := by
  unfold overtake
  split
  · next e executing => exact absurd executing (other e)
  · rfl
  · rfl

/-- Settles O42, by `takePortReset_eq`. -/
theorem portResetReturnsPort : Obligations.PortResetReturnsPort := by
  intro p tag payload span o s opened started fits
  have opens := framePart_opened opened started takePortReset ⟨requestCode .portReset, tag, payload⟩ fits
  rw [clocksOf_encodeFrame, takePortReset_eq] at opens
  generalize found : arrived p (shiftedOut (8 * (5 + payload.length)) [o.status]) s = u at opens
  have port : u.port p = { s.port p with transaction := none, sdo := shiftedOut (8 * (5 + payload.length)) [o.status] } := by
    rw [← found, port_arrived]
  have session : u.session p = s.session p := by rw [← found]; rfl
  have lock : lockAfterPortReset p u = lockAfterPortReset p s := by rw [← found]; rfl
  have burns : burnsFor p u = s.burn.any fun b => b.port = p := by
    rw [← found]
    change burnsFor p s = _
    unfold burnsFor
    cases s.burn <;> rfl
  have frame : Frame { ports := only p } s u := found ▸ Frame.arrived p _ s
  have now : u.stampAt .sessionTable = s.stampAt .sessionTable := by rw [← found]; rfl
  refine ⟨_, congrArg Host.Outcome.next opens, ?_⟩
  rw [port_putPort_self, session_putPort]
  have after : State.session { portResetSession p u with lock := lockAfterPortReset p u } p =
      ⟨.detached, (s.session p).epoch, if (s.session p).state = .detached then (s.session p).endReason else .portReset⟩ := by
    rw [← session]
    exact session_portResetSession p u
  rw [after]
  refine ⟨rfl, rfl, ?_, sdoPin_of_closed ?_, ?_, fun e executing => ?_, fun other => ?_, ?_, rfl, rfl,
    fun ended => if_neg ended, fun detached => if_pos detached, lock, fun a attached => ?_, fun away => ?_⟩
  · exact congrArg PortInterface.transaction port
  · exact congrArg PortInterface.transaction port
  · exact congrArg PortInterface.sdo port
  · rw [portAfterReset, port]
    exact overtake_executing executing
  · rw [portAfterReset, port]
    exact overtake_other other
  · have discarded : discards (u.port p) = decide ((s.port p).state ≠ .idle ∨ (s.port p).overtaken ≠ []) := by
      rw [port, Bool.eq_iff_iff, discards_iff, decide_eq_true_iff]
    have reason : ((portResetSession p u).session p).endReason =
        if (s.session p).state = .detached then (s.session p).endReason else .portReset := congrArg Session.endReason after
    simp only [portAfterReset, portExecuting, session, reason, discarded, burns]
  · have torn : TornDown p (s.stampAt .sessionTable) s (portResetSession p u) := by
      rw [portResetSession_attached (show AttachedAs p a u by rw [AttachedAs, session]; exact attached), ← now]
      exact ((tornDown_teardown p u).before frame.widen).after (Frame.endSession p _ _ _).widen
    exact (torn.withLock (lockAfterPortReset p u)).after (Frame.putPort _ _ _).widen
  · have torn : Frame { sessions := only p, ports := only p } s (portResetSession p u) :=
      frame.widen.trans (Frame.portResetSession (by rw [session]; exact away)).widen
    exact (torn.withLock (lockAfterPortReset p u)).trans (Frame.putPort _ _ _).widen

end Sys2Proof.Machine

/-! PROOFS. CLAIM: its checks, and a claim that is granted, waits, is held or preempts. -/

namespace Sys2Proof.Machine

set_option Elab.async false

/-! ### Claim counts without a premise on the entries -/

/-- The roles of a session on a line: its owner record and its wait entry. -/
def rolesOf (p : Port) (e : LineEntry) : Nat :=
  (if (ownerOf p e).isSome then 1 else 0) + (if (waiterOf p e).isSome then 1 else 0)

theorem claimCount_eq_rolesOf (p : Port) (s : State) :
    s.claimCount p = (allLines.map fun l => rolesOf p (s.line l)).sum :=
  countP_add_countP _ _ _ _ fun _ _ => rfl

/-- The claim count of a session after a change of one line. -/
theorem claimCount_changed {s t : State} {l : Line} (same : ∀ k, k ≠ l → t.line k = s.line k) (p : Port) :
    t.claimCount p + rolesOf p (s.line l) = s.claimCount p + rolesOf p (t.line l) := by
  rw [claimCount_eq_rolesOf, claimCount_eq_rolesOf]
  exact sum_update allLines (by decide) l (mem_allLines l) (fun l => rolesOf p (t.line l)) (fun l => rolesOf p (s.line l))
    fun k other => by rw [same k other]

theorem rolesOf_eq (p : Port) (e : LineEntry) :
    rolesOf p e = (if p ∈ (ownerViews e.owners).map OwnerView.session then 1 else 0) +
      (if p ∈ e.queue.map WaitEntry.session then 1 else 0) := by
  simp only [rolesOf, ownerOf_isSome, waiterOf_isSome]

theorem rolesOf_absent {p : Port} {e : LineEntry} (absent : p ∉ roleSessions e) : rolesOf p e = 0 := by
  obtain ⟨noOwner, noWaiter⟩ := not_or.mp (mt List.mem_append.mpr absent)
  rw [rolesOf_eq, if_neg noOwner, if_neg noWaiter]

/-- A session that joins the owners of a line gains one role there. -/
theorem rolesOf_joined {e : LineEntry} {o : Owners} {r : OwnerView} (views : ownerViews o = ownerViews e.owners ++ [r])
    (absent : r.session ∉ roleSessions e) (q : Port) :
    rolesOf q { e with owners := o } = rolesOf q e + if q = r.session then 1 else 0 := by
  rw [rolesOf_eq, rolesOf_eq, views, List.map_append, List.map_singleton]
  by_cases own : q = r.session
  · obtain ⟨noOwner, noWaiter⟩ := not_or.mp (mt List.mem_append.mpr absent)
    rw [own, if_pos (by simp), if_neg noWaiter, if_neg noOwner, if_pos rfl]
  · simp only [List.mem_append, List.mem_singleton, own, or_false, if_false, Nat.add_zero]

/-- A session that is queued on a line gains one role there. -/
theorem rolesOf_queued {e : LineEntry} {w : WaitEntry} (absent : w.session ∉ roleSessions e) (q : Port) :
    rolesOf q { e with queue := e.queue ++ [w] } = rolesOf q e + if q = w.session then 1 else 0 := by
  rw [rolesOf_eq, rolesOf_eq, List.map_append, List.map_singleton]
  by_cases own : q = w.session
  · obtain ⟨noOwner, noWaiter⟩ := not_or.mp (mt List.mem_append.mpr absent)
    rw [own, if_neg noOwner, if_pos (by simp), if_neg noWaiter, if_pos rfl]
  · simp only [List.mem_append, List.mem_singleton, own, or_false, if_false, Nat.add_zero]

/-- The forcer of a preemption holds the line and does not wait there. -/
theorem rolesOf_preemptEntry {p : Port} {e : LineEntry} (absent : p ∉ roleSessions e) (want : Want) (stay : Bool)
    (now : Stamp) : rolesOf p (preemptEntry p want stay now e) = 1 := by
  have noWaiter : p ∉ (preemptEntry p want stay now e).queue.map WaitEntry.session := by
    intro waits
    refine absent (List.mem_append.mpr ?_)
    obtain requeue | old := List.mem_append.mp (List.map_append ▸ waits)
    · rw [List.map_map] at requeue
      exact .inl ((List.filter_sublist.map OwnerView.session).subset requeue)
    · exact .inr old
  rw [rolesOf_eq, if_neg noWaiter, preemptEntry, ownerViews_formOwners, if_pos (by simp)]

theorem padFor_beyond_port {p : Port} {s t : State} (frame : Frame { ports := only p } s t) (l : Line) :
    t.padFor l = s.padFor l :=
  padFor_congr frame.store.active (frame.blocks.lines l rfl) (timers_of_blocks frame.blocks fun _ => rfl)

/-! ### Line numbers -/

theorem lineOfByte_of_toNat {b : Byte} {l : Line} (number : b.toNat = l.val) : lineOfByte b = some l := by
  rw [lineOfByte, dif_pos (number ▸ l.isLt)]
  exact congrArg some (Fin.ext number)

theorem lineOfByte_beyond {b : Byte} (beyond : 24 ≤ b.toNat) : lineOfByte b = none :=
  dif_neg (Nat.not_lt.mpr beyond)

theorem countByte_of_lineOfByte {b : Byte} {l : Line} (names : lineOfByte b = some l) : countByte l.val = b := by
  unfold lineOfByte at names
  split at names
  · cases names
    exact BitVec.eq_of_toNat_eq (by simp [countByte])
  · cases names

/-! ### The checks of CLAIM (Table 2-1) -/

theorem claimRoleVerdict_eq {p : Port} {l : Line} {a : ClaimArgs} {s : State} {m : ClaimMode} {c : LineClass}
    (mode : claimModeOfByte a.mode = some m) (lineClass : s.lineClass l = some c) :
    claimRoleVerdict p l a s =
      if modeAllowed c m = false then .error .mode
      else if s.hasRole p l = true then .error .already
      else if Config.claimBudget ≤ s.claimCount p then .error .budget
      else if a.force = true ∧ s.forcible l = false then .error .notForcible
      else if a.force = true ∧ m = .share then .error .badArg
      else match valueOfByte a.value with
        | some v => .ok (wantOf m v)
        | none => if m = .holdInput then .ok (.exclusive .holdInput) else .error .badArg := by
  simp only [claimRoleVerdict, mode, lineClass, Bool.not_eq_true', Bool.and_eq_true, decide_eq_true_eq] <;> rfl

theorem claimVerdict_eq {p : Port} {a : ClaimArgs} {l : Line} {x : Attached} {s : State} (attached : AttachedAs p x s)
    (line : lineOfByte a.line = some l) :
    claimVerdict p a s =
      if x.grade = .observer ∨ a.force = true ∧ x.grade ≠ .priority then .error .grade
      else if s.permits l p = false then .error .notPermitted
      else match claimRoleVerdict p l a s with
        | .error r => .error r
        | .ok want => .ok (l, want) := by
  unfold claimVerdict
  rw [attached]
  dsimp only
  rw [line]
  simp only [Bool.or_eq_true, Bool.and_eq_true, decide_eq_true_eq, Bool.not_eq_true'] <;> rfl

theorem wantOf_modeOfWant {want : Want} {v : Bool} (value : ∀ u, valueOfWant want = some u → v = u) :
    wantOf (modeOfWant want) v = want := by
  cases want with
  | exclusive d =>
    cases d with
    | holdInput => rfl
    | drivePP u | driveOD u => rw [value u rfl]; rfl
  | share u => rw [value u rfl]; rfl

/-- The checks of CLAIM pass where `ClaimAdmitted` says so. -/
theorem ClaimAdmitted.verdict {p : Port} {x : Attached} {a : ClaimArgs} {l : Line} {want : Want} {s : State}
    (admitted : ClaimAdmitted p x a l want s) : claimVerdict p a s = .ok (l, want) := by
  obtain ⟨c, lineClass, allowed⟩ := admitted.allowed
  have role : claimRoleVerdict p l a s = .ok want := by
    rw [claimRoleVerdict_eq admitted.mode lineClass, if_neg (by simp [allowed]), if_neg (by simp [admitted.noRole]),
      if_neg (Nat.not_le.mpr admitted.budget), if_neg fun h => by simp [admitted.forcible h.1] at h,
      if_neg fun h => admitted.exclusive h.1 h.2]
    split
    · next v named =>
      refine congrArg Except.ok (wantOf_modeOfWant fun u value => ?_)
      exact Option.some.inj (named.symm.trans (admitted.value u value))
    · next unnamed =>
      have noValue : valueOfWant want = none := Option.eq_none_iff_forall_ne_some.mpr fun v value =>
        nomatch unnamed.symm.trans (admitted.value v value)
      cases want with
      | share v => cases noValue
      | exclusive d =>
        cases d with
        | holdInput => rfl
        | drivePP v | driveOD v => cases noValue
  rw [claimVerdict_eq admitted.attached admitted.line,
    if_neg (by rintro (observer | ⟨force, low⟩); exacts [admitted.grade observer, low (admitted.forceGrade force)]),
    if_neg (by simp [admitted.permitted]), role]

/-- The service of a CLAIM finds the state its checks are about. -/
theorem ClaimAdmitted.begun {p : Port} {x : Attached} {a : ClaimArgs} {l : Line} {want : Want} {s : State}
    (admitted : ClaimAdmitted p x a l want s) (bits : List Bool) :
    ClaimAdmitted p (renewed x) a l want (Machine.begun p bits s) where
  attached := attachedAs_begun admitted.attached bits
  line := admitted.line
  grade := admitted.grade
  forceGrade := admitted.forceGrade
  permitted := by rw [permits_begun, admitted.permitted]
  mode := admitted.mode
  allowed := by rw [lineClass_begun]; exact admitted.allowed
  noRole := by rw [hasRole_begun, admitted.noRole]
  budget := by rw [claimCount_begun]; exact admitted.budget
  forcible := by rw [forcible_begun]; exact admitted.forcible
  exclusive := admitted.exclusive
  value := admitted.value

theorem serveClaim_eq {p : Port} {payload : List Byte} {a : ClaimArgs} {s : State} (args : claimArgs payload = some a) :
    serveClaim p payload s = match claimVerdict p a s with
      | .error r => (s, some ⟨r, [a.line]⟩)
      | .ok (l, want) => evaluateClaim p l want a s := by
  rw [serveClaim, args]
  rfl

/-- The service of a CLAIM that passes its checks. -/
theorem ClaimAdmitted.serves {p : Port} {payload : List Byte} {x : Attached} {a : ClaimArgs} {l : Line} {want : Want}
    {s : State} (admitted : ClaimAdmitted p x a l want s) (args : claimArgs payload = some a) :
    serveClaim p payload s = evaluateClaim p l want a s := by
  rw [serveClaim_eq args, admitted.verdict]

/-- Settles O46, by the checks of CLAIM in their order (`claimVerdict_eq`, `claimRoleVerdict_eq`). -/
theorem claimRefusedInOrder : Obligations.ClaimRefusedInOrder := by
  intro p tag payload span x a s takes args attached refused
  have dismiss : ∀ {r}, (∀ bits, claimVerdict p a (begun p bits s) = .error r) → refused r := fun error =>
    exec_dismissed takes .claim nofun tag fun bits => by rw [serve, serveClaim_eq args, error bits]
  refine ⟨fun beyond => dismiss fun bits => ?_, fun l number => ?_⟩
  · rw [claimVerdict, attachedAs_begun attached, lineOfByte_beyond beyond]
  have verdict := fun bits => claimVerdict_eq (attachedAs_begun attached bits) (lineOfByte_of_toNat number) (a := a)
  simp only [permits_begun] at verdict
  refine ⟨fun low => dismiss fun bits => ?_, fun grade force => ⟨fun barred => dismiss fun bits => ?_, ?_⟩⟩
  · rw [verdict]
    exact if_pos low
  all_goals
    have passes : ¬ (x.grade = .observer ∨ a.force = true ∧ x.grade ≠ .priority) :=
      not_or.mpr ⟨grade, fun low => low.2 (force low.1)⟩
  · rw [verdict]
    exact (if_neg passes).trans (if_pos barred)
  intro permitted c lineClass
  have role : ∀ {r}, (∀ bits, claimRoleVerdict p l a (begun p bits s) = .error r) → refused r := fun error =>
    dismiss fun bits => by
      rw [verdict, error bits]
      exact (if_neg passes).trans (if_neg (by simp [permitted]))
  refine ⟨fun unnamed => role fun bits => ?_, fun m mode => ?_⟩
  · rw [claimRoleVerdict, unnamed]
  have verdict := fun bits => claimRoleVerdict_eq (p := p) mode (lineClass_begun p bits s l ▸ lineClass)
  simp only [hasRole_begun, claimCount_begun, forcible_begun] at verdict
  refine ⟨fun barred => role fun bits => ?_, fun allowed => ⟨fun already => role fun bits => ?_, fun noRole =>
    ⟨fun (spent : Config.claimBudget ≤ s.claimCount p) => role fun bits => ?_,
      fun (budget : s.claimCount p < Config.claimBudget) => ⟨fun force barred => role fun bits => ?_,
      fun forcible bad => role fun bits => ?_⟩⟩⟩⟩
  · rw [verdict, if_pos barred]
  · rw [verdict, if_neg (by simp [allowed]), if_pos already]
  · rw [verdict, if_neg (by simp [allowed]), if_neg (by simp [noRole]), if_pos spent]
  · rw [verdict, if_neg (by simp [allowed]), if_neg (by simp [noRole]), if_neg (Nat.not_le.mpr budget),
      if_pos ⟨force, barred⟩]
  · rw [verdict, if_neg (by simp [allowed]), if_neg (by simp [noRole]), if_neg (Nat.not_le.mpr budget),
      if_neg fun h => by simp [forcible h.1] at h]
    by_cases share : a.force = true ∧ m = .share
    · rw [if_pos share]
    · obtain ⟨needs, unnamed⟩ := bad.resolve_left share
      rw [if_neg share, unnamed]
      exact if_neg needs

/-! ### The outcome of a claim -/

/-- A claim that is granted at once forms these owners (R27, R28). -/
inductive GrantsAtOnce (p : Port) (stay : Bool) (now : Stamp) (e : LineEntry) (want : Want) : Owners → Prop where
  | free (unowned : e.owners = .unowned) : GrantsAtOnce p stay now e want (formOwners p want stay now)
  | joins (ss : List Sharer) (v : Bool) (shared : e.owners = .shared ss) (empty : e.queue = []) (share : want = .share v) :
      GrantsAtOnce p stay now e want (.shared (ss ++ [⟨p, v, stay, now, none⟩]))

theorem GrantsAtOnce.views {p : Port} {stay : Bool} {now : Stamp} {e : LineEntry} {want : Want} {owners : Owners}
    (granted : GrantsAtOnce p stay now e want owners) :
    ownerViews owners = ownerViews e.owners ++ [⟨p, want, stay, now, none⟩] := by
  cases granted with
  | free unowned => rw [ownerViews_formOwners, unowned]; rfl
  | joins ss v shared empty share => rw [shared, share, ownerViews, ownerViews, List.map_append]; rfl

theorem GrantsAtOnce.evaluate {p : Port} {l : Line} {want : Want} {a : ClaimArgs} {owners : Owners} {s : State}
    (granted : GrantsAtOnce p a.stay (s.stampAt .lineTable) (s.line l) want owners) :
    evaluateClaim p l want a s = (installOwners l owners s,
      some ⟨.granted, [countByte l.val, 0] ++ wordBytes (s.stampAt .lineTable)⟩) := by
  unfold evaluateClaim
  cases granted with
  | free unowned => rw [unowned]; rfl
  | joins ss v shared empty share => rw [shared, empty, share]; rfl

theorem evaluateClaim_contended {p : Port} {l : Line} {want : Want} {a : ClaimArgs} {s : State}
    (owned : (s.line l).owners ≠ .unowned)
    (notJoining : ∀ ss v, (s.line l).owners = .shared ss → want = .share v → (s.line l).queue ≠ []) :
    evaluateClaim p l want a s = contendClaim p l want a s := by
  unfold evaluateClaim
  dsimp only
  split
  · next unowned => exact absurd unowned owned
  · rfl
  · next ss shared =>
    split
    · next v share empty => exact absurd empty (notJoining ss _ shared rfl)
    · rfl

theorem priorityOwned_iff (l : Line) (s : State) :
    priorityOwned l s = true ↔ ∃ r, r ∈ ownerViews (s.line l).owners ∧ s.gradeOf r.session = some .priority := by
  simp [priorityOwned]

/-- Settles O43, by what a claim granted at once installs (`GrantsAtOnce`). -/
theorem claimGrantedAtOnce : Obligations.ClaimGrantedAtOnce := by
  intro p tag payload span x a l want owners s takes args admitted at_once
  have granted : GrantsAtOnce p a.stay (s.stampAt .lineTable) (s.line l) want owners := by
    obtain ⟨unowned, ⟨d, rfl, rfl⟩ | ⟨v, rfl, rfl⟩⟩ | ⟨ss, v, shared, empty, rfl, rfl⟩ := at_once
    · exact .free unowned
    · exact .free unowned
    · exact .joins ss v shared empty rfl
  have served (bits : List Bool) : serveClaim p payload (begun p bits s) = (installOwners l owners (begun p bits s),
      some ⟨.granted, [a.line, 0] ++ wordBytes (s.stampAt .lineTable)⟩) := by
    rw [(admitted.begun _).serves args, GrantsAtOnce.evaluate (by rwa [line_begun, stampAt_begun]),
      countByte_of_lineOfByte admitted.line, stampAt_begun]
  obtain ⟨t, next, attended, frame, own⟩ := exec_serviced takes admitted.attached (r := .claim) (by simp) tag (served _)
    (reach := { lines := only l, pads := only l, sessions := only p, ports := only p })
    (Frame.installOwners l owners _).widen
  have changed : t.line l = { s.line l with owners := owners } := by
    rw [own.blocks.lines l rfl, line_installOwners, if_pos rfl, line_begun]
  have count (q : Port) : t.claimCount q = s.claimCount q + if q = p then 1 else 0 := by
    have counts := claimCount_changed (fun k other => frame.blocks.lines k (only_false.mpr other)) q
    rw [changed, rolesOf_joined granted.views (hasRole_false.mp admitted.noRole)] at counts
    dsimp only at counts
    omega
  refine ⟨t, next, changed, ?_, by rw [count, if_pos rfl], fun q other => by rw [count, if_neg other, Nat.add_zero],
    attended, frame⟩
  rw [own.blocks.pads l rfl, pad_installOwners, if_pos rfl, padFor_beyond_port own]

/-- Settles O44: the claim contends (`evaluateClaim_contended`) and does not preempt, so R29 says what follows. -/
theorem claimWaitsOrIsHeld : Obligations.ClaimWaitsOrIsHeld := by
  intro p tag payload span x a l want s takes args admitted contended
  have waits (bits : List Bool) : serveClaim p payload (begun p bits s) = queueClaim p l want a (begun p bits s) := by
    have notPreempting : ¬ (a.force && !priorityOwned l (begun p bits s)) = true := by
      intro preempts
      obtain ⟨force, free⟩ := (Bool.and_eq_true _ _).mp preempts
      obtain ⟨r, owner, priority⟩ := contended.notPreempting force
      have owned := (priorityOwned_iff l (begun p bits s)).mpr ⟨r, by rwa [line_begun], by rwa [gradeOf_begun]⟩
      rw [owned] at free
      cases free
    rw [(admitted.begun _).serves args, evaluateClaim_contended (by rw [line_begun]; exact contended.owned)
      (by rw [line_begun]; exact contended.notJoining), contendClaim, if_neg notPreempting]
  refine ⟨fun noWait => ?_, fun noWait => ?_⟩
  · have served (bits : List Bool) : serveClaim p payload (begun p bits s) = (begun p bits s, some ⟨.held, [a.line]⟩) := by
      rw [waits, queueClaim, if_pos noWait]
      rfl
    obtain ⟨t, next, attended, frame, -⟩ := exec_serviced takes admitted.attached (r := .claim) (by simp) tag (served _)
      (Frame.refl { sessions := only p, ports := only p } _)
    exact ⟨t, next, attended, frame⟩
  · have served (bits : List Bool) : serveClaim p payload (begun p bits s) =
        ((begun p bits s).setLine l
            { s.line l with queue := (s.line l).queue ++ [queuedEntry p want a (s.stampAt .lineTable)] },
          some ⟨.queued, [a.line, countByte ((s.line l).queue.length + 1)] ++ wordBytes (s.stampAt .lineTable)⟩) := by
      rw [waits, queueClaim, if_neg (by simp [noWait]), stampAt_begun, line_begun, countByte_of_lineOfByte admitted.line]
      simp only [List.length_append, List.length_singleton]
      rfl
    obtain ⟨t, next, attended, frame, own⟩ := exec_serviced takes admitted.attached (r := .claim) (by simp) tag (served _)
      (reach := { lines := only l, sessions := only p, ports := only p }) (Frame.setLine _ l _).widen
    have changed : t.line l =
        { s.line l with queue := (s.line l).queue ++ [queuedEntry p want a (s.stampAt .lineTable)] } := by
      rw [own.blocks.lines l rfl, line_setLine, if_pos rfl]
    have count (q : Port) : t.claimCount q = s.claimCount q + if q = p then 1 else 0 := by
      have counts := claimCount_changed (fun k other => frame.blocks.lines k (only_false.mpr other)) q
      rw [changed, rolesOf_queued (hasRole_false.mp admitted.noRole), show (queuedEntry p want a _).session = p from rfl]
        at counts
      omega
    exact ⟨t, next, changed, by rw [count, if_pos rfl], fun q other => by rw [count, if_neg other, Nat.add_zero],
      attended, frame⟩

/-- Settles O45: the claim contends and preempts (`preempt`). -/
theorem claimPreempts : Obligations.ClaimPreempts := by
  intro p tag payload span x a l d s takes args admitted force owned below
  have free (bits : List Bool) : priorityOwned l (begun p bits s) = false := by
    rw [Bool.eq_false_iff, ne_eq, priorityOwned_iff, line_begun]
    rintro ⟨r, owner, priority⟩
    exact below r owner (by rwa [gradeOf_begun] at priority)
  have served (bits : List Bool) : serveClaim p payload (begun p bits s) =
      (preempt p l (.exclusive d) a.stay (begun p bits s),
        some ⟨.granted, [a.line, countByte (ownerViews (s.line l).owners).length] ++ wordBytes (s.stampAt .lineTable)⟩) := by
    rw [(admitted.begun _).serves args, evaluateClaim_contended (by rwa [line_begun]) (fun _ _ _ share => by cases share),
      contendClaim, if_pos (by simp [force, free]), line_begun, stampAt_begun, claimGranted,
      countByte_of_lineOfByte admitted.line]
    rfl
  obtain ⟨t, next, attended, frame, own⟩ := exec_serviced takes admitted.attached (r := .claim) (by simp) tag (served _)
    (reach :=
      { lines := only l, pads := only l, timers := fun _ => true, queues := fun _ => true, sessions := only p,
        ports := only p })
    (Frame.preempt p l _ _ _).widen
  have changed : t.line l = preemptEntry p (.exclusive d) a.stay (s.stampAt .lineTable) (s.line l) := by
    rw [own.blocks.lines l rfl, line_preempt, if_pos rfl, line_begun, stampAt_begun]
  refine ⟨t, next, changed, fun y => ?_, ?_, ?_, fun q => ?_, attended, frame⟩
  · rw [own.blocks.timers y rfl, timer_preempt, line_begun, timer_begun]
    simp only [List.any_eq_true, decide_eq_true_eq]
  · rw [own.blocks.pads l rfl, pad_preempt, if_pos rfl, padFor_beyond_port own]
  · have counts := claimCount_changed (fun k other => frame.blocks.lines k (only_false.mpr other)) p
    have absent := hasRole_false.mp admitted.noRole
    rw [changed, rolesOf_preemptEntry absent, rolesOf_absent absent] at counts
    omega
  · have delivered := queue_preempt p l (.exclusive d) a.stay (begun p (frameBits p payload s) s) q
    rw [stampAt_begun, line_begun, isAttached_begun, queue_begun] at delivered
    rw [own.blocks.queues q rfl, delivered]

end Sys2Proof.Machine

/-! PROOFS. RELEASE and CANCEL, succession and head-join, QUERY LINE and SAMPLE. -/

namespace Sys2Proof.Machine

set_option Elab.async false

theorem sessionRefusal_attached {p : Port} {a : Attached} {s : State} (attached : (s.session p).state = .attached a) :
    sessionRefusal s p = none := by
  rw [sessionRefusal, attached]

/-! ### Giving up a role -/

/-- A session with a role on a consistent entry has one role there (R7). -/
theorem rolesOf_present {p : Port} {e : LineEntry} (wf : EntryWf e) (present : p ∈ roleSessions e) : rolesOf p e = 1 := by
  have disjoint : p ∈ (ownerViews e.owners).map OwnerView.session → p ∉ e.queue.map WaitEntry.session :=
    fun owner waiter => (List.nodup_append.mp wf.oneRoleEach).2.2 p owner p waiter rfl
  rw [rolesOf_eq]
  by_cases owner : p ∈ (ownerViews e.owners).map OwnerView.session
  · rw [if_pos owner, if_neg (disjoint owner)]
  · rw [if_neg owner, if_pos ((List.mem_append.mp present).resolve_left owner)]

/-- The claim count of a session that gives up its role on a line falls by one. -/
theorem claimCount_given_up {p : Port} {l : Line} {s t : State} (same : ∀ k, k ≠ l → t.line k = s.line k)
    (wf : EntryWf (s.line l)) (present : p ∈ roleSessions (s.line l)) (absent : p ∉ roleSessions (t.line l)) :
    t.claimCount p + 1 = s.claimCount p := by
  have counts := claimCount_changed same p
  rwa [rolesOf_present wf present, rolesOf_absent absent] at counts

theorem not_mem_roleSessions_releaseEntry {p : Port} {e : LineEntry} (wf : EntryWf e)
    (owner : p ∈ (ownerViews e.owners).map OwnerView.session) (now : Stamp) :
    p ∉ roleSessions (releaseEntry p now e).entry := by
  rw [roleSessions_releaseEntry, List.mem_append]
  rintro (still | waits)
  · simp at still
  · exact (List.nodup_append.mp wf.oneRoleEach).2.2 p owner p waits rfl

theorem not_mem_roleSessions_withdrawEntry {p : Port} {e : LineEntry} (wf : EntryWf e)
    (waiter : p ∈ e.queue.map WaitEntry.session) (now : Stamp) :
    p ∉ roleSessions (withdrawEntry p now e).entry := by
  rw [roleSessions_withdrawEntry, List.mem_append]
  rintro (owns | still)
  · exact (List.nodup_append.mp wf.oneRoleEach).2.2 p owns p waiter rfl
  · simp at still

theorem flagsByte_single (b : Bool) : flagsByte b false = if b then 1 else 0 := by
  cases b <;> rfl

/-! ### RELEASE -/

theorem serveRelease_eq {p : Port} {b : Byte} {a : Attached} {s : State} (attached : (s.session p).state = .attached a) :
    serveRelease p [b] s = match lineOfByte b with
      | none => (s, some ⟨.range, []⟩)
      | some l => match ownerOf p (s.line l) with
        | none => (s, some ⟨.notHeld, []⟩)
        | some r => releaseLine p l r s := by
  simp only [serveRelease, sessionRefusal_attached attached]
  rfl

/-- The state after a RELEASE. -/
def released (p : Port) (l : Line) (r : OwnerView) (s : State) : State :=
  applyLineStep l (releaseEntry p (s.stampAt .lineTable) (s.line l)) (s.stampAt .lineTable) true
    (freeTimers (fun t => r.pulse = some t) s)

theorem releaseLine_eq (p : Port) (l : Line) (r : OwnerView) (s : State) :
    releaseLine p l r s =
      (released p l r s, some ⟨.ok, [countByte l.val, if r.pulse.isSome then 1 else 0,
        lineStateByte (releaseEntry p (s.stampAt .lineTable) (s.line l)).entry.owners,
        countByte (releaseEntry p (s.stampAt .lineTable) (s.line l)).granted.length]⟩) := by
  rw [← flagsByte_single]
  rfl

theorem Frame.released (p : Port) (l : Line) (r : OwnerView) (s : State) :
    Frame { lines := only l, pads := only l, timers := fun _ => true, queues := fun _ => true } s
      (Machine.released p l r s) :=
  (Frame.freeTimers _ s).widen.trans (Frame.applyLineStep l _ _ true _).widen

/-- Settles O47, by the step of the entry (`releaseEntry`) that a RELEASE applies (`released`). -/
theorem releaseGivesUpRole : Obligations.ReleaseGivesUpRole := by
  refine fun p tag b span x s takes attached => ⟨fun l r number owner => ?_, fun l number none => ?_, fun beyond => ?_⟩
  · have served (bits : List Bool) := serveRelease_eq (b := b) (attachedAs_begun attached bits)
    simp only [lineOfByte_of_toNat number, line_begun, owner, releaseLine_eq, stampAt_begun,
      countByte_of_lineOfByte (lineOfByte_of_toNat number)] at served
    obtain ⟨t, next, attended, frame, own⟩ := exec_serviced takes attached (r := .release) (by simp) tag (served _)
      (reach :=
        { lines := only l, pads := only l, timers := fun _ => true, queues := fun _ => true, sessions := only p,
          ports := only p })
      (Frame.released p l r _).widen
    have line : t.line l = (releaseEntry p (s.stampAt .lineTable) (s.line l)).entry := by
      rw [own.blocks.lines l rfl, released, line_applyLineStep, if_pos rfl, line_begun, stampAt_begun]
    refine ⟨t, next, ⟨line, fun q => ?_, attended⟩, fun y => ?_, ?_, fun wf => ?_, frame⟩
    · have delivered := queue_applyLineStep l (releaseEntry p (s.stampAt .lineTable) (s.line l)) (s.stampAt .lineTable) true
        (freeTimers (fun t => r.pulse = some t) (begun p (frameBits p [b] s) s)) q
      rw [session_freeTimers, queue_freeTimers, isAttached_begun, queue_begun] at delivered
      rw [own.blocks.queues q rfl, released, line_begun, stampAt_begun, delivered]
    · rw [own.blocks.timers y rfl]
      simp [released]
    · rw [own.blocks.pads l rfl, padFor_beyond_port own, released, pad_applyLineStep, if_pos ⟨rfl, rfl⟩]
    · have owns := ownerOf_isSome.mp (Option.isSome_of_mem owner)
      exact claimCount_given_up (fun k other => frame.blocks.lines k (only_false.mpr other)) wf
        (List.mem_append.mpr (.inl owns)) (line ▸ not_mem_roleSessions_releaseEntry wf owns _)
  · refine exec_dismissed takes .release nofun tag fun bits => ?_
    simp only [serve, serveRelease_eq (attachedAs_begun attached bits), lineOfByte_of_toNat number, line_begun, none]
  · refine exec_dismissed takes .release nofun tag fun bits => ?_
    simp only [serve, serveRelease_eq (attachedAs_begun attached bits), lineOfByte_beyond beyond]

/-! ### CANCEL -/

theorem serveCancel_eq {p : Port} {b : Byte} {a : Attached} {s : State} (attached : (s.session p).state = .attached a) :
    serveCancel p [b] s = match lineOfByte b with
      | none => (s, some ⟨.range, []⟩)
      | some l => match waiterOf p (s.line l) with
        | none => (s, some ⟨.notWaiting, []⟩)
        | some _ => cancelLine p l s := by
  simp only [serveCancel, sessionRefusal_attached attached]
  rfl

/-- The state after a CANCEL. -/
def cancelled (p : Port) (l : Line) (s : State) : State :=
  applyLineStep l (withdrawEntry p (s.stampAt .lineTable) (s.line l)) (s.stampAt .lineTable)
    (!(withdrawEntry p (s.stampAt .lineTable) (s.line l)).granted.isEmpty) s

theorem cancelLine_eq (p : Port) (l : Line) (s : State) :
    cancelLine p l s = (cancelled p l s, some ⟨.ok, [countByte l.val,
      countByte (withdrawEntry p (s.stampAt .lineTable) (s.line l)).granted.length]⟩) := rfl

/-- Settles O48, by the step of the entry (`withdrawEntry`) that a CANCEL applies (`cancelled`). -/
theorem cancelWithdrawsWait : Obligations.CancelWithdrawsWait := by
  refine fun p tag b span x s takes attached => ⟨fun l w number waiter => ?_, fun l number none => ?_, fun beyond => ?_⟩
  · have served (bits : List Bool) := serveCancel_eq (b := b) (attachedAs_begun attached bits)
    simp only [lineOfByte_of_toNat number, line_begun, waiter, cancelLine_eq, stampAt_begun,
      countByte_of_lineOfByte (lineOfByte_of_toNat number)] at served
    obtain ⟨t, next, attended, frame, own⟩ := exec_serviced takes attached (r := .cancel) (by simp) tag (served _)
      (reach := { lines := only l, pads := only l, queues := fun _ => true, sessions := only p, ports := only p })
      (Frame.applyLineStep l _ _ _ _).widen
    have line : t.line l = (withdrawEntry p (s.stampAt .lineTable) (s.line l)).entry := by
      rw [own.blocks.lines l rfl, cancelled, line_applyLineStep, if_pos rfl, line_begun, stampAt_begun]
    refine ⟨t, next, ⟨line, ?_, fun q => ?_, attended⟩, fun wf => ?_, frame⟩
    · rw [own.blocks.pads l rfl, padFor_beyond_port own, cancelled, pad_applyLineStep, pad_begun, line_begun, stampAt_begun]
      simp only [and_true, Bool.not_eq_true', List.isEmpty_eq_false_iff, ne_eq, ite_not]
      rfl
    · have delivered := queue_applyLineStep l (withdrawEntry p (s.stampAt .lineTable) (s.line l)) (s.stampAt .lineTable)
        (!(withdrawEntry p (s.stampAt .lineTable) (s.line l)).granted.isEmpty) (begun p (frameBits p [b] s) s) q
      rw [isAttached_begun, queue_begun] at delivered
      rw [own.blocks.queues q rfl, cancelled, line_begun, stampAt_begun, delivered]
      rfl
    · have waits := waiterOf_isSome.mp (Option.isSome_of_mem waiter)
      exact claimCount_given_up (fun k other => frame.blocks.lines k (only_false.mpr other)) wf
        (List.mem_append.mpr (.inr waits)) (line ▸ not_mem_roleSessions_withdrawEntry wf waits _)
  · refine exec_dismissed takes .cancel nofun tag fun bits => ?_
    simp only [serve, serveCancel_eq (attachedAs_begun attached bits), lineOfByte_of_toNat number, line_begun, none]
  · refine exec_dismissed takes .cancel nofun tag fun bits => ?_
    simp only [serve, serveCancel_eq (attachedAs_begun attached bits), lineOfByte_beyond beyond]

/-! ### Succession and head-join -/

theorem owns_iff {p : Port} {e : LineEntry} : Owns p e ↔ (ownerOf p e).isSome = true := by
  rw [ownerOf_isSome]
  unfold Owns
  cases owners : e.owners with
  | unowned => simp [ownerViews]
  | held h => simp [ownerViews, holderView, eq_comm]
  | shared ss => simp [ownerViews, sharerView]

theorem waits_iff {p : Port} {e : LineEntry} : (∃ w, w ∈ e.queue ∧ w.session = p) ↔ (waiterOf p e).isSome = true := by
  rw [waiterOf_isSome, List.mem_map]

theorem not_mem_granted_tearDownEntry (p : Port) (now : Stamp) (e : LineEntry) : p ∉ (tearDownEntry p now e).granted := by
  obtain ⟨granted, parts, is, -⟩ := (handed_tearDownEntry p now e).split
  intro mem
  obtain ⟨w, own, rfl⟩ := List.mem_map.mp (is ▸ mem)
  have waiting := parts ▸ List.mem_append_left _ own
  simpa using (List.mem_filter.mp waiting).2

/-- The teardown of a session on one entry by its role there (R46). -/
theorem tearDownEntry_cases (p : Port) (now : Stamp) (e : LineEntry) :
    (Owns p e → tearDownEntry p now e = releaseEntry p now (withoutWaits p e) ∧ tearDownTouches p now e = true) ∧
    (¬ Owns p e → (∃ w, w ∈ e.queue ∧ w.session = p) →
      tearDownEntry p now e = headJoin now (withoutWaits p e) ∧
      (tearDownTouches p now e = true ↔ (headJoin now (withoutWaits p e)).granted ≠ [])) ∧
    (¬ Owns p e → (∀ w, w ∈ e.queue → w.session ≠ p) →
      tearDownEntry p now e = ⟨e, []⟩ ∧ tearDownTouches p now e = false) := by
  simp only [owns_iff, Bool.not_eq_true]
  refine ⟨fun owner => ⟨if_pos owner, ?_⟩, fun none waits => ?_, fun none away => ?_⟩
  · rw [tearDownTouches, owner, Bool.true_or]
  · have step : tearDownEntry p now e = headJoin now (withoutWaits p e) := by
      rw [tearDownEntry, none, if_neg Bool.false_ne_true, if_pos (waits_iff.mp waits)]
      rfl
    refine ⟨step, ?_⟩
    rw [tearDownTouches, none, step, Bool.false_or, Bool.not_eq_true', List.isEmpty_eq_false_iff]
  · have step : tearDownEntry p now e = ⟨e, []⟩ := by
      rw [tearDownEntry, none, if_neg Bool.false_ne_true, waiterOf_none.mpr away]
      rfl
    refine ⟨step, ?_⟩
    rw [tearDownTouches, none, step]
    rfl

/-- The SHARE entries at the head of a queue are its longest run of them. -/
theorem takeWhile_shares {shares rest : List WaitEntry} (all : ∀ w, w ∈ shares → isShareEntry w = true)
    (other : ∀ w, rest.head? = some w → isShareEntry w = false) :
    (shares ++ rest).takeWhile isShareEntry = shares ∧ (shares ++ rest).dropWhile isShareEntry = rest := by
  rw [List.takeWhile_append_of_pos all, List.dropWhile_append_of_pos all]
  cases rest with
  | nil => simp
  | cons w rest =>
    have stops := other w rfl
    rw [List.takeWhile_cons_of_neg (by simp [stops]), List.dropWhile_cons_of_neg (by simp [stops]), List.append_nil]
    exact ⟨rfl, rfl⟩

theorem joinShares_of_shares {now : Stamp} {ss : List Sharer} {e : LineEntry} {shares rest : List WaitEntry}
    (queue : e.queue = shares ++ rest) (all : ∀ w, w ∈ shares → isShareEntry w = true)
    (other : ∀ w, rest.head? = some w → isShareEntry w = false) (nonempty : ss ++ shares.filterMap (sharerOfWait now) ≠ []) :
    joinShares now ss e = ⟨{ e with owners := .shared (ss ++ shares.filterMap (sharerOfWait now)), queue := rest },
      shares.map WaitEntry.session⟩ := by
  obtain ⟨taken, left⟩ := takeWhile_shares all other
  have shared : ownersOfSharers (ss ++ shares.filterMap (sharerOfWait now)) =
      .shared (ss ++ shares.filterMap (sharerOfWait now)) := by
    obtain ⟨r, rs, is⟩ := List.exists_cons_of_ne_nil nonempty
    rw [is]
    rfl
  simp only [joinShares, queue, taken, left, shared]

theorem sharers_of_shares (now : Stamp) {shares : List WaitEntry} (all : ∀ w, w ∈ shares → isShareEntry w = true) :
    (shares.filterMap (sharerOfWait now)).map Sharer.session = shares.map WaitEntry.session := by
  induction shares with
  | nil => rfl
  | cons w shares ih =>
    have rest := ih fun x mem => all x (List.mem_cons_of_mem _ mem)
    obtain ⟨session, want, stay, countdown, stamp⟩ := w
    cases want with
    | exclusive d => cases all _ (List.mem_cons_self ..)
    | share v =>
      rw [List.filterMap_cons_some (f := sharerOfWait now) (b := ⟨session, v, stay, now, none⟩) rfl, List.map_cons,
        List.map_cons, rest]

/-- A release by the owners it leaves (R36). -/
theorem releaseEntry_cases (now : Stamp) (e : LineEntry) :
    (∀ p h, e.owners = .held h → h.session = p → releaseEntry p now e = succession now { e with owners := .unowned }) ∧
    (∀ p ss, e.owners = .shared ss →
      ((ss.filter fun r => r.session ≠ p) = [] →
        releaseEntry p now e = succession now { e with owners := .unowned }) ∧
      ((ss.filter fun r => r.session ≠ p) ≠ [] →
        releaseEntry p now e = ⟨{ e with owners := .shared (ss.filter fun r => r.session ≠ p) }, []⟩)) := by
  refine ⟨fun p h held own => ?_, fun p ss shared => ⟨fun empty => ?_, fun nonempty => ?_⟩⟩
  · have dropped : dropOwner p e = { e with owners := .unowned } := by
      rw [dropOwner, held]
      exact if_pos own
    rw [releaseEntry, dropped]
    rfl
  · have dropped : dropOwner p e = { e with owners := .unowned } := by
      rw [dropOwner, shared]
      dsimp only
      rw [empty]
      rfl
    rw [releaseEntry, dropped]
    rfl
  · have dropped : dropOwner p e = { e with owners := .shared (ss.filter fun r => r.session ≠ p) } := by
      rw [dropOwner, shared]
      dsimp only
      obtain ⟨r, rs, is⟩ := List.exists_cons_of_ne_nil nonempty
      rw [is]
      rfl
    rw [releaseEntry, dropped]
    rfl

/-- Settles O49, by the cases of a teardown, of the SHARE entries at the head (`joinShares_of_shares`) and of a release. -/
theorem successionAndHeadJoin : Obligations.SuccessionAndHeadJoin := by
  refine ⟨fun p now e => ?_, fun p now s => rfl, fun now e => ?_⟩
  · obtain ⟨owner, waits, away⟩ := tearDownEntry_cases p now e
    exact ⟨owner, waits, away, not_mem_granted_tearDownEntry p now e⟩
  obtain ⟨held, shared⟩ := releaseEntry_cases now e
  refine ⟨fun empty => ?_, fun p d stay c q rest queue => ?_, fun shares rest queue all other => ?_, fun unshared => ?_,
    held, shared⟩
  · rw [succession, empty]
  · rw [succession, queue]
  · refine ⟨sharers_of_shares now all, fun nonempty => ?_, fun ss is nonempty => ?_⟩
    · obtain ⟨w, ws, rfl⟩ := List.exists_cons_of_ne_nil nonempty
      have joins : ((w :: ws).filterMap (sharerOfWait now)) ≠ [] := fun none => by
        have := sharers_of_shares now all
        rw [none] at this
        cases this
      obtain ⟨v, share⟩ : ∃ v, w.want = .share v := by
        have := all w (List.mem_cons_self ..)
        unfold isShareEntry at this
        split at this
        · next v share => exact ⟨v, share⟩
        · cases this
      have step : succession now e = joinShares now [] e := by
        rw [succession, queue, List.cons_append]
        dsimp only
        rw [share]
      rw [step]
      exact joinShares_of_shares queue all other joins
    · rw [headJoin, is]
      exact joinShares_of_shares queue all other (List.append_ne_nil_of_left_ne_nil nonempty _)
  · unfold headJoin
    split
    · next ss is => exact absurd is (unshared ss)
    · rfl
    · rfl

/-! ### QUERY LINE and SAMPLE -/

theorem serveQueryLine_eq {p : Port} {b : Byte} {a : Attached} {s : State} (attached : (s.session p).state = .attached a) :
    serveQueryLine p [b] s = match lineOfByte b with
      | none => (s, some ⟨.range, []⟩)
      | some l => (s, some ⟨.ok, lineReport l s⟩) := by
  simp only [serveQueryLine, sessionRefusal_attached attached]
  rfl

theorem waitFlags_eq (w : WaitEntry) : waitFlags w = flagsByte false w.stay ||| (if w.countdown.isSome then 4 else 0) := by
  unfold waitFlags
  cases w.stay <;> cases w.countdown <;> rfl

theorem effectiveOf_begun (p : Port) (bits : List Bool) (s : State) (r : OwnerView) :
    (begun p bits s).effectiveOf r = s.effectiveOf r := by
  simp only [State.effectiveOf, effective_begun]

theorem lineReport_begun (p : Port) (bits : List Bool) (s : State) (l : Line) :
    lineReport l (begun p bits s) = lineReport l s := by
  have owners : ownerReport (begun p bits s) = ownerReport s := funext fun r => by
    rw [ownerReport, ownerReport, effectiveOf_begun]
  simp only [lineReport, line_begun, stampAt_begun, owners]

theorem effectiveBit_eq (s : State) (p : Port) (l : Line) :
    effectiveBit s p l = match ownerOf p (s.line l) with
      | some r => match valueOfWant r.want with
        | some v => s.effective v r.pulse
        | none => false
      | none => false := by
  unfold effectiveBit State.effectiveOf
  cases ownerOf p (s.line l) with
  | none => rfl
  | some r =>
    dsimp only
    cases valueOfWant r.want <;> rfl

/-- Settles O50: the reports read the entries, and the restart of the lease leaves these. -/
theorem lineReportsChangeNothing : Obligations.LineReportsChangeNothing := by
  refine ⟨fun p tag b span x s takes attached => ⟨fun l number => ?_, fun beyond => ?_⟩,
    fun p tag span x s takes attached => ?_⟩
  · refine exec_dismissed takes .queryLine nofun tag fun bits => ?_
    have names := lineOfByte_of_toNat number
    rw [serve, serveQueryLine_eq (attachedAs_begun attached bits), names]
    dsimp only
    rw [lineReport_begun, lineReport, countByte_of_lineOfByte names]
    have waits : waitReport = fun w => [countByte w.session.val, claimModeByte (modeOfWant w.want),
        optionalValueByte (valueOfWant w.want), flagsByte false w.stay ||| (if w.countdown.isSome then 4 else 0)] ++
        (match w.countdown with
          | some c => wordBytes (BitVec.ofNat 16 c.remaining)
          | none => [0, 0]) ++ wordBytes w.queuedStamp := funext fun w => by
      rw [waitReport, waitFlags_eq, waitRemaining]
      cases w.countdown <;> rfl
    rw [waits]
    rfl
  · refine exec_dismissed takes .queryLine nofun tag fun bits => ?_
    rw [serve, serveQueryLine_eq (attachedAs_begun attached bits), lineOfByte_beyond beyond]
  · refine exec_dismissed takes .sample nofun tag fun bits => ?_
    have effective : effectiveBit (begun p bits s) p = effectiveBit s p := funext fun l => by
      simp only [effectiveBit, line_begun, effectiveOf_begun]
    simp only [serve, serveSample, sessionRefusal_attached (attachedAs_begun attached bits), confirmedMap, line_begun,
      holds_begun, effective, stampAt_begun, answer]
    rw [show effectiveBit s p = _ from funext (effectiveBit_eq s p)] <;> rfl

end Sys2Proof.Machine

/-! PROOFS. STAGE, UNSTAGE, DISCARD and COMMIT; PULSE. -/

namespace Sys2Proof.Machine

set_option Elab.async false

/-! ### Values and grades -/

theorem valueOfByte_of_value {b : Byte} {v : Bool} (is : b = if v then 1 else 0) : valueOfByte b = some v := by
  subst is
  cases v <;> rfl

theorem valueOfByte_beyond {b : Byte} (beyond : 2 ≤ b.toNat) : valueOfByte b = none := by
  have zero : b ≠ 0 := fun is => by simp [is] at beyond
  have one : b ≠ 1 := fun is => by simp [is] at beyond
  rw [valueOfByte, if_neg zero, if_neg one]

theorem isObserver_iff {p : Port} {a : Attached} {s : State} (attached : (s.session p).state = .attached a) :
    isObserver s p = true ↔ a.grade = .observer := by
  have grade : s.gradeOf p = some a.grade := by
    rw [State.gradeOf, State.attachedPart, attached]
    rfl
  rw [isObserver, grade, decide_eq_true_iff, Option.some.injEq]

theorem isObserver_begun (p : Port) (bits : List Bool) (s : State) : isObserver (begun p bits s) p = isObserver s p := by
  rw [isObserver, gradeOf_begun, isObserver]

theorem not_isObserver {p : Port} {a : Attached} {s : State} (attached : AttachedAs p a s) (above : a.grade ≠ .observer) :
    isObserver s p = false := by
  rw [← Bool.not_eq_true, isObserver_iff attached]
  exact above

/-! ### Staged sets -/

theorem stagedHas_of_absent {l : Line} {set : List StagedValue} (absent : ∀ e, e ∈ set → e.line ≠ l) :
    stagedHas l set = false := by
  simpa [stagedHas] using absent

theorem stagedHas_of_mem {e : StagedValue} {set : List StagedValue} (mem : e ∈ set) : stagedHas e.line set = true :=
  stagedHas_iff.mpr (List.mem_map_of_mem mem)

/-- The position of a line in a staged set: one behind the entries before its own. -/
theorem stagedPosition_eq {l : Line} {before after : List StagedValue} {e : StagedValue} (own : e.line = l)
    (others : ∀ f, f ∈ before → f.line ≠ l) : stagedPosition l (before ++ e :: after) = before.length + 1 := by
  have here : before.findIdx (fun x => decide (x.line = l)) = before.length :=
    List.findIdx_eq_length.mpr fun f mem => by simpa using others f mem
  have misses : ¬ before.findIdx (fun x => decide (x.line = l)) < before.length := by omega
  rw [stagedPosition, List.findIdx_append, if_neg misses, List.findIdx_cons, decide_eq_true own]
  simp

/-- A value recorded for a line of the set replaces the one there, in its place (R76). -/
theorem stagePut_of_has {l : Line} (v : Bool) {before after : List StagedValue} {e : StagedValue} (own : e.line = l)
    (others : ∀ f, f ∈ before ++ after → f.line ≠ l) :
    stagePut l v (before ++ e :: after) = before ++ ⟨l, v⟩ :: after := by
  have keeps : ∀ part : List StagedValue, (∀ f, f ∈ part → f.line ≠ l) →
      part.map (fun x => if x.line = l then { x with value := v } else x) = part := fun part away => by
    refine (List.map_congr_left fun f mem => ?_).trans (List.map_id part)
    rw [if_neg (away f mem)]
    rfl
  have has : stagedHas l (before ++ e :: after) = true := own ▸ stagedHas_of_mem (by simp)
  rw [stagePut, if_pos has, List.map_append, List.map_cons, keeps before fun f mem => others f (List.mem_append_left _ mem),
    keeps after fun f mem => others f (List.mem_append_right _ mem), if_pos own, ← own]

theorem serveStage_eq {p : Port} {b v : Byte} {a : Attached} {s : State} (attached : (s.session p).state = .attached a) :
    serveStage p [b, v] s = match lineOfByte b with
      | none => (s, some ⟨.range, []⟩)
      | some l =>
        if isObserver s p = true then (s, some ⟨.grade, []⟩)
        else match valueOfByte v with
          | none => (s, some ⟨.badArg, []⟩)
          | some value =>
            if stagedHas l (s.stagedSet p) = false ∧ Config.stageDepth ≤ (s.stagedSet p).length then
              (s, some ⟨.stageFull, []⟩)
            else stageLine p l value s := by
  simp only [serveStage, sessionRefusal_attached attached, Bool.and_eq_true, Bool.not_eq_true', decide_eq_true_eq]
  rfl

theorem stageLine_eq (p : Port) (l : Line) (v : Bool) (s : State) :
    stageLine p l v s = (s.setStaged p (stagePut l v (s.stagedSet p)),
      some ⟨.ok, [countByte l.val, countByte (stagedPosition l (stagePut l v (s.stagedSet p))),
        countByte (stagePut l v (s.stagedSet p)).length, if stagedHas l (s.stagedSet p) then 1 else 0]⟩) := by
  rw [← flagsByte_single]
  rfl

theorem serveUnstage_eq {p : Port} {b : Byte} {a : Attached} {s : State} (attached : (s.session p).state = .attached a) :
    serveUnstage p [b] s = match lineOfByte b with
      | none => (s, some ⟨.range, []⟩)
      | some l => if isObserver s p = true then (s, some ⟨.grade, []⟩) else unstageLine p l s := by
  simp only [serveUnstage, sessionRefusal_attached attached]
  rfl

theorem unstageLine_eq (p : Port) (l : Line) (s : State) :
    unstageLine p l s = (s.setStaged p ((s.stagedSet p).filter fun x => x.line ≠ l),
      some ⟨.ok, [countByte l.val, if ∃ e, e ∈ s.stagedSet p ∧ e.line = l then 0 else 1,
        countByte ((s.stagedSet p).filter fun x => x.line ≠ l).length]⟩) := by
  have has : flagsByte (!stagedHas l (s.stagedSet p)) false = if ∃ e, e ∈ s.stagedSet p ∧ e.line = l then 0 else 1 := by
    have mem : stagedHas l (s.stagedSet p) = true ↔ ∃ e, e ∈ s.stagedSet p ∧ e.line = l := by simp [stagedHas]
    by_cases staged : ∃ e, e ∈ s.stagedSet p ∧ e.line = l
    · rw [if_pos staged, mem.mpr staged]
      rfl
    · rw [if_neg staged, Bool.eq_false_iff.mpr (mt mem.mp staged)]
      rfl
  rw [← has]
  rfl

/-- Settles O51, by the checks of STAGE and UNSTAGE in their order and by `stagePut`. -/
theorem stageAndUnstageEditSet : Obligations.StageAndUnstageEditSet := by
  refine ⟨fun p tag b v span x s takes attached => ?_, fun p tag b span x s takes attached => ?_⟩
  · intro refused staged
    have eq (bits : List Bool) := serveStage_eq (b := b) (v := v) (attachedAs_begun attached bits)
    simp only [isObserver_begun, stagedSet_begun] at eq
    refine ⟨fun beyond => exec_dismissed takes .stage nofun tag fun bits => ?_, fun l number => ?_⟩
    · rw [serve, eq, lineOfByte_beyond beyond]
    simp only [lineOfByte_of_toNat number] at eq
    refine ⟨fun low => exec_dismissed takes .stage nofun tag fun bits => ?_, fun above beyond =>
      exec_dismissed takes .stage nofun tag fun bits => ?_, fun above value is => ?_⟩
    · rw [serve, eq, if_pos ((isObserver_iff attached).mpr low)]
    · rw [serve, eq, if_neg (by simp [not_isObserver attached above]), valueOfByte_beyond beyond]
    simp only [not_isObserver attached above, Bool.false_eq_true, if_false, valueOfByte_of_value is] at eq
    have puts : ∀ set position replaced,
        ¬ (stagedHas l (s.stagedSet p) = false ∧ Config.stageDepth ≤ (s.stagedSet p).length) →
        stagePut l value (s.stagedSet p) = set → stagedPosition l set = position →
        (if stagedHas l (s.stagedSet p) then 1 else 0) = replaced → staged set position replaced := by
      rintro set position replaced room rfl rfl rfl
      have served (bits : List Bool) := (eq bits).trans (if_neg room)
      simp only [stageLine_eq, stagedSet_begun, countByte_of_lineOfByte (lineOfByte_of_toNat number)] at served
      obtain ⟨t, next, attended, frame, own⟩ := exec_serviced takes attached (r := .stage) (by simp) tag (served _)
        (reach := { staged := only p, sessions := only p, ports := only p }) (Frame.setStaged _ p _).widen
      refine ⟨t, next, ?_, attended, frame⟩
      rw [own.blocks.staged p rfl, stagedSet_setStaged, if_pos rfl]
    refine ⟨fun absent full => exec_dismissed takes .stage nofun tag fun bits => ?_, fun absent room => ?_,
      fun before e after parts own others => ?_⟩
    · rw [serve, eq, if_pos ⟨stagedHas_of_absent absent, full⟩]
    · have fresh := stagedHas_of_absent absent
      exact puts _ _ _ (fun full => Nat.not_le.mpr room full.2) (stagePut_of_not_has value fresh)
        (stagedPosition_eq rfl absent) (by rw [fresh]; rfl)
    · have has : stagedHas l (s.stagedSet p) = true := own ▸ stagedHas_of_mem (parts ▸ by simp)
      exact puts _ _ _ (fun full => by simp [has] at full) (by rw [parts, stagePut_of_has value own others])
        (stagedPosition_eq rfl fun f mem => others f (List.mem_append_left _ mem)) (by rw [has]; rfl)
  · have eq (bits : List Bool) := serveUnstage_eq (b := b) (attachedAs_begun attached bits)
    simp only [isObserver_begun] at eq
    refine ⟨fun beyond => exec_dismissed takes .unstage nofun tag fun bits => ?_, fun l number =>
      ⟨fun low => exec_dismissed takes .unstage nofun tag fun bits => ?_, fun above => ?_⟩⟩
    · rw [serve, eq, lineOfByte_beyond beyond]
    · rw [serve, eq, lineOfByte_of_toNat number]
      exact if_pos ((isObserver_iff attached).mpr low)
    · simp only [lineOfByte_of_toNat number, not_isObserver attached above, Bool.false_eq_true, if_false, unstageLine_eq,
        stagedSet_begun, countByte_of_lineOfByte (lineOfByte_of_toNat number)] at eq
      obtain ⟨t, next, attended, frame, own⟩ := exec_serviced takes attached (r := .unstage) (by simp) tag (eq _)
        (reach := { staged := only p, sessions := only p, ports := only p }) (Frame.setStaged _ p _).widen
      have set : t.stagedSet p = (s.stagedSet p).filter fun e => e.line ≠ l := by
        rw [own.blocks.staged p rfl, stagedSet_setStaged, if_pos rfl]
      exact ⟨t, next, set, by rw [set]; exact attended, frame⟩

/-! ### DISCARD -/

theorem serveDiscard_eq {p : Port} {a : Attached} {s : State} (attached : (s.session p).state = .attached a) :
    serveDiscard p [] s = if isObserver s p = true then (s, some ⟨.grade, []⟩)
      else (s.setStaged p [], some ⟨.ok, [countByte (s.stagedSet p).length]⟩) := by
  simp only [serveDiscard, sessionRefusal_attached attached]
  rfl

/-- A request that was only answered, of a session that is not ATTACHED, changes its port alone. -/
theorem Dismissed.frame_of_away {p : Port} {code tag : Byte} {payload : List Byte} {reply : Reply} {s t : State}
    (dismissed : Dismissed p code tag payload reply s t) (away : isAttached (s.session p).state = false) :
    Frame { ports := only p } s t := by
  obtain ⟨blocks, store, time, device, filters⟩ := dismissed.frame
  refine ⟨{ blocks with sessions := fun q _ => ?_ }, store, time, device, filters⟩
  by_cases own : q = p
  · rw [own, dismissed.session, session_restartLease_unattached away]
  · exact blocks.sessions q (only_false.mpr own)

/-- Settles O52, by the checks of DISCARD in their order. -/
theorem discardEmptiesStagedSet : Obligations.DiscardEmptiesStagedSet := by
  refine fun p tag span s takes => ⟨fun x attached above => ?_, fun x attached low => ?_, fun detached => ?_,
    fun lapsed => ?_, fun x payload nonempty takes attached => ?_⟩
  · have served (bits : List Bool) := serveDiscard_eq (attachedAs_begun attached bits)
    simp only [isObserver_begun, not_isObserver attached above, Bool.false_eq_true, if_false, stagedSet_begun] at served
    obtain ⟨t, next, attended, frame, own⟩ := exec_serviced takes attached (r := .discard) (by simp) tag (served _)
      (reach := { staged := only p, sessions := only p, ports := only p }) (Frame.setStaged _ p _).widen
    exact ⟨t, next, by rw [own.blocks.staged p rfl, stagedSet_setStaged, if_pos rfl], attended, frame⟩
  · have served (bits : List Bool) := serveDiscard_eq (attachedAs_begun attached bits)
    simp only [isObserver_begun, (isObserver_iff attached).mpr low, if_true] at served
    obtain ⟨t, next, attended, frame, -⟩ := exec_serviced takes attached (r := .discard) (by simp) tag (served _)
      (Frame.refl { sessions := only p, ports := only p } _)
    exact ⟨t, next, attended, frame⟩
  · have away : isAttached (s.session p).state = false := by rw [detached]; rfl
    obtain ⟨t, next, dismissed⟩ := exec_dismissed takes .discard nofun tag fun bits =>
      serve_unattached rfl rfl _ (sessionRefusal_eq_some.mpr (.inl ⟨by rw [session_begun_away bits away, detached], rfl⟩))
    exact ⟨t, next, dismissed.took, dismissed.frame_of_away away⟩
  · have away : isAttached (s.session p).state = false := by rw [lapsed]; rfl
    obtain ⟨t, next, dismissed⟩ := exec_dismissed takes .discard nofun tag fun bits =>
      serve_unattached rfl rfl _ (sessionRefusal_eq_some.mpr (.inr ⟨by rw [session_begun_away bits away, lapsed], rfl⟩))
    exact ⟨t, next, dismissed.took, dismissed.frame_of_away away⟩
  · have wrong : lengthFits .discard payload.length = false := by simpa [lengthFits] using nonempty
    obtain ⟨t, next, attended, frame, -⟩ := exec_serviced takes attached (r := .discard) (by simp) tag
      (serve_wrongLength (r := .discard) nofun wrong _ _ _) (Frame.refl { sessions := only p, ports := only p } _)
    exact ⟨t, next, attended, frame⟩

/-! ### COMMIT -/

theorem serveCommit_eq {p : Port} {a : Attached} {s : State} (attached : (s.session p).state = .attached a) :
    serveCommit p [] s = if isObserver s p = true then (s, some ⟨.grade, []⟩)
      else if allLines.any (commitFails p s) = true then
        (s, some ⟨.stale, mapBytes (lineMapOf (commitFails p s)) ++ [countByte (s.stagedSet p).length]⟩)
      else (applyStaged p s, some ⟨.ok, [countByte (s.stagedSet p).length] ++ wordBytes (s.stampAt .lineTable) ++
        mapBytes (lineMapOf (commitDeferred p s))⟩) := by
  simp only [serveCommit, sessionRefusal_attached attached]
  rfl

theorem commitFails_begun (p : Port) (bits : List Bool) (s : State) : commitFails p (begun p bits s) = commitFails p s :=
  funext fun l => by simp only [commitFails, stagedSet_begun, line_begun]

theorem commitDeferred_begun (p : Port) (bits : List Bool) (s : State) :
    commitDeferred p (begun p bits s) = commitDeferred p s :=
  funext fun l => by simp only [commitDeferred, stagedSet_begun, pulses_begun]

/-- A COMMIT is STALE when the line of an entry fails the commit check (R82). -/
theorem any_commitFails_iff {p : Port} {s : State} :
    allLines.any (commitFails p s) = true ↔ ∃ e, e ∈ s.stagedSet p ∧ commitPasses p (s.line e.line) = false := by
  rw [List.any_eq_true]
  constructor
  · rintro ⟨l, -, fails⟩
    obtain ⟨has, stale⟩ := (Bool.and_eq_true _ _).mp fails
    obtain ⟨e, mem, rfl⟩ := List.mem_map.mp (stagedHas_iff.mp has)
    exact ⟨e, mem, by simpa using stale⟩
  · rintro ⟨e, mem, stale⟩
    exact ⟨e.line, mem_allLines _, by rw [commitFails, stagedHas_of_mem mem, stale]; rfl⟩

/-- In a set on distinct lines, the value staged for the line of an entry is the value of that entry. -/
theorem stagedValueOf_of_mem {set : List StagedValue} (distinct : (set.map StagedValue.line).Nodup) {e : StagedValue}
    (mem : e ∈ set) : stagedValueOf e.line set = some e.value := by
  have found : set.find? (fun x => x.line = e.line) = some e := by
    induction set with
    | nil => cases mem
    | cons x set ih =>
      obtain ⟨fresh, distinct⟩ := List.nodup_cons.mp distinct
      obtain rfl | later := List.mem_cons.mp mem
      · exact List.find?_cons_of_pos (by simp)
      · have other : x.line ≠ e.line := fun same => fresh (same ▸ List.mem_map_of_mem later)
        rw [List.find?_cons_of_neg (by simpa using other), ih distinct later]
  rw [stagedValueOf, found]
  rfl

/-- Settles O53, by the commit check of the lines (`any_commitFails_iff`) and by what `setResting` makes of an entry. -/
theorem commitAppliesAllOrNone : Obligations.CommitAppliesAllOrNone := by
  intro p tag span x s takes attached distinct inSet passes
  have eq (bits : List Bool) := serveCommit_eq (attachedAs_begun attached bits)
  simp only [isObserver_begun, commitFails_begun, commitDeferred_begun, stagedSet_begun, stampAt_begun] at eq
  refine ⟨fun low => exec_dismissed takes .commit nofun tag fun bits => ?_, fun above pass => ?_, fun above stale =>
    exec_dismissed takes .commit nofun tag fun bits => ?_⟩
  · rw [serve, eq, if_pos ((isObserver_iff attached).mpr low)]
  · have applies : ¬ allLines.any (commitFails p s) = true := by
      rw [any_commitFails_iff]
      rintro ⟨e, mem, stale⟩
      exact Bool.false_ne_true (stale.symm.trans (pass e mem))
    simp only [not_isObserver attached above, Bool.false_eq_true, if_false, applies] at eq
    obtain ⟨t, next, attended, frame, own⟩ := exec_serviced takes attached (r := .commit) (by simp) tag (eq _)
      (reach := { lines := inSet, pads := inSet, staged := only p, sessions := only p, ports := only p })
      ((Frame.applyStaged p _).widen (by simp only [stagedSet_begun]; constructor <;> simp [inSet, stagedHas]))
    refine ⟨t, next, fun e mem => ?_, ?_, attended, frame⟩
    · have line : t.line e.line = setResting p e.value (s.line e.line) := by
        rw [own.blocks.lines _ rfl, line_applyStaged, stagedSet_begun, line_begun, stagedValueOf_of_mem distinct mem]
        rfl
      rw [line]
      refine ⟨by rw [ownerOf_setResting, if_pos rfl], fun q other => by rw [ownerOf_setResting, if_neg other],
        setResting_queue _ _ _, setResting_confirmed _ _ _, ?_⟩
      rw [own.blocks.pads _ rfl, pad_applyStaged, stagedSet_begun, if_pos (stagedHas_of_mem mem), padFor_beyond_port own]
    · rw [own.blocks.staged p rfl, stagedSet_applyStaged, if_pos rfl]
  · rw [serve, eq, if_neg (by simp [not_isObserver attached above]), if_pos (any_commitFails_iff.mpr stale)]
    rfl

/-! ### PULSE -/

/-- In a list in ascending order, the lowest element with a property is the one found. -/
theorem find_lowest {xs : List TimerId} (sorted : xs.Pairwise (· < ·)) {f : TimerId → Bool} {y : TimerId} (mem : y ∈ xs)
    (hit : f y = true) (below : ∀ z, z < y → f z = false) : xs.find? f = some y := by
  induction xs with
  | nil => cases mem
  | cons x xs ih =>
    obtain ⟨first, sorted⟩ := List.pairwise_cons.mp sorted
    obtain rfl | later := List.mem_cons.mp mem
    · exact List.find?_cons_of_pos hit
    · rw [List.find?_cons_of_neg (by simp [below x (first y later)]), ih sorted later]

theorem lowestFreeTimer_eq_some {s : State} {y : TimerId} (free : s.timer y = none)
    (below : ∀ z, z < y → s.timer z ≠ none) : s.lowestFreeTimer = some y :=
  find_lowest (by decide) (mem_allTimers y) (by rw [free]; rfl) fun z lower =>
    Bool.eq_false_iff.mpr fun none => below z lower (Option.isNone_iff_eq_none.mp none)

theorem lowestFreeTimer_eq_none {s : State} (busy : ∀ y, s.timer y ≠ none) : s.lowestFreeTimer = none :=
  List.find?_eq_none.mpr fun y _ => by simpa using busy y

theorem lowestFreeTimer_begun (p : Port) (bits : List Bool) (s : State) :
    (begun p bits s).lowestFreeTimer = s.lowestFreeTimer := by
  simp only [State.lowestFreeTimer, timer_begun]

theorem pulseVerdict_eq {p : Port} {a : PulseArgs} {x : Attached} {s : State}
    (attached : (s.session p).state = .attached x) :
    pulseVerdict p a s = match lineOfByte a.line with
      | none => .error .range
      | some l =>
        if isObserver s p = true then .error .grade
        else match ownerOf p (s.line l) with
          | none => .error .notHeld
          | some r =>
            if valueOfWant r.want = none then .error .mode
            else match valueOfByte a.value with
              | none => .error .badArg
              | some v =>
                if a.duration = 0 then .error .badArg
                else if r.pulse ≠ none then .error .busy
                else match s.lowestFreeTimer with
                  | none => .error .noTimer
                  | some t => .ok (l, v, t) := by
  simp only [pulseVerdict, sessionRefusal_attached attached, Option.isNone_iff_eq_none, Option.isSome_iff_ne_none] <;> rfl

theorem servePulse_eq {p : Port} {b v hi lo : Byte} {s : State} :
    servePulse p [b, v, hi, lo] s = match pulseVerdict p ⟨b, v, hi ++ lo⟩ s with
      | .error r => (s, some ⟨r, []⟩)
      | .ok (l, v, y) => (startPulse p l v (hi ++ lo).toNat y s,
        some ⟨.ok, [countByte l.val, countByte y.val] ++ wordBytes (s.stampAt .pulsePool) ++
          wordBytes (s.stampAt .pulsePool + (hi ++ lo))⟩) := rfl

/-- Settles O54, by the checks of PULSE in their order (`pulseVerdict_eq`) and by `startPulse`. -/
theorem pulseStartsTimer : Obligations.PulseStartsTimer := by
  intro p tag b v hi lo span x s takes attached refused
  have verdict (bits : List Bool) := pulseVerdict_eq (a := ⟨b, v, hi ++ lo⟩) (attachedAs_begun attached bits)
  simp only [isObserver_begun, line_begun, lowestFreeTimer_begun] at verdict
  have dismiss : ∀ {r}, (∀ bits, pulseVerdict p ⟨b, v, hi ++ lo⟩ (begun p bits s) = .error r) → refused r := fun error =>
    exec_dismissed takes .pulse nofun tag fun bits => by rw [serve, servePulse_eq, error bits]
  refine ⟨fun beyond => dismiss fun bits => ?_, fun l number => ?_⟩
  · rw [verdict, lineOfByte_beyond beyond]
  simp only [lineOfByte_of_toNat number] at verdict
  refine ⟨fun low => dismiss fun bits => ?_, fun above => ?_⟩
  · rw [verdict, if_pos ((isObserver_iff attached).mpr low)]
  simp only [not_isObserver attached above, Bool.false_eq_true, if_false] at verdict
  refine ⟨fun none => dismiss fun bits => ?_, fun r owner => ?_⟩
  · rw [verdict, none]
  simp only [owner] at verdict
  refine ⟨fun holds => dismiss fun bits => ?_, fun drives => ⟨fun bad => dismiss fun bits => ?_, fun value is nonzero => ?_⟩⟩
  · rw [verdict, if_pos holds]
  · rw [verdict, if_neg drives]
    obtain beyond | zero := bad
    · rw [valueOfByte_beyond beyond]
    · split
      · rfl
      · exact if_pos zero
  simp only [drives, if_false, valueOfByte_of_value is] at verdict
  replace verdict (bits : List Bool) := (verdict bits).trans (if_neg nonzero)
  refine ⟨fun busy => dismiss fun bits => ?_, fun idle => ⟨fun busy => dismiss fun bits => ?_, fun y free below => ?_⟩⟩
  · rw [verdict, if_pos busy]
  · rw [verdict, if_neg (not_not.mpr idle), lowestFreeTimer_eq_none busy]
  simp only [idle, ne_eq, not_true_eq_false, if_false, lowestFreeTimer_eq_some free below] at verdict
  have served (bits : List Bool) : servePulse p [b, v, hi, lo] (begun p bits s) = _ := servePulse_eq
  simp only [verdict, stampAt_begun, countByte_of_lineOfByte (lineOfByte_of_toNat number)] at served
  obtain ⟨t, next, attended, frame, own⟩ := exec_serviced takes attached (r := .pulse) (by simp) tag (served _)
    (reach := { lines := only l, pads := only l, timers := only y, sessions := only p, ports := only p })
    (Frame.startPulse p l value _ y _).widen
  have line : t.line l = setPulse p (some y) (s.line l) := by
    rw [own.blocks.lines l rfl, line_startPulse, if_pos rfl, line_begun]
  refine ⟨t, next, ?_, ?_, fun q other => ?_, ?_, ?_, ?_, attended, frame⟩
  · rw [own.blocks.timers y rfl, timer_startPulse, if_pos rfl]
    rfl
  · rw [line, ownerOf_setPulse, if_pos rfl, owner]
    rfl
  · rw [line, ownerOf_setPulse, if_neg other]
  · rw [line, setPulse_queue]
  · rw [line, setPulse_confirmed]
  · rw [own.blocks.pads l rfl, pad_startPulse, if_pos rfl, padFor_beyond_port own]

end Sys2Proof.Machine

/-! PROOFS. WATCH and FETCH EVENTS. -/

namespace Sys2Proof.Machine

set_option Elab.async false

/-! ### WATCH -/

theorem watchOfByte_beyond {b : Byte} (beyond : 4 ≤ b.toNat) : watchOfByte b = none := by
  have other : ∀ c : Byte, c.toNat < 4 → b ≠ c := fun c low is => Nat.not_lt.mpr beyond (is ▸ low)
  rw [watchOfByte, if_neg (other 0 (by decide)), if_neg (other 1 (by decide)), if_neg (other 2 (by decide)),
    if_neg (other 3 (by decide))]

theorem serveWatch_eq {p : Port} {b2 b1 b0 e : Byte} {a : Attached} {s : State}
    (attached : (s.session p).state = .attached a) :
    serveWatch p [b2, b1, b0, e] s = match watchOfByte e with
      | none => (s, some ⟨.badArg, []⟩)
      | some x => (s.setWatch p (setWatches (b2 ++ b1 ++ b0) x (s.watch p)),
        some ⟨.ok, mapBytes (watchMap true (setWatches (b2 ++ b1 ++ b0) x (s.watch p))) ++
          mapBytes (watchMap false (setWatches (b2 ++ b1 ++ b0) x (s.watch p))) ++ mapBytes (confirmedMap s) ++
          wordBytes (s.stampAt .inputMonitor)⟩) := by
  simp only [serveWatch, watchArgs, sessionRefusal_attached attached]
  rfl

theorem getElem_setWatches (mask : LineMap) (x : WatchSetting) (w : Vector WatchSetting 24) (l : Line) :
    (setWatches mask x w)[l] = if mask.getLsbD l.val then x else w[l] := by
  simp [setWatches]

/-- The maps of the watched edges by the settings (R96). -/
theorem watchMap_rise (w : Vector WatchSetting 24) : watchMap true w = lineMapOf fun l => w[l] = .rise ∨ w[l] = .both :=
  congrArg lineMapOf (funext fun l => by cases w[l] <;> rfl)

theorem watchMap_fall (w : Vector WatchSetting 24) : watchMap false w = lineMapOf fun l => w[l] = .fall ∨ w[l] = .both :=
  congrArg lineMapOf (funext fun l => by cases w[l] <;> rfl)

/-- Settles O55, by `setWatches`. -/
theorem watchSetsEdges : Obligations.WatchSetsEdges := by
  intro p tag b2 b1 b0 e span x s takes attached
  have eq (bits : List Bool) := serveWatch_eq (b2 := b2) (b1 := b1) (b0 := b0) (e := e) (attachedAs_begun attached bits)
  refine ⟨fun beyond => exec_dismissed takes .watch nofun tag fun bits => ?_, fun setting named => ?_⟩
  · rw [serve, eq, watchOfByte_beyond beyond]
  simp only [named, watch_begun, stampAt_begun, watchMap_rise, watchMap_fall, confirmedMap, line_begun] at eq
  obtain ⟨t, next, attended, frame, own⟩ := exec_serviced takes attached (r := .watch) (by simp) tag (eq _)
    (reach := { watches := only p, sessions := only p, ports := only p }) (Frame.setWatch _ p _).widen
  have watch : t.watch p = setWatches (b2 ++ b1 ++ b0) setting (s.watch p) := by
    rw [own.blocks.watches p rfl, watch_setWatch, if_pos rfl]
  exact ⟨t, next, fun l => by rw [watch, getElem_setWatches], by rw [watch]; exact attended, frame⟩

/-! ### FETCH EVENTS -/

theorem serveFetchEvents_eq {p : Port} {n : Byte} {a : Attached} {s : State} (attached : (s.session p).state = .attached a) :
    serveFetchEvents p [n] s = if 7 < n.toNat then (s, some ⟨.badArg, []⟩)
      else (s.putQueue p ⟨(s.queue p).records.drop n.toNat, 0⟩,
        some ⟨.ok, [countByte (min n.toNat (s.queue p).records.length), countByte (s.queue p).dropped,
          countByte ((s.queue p).records.length - n.toNat)] ++
          ((s.queue p).records.take n.toNat).flatMap recordBytes⟩) := by
  rw [← List.length_take, ← List.length_drop]
  simp only [serveFetchEvents, sessionRefusal_attached attached]
  rfl

/-- Settles O56: the service takes from the head of the queue. -/
theorem fetchEventsDrainsQueue : Obligations.FetchEventsDrainsQueue := by
  intro p tag n span x s takes attached
  have eq (bits : List Bool) := serveFetchEvents_eq (n := n) (attachedAs_begun attached bits)
  refine ⟨fun beyond => exec_dismissed takes .fetchEvents nofun tag fun bits => ?_, fun within => ?_⟩
  · rw [serve, eq]
    exact if_pos beyond
  simp only [Nat.not_lt.mpr within, if_false, queue_begun] at eq
  obtain ⟨t, next, attended, frame, own⟩ := exec_serviced takes attached (r := .fetchEvents) (by simp) tag (eq _)
    (reach := { queues := only p, sessions := only p, ports := only p }) (Frame.putQueue _ p _).widen
  exact ⟨t, next, by rw [own.blocks.queues p rfl, queue_putQueue, if_pos rfl], attended, frame⟩

end Sys2Proof.Machine

/-! PROOFS. The profile requests: OPEN EDIT and CLOSE EDIT, WRITE IMAGE and READ IMAGE, BURN IMAGE. -/

namespace Sys2Proof.Machine

set_option Elab.async false

/-! ### What a profile request leaves -/

theorem Frame.withBuffer {r : Reach} {s u : State} (frame : Frame r s u) (buffer : Image) :
    Frame r { s with buffer := buffer } { u with buffer := buffer } where
  blocks := { frame.blocks with }
  store := { frame.store with buffer := rfl }
  time := { frame.time with }
  device := { frame.device with }
  filters := frame.filters

theorem Frame.withBurn {r : Reach} {s u : State} (frame : Frame r s u) (burn : Option Burning) :
    Frame r { s with burn := burn } { u with burn := burn } where
  blocks := { frame.blocks with }
  store := { frame.store with burn := rfl }
  time := { frame.time with }
  device := { frame.device with }
  filters := frame.filters

theorem Frame.withRecord {r : Reach} {s u : State} (frame : Frame r s u) (x : SlotId) (status : SlotStatus) :
    Frame r (s.setRecord x status) (u.setRecord x status) := by
  cases x with
  | a =>
    exact ⟨{ frame.blocks with }, { frame.store with recordA := rfl }, { frame.time with }, { frame.device with },
      frame.filters⟩
  | b =>
    exact ⟨{ frame.blocks with }, { frame.store with recordB := rfl }, { frame.time with }, { frame.device with },
      frame.filters⟩

/-- A taken request whose service comes to this state, reached from `s'` but for the session and the port of the
request. -/
theorem exec_performed {p : Port} {span : Span} {payload : List Byte} {s s' : State} (takes : Takes p span payload s)
    {r : Request} (named : r ≠ .portReset ∧ r ≠ .attach ∧ r ≠ .detach) (tag : Byte) {served : Served}
    (serves : serve r (leaseFound p s) p payload (begun p (frameBits p payload s) s) = served)
    (changed : Frame { sessions := only p, ports := only p } s' served.1) :
    ∃ t, exec (requestInstr r p tag payload span) s = .next t ∧
      Performed p (requestCode r) tag payload served.2 s' s t ∧ Frame { ports := only p } served.1 t := by
  obtain ⟨other, notAttach, notDetach⟩ := named
  have fields := serve_fields r (leaseFound p s) p payload (begun p (frameBits p payload s) s)
  rw [serves] at fields
  obtain ⟨ports, sessions⟩ := fields
  obtain ⟨next, took⟩ := exec_served takes other tag serves (by rw [State.port, ports]; rfl)
  refine ⟨_, next, ⟨took, ?_, changed.trans (Frame.placed _ _ _).widen⟩, Frame.placed _ _ _⟩
  rw [session_placed, State.session, sessions notAttach notDetach]
  exact session_begun p _ s

/-! ### The checks shared by the profile requests -/

theorem editingRefusal_passes {p : Port} {s : State} (device : s.device = .maintenance)
    (session : (s.session p).state ≠ .lapsed) (bits : List Bool) : editingRefusal (begun p bits s) p = none := by
  unfold editingRefusal
  rw [begun_device, device]
  split
  · next lapsed => exact absurd ((lapsed_begun p bits s).mp lapsed) session
  · rfl

theorem readingRefusal_passes {p : Port} {s : State} (session : (s.session p).state ≠ .lapsed) (bits : List Bool) :
    readingRefusal (begun p bits s) p = none := by
  unfold readingRefusal
  split
  · next lapsed => exact absurd ((lapsed_begun p bits s).mp lapsed) session
  · rfl

theorem isEditor_begun (p : Port) (bits : List Bool) (s : State) :
    isEditor (begun p bits s) p = decide (s.lock = .held p) := by
  rw [isEditor, begun_lock]

/-! ### OPEN EDIT and CLOSE EDIT -/

theorem serveOpenEdit_eq {p : Port} {s : State} (passes : editingRefusal s p = none) :
    serveOpenEdit p [] s = match s.lock with
      | .free => ({ s with lock := .held p, buffer := (openSource s.active).1 }, some ⟨.ok, (openSource s.active).2⟩)
      | .held h => (s, some ⟨.editHeld, [BitVec.ofNat 8 h.val]⟩)
      | .releasing => (s, some ⟨.editHeld, [0x81#8]⟩) := by
  simp only [serveOpenEdit, passes]
  rfl

theorem serveCloseEdit_eq {p : Port} {s : State} (passes : editingRefusal s p = none) :
    serveCloseEdit p [] s = if s.burn.isSome = true then (s, some ⟨.busy, []⟩)
      else if isEditor s p = false then (s, some ⟨.notEditor, []⟩)
      else ({ s with lock := .free }, some ⟨.ok, []⟩) := by
  simp only [serveCloseEdit, passes, Bool.not_eq_true']
  rfl

/-- What OPEN EDIT reports of the image it copies (R162). -/
theorem openSource_report (active : Option Image) : (openSource active).2 = match active with
    | some img => [0, imageRead img 1, imageRead img 2]
    | none => [1, 0, 0] := by
  cases active with
  | none => rfl
  | some img =>
    rw [openSource, profileGeneration, imageWord, wordBytes_append]
    rfl

theorem imageRead_openSource (active : Option Image) (k : Nat) : imageRead (openSource active).1 k = match active with
    | some img => imageRead img k
    | none => 0 := by
  cases active <;> rfl

/-- Settles O58, by the checks of OPEN EDIT and CLOSE EDIT in their order. -/
theorem editLockTakenAndFreed : Obligations.EditLockTakenAndFreed := by
  refine ⟨fun p tag span s takes device session => ?_, fun p tag span s takes device session => ?_⟩
  · have eq (bits : List Bool) := serveOpenEdit_eq (editingRefusal_passes device session bits)
    refine ⟨fun free => ?_, fun taken => exec_dismissed takes .openEdit nofun tag fun bits => ?_⟩
    · have served (bits : List Bool) : serveOpenEdit p [] (begun p bits s) =
          ({ begun p bits s with lock := .held p, buffer := (openSource s.active).1 },
            some ⟨.ok, (openSource s.active).2⟩) := by
        rw [← begun_active p bits s, eq, begun_lock, free]
      obtain ⟨t, next, performed, own⟩ := exec_performed takes (r := .openEdit) (by simp) tag (served _)
        (((Frame.begun p _ s).withLock (.held p)).withBuffer (openSource s.active).1)
      have buffer : t.buffer = (openSource s.active).1 := own.store.buffer
      refine ⟨t, next, own.store.lock, fun k _ => ?_, ?_⟩
      · rw [buffer, imageRead_openSource] <;> rfl
      · rw [openSource_report] at performed
        rw [buffer]
        exact performed
    · rw [serve, eq, begun_lock]
      cases lock : s.lock with
      | free => exact absurd lock taken
      | held h => rfl
      | releasing => rfl
  · have eq (bits : List Bool) := serveCloseEdit_eq (editingRefusal_passes device session bits)
    refine ⟨fun burns => exec_dismissed takes .closeEdit nofun tag fun bits => ?_, fun idle other =>
      exec_dismissed takes .closeEdit nofun tag fun bits => ?_, fun idle editor => ?_⟩
    · rw [serve, eq, if_pos (by rw [begun_burn]; exact Option.isSome_iff_ne_none.mpr burns)]
    · rw [serve, eq, if_neg (by simp [idle]), if_pos (by rw [isEditor_begun]; simpa using other)]
    · have served (bits : List Bool) : serveCloseEdit p [] (begun p bits s) =
          ({ begun p bits s with lock := .free }, some ⟨.ok, []⟩) := by
        rw [eq, if_neg (by simp [idle]), if_neg (by simp [isEditor_begun, editor])]
      obtain ⟨t, next, performed, -⟩ := exec_performed takes (r := .closeEdit) (by simp) tag (served _)
        ((Frame.begun p _ s).withLock .free)
      exact ⟨t, next, performed⟩

/-! ### WRITE IMAGE and READ IMAGE -/

theorem serveWriteImage_eq {p : Port} {offset : Byte} {data : List Byte} {s : State} (passes : editingRefusal s p = none) :
    serveWriteImage p (offset :: data) s = if s.burn.isSome = true then (s, some ⟨.busy, []⟩)
      else if isEditor s p = false then (s, some ⟨.notEditor, []⟩)
      else if data.length < 1 ∨ 24 < data.length then (s, some ⟨.badArg, []⟩)
      else if imageSize < offset.toNat + data.length then (s, some ⟨.range, []⟩)
      else ({ s with buffer := imageWriteBytes s.buffer offset.toNat data },
        some ⟨.ok, [offset, countByte data.length]⟩) := by
  simp only [serveWriteImage, passes, Bool.not_eq_true']
  rfl

theorem serveReadImage_eq {p : Port} {source offset count : Byte} {s : State} (passes : readingRefusal s p = none) :
    serveReadImage p [source, offset, count] s = if 3 < source.toNat then (s, some ⟨.badArg, []⟩)
      else if count.toNat < 1 ∨ 32 < count.toNat then (s, some ⟨.badArg, []⟩)
      else if imageSize < offset.toNat + count.toNat then (s, some ⟨.range, []⟩)
      else match readSource p source s with
        | .error r => (s, some ⟨r, []⟩)
        | .ok img => (s, some ⟨.ok, [source, offset, count] ++ imageBytes img offset.toNat count.toNat⟩) := by
  have own (b : Byte) : countByte b.toNat = b := BitVec.eq_of_toNat_eq (by simp [countByte])
  simp only [serveReadImage, readArgs, passes, own]
  rfl

/-- Reading a source looks at nothing the restart of a lease changes. -/
theorem readSource_begun (p : Port) (bits : List Bool) (source : Byte) (s : State) :
    readSource p source (begun p bits s) = readSource p source s := by
  simp only [readSource, begun_active, begun_buffer, begun_burn, slot_begun, isEditor, begun_lock] <;> rfl

/-- The source of a slot is busy while a burn writes to it (R164). -/
theorem readSource_slot (p : Port) (s : State) (x : SlotId) {source : Byte}
    (is : source = match x with | .a => 1 | .b => 2) :
    readSource p source s = match s.burn with
      | some b => if b.target = x then .error .busy else .ok (s.slot x)
      | none => .ok (s.slot x) := by
  subst is
  cases x <;> rfl

/-- Settles O59, by the checks of WRITE IMAGE and READ IMAGE in their order and by what written bytes read as
(`imageRead_imageWriteBytes`). -/
theorem imageBytesWrittenAndRead : Obligations.ImageBytesWrittenAndRead := by
  refine ⟨fun p tag offset data span s takes wf device session => ?_,
    fun p tag source offset count span s takes session => ?_⟩
  · intro refused
    have eq (bits : List Bool) :=
      serveWriteImage_eq (offset := offset) (data := data) (editingRefusal_passes device session bits)
    refine ⟨fun burns => exec_dismissed takes .writeImage nofun tag fun bits => ?_, fun idle other =>
      exec_dismissed takes .writeImage nofun tag fun bits => ?_, fun idle editor => ?_⟩
    · rw [serve, eq, if_pos (by rw [begun_burn]; exact Option.isSome_iff_ne_none.mpr burns)]
    · rw [serve, eq, if_neg (by simp [idle]), if_pos (by rw [isEditor_begun]; simpa using other)]
    replace eq (bits : List Bool) := ((eq bits).trans (if_neg (by simp [idle]))).trans
      (if_neg (by simp [isEditor_begun, editor]))
    have counted (some : data ≠ []) (few : data.length ≤ 24) : ¬ (data.length < 1 ∨ 24 < data.length) := by
      have := List.length_pos_iff.mpr some
      omega
    refine ⟨fun wrong => exec_dismissed takes .writeImage nofun tag fun bits => ?_, fun some few beyond =>
      exec_dismissed takes .writeImage nofun tag fun bits => ?_,
      fun some few (within : offset.toNat + data.length ≤ imageSize) => ?_⟩
    · rw [serve, eq]
      refine if_pos (wrong.imp_left ?_)
      rintro rfl
      exact Nat.zero_lt_one
    · rw [serve, eq, if_neg (counted some few)]
      exact if_pos beyond
    · have served (bits : List Bool) : serveWriteImage p (offset :: data) (begun p bits s) =
          ({ begun p bits s with buffer := imageWriteBytes s.buffer offset.toNat data },
            Option.some ⟨.ok, [offset, countByte data.length]⟩) := by
        rw [← begun_buffer p bits s, eq, if_neg (counted some few), if_neg (Nat.not_lt.mpr within)]
      obtain ⟨t, next, performed, own⟩ := exec_performed takes (r := .writeImage) (by simp) tag (served _)
        ((Frame.begun p _ s).withBuffer (imageWriteBytes s.buffer offset.toNat data))
      have buffer : t.buffer = imageWriteBytes s.buffer offset.toNat data := own.store.buffer
      exact ⟨t, next, fun k => by rw [buffer, imageRead_imageWriteBytes wf _ _ within], by rw [buffer]; exact performed⟩
  · intro answered served
    have eq (bits : List Bool) := serveReadImage_eq (source := source) (offset := offset) (count := count)
      (readingRefusal_passes session bits)
    simp only [readSource_begun] at eq
    refine ⟨fun beyond => exec_dismissed takes .readImage nofun tag fun bits => ?_, fun known wrong =>
      exec_dismissed takes .readImage nofun tag fun bits => ?_, fun known some few => ⟨fun beyond =>
      exec_dismissed takes .readImage nofun tag fun bits => ?_, fun (within : offset.toNat + count.toNat ≤ imageSize) => ?_⟩⟩
    · rw [serve, eq]
      exact if_pos beyond
    · rw [serve, eq, if_neg (Nat.not_lt.mpr known)]
      refine if_pos (wrong.imp_left ?_)
      rintro rfl
      exact Nat.zero_lt_one
    all_goals
      have counted : ¬ (count.toNat < 1 ∨ 32 < count.toNat) := by
        have : count.toNat ≠ 0 := fun zero => some (BitVec.eq_of_toNat_eq zero)
        omega
    · rw [serve, eq, if_neg (Nat.not_lt.mpr known), if_neg counted]
      exact if_pos beyond
    have refuse : ∀ {r}, readSource p source s = .error r → answered r [] := fun error =>
      exec_dismissed takes .readImage nofun tag fun bits => by
        rw [serve, eq, if_neg (Nat.not_lt.mpr known), if_neg counted, if_neg (Nat.not_lt.mpr within), error]
    have deliver : ∀ {img}, readSource p source s = .ok img → served img := fun ok =>
      exec_dismissed takes .readImage nofun tag fun bits => by
        rw [serve, eq, if_neg (Nat.not_lt.mpr known), if_neg counted, if_neg (Nat.not_lt.mpr within), ok]
        rfl
    refine ⟨fun active none => refuse ?_, fun active img is => deliver ?_, fun buffer other => refuse ?_,
      fun buffer editor => deliver ?_, fun slot is => ⟨fun ⟨b, burns, target⟩ => refuse ?_, fun spared => deliver ?_⟩⟩
    · rw [readSource, if_pos active, none]
    · rw [readSource, if_pos active, is]
    · rw [readSource, buffer, if_neg (by decide), if_pos rfl, if_neg (by simpa [isEditor] using other)]
    · rw [readSource, buffer, if_neg (by decide), if_pos rfl, if_pos (by simpa [isEditor] using editor)]
    · rw [readSource_slot p s slot is, burns]
      exact if_pos target
    · rw [readSource_slot p s slot is]
      cases burn : s.burn with
      | none => rfl
      | some b => exact if_neg (spared b burn)

end Sys2Proof.Machine

/-! PROOFS. BURN IMAGE: the seal of the buffer and the start of the burn. -/

namespace Sys2Proof.Machine

set_option Elab.async false

/-! ### The sealed buffer (R166 steps 1 and 2) -/

/-- A two-byte quantity from its bytes, high byte first. -/
theorem append_wordBytes (w : BitVec 16) : (w.extractLsb' 8 8 ++ w.extractLsb' 0 8 : BitVec 16) = w := by
  refine BitVec.eq_of_getLsbD_eq fun i within => ?_
  refine BitVec.getLsbD_append.trans ?_
  by_cases low : i < 8
  · simp [low]
  · simp [low, show i - 8 < 8 by omega, show 8 + (i - 8) = i by omega]

/-- A word written at an offset reads there, and the other bytes stay. -/
theorem imageRead_writeWord {img : Image} (wf : imageWf img = true) (offset : Nat) (w : BitVec 16)
    (fits : offset + 2 ≤ imageSize) (k : Nat) :
    imageRead (imageWriteBytes img offset (wordBytes w)) k =
      if k = offset then w.extractLsb' 8 8 else if k = offset + 1 then w.extractLsb' 0 8 else imageRead img k := by
  rw [imageRead_imageWriteBytes wf offset (wordBytes w) fits, wordBytes]
  by_cases first : k = offset
  · rw [first, if_pos (by simp), if_pos rfl, Nat.sub_self]
    rfl
  · by_cases second : k = offset + 1
    · rw [second, if_pos (by simp), if_neg (by omega), if_pos rfl, Nat.add_sub_cancel_left]
      rfl
    · rw [if_neg first, if_neg second, if_neg (by simp only [List.length_cons, List.length_nil]; omega)]

theorem imageWord_writeWord {img : Image} (wf : imageWf img = true) (offset : Nat) (w : BitVec 16)
    (fits : offset + 2 ≤ imageSize) : imageWord (imageWriteBytes img offset (wordBytes w)) offset = w := by
  rw [imageWord, imageRead_writeWord wf offset w fits, imageRead_writeWord wf offset w fits, if_pos rfl,
    if_neg (by omega), if_pos rfl]
  exact append_wordBytes w

/-- The buffer with the assigned generation, before its CRC-16. -/
def numbered (generation : BitVec 16) (img : Image) : Image := imageWriteBytes img 1 (wordBytes generation)

theorem sealBuffer_eq (generation : BitVec 16) (img : Image) :
    sealBuffer generation img =
      imageWriteBytes (numbered generation img) 126 (wordBytes (imageCrc (numbered generation img))) := rfl

theorem imageWf_numbered {img : Image} (wf : imageWf img = true) (generation : BitVec 16) :
    imageWf (numbered generation img) = true := imageWf_imageWriteBytes wf 1 _

/-- The CRC-16 does not cover itself. -/
theorem imageRead_sealBuffer_covered {img : Image} (wf : imageWf img = true) (generation : BitVec 16) {k : Nat}
    (covered : k < 126) :
    imageRead (sealBuffer generation img) k = imageRead (numbered generation img) k := by
  rw [sealBuffer_eq, imageRead_writeWord (imageWf_numbered wf generation) 126 _ (Nat.le_refl 128), if_neg (by omega),
    if_neg (by omega)]

theorem imageCrc_sealBuffer {img : Image} (wf : imageWf img = true) (generation : BitVec 16) :
    imageCrc (sealBuffer generation img) = imageCrc (numbered generation img) := by
  refine congrArg crc16 (List.map_congr_left fun k mem => ?_)
  rw [imageRead_sealBuffer_covered wf generation (by rw [Nat.zero_add]; exact List.mem_range.mp mem)]

theorem imageWord_crc_sealBuffer {img : Image} (wf : imageWf img = true) (generation : BitVec 16) :
    imageWord (sealBuffer generation img) 126 = imageCrc (sealBuffer generation img) := by
  rw [imageCrc_sealBuffer wf]
  exact imageWord_writeWord (imageWf_numbered wf generation) 126 _ (Nat.le_refl 128)

theorem profileGeneration_sealBuffer {img : Image} (wf : imageWf img = true) (generation : BitVec 16) :
    profileGeneration (sealBuffer generation img) = generation := by
  rw [profileGeneration, imageWord, imageRead_sealBuffer_covered wf generation (by omega),
    imageRead_sealBuffer_covered wf generation (by omega)]
  exact imageWord_writeWord wf 1 generation (by decide)

theorem imageRead_sealBuffer_other {img : Image} (wf : imageWf img = true) (generation : BitVec 16) {k : Nat} (high : k ≠ 1)
    (low : k ≠ 2) (crcHigh : k ≠ 126) (crcLow : k ≠ 127) : imageRead (sealBuffer generation img) k = imageRead img k := by
  rw [sealBuffer_eq, imageRead_writeWord (imageWf_numbered wf generation) 126 _ (Nat.le_refl 128), if_neg crcHigh,
    if_neg crcLow, numbered, imageRead_writeWord wf 1 _ (by decide), if_neg high, if_neg low]

/-! ### BURN IMAGE -/

theorem serveBurnImage_eq {p : Port} {s : State} (passes : editingRefusal s p = none) :
    serveBurnImage p [] s = if s.burn.isSome = true then (s, some ⟨.busy, []⟩)
      else if isEditor s p = false then (s, some ⟨.notEditor, []⟩)
      else if Config.maxGeneration < largestGeneration s + 1 then
        (s, some ⟨.genExhausted, wordBytes (BitVec.ofNat 16 (largestGeneration s))⟩)
      else burnSealed p (BitVec.ofNat 16 (largestGeneration s + 1)) s := by
  simp only [serveBurnImage, passes, Bool.not_eq_true']
  rfl

theorem largestGeneration_begun (p : Port) (bits : List Bool) (s : State) :
    largestGeneration (begun p bits s) = largestGeneration s := by
  simp only [largestGeneration, begun_recordA, begun_recordB]

theorem burnSealed_offends {p : Port} {generation : BitVec 16} {s : State} {offset : Nat}
    (offends : offendingOffset (sealBuffer generation s.buffer) = some offset) :
    burnSealed p generation s =
      ({ s with buffer := sealBuffer generation s.buffer }, some ⟨.invalidImage, [countByte offset]⟩) := by
  simp only [burnSealed, offends]
  rfl

theorem burnSealed_burns {p : Port} {generation : BitVec 16} {s : State}
    (valid : offendingOffset (sealBuffer generation s.buffer) = none) :
    burnSealed p generation s = (startBurn p generation { s with buffer := sealBuffer generation s.buffer }, none) := by
  simp only [burnSealed, valid]

theorem SameStore.record {s t : State} (same : SameStore s t) (x : SlotId) : t.record x = s.record x := by
  cases x with
  | a => exact same.recordA
  | b => exact same.recordB

theorem burnTarget_of_not_a {active : Option SlotId} (other : active ≠ some .a) : burnTarget active = .a := by
  cases active with
  | none => rfl
  | some x =>
    cases x with
    | a => exact absurd rfl other
    | b => rfl

/-- The state a BURN IMAGE of a valid buffer leaves at the Profile Store (R166). -/
def burning (target : SlotId) (burn : Burning) (buffer : Image) (s : State) : State :=
  { State.setRecord { s with buffer := buffer } target .invalid with burn := some burn }

theorem Frame.burning {r : Reach} {s u : State} (frame : Frame r s u) (target : SlotId) (burn : Burning) (buffer : Image) :
    Frame r (Machine.burning target burn buffer s) (Machine.burning target burn buffer u) :=
  ((frame.withBuffer buffer).withRecord target .invalid).withBurn (some burn)

theorem record_burning (target : SlotId) (burn : Burning) (buffer : Image) (s : State) (x : SlotId) :
    (burning target burn buffer s).record x = if x = target then some .invalid else s.record x :=
  record_setRecord { s with buffer := buffer } target x .invalid

theorem buffer_burning (target : SlotId) (burn : Burning) (buffer : Image) (s : State) :
    (burning target burn buffer s).buffer = buffer := by
  cases target <;> rfl

/-- The state is known by its buffer, its burn and its slot records, and otherwise as it was. -/
theorem burning_of_fields {target : SlotId} {burn : Burning} {buffer : Image} {s t : State} (sealed : t.buffer = buffer)
    (burns : t.burn = some burn) (record : ∀ x, t.record x = if x = target then some .invalid else s.record x) :
    { s with buffer := t.buffer, burn := t.burn, recordA := t.recordA, recordB := t.recordB } =
      burning target burn buffer s := by
  have recordA := record .a
  have recordB := record .b
  cases target with
  | a => rw [sealed, burns, show t.recordA = some .invalid from recordA, show t.recordB = s.recordB from recordB]; rfl
  | b => rw [sealed, burns, show t.recordA = s.recordA from recordA, show t.recordB = some .invalid from recordB]; rfl

/-- Settles O60, by the checks of BURN IMAGE in their order, by the sealed buffer and by `startBurn`. -/
theorem burnImageStartsBurn : Obligations.BurnImageStartsBurn := by
  intro p tag span s takes wf device session
  have eq (bits : List Bool) := serveBurnImage_eq (editingRefusal_passes device session bits)
  refine ⟨fun burns => exec_dismissed takes .burnImage nofun tag fun bits => ?_, fun idle other =>
    exec_dismissed takes .burnImage nofun tag fun bits => ?_, fun idle editor generation largest => ?_⟩
  · rw [serve, eq, if_pos (by rw [begun_burn]; exact Option.isSome_iff_ne_none.mpr burns)]
  · rw [serve, eq, if_neg (by simp [idle]), if_pos (by rw [isEditor_begun]; simpa using other)]
  replace largest : largestGeneration s = generation := largest.symm
  replace eq (bits : List Bool) := ((eq bits).trans (if_neg (by simp [idle]))).trans
    (if_neg (by simp [isEditor_begun, editor]))
  simp only [largestGeneration_begun, largest] at eq
  refine ⟨fun exhausted => exec_dismissed takes .burnImage nofun tag fun bits => ?_, fun left => ?_⟩
  · rw [serve, eq]
    exact if_pos (Nat.lt_succ_of_le exhausted)
  replace eq (bits : List Bool) := (eq bits).trans (if_neg (Nat.not_lt.mpr left))
  generalize BitVec.ofNat 16 (generation + 1) = next at eq ⊢
  have sealedFacts : ∀ t : State, t.buffer = sealBuffer next s.buffer → profileGeneration t.buffer = next ∧
      imageWord t.buffer 126 = imageCrc t.buffer ∧
      ∀ k, k ≠ 1 → k ≠ 2 → k ≠ 126 → k ≠ 127 → imageRead t.buffer k = imageRead s.buffer k := by
    intro t buffer
    rw [buffer]
    exact ⟨profileGeneration_sealBuffer wf next, imageWord_crc_sealBuffer wf next,
      fun k => imageRead_sealBuffer_other wf next⟩
  cases valid : offendingOffset (sealBuffer next s.buffer) with
  | some offset =>
    have served (bits : List Bool) : serveBurnImage p [] (begun p bits s) =
        ({ begun p bits s with buffer := sealBuffer next s.buffer }, some ⟨.invalidImage, [countByte offset]⟩) := by
      rw [eq, burnSealed_offends (by rw [begun_buffer]; exact valid), begun_buffer]
    obtain ⟨t, exec, performed, own⟩ := exec_performed takes (r := .burnImage) (by simp) tag (served _)
      ((Frame.begun p _ s).withBuffer (sealBuffer next s.buffer))
    have buffer : t.buffer = sealBuffer next s.buffer := own.store.buffer
    obtain ⟨generation, crc, others⟩ := sealedFacts t buffer
    refine ⟨t, exec, generation, crc, others, fun k offends => ?_, fun passes => ?_⟩
    · obtain rfl : offset = k := Option.some.inj (valid.symm.trans (buffer ▸ offends))
      rw [buffer]
      exact performed
    · rw [buffer, profileValid, valid] at passes
      cases passes
  | none =>
    have served (bits : List Bool) : serveBurnImage p [] (begun p bits s) =
        (burning (burnTarget s.activeSlot) ⟨burnTarget s.activeSlot, next, p⟩ (sealBuffer next s.buffer) (begun p bits s),
          none) := by
      rw [← begun_activeSlot p bits s, eq, burnSealed_burns (by rw [begun_buffer]; exact valid), begun_buffer]
      rfl
    obtain ⟨t, exec, performed, own⟩ := exec_performed takes (r := .burnImage) (by simp) tag (served _)
      ((Frame.begun p _ s).burning _ _ _)
    have buffer : t.buffer = sealBuffer next s.buffer := own.store.buffer.trans (buffer_burning _ _ _ _)
    have burns : t.burn = some ⟨burnTarget s.activeSlot, next, p⟩ := own.store.burn
    have record (x : SlotId) : t.record x = if x = burnTarget s.activeSlot then some .invalid else s.record x :=
      (own.store.record x).trans ((record_burning _ _ _ _ x).trans (by rw [record_begun]))
    obtain ⟨generation, crc, others⟩ := sealedFacts t buffer
    refine ⟨t, exec, generation, crc, others, fun k offends => ?_, fun _ => ⟨burnTarget s.activeSlot, fun active => ?_,
      fun other => ?_, burns, by rw [record, if_pos rfl], fun x other => by rw [record, if_neg other], ?_⟩⟩
    · cases valid.symm.trans (buffer ▸ offends)
    · rw [active]
      rfl
    · exact burnTarget_of_not_a other
    · rw [burning_of_fields buffer burns record]
      exact performed

end Sys2Proof.Machine
